-- ==== Sys2Proof/Word.lean ====
section
/-! DEFINITION. The word types of the core (00_scope R8, R9). -/

namespace Sys2Proof

/-- A byte: 8 bits (R8). -/
abbrev Byte := BitVec 8

/-- A 32-bit register or bus data word (10_state R34). -/
abbrev Word := BitVec 32

/-- A host byte address, ADDR_W = 32 bits wide (00_scope R7). -/
abbrev Addr := BitVec 32

/-- One entry of a decode-table memory (30_encoding R104). -/
abbrev Entry := BitVec 32

/-- One host bus access to the register block: bit 40 is 1 for a write, bits 39:32 are the register offset,
bits 31:0 the write data (opcode_table.json, format host_access; 30_encoding R120). -/
abbrev Access := BitVec 41

end Sys2Proof
end

