-- ==== Sys2Proof/Config.lean ====
section
/-! DEFINITION. What the implementation fixes (00_scope R6, R7) and the free values the spec leaves open
(93_implementation_defined U1, U4, U5). -/

namespace Sys2Proof.Config

/-- ADDR_W (R7, OPEN; this model takes the value decided there). -/
def addrW : Nat := 32

/-- One more than the highest host byte address (20_memory R68). -/
def addrSpace : Nat := 2 ^ addrW

/-- K_CL, primary index width of the code-length table (R6). -/
def kCL : Nat := 7

/-- K_LL, primary index width of the literal/length table (R6). -/
def kLL : Nat := 10

/-- K_D, primary index width of the distance table (R6). -/
def kD : Nat := 8

/-- CAP_CL (R6). -/
def capCL : Nat := 128

/-- CAP_LL (R6). -/
def capLL : Nat := 1334

/-- CAP_D (R6). -/
def capD : Nat := 402

/-- OVERRUN_DETECT of this core (R7, 92 D11). The state carries the parameter, so both builds are modelled. -/
def overrunDetect : Bool := false

/-- Free value: what a read of CAUSE, OUT_LEN, CHECK_CALC, CHECK_EXP, ISIZE or IN_BITPOS returns while BUSY = 1
(46_host_commands R318, U4). Nothing constrains it. -/
opaque busyRead : Nat → Word

/-- Free value: what a host read of an output-buffer byte returns while BUSY = 1 (70 R390 item 3, U5). -/
opaque busyByte : Nat → Byte

/-- Free value: an output byte that was in flight when reset was asserted during a run (70 R380, R381, U1). -/
opaque resetByte : Nat → Byte

end Sys2Proof.Config
end

