-- ==== Sys2Proof/Machine/State.lean ====
section
/-! DEFINITION. The machine's state as plain data (10_state.md), the state after reset, the reasons a step can stop. -/

namespace Sys2Proof.Machine

/-- STATUS.RESULT (10_state R36, 60_exceptions R341). -/
inductive Result where
  | ok | checksum | invalid | outputFull
  deriving DecidableEq, Repr

/-- `fmt` and STATUS.FORMAT (10_state R30, R36). -/
inductive StreamFmt where
  | none | raw | zlib | gzip | invalid
  deriving DecidableEq, Repr

/-- The stop causes (60_exceptions R340), in the order of their codes 0x00 to 0x16. -/
inductive Cause where
  | none
  | gzipMethod | gzipUnknownFlags | gzipHeaderTruncated | gzipHeaderCrc
  | zlibCinfo | zlibFcheck | zlibFdict
  | btypeReserved | storedLenMismatch | storedLenOverrun
  | huffmanOverfull | huffmanIncomplete
  | clRepeatNoPrevious | clRepeatOverflow | clSymbolUnknown
  | invalidCodeword | invalidSymbol | distanceTooFar
  | checksumMismatch | inputOverrun | outputFull | tableOverflow
  deriving DecidableEq, Repr

/-- The sequencer state `seq` (10_state R32). STORED and STOP are folded into the step that enters them, as R32 and
46_host_commands R320 allow (log entry 3). -/
inductive Seq where
  | idle | wrap | block | clread | syms | verify
  deriving DecidableEq, Repr

/-- What the front end decodes next (42_wrapper R190). -/
inductive WrapPhase where
  /-- the wrapper, from IN_LEN and bytes 0 and 1 (R190) -/
  | sniff
  /-- the zlib header word, after WRAP_ZLIB (R192) -/
  | zlibHeader
  /-- the check the zlib header fails (R203 to R205) -/
  | zlibVerdict
  /-- the gzip flags still to be handled (R195 to R200) -/
  | gzipFlags
  deriving DecidableEq, Repr

/-- The Huffman alphabet, and so the table memory, of a lookup (41_table_builder R160). -/
inductive Alphabet where
  | cl | ll | dist
  deriving DecidableEq, Repr

/-- How far the DECODE of one symbol is (41_table_builder R178). -/
inductive Look where
  /-- the primary table is indexed next -/
  | first
  /-- a link was read: the subtable is indexed next -/
  | second (base : BitVec 24) (w : BitVec 6)
  /-- a terminal was read and its bits consumed: the decoded symbol's row is next -/
  | symbol (s : BitVec 9)
  deriving DecidableEq, Repr

/-- A move of the host, of the platform or of the engine. The list of them in State is the schedule: any interleaving
of host and engine (70_reset_and_hazards R397) is one such list (log entry 4). -/
inductive Turn where
  /-- the engine takes one step -/
  | engine
  /-- the host accesses the register block (30_encoding R120) -/
  | access (a : Access)
  /-- the host reads a byte of host memory -/
  | hostRead (a : Addr)
  /-- the host writes a byte of host memory -/
  | hostWrite (a : Addr) (b : Byte)
  /-- the reset input is asserted and released (70_reset_and_hazards R380) -/
  | reset
  deriving DecidableEq, Repr

/-- The host-visible registers, field by field (10_state R35 to R46). -/
structure HostRegs where
  irqEn : Bool
  busy : Bool
  done : Bool
  result : Result
  format : StreamFmt
  cause : Cause
  inBase : Word
  inLen : Word
  outBase : Word
  outCap : Word
  outLen : Word
  checkCalc : Word
  checkExp : Word
  isize : Word
  inBitpos : Word
  deriving DecidableEq, Repr

/-- The launch latches in_base, in_len, out_base, out_cap (46_host_commands R311). -/
structure Launch where
  inBase : Word
  inLen : Word
  outBase : Word
  outCap : Word
  deriving DecidableEq, Repr

/-- The bit reader, each register at the width 10_state R22 gives it (ADDR_W is 32); `cur` is unbounded there. -/
structure Reader where
  acc : BitVec 32
  avail : BitVec 6
  cur : Nat
  start : BitVec 32
  endOff : BitVec 32
  deriving DecidableEq, Repr

/-- Block latches, dynamic-header registers and code-length arrays (10_state R24 to R26). -/
structure BlockRegs where
  bfinal : Bool
  btype : BitVec 2
  hlit : BitVec 9
  hdist : BitVec 6
  hclen : BitVec 5
  clLen : Vector (BitVec 3) 19
  lens : Vector (BitVec 4) 320
  llLen : Vector (BitVec 4) 288
  dLen : Vector (BitVec 4) 32
  deriving DecidableEq, Repr

/-- The decode-table memories T_CL, T_LL, T_D (10_state R27). -/
structure Tables where
  cl : Vector Entry 128
  ll : Vector Entry 1334
  d : Vector Entry 402
  deriving DecidableEq, Repr

/-- Table-builder scratch (10_state R28): count[1..15] at index 0..14, rc, next_free. -/
structure Scratch where
  count : Vector (BitVec 9) 15
  rc : BitVec 15
  nextFree : BitVec 11
  deriving DecidableEq, Repr

/-- Checksum accumulators (10_state R29). -/
structure Sums where
  crc : BitVec 32
  s1 : BitVec 16
  s2 : BitVec 16
  deriving DecidableEq, Repr

/-- Front-end results (10_state R30). -/
structure FrontEnd where
  fmt : StreamFmt
  expCheck : Word
  isize : Word
  deriving DecidableEq, Repr

/-- The control state: `seq` and the pseudocode's position and local variables within it. -/
structure Control where
  seq : Seq
  wphase : WrapPhase
  /-- `p` of 42_wrapper R196 to R201 -/
  hdrPos : Nat
  /-- the gzip FLG bits still to be handled (42_wrapper R195 to R200) -/
  gzLeft : Byte
  alpha : Alphabet
  look : Look
  /-- `n` of CL_LOOP (43_block_engine R235) -/
  n : Nat
  /-- `length` of SYMBOLS (44_symbol_decode R250) -/
  length : Nat
  deriving DecidableEq, Repr

/-- The whole machine. `turns`, `busData` and `free` are the model's own (log entries 4 to 6), `detect` holds the build
parameter OVERRUN_DETECT (40_bitreader R144), which nothing writes. -/
structure State where
  regs : HostRegs
  launch : Launch
  ctl : Control
  rd : Reader
  /-- `out_len` (10_state R23) -/
  outLen : BitVec 32
  blk : BlockRegs
  tab : Tables
  scr : Scratch
  sums : Sums
  fe : FrontEnd
  /-- host memory: (address, byte) pairs in canonical form (Machine/Ops.lean, memWf) -/
  mem : List Host.Cell
  /-- the coming moves; when it is empty the engine moves -/
  turns : List Turn
  /-- the data of the host's last read (46_host_commands R310) -/
  busData : Word
  /-- how many free values have been drawn -/
  free : Nat
  detect : Bool
  deriving DecidableEq, Repr

/-- No step faults: an error stop is an answer of the run (92_eei_decisions D37), and every engine access is to an
address of the address space. So there is no fault to name. -/
inductive Fault where
  deriving DecidableEq, Repr

/-- Why a step has no move. -/
inductive Refusal where
  /-- No meaning yet. Raised by no arm of this model. Safe. -/
  | notModelled (mnemonic : String)
  /-- START of a launch whose buffers wrap the address space or overlap: the spec gives it no move (20_memory R68, R69,
  R79, 93_implementation_defined U6). Raised by START. Unsafe for hosts that launch such buffers (the spec: toward proving). -/
  | launchBuffers
  /-- A host write into the input or output buffer during a run: no such host move (70_reset_and_hazards R390, U7).
  Raised by the step on a hostWrite turn. Unsafe for hosts that break the duty (the spec: toward proving). -/
  | hostDuty
  /-- A register access the core does not decode or defines no behaviour for (10_state R47, 20_memory R65, U9). Raised by
  the step on an access turn. Unsafe for hosts that make one (the spec: toward proving). -/
  | badAccess
  deriving DecidableEq, Repr

/-- Every host-visible register at its reset value (10_state R51). -/
def HostRegs.reset : HostRegs where
  irqEn := false
  busy := false
  done := false
  result := .ok
  format := .none
  cause := .none
  inBase := 0
  inLen := 0
  outBase := 0
  outCap := 0
  outLen := 0
  checkCalc := 0
  checkExp := 0
  isize := 0
  inBitpos := 0

/-- The machine right after reset (10_state R51, 70_reset_and_hazards R380). The spec gives the host-visible registers,
`seq` and irq; every other value is DESIGN CHOICE (log entries 1, 2, 4 to 6), unsafe, and none is read before the run
writes it. -/
def State.reset : State where
  regs := .reset
  launch := { inBase := 0, inLen := 0, outBase := 0, outCap := 0 }
  ctl := { seq := .idle, wphase := .sniff, hdrPos := 0, gzLeft := 0, alpha := .ll, look := .first, n := 0, length := 0 }
  rd := { acc := 0, avail := 0, cur := 0, start := 0, endOff := 0 }
  outLen := 0
  blk := { bfinal := false, btype := 0, hlit := 0, hdist := 0, hclen := 0,
           clLen := .replicate 19 0, lens := .replicate 320 0, llLen := .replicate 288 0, dLen := .replicate 32 0 }
  tab := { cl := .replicate 128 0, ll := .replicate 1334 0, d := .replicate 402 0 }
  scr := { count := .replicate 15 0, rc := 0, nextFree := 0 }
  sums := { crc := 0, s1 := 0, s2 := 0 }
  fe := { fmt := .none, expCheck := 0, isize := 0 }
  mem := []
  turns := []
  busData := 0
  free := 0
  detect := Config.overrunDetect

end Sys2Proof.Machine
end

