-- ==== Sys2Proof/Machine/Flags.lean ====
section
/-! DEFINITION. The flag-like values: the core has no condition codes (10_state R33). The register words the host reads,
irq, the cause codes and the RESULT mapping. -/

namespace Sys2Proof.Machine

/-- RESULT's encoding (10_state R36). -/
def resultCode : Result → BitVec 2
  | .ok => 0
  | .checksum => 1
  | .invalid => 2
  | .outputFull => 3

/-- FORMAT's encoding (10_state R36). -/
def formatCode : StreamFmt → BitVec 3
  | .none => 0
  | .raw => 1
  | .zlib => 2
  | .gzip => 3
  | .invalid => 4

/-- CAUSE.CODE (60_exceptions R340). -/
def causeCode : Cause → BitVec 8
  | .none => 0x00
  | .gzipMethod => 0x01
  | .gzipUnknownFlags => 0x02
  | .gzipHeaderTruncated => 0x03
  | .gzipHeaderCrc => 0x04
  | .zlibCinfo => 0x05
  | .zlibFcheck => 0x06
  | .zlibFdict => 0x07
  | .btypeReserved => 0x08
  | .storedLenMismatch => 0x09
  | .storedLenOverrun => 0x0A
  | .huffmanOverfull => 0x0B
  | .huffmanIncomplete => 0x0C
  | .clRepeatNoPrevious => 0x0D
  | .clRepeatOverflow => 0x0E
  | .clSymbolUnknown => 0x0F
  | .invalidCodeword => 0x10
  | .invalidSymbol => 0x11
  | .distanceTooFar => 0x12
  | .checksumMismatch => 0x13
  | .inputOverrun => 0x14
  | .outputFull => 0x15
  | .tableOverflow => 0x16

/-- The RESULT of a cause (60_exceptions R341). -/
def resultOf : Cause → Result
  | .none => .ok
  | .checksumMismatch => .checksum
  | .outputFull => .outputFull
  | _ => .invalid

/-- The front-end causes 0x01 to 0x07 (60_exceptions R342). -/
def isFrontEnd (c : Cause) : Bool := decide (1 ≤ (causeCode c).toNat) && decide ((causeCode c).toNat ≤ 7)

/-- CTRL as read: IRQ_EN in bit 1, START reads 0 (10_state R35). -/
def ctrlWord (r : HostRegs) : Word := BitVec.ofNat 32 (2 * r.irqEn.toNat)

/-- STATUS as read (10_state R36). -/
def statusWord (r : HostRegs) : Word :=
  BitVec.ofNat 32 (r.busy.toNat + 2 * r.done.toNat + 4 * (resultCode r.result).toNat + 16 * (formatCode r.format).toNat)

/-- CAUSE as read (10_state R37). -/
def causeWord (r : HostRegs) : Word := (causeCode r.cause).setWidth 32

/-- The interrupt output: DONE and IRQ_EN (10_state R52, 60_exceptions R353). -/
def irq (s : State) : Bool := s.regs.done && s.regs.irqEn

end Sys2Proof.Machine
end

