-- ==== Sys2Proof/Machine/Operands.lean ====
section
/-! DEFINITION. The operand forms and the read-only memories: PERM, the length and distance tables, the packed values,
the fixed length sets, CRC_TABLE (10_state R31, 30_encoding R96 to R111, 45_checksums R290), and multi-byte values. -/

namespace Sys2Proof.Machine

/-- LE16 (00_scope R11): lo is the byte at the lower offset. -/
def le16 (lo hi : Byte) : Nat := lo.toNat + 256 * hi.toNat

/-- LE32 (00_scope R11), bytes in offset order. -/
def le32 (b0 b1 b2 b3 : Byte) : Word := b3 ++ b2 ++ b1 ++ b0

/-- BE32 (00_scope R11), bytes in offset order. -/
def be32 (b0 b1 b2 b3 : Byte) : Word := b0 ++ b1 ++ b2 ++ b3

/-- The invalid-codeword sentinel (R105). -/
def sentinel : Entry := 0x000000FF#32

/-- payload = e[31:8] (R104). -/
def entryPayload (e : Entry) : BitVec 24 := e.extractLsb' 8 24

/-- The subtable flag L = e[7] (R104). -/
def entryL (e : Entry) : Bool := e.getLsbD 7

/-- The literal flag T = e[6] (R104). -/
def entryT (e : Entry) : Bool := e.getLsbD 6

/-- nbits = e[5:0] (R104). -/
def entryNbits (e : Entry) : Nat := (e.extractLsb' 0 6).toNat

/-- base = entry[31:16], the upper 16 bits of a payload (R106). -/
def payloadBase (p : BitVec 24) : Nat := (p.extractLsb' 8 16).toNat

/-- extra = entry[15:8], the low byte of a payload (R106). -/
def payloadExtra (p : BitVec 24) : Nat := (p.extractLsb' 0 8).toNat

/-- IS_LINK (41_table_builder R173). -/
def isLink (e : Entry) : Bool := e != sentinel && entryL e

/-- The code-length order (R96). -/
def perm : List Nat := [16, 17, 18, 0, 8, 7, 9, 6, 10, 5, 11, 4, 12, 3, 13, 2, 14, 1, 15]

/-- (base, extra bits) of the length symbols 257 to 285 (R99). -/
def lengthTable : List (Nat × Nat) :=
  [(3, 0), (4, 0), (5, 0), (6, 0), (7, 0), (8, 0), (9, 0), (10, 0),
   (11, 1), (13, 1), (15, 1), (17, 1), (19, 2), (23, 2), (27, 2), (31, 2),
   (35, 3), (43, 3), (51, 3), (59, 3), (67, 4), (83, 4), (99, 4), (115, 4),
   (131, 5), (163, 5), (195, 5), (227, 5), (258, 0)]

/-- (base, extra bits) of the distance symbols 0 to 29 (R100). -/
def distTable : List (Nat × Nat) :=
  [(1, 0), (2, 0), (3, 0), (4, 0), (5, 1), (7, 1), (9, 2), (13, 2), (17, 3), (25, 3),
   (33, 4), (49, 4), (65, 5), (97, 5), (129, 6), (193, 6), (257, 7), (385, 7), (513, 8), (769, 8),
   (1025, 9), (1537, 9), (2049, 10), (3073, 10), (4097, 11), (6145, 11), (8193, 12), (12289, 12), (16385, 13), (24577, 13)]

/-- LBASE[s] (R99). -/
def lbase (s : Nat) : Nat := ((lengthTable[s - 257]?).getD (0, 0)).1

/-- LEXTRA[s] (R99). -/
def lextra (s : Nat) : Nat := ((lengthTable[s - 257]?).getD (0, 0)).2

/-- DBASE[d] (R100). -/
def dbase (d : Nat) : Nat := ((distTable[d]?).getD (0, 0)).1

/-- DEXTRA[d] (R100). -/
def dextra (d : Nat) : Nat := ((distTable[d]?).getD (0, 0)).2

/-- BADSYM, the packed value of a symbol with no meaning (R106, R107). -/
def badsym : Entry := 0xFFFF0000#32

/-- A packed base and extra count (R106, R107). -/
def packBase (base extra : Nat) : Entry := BitVec.ofNat 32 (base * 65536 + extra * 256)

/-- PV_LL[s] (R106). -/
def pvLL (s : Nat) : Entry :=
  if s < 256 then BitVec.ofNat 32 (s * 256 + 0x40)
  else if s = 256 then 0#32
  else if s < 286 then packBase (lbase s) (lextra s)
  else badsym

/-- PV_D[d] (R107). -/
def pvD (d : Nat) : Entry := if d < 30 then packBase (dbase d) (dextra d) else badsym

/-- PV_CL[s] (R108). -/
def pvCL (s : Nat) : Entry := BitVec.ofNat 32 (s * 256)

/-- The fixed literal/length codeword length of symbol s (R111). -/
def fixedLL (s : Nat) : BitVec 4 := if s < 144 then 8 else if s < 256 then 9 else if s < 280 then 7 else 8

/-- The fixed distance codeword length (R111). -/
def fixedD : BitVec 4 := 5

/-- One shift-and-conditional-XOR step of the CRC table's construction (45_checksums R290). -/
def crcBit (c : Word) : Word := if c.getLsbD 0 then (c >>> 1) ^^^ 0xEDB88320#32 else c >>> 1

/-- CRC_TABLE[n] (45_checksums R290). -/
def crcTable (n : Byte) : Word :=
  crcBit (crcBit (crcBit (crcBit (crcBit (crcBit (crcBit (crcBit (n.setWidth 32))))))))

/-- One byte of the CRC-32 update (45_checksums R291). -/
def crcByte (c : Word) (b : Byte) : Word := crcTable (c.setWidth 8 ^^^ b) ^^^ (c >>> 8)

/-- The CRC-32 register after the k bytes f i, f (i+1), … (45_checksums R291). -/
def crcFold (f : Nat → Byte) : Nat → Nat → Word → Word
  | 0, _, c => c
  | k + 1, i, c => crcFold f k (i + 1) (crcByte c (f i))

/-- The running CRC-32 register over the first m bytes of f, initial complement in (45_checksums R291). -/
def crcRegister (f : Nat → Byte) (m : Nat) : Word := crcFold f m 0 0xFFFFFFFF#32

/-- CRC32 of the first m bytes of f (45_checksums R291). -/
def crc32 (f : Nat → Byte) (m : Nat) : Word := crcRegister f m ^^^ 0xFFFFFFFF#32

/-- The Adler-32 pair (s1, s2) after the k bytes f i, f (i+1), … (45_checksums R292). -/
def adlerFold (f : Nat → Byte) : Nat → Nat → Nat → Nat → Nat × Nat
  | 0, _, s1, s2 => (s1, s2)
  | k + 1, i, s1, s2 =>
    let t1 := (s1 + (f i).toNat) % 65521
    adlerFold f k (i + 1) t1 ((s2 + t1) % 65521)

/-- ADLER32 from its pair: s1 | (s2 << 16) (45_checksums R292). -/
def adlerValue (p : Nat × Nat) : Word := BitVec.ofNat 32 (p.1 + p.2 * 65536)

/-- ADLER32 of the first m bytes of f (45_checksums R292). -/
def adler32 (f : Nat → Byte) (m : Nat) : Word := adlerValue (adlerFold f m 0 1 0)

/-- The row of a base and extra count in a table: its index, if it has one. -/
def rowOf (t : List (Nat × Nat)) (base extra : Nat) : Option Nat := t.findIdx? (· == (base, extra))

end Sys2Proof.Machine
end

