-- ==== Sys2Proof/Machine/Ops.lean ====
section
/-! DEFINITION. The named operations: host memory, the bit reader, the stop (the core's one exception), output writes,
the copy unit and the sequencer's moves. -/

namespace Sys2Proof.Machine

/-! ## Updates of one part of the state -/

def State.setRegs (s : State) (x : HostRegs) : State := { s with regs := x }
def State.setLaunch (s : State) (x : Launch) : State := { s with launch := x }
def State.setCtl (s : State) (x : Control) : State := { s with ctl := x }
def State.setRd (s : State) (x : Reader) : State := { s with rd := x }
def State.setOutLen (s : State) (x : BitVec 32) : State := { s with outLen := x }
def State.setBlk (s : State) (x : BlockRegs) : State := { s with blk := x }
def State.setTab (s : State) (x : Tables) : State := { s with tab := x }
def State.setScr (s : State) (x : Scratch) : State := { s with scr := x }
def State.setSums (s : State) (x : Sums) : State := { s with sums := x }
def State.setFe (s : State) (x : FrontEnd) : State := { s with fe := x }
def State.setMem (s : State) (x : List Host.Cell) : State := { s with mem := x }
def State.setTurns (s : State) (x : List Turn) : State := { s with turns := x }
def State.setBusData (s : State) (x : Word) : State := { s with busData := x }
def State.setFree (s : State) (x : Nat) : State := { s with free := x }

/-! ## Host memory (20_memory) -/

/-- What an address nothing has written reads as (DESIGN CHOICE, log entry 1). -/
def unlisted : Byte := 0

/-- MemRead(addr, 1) (00_scope R11). -/
def memRead : List Host.Cell → Nat → Byte
  | [], _ => unlisted
  | (k, b) :: r, a => if k = a then b else memRead r a

/-- MemWrite(addr, 1, v) (00_scope R11), keeping the canonical form. -/
def memWrite : List Host.Cell → Nat → Byte → List Host.Cell
  | [], a, b => if b = unlisted then [] else [(a, b)]
  | (k, c) :: r, a, b =>
    if k = a then (if b = unlisted then r else (a, b) :: r)
    else if a < k then (if b = unlisted then (k, c) :: r else (a, b) :: (k, c) :: r)
    else (k, c) :: memWrite r a b

/-- The canonical form from address lo on: addresses rise strictly, lie in the address space, and no entry equals what an
unlisted address reads as. -/
def memWfFrom : Nat → List Host.Cell → Bool
  | _, [] => true
  | lo, (k, b) :: r => decide (lo ≤ k) && decide (k < Config.addrSpace) && (b != unlisted) && memWfFrom (k + 1) r

/-- The canonical form of host memory. -/
def memWf (m : List Host.Cell) : Bool := memWfFrom 0 m

/-- The host address of byte i of the buffer at base. A legal launch's buffers do not wrap (20_memory R68, R69), so the
reduction is the identity in a run; 32 address wires carry no more (log entry 11). -/
def busAddr (base : Word) (i : Nat) : Nat := (base.toNat + i) % Config.addrSpace

/-- B(i), input byte i (00_scope R11). -/
def inByte (s : State) (i : Nat) : Byte := memRead s.mem (busAddr s.launch.inBase i)

/-- Output byte j (20_memory R69). -/
def outByte (s : State) (j : Nat) : Byte := memRead s.mem (busAddr s.launch.outBase j)

/-- n = IN_LEN as latched at START (42_wrapper, introduction). -/
def inLen (s : State) : Nat := s.launch.inLen.toNat

/-- OUT_CAP as latched at START. -/
def outCap (s : State) : Nat := s.launch.outCap.toNat

/-- Writes the next output byte and counts it (44_symbol_decode R253, R264, 43_block_engine R228). -/
def putByte (b : Byte) (s : State) : State :=
  (s.setMem (memWrite s.mem (busAddr s.launch.outBase s.outLen.toNat) b)).setOutLen (s.outLen + 1)

/-- Address a lies in the buffer of len bytes at base. -/
def inBuffer (base len a : Word) : Bool := decide (base.toNat ≤ a.toNat) && decide (a.toNat < base.toNat + len.toNat)

/-! ## What an operation of the engine gives -/

/-- An operation's value and state, or the cause it raises with the state at the raise (00_scope R12). -/
inductive Res (α : Type) where
  | ok (a : α) (s : State)
  | raised (c : Cause) (s : State)
  deriving Repr

/-- Sequencing: nothing continues after a raise (00_scope R12, 60_exceptions R349). -/
def Res.bind {α β : Type} (r : Res α) (f : α → State → Res β) : Res β :=
  match r with
  | .ok a s => f a s
  | .raised c s => .raised c s

/-! ## The bit reader (40_bitreader) -/

/-- pos = 8 * cur - avail (R148). -/
def pos (s : State) : Nat := 8 * s.rd.cur - s.rd.avail.toNat

/-- BYTE(i): a phantom zero at or past the logical end (R140). -/
def byteAt (s : State) (i : Nat) : Byte := if i < s.rd.endOff.toNat then inByte s i else 0

/-- PULL (R141). -/
def pull (s : State) : State :=
  s.setRd { s.rd with
    acc := s.rd.acc ||| ((byteAt s s.rd.cur).setWidth 32 <<< s.rd.avail.toNat)
    avail := s.rd.avail + 8
    cur := s.rd.cur + 1 }

/-- PEEK's pulls: while avail < n do PULL. For n up to 16 there are at most two (R142). -/
def fill (n : Nat) (s : State) : State :=
  if s.rd.avail.toNat < n then
    let t := pull s
    if t.rd.avail.toNat < n then pull t else t
  else s

/-- acc[n-1:0]. -/
def low (n : Nat) (s : State) : Nat := s.rd.acc.toNat % 2 ^ n

/-- OVERRUN_CHECK's condition: a consumed bit lies at or past bit 8 * end (R144). -/
def overrun (s : State) : Bool := s.detect && decide (8 * s.rd.endOff.toNat < pos s)

/-- DROP(n) without its check (R143). -/
def shiftOut (n : Nat) (s : State) : State :=
  s.setRd { s.rd with acc := s.rd.acc >>> n, avail := BitVec.ofNat 6 (s.rd.avail.toNat - n) }

/-- DROP(n) (R143, R144). -/
def drop (n : Nat) (s : State) : Res Unit :=
  if overrun (shiftOut n s) then .raised .inputOverrun (shiftOut n s) else .ok () (shiftOut n s)

/-- GET(n) (R145). -/
def get (n : Nat) (s : State) : Res Nat :=
  if n = 0 then .ok 0 s
  else (drop n (fill n s)).bind fun _ t => .ok (low n (fill n s)) t

/-- ALIGN (R146). -/
def align (s : State) : State :=
  s.setRd { s.rd with cur := s.rd.cur - s.rd.avail.toNat / 8, acc := 0, avail := 0 }

/-- READ_LE_U16 (R147). -/
def readLeU16 (s : State) : Res Nat :=
  let v := le16 (byteAt s s.rd.cur) (byteAt s (s.rd.cur + 1))
  let t := s.setRd { s.rd with cur := s.rd.cur + 2 }
  if t.detect && decide (t.rd.endOff.toNat < t.rd.cur) then .raised .inputOverrun t else .ok v t

/-- The reader's start state, with the DEFLATE region [start, stop) (R150). -/
def startReader (start stop : Nat) (s : State) : State :=
  s.setRd { acc := 0, avail := 0, cur := start, start := BitVec.ofNat _ start, endOff := BitVec.ofNat _ stop }

/-! ## The stop: the core's one exception (46_host_commands R321, 60_exceptions R352) -/

/-- IN_BITPOS at a stop: pos mod 2^32, or 0 after a front-end failure (10_state R46). -/
def reportPos (s : State) : Word := if s.fe.fmt = .invalid then 0 else BitVec.ofNat 32 (pos s)

/-- STOP(result, cause): the only update of the result registers, all in one event (46_host_commands R321). `computed` is the
checksum if the run reached VERIFY, else 0. -/
def stop (r : Result) (c : Cause) (computed : Word) (s : State) : State :=
  (s.setRegs { s.regs with
    result := r
    cause := c
    format := s.fe.fmt
    outLen := s.outLen
    checkCalc := computed
    checkExp := s.fe.expCheck
    isize := s.fe.isize
    inBitpos := reportPos s
    busy := false
    done := true }).setCtl { s.ctl with seq := .idle }

/-- fmt at a raise: a front-end cause makes it INVALID (60_exceptions R342, R352). -/
def raiseFmt (c : Cause) (s : State) : State :=
  if isFrontEnd c then s.setFe { s.fe with fmt := .invalid } else s

/-- raise C, for every cause but CHECKSUM_MISMATCH, which reports its checksum too (60_exceptions R352). There is no
handler, saved state or return (R348, R351): the engine goes idle and the host starts the next run. -/
def raiseStop (c : Cause) (s : State) : State := stop (resultOf c) c 0 (raiseFmt c s)

/-- An engine operation as a step: a raise takes the stop, which is a next state. -/
def Res.finish {α : Type} (r : Res α) : Host.Outcome State Fault Refusal :=
  match r with
  | .ok _ s => .next s
  | .raised c s => .next (raiseStop c s)

/-! ## The sequencer's moves (46_host_commands R320) -/

/-- The next symbol of alphabet a is looked up from its primary table. -/
def lookNext (a : Alphabet) (s : State) : State := s.setCtl { s.ctl with alpha := a, look := .first }

/-- The symbol sym has been decoded: its row is next. -/
def lookSymbol (sym : Nat) (s : State) : State := s.setCtl { s.ctl with look := .symbol (BitVec.ofNat 9 sym) }

/-- The end of a block: another block, or VERIFY after the final one (43_block_engine R220, R245). -/
def endBlock (s : State) : State := s.setCtl { s.ctl with seq := if s.blk.bfinal then .verify else .block }

/-- Enters the symbol loop (R320: to SYMS). -/
def enterSyms (s : State) : State := lookNext .ll (s.setCtl { s.ctl with seq := .syms })

/-! ## Output (44_symbol_decode) -/

/-- EMIT(b) (R253). -/
def emit (b : Byte) (s : State) : Res Unit :=
  if outCap s < s.outLen.toNat + 1 then .raised .outputFull s else .ok () (putByte b s)

/-- COPY(length, dist), byte by byte forward (R264). -/
def copy : Nat → Nat → State → State
  | 0, _, s => s
  | k + 1, d, s => copy k d (putByte (outByte s (s.outLen.toNat - d)) s)

/-- Counts a payload byte read straight from the cursor (43_block_engine R228). -/
def advanceCur (s : State) : State := s.setRd { s.rd with cur := s.rd.cur + 1 }

/-- The stored payload copy (43_block_engine R228). -/
def storedCopy : Nat → State → State
  | 0, s => s
  | k + 1, s => storedCopy k (advanceCur (putByte (inByte s s.rd.cur) s))

/-- R256, R257: the length of a match, then its distance symbol is next (R258). -/
def matchLength (base extra : Nat) (s : State) : Res Unit :=
  (get extra s).bind fun v t => .ok () (lookNext .dist (t.setCtl { t.ctl with length := base + v }))

/-- R259, R261, R262, R264: the distance, its checks and the copy; then the next literal/length symbol. -/
def matchDistance (base extra : Nat) (s : State) : Res Unit :=
  (get extra s).bind fun v t =>
    if t.outLen.toNat < base + v then .raised .distanceTooFar t
    else if outCap t < t.outLen.toNat + t.ctl.length then .raised .outputFull t
    else .ok () (lookNext .ll (copy t.ctl.length (base + v) t))

/-! ## The front end's shared operations (42_wrapper) -/

/-- A front end that succeeds: its results, the reader's start state, and the first block header next. -/
def acceptWrapper (f : StreamFmt) (start stop : Nat) (expCheck isize : Word) (s : State) : State :=
  let t := startReader start stop (s.setFe { fmt := f, expCheck := expCheck, isize := isize })
  t.setCtl { t.ctl with seq := .block }

/-- R201: the gzip result. -/
def gzipResult (p : Nat) (s : State) : State :=
  let n := inLen s
  acceptWrapper .gzip p (n - 8)
    (le32 (inByte s (n - 8)) (inByte s (n - 7)) (inByte s (n - 6)) (inByte s (n - 5)))
    (le32 (inByte s (n - 4)) (inByte s (n - 3)) (inByte s (n - 2)) (inByte s (n - 1))) s

/-- R207: the zlib result. -/
def zlibResult (s : State) : State :=
  let n := inLen s
  acceptWrapper .zlib 2 (n - 4) (be32 (inByte s (n - 4)) (inByte s (n - 3)) (inByte s (n - 2)) (inByte s (n - 1))) 0 s

/-- R208: the raw result. -/
def rawResult (s : State) : State := acceptWrapper .raw 0 (inLen s) 0 0 s

/-- Goes on with header offset p and the gzip flags left: the next flag, or the result when none is left (R117, R201). -/
def gzipNext (left : Byte) (p : Nat) (s : State) : State :=
  if left = 0 then gzipResult p s
  else s.setCtl { s.ctl with wphase := .gzipFlags, gzLeft := left, hdrPos := p }

/-- lim, the first trailer offset, which no gzip header field may reach (R196). -/
def gzipLim (s : State) : Nat := inLen s - 8

/-- The scan of a NUL-terminated field over at most k bytes from p: the offset after its 0 byte (R198). -/
def skipNul (s : State) : Nat → Nat → Option Nat
  | 0, _ => none
  | k + 1, p => if inByte s p = 0 then some (p + 1) else skipNul s k (p + 1)

/-- A NUL-terminated field at p that must end before the trailer (R198, R199). -/
def skipString (left : Byte) (s : State) : Res Unit :=
  match skipNul s (gzipLim s - s.ctl.hdrPos) s.ctl.hdrPos with
  | some p => .ok () (gzipNext left p s)
  | none => .raised .gzipHeaderTruncated s

/-! ## VERIFY (45_checksums R295) -/

/-- The Adler-32 pair over the output (R292, R294). -/
def outAdler (s : State) : Nat × Nat := adlerFold (outByte s) s.outLen.toNat 0 1 0

/-- VERIFY: the checksum over output bytes 0 .. out_len - 1, the comparison and the stop (R294 to R297). -/
def verify (s : State) : State :=
  match s.fe.fmt with
  | .zlib =>
    let p := outAdler s
    let t := s.setSums { s.sums with s1 := BitVec.ofNat 16 p.1, s2 := BitVec.ofNat 16 p.2 }
    if adlerValue p = s.fe.expCheck then stop .ok .none (adlerValue p) t
    else stop .checksum .checksumMismatch (adlerValue p) t
  | .gzip =>
    let c := crcRegister (outByte s) s.outLen.toNat
    let t := s.setSums { s.sums with crc := c }
    if c ^^^ 0xFFFFFFFF#32 = s.fe.expCheck then stop .ok .none (c ^^^ 0xFFFFFFFF#32) t
    else stop .checksum .checksumMismatch (c ^^^ 0xFFFFFFFF#32) t
  | _ => stop .ok .none 0 s

/-! ## Host commands (46_host_commands) -/

/-- The launch premises: neither buffer passes the top of the address space, and they do not overlap (20_memory R68, R69,
R79). -/
def launchOk (r : HostRegs) : Bool :=
  decide (r.inBase.toNat + r.inLen.toNat ≤ Config.addrSpace) &&
  decide (r.outBase.toNat + r.outCap.toNat ≤ Config.addrSpace) &&
  (decide (r.inLen.toNat = 0) || decide (r.outCap.toNat = 0) ||
   decide (r.inBase.toNat + r.inLen.toNat ≤ r.outBase.toNat) || decide (r.outBase.toNat + r.outCap.toNat ≤ r.inBase.toNat))

/-- The IRQ_EN store of a CTRL write (R313). -/
def setIrqEn (e : Bool) (s : State) : State := s.setRegs { s.regs with irqEn := e }

/-- START's latching and clearing (R311). -/
def launchRun (s : State) : State :=
  let r := s.regs
  let t := s.setLaunch { inBase := r.inBase, inLen := r.inLen, outBase := r.outBase, outCap := r.outCap }
  let u := t.setRegs { r with
    done := false, result := .ok, format := .none, cause := .none, outLen := 0, checkCalc := 0, checkExp := 0,
    isize := 0, inBitpos := 0, busy := true }
  let v := (u.setOutLen 0).setFe { fmt := .none, expCheck := 0, isize := 0 }
  v.setCtl { v.ctl with seq := .wrap, wphase := .sniff }

/-- A configuration write: RW-idle (R315, R316). -/
def writeConfig (r : HostRegs) (s : State) : State := if s.regs.busy then s else s.setRegs r

/-- An exact register read (R310). -/
def readExact (v : Word) (s : State) : State := s.setBusData v

/-- A read of a result register: exact while idle, any value while BUSY = 1 (R318, U4). -/
def readResult (v : Word) (s : State) : State :=
  if s.regs.busy then (s.setBusData (Config.busyRead s.free)).setFree (s.free + 1) else s.setBusData v

/-- A host read of memory: an output byte during a run is any value (70 R390, U5); from the stop on, before the host has observed
DONE too, it is exact (log entry 17). -/
def hostReadMem (a : Addr) (s : State) : State :=
  if s.regs.busy && inBuffer s.launch.outBase s.launch.outCap a then
    (s.setBusData ((Config.busyByte s.free).setWidth 32)).setFree (s.free + 1)
  else s.setBusData ((memRead s.mem a.toNat).setWidth 32)

/-- A host write of memory: during a run neither buffer may be written (70 R390); from the stop on, before the host has observed
DONE too, any byte may be (log entry 17). -/
def hostWriteMem (a : Addr) (b : Byte) (s : State) : Host.Outcome State Fault Refusal :=
  if s.regs.busy && (inBuffer s.launch.inBase s.launch.inLen a || inBuffer s.launch.outBase s.launch.outCap a) then
    .refused .hostDuty
  else .next (s.setMem (memWrite s.mem a.toNat b))

end Sys2Proof.Machine
end

