-- ==== Sys2Proof/Machine/Build.lean ====
section
/-! DEFINITION. BUILD, the canonical table construction (41_table_builder R160 to R177). -/

namespace Sys2Proof.Machine

/-- A symbol of the code with its length and reversed codeword (R168, R170). -/
structure Code where
  len : Nat
  sym : Nat
  code : Nat
  deriving DecidableEq, Repr

/-- count[l] (R161). -/
def countOf (lens : List Nat) (l : Nat) : Nat := lens.count l

/-- nz = count[1] + … + count[15] (R161). -/
def nzOf (lens : List Nat) : Nat := ((List.range' 1 15).map (countOf lens)).sum

/-- L, the maximum length present (R161). -/
def maxLen (lens : List Nat) : Nat := lens.foldl max 0

/-- S, the code-space sum (R163). -/
def spaceSum (lens : List Nat) : Nat :=
  ((List.range' 1 (maxLen lens)).map fun l => countOf lens l * 2 ^ (maxLen lens - l)).sum

/-- The one-symbol exception: exactly one symbol is present and its length is 1 (R165). -/
def isSingle (lens : List Nat) : Bool := decide (nzOf lens = 1) && decide (maxLen lens = 1)

/-- The verdict on a length set, in the order of the checks: empty, overfull, incomplete (R162, R164, R165). -/
def verdict (lens : List Nat) : Option Cause :=
  if nzOf lens = 0 then some .huffmanIncomplete
  else if 2 ^ maxLen lens < spaceSum lens then some .huffmanOverfull
  else if spaceSum lens < 2 ^ maxLen lens && !isSingle lens then some .huffmanIncomplete
  else none

/-- The symbol order: ascending by (length, symbol), absent symbols skipped (R168). -/
def symOrder (lens : List Nat) : List (Nat × Nat) :=
  (List.range' 1 15).flatMap fun l => lens.zipIdx.filter fun p => p.1 == l

/-- The highest zero bit of c below bit j (R169). -/
def topZero (c : Nat) : Nat → Option Nat
  | 0 => none
  | j + 1 => if c.testBit j then topZero c j else some j

/-- NEXT_REV(c, L): clears the bits above the highest zero bit and sets that bit (R169). It is never applied to all ones. -/
def nextRev (c l : Nat) : Nat :=
  match topZero c l with
  | some b => c % 2 ^ b + 2 ^ b
  | none => c

/-- Codeword assignment along the order, the first symbol getting c (R170). -/
def assignFrom (c : Nat) : List (Nat × Nat) → List Code
  | [] => []
  | (l, s) :: r => { len := l, sym := s, code := c } :: assignFrom (nextRev c l) r

/-- The codewords of a length set (R170). -/
def codesOf (lens : List Nat) : List Code := assignFrom 0 (symOrder lens)

/-- Writes e at i, i + stride, …, k times. -/
def fillStride {cap : Nat} (t : Vector Entry cap) (i stride : Nat) (e : Entry) : Nat → Vector Entry cap
  | 0 => t
  | k + 1 => fillStride (t.setIfInBounds i e) (i + stride) stride e k

/-- T[i]; an index outside the table is never read (R180). -/
def entryAt {cap : Nat} (t : Vector Entry cap) (i : Nat) : Entry := (t[i]?).getD sentinel

/-- A terminal entry: PV | nbits (R172, R176). -/
def terminalEntry (pv : Entry) (nbits : Nat) : Entry := pv ||| BitVec.ofNat 32 nbits

/-- A link entry: (base << 8) | 0x80 | w (R174). -/
def linkEntry (base w : Nat) : Entry := BitVec.ofNat 32 (base * 256 + 0x80 + w)

/-- w of prefix p: the longest codeword with that K-bit prefix, less K (R173). -/
def subWidth (k : Nat) (all : List Code) (p : Nat) : Nat :=
  (((all.filter fun c => decide (k < c.len) && decide (c.code % 2 ^ k = p)).map Code.len).foldl max 0) - k

/-- Fills the subtable of the link at the codeword's prefix (R176). -/
def fillSub {cap : Nat} (k : Nat) (c : Code) (pv : Entry) (t : Vector Entry cap) : Vector Entry cap :=
  let e := entryAt t (c.code % 2 ^ k)
  let base := (entryPayload e).toNat
  fillStride t (base + c.code / 2 ^ k) (2 ^ (c.len - k)) (terminalEntry pv (c.len - k)) (2 ^ (entryNbits e - (c.len - k)))

/-- What BUILD gives: the table with the last rc and next_free, or the cause with the table as far as it was written. -/
inductive BuildRes (cap : Nat) where
  | ok (t : Vector Entry cap) (rc nextFree : Nat)
  | fail (c : Cause) (t : Vector Entry cap)
  deriving DecidableEq, Repr

/-- The walk over the codewords (R172 to R177); rc is the last codeword walked. -/
def walk {cap : Nat} (k : Nat) (all : List Code) (pv : Nat → Entry) :
    List Code → Vector Entry cap → Nat → Nat → BuildRes cap
  | [], t, rc, nf => .ok t rc nf
  | c :: r, t, _, nf =>
    if c.len ≤ k then
      walk k all pv r (fillStride t c.code (2 ^ c.len) (terminalEntry (pv c.sym) c.len) (2 ^ (k - c.len))) c.code nf
    else
      let p := c.code % 2 ^ k
      if isLink (entryAt t p) then walk k all pv r (fillSub k c (pv c.sym) t) c.code nf
      else
        let w := subWidth k all p
        if cap < nf + 2 ^ w then .fail .tableOverflow t
        else
          let t1 := fillStride (t.setIfInBounds p (linkEntry nf w)) nf 1 sentinel (2 ^ w)
          walk k all pv r (fillSub k c (pv c.sym) t1) c.code (nf + 2 ^ w)

/-- The one-symbol table: the entry at codeword 1, the sentinel at codeword 0 (R166). -/
def singleTable {cap : Nat} (k : Nat) (e : Entry) (t : Vector Entry cap) : Vector Entry cap :=
  fillStride (fillStride t 0 2 sentinel (2 ^ (k - 1))) 1 2 (terminalEntry e 1) (2 ^ (k - 1))

/-- BUILD(len, PV, K, CAP) into the table memory t (R160). -/
def build {cap : Nat} (k : Nat) (lens : List Nat) (pv : Nat → Entry) (t : Vector Entry cap) : BuildRes cap :=
  match verdict lens with
  | some c => .fail c t
  | none =>
    if isSingle lens then .ok (singleTable k (pv (lens.findIdx (· == 1))) t) 0 (2 ^ k)
    else walk k (codesOf lens) pv (codesOf lens) (fillStride t 0 1 sentinel (2 ^ k)) 0 (2 ^ k)

/-- The lengths of an array of w-bit elements as numbers. -/
def lensOf {n w : Nat} (v : Vector (BitVec w) n) : List Nat := v.toList.map BitVec.toNat

/-- The count registers over a length set (10_state R28). -/
def counts (lens : List Nat) : Vector (BitVec 9) 15 := Vector.ofFn fun i => BitVec.ofNat 9 (countOf lens (i.val + 1))

/-- The scratch registers a BUILD leaves (10_state R28); a failed one leaves rc and next_free as they were (log entry 24). -/
def scratchOf {cap : Nat} (lens : List Nat) (old : Scratch) : BuildRes cap → Scratch
  | .ok _ rc nf => { count := counts lens, rc := BitVec.ofNat 15 rc, nextFree := BitVec.ofNat 11 nf }
  | .fail _ _ => { old with count := counts lens }

/-- The table a BUILD leaves. -/
def BuildRes.table {cap : Nat} : BuildRes cap → Vector Entry cap
  | .ok t _ _ => t
  | .fail _ t => t

/-- A BUILD's result as an operation of the engine in the state s that its writes left. -/
def BuildRes.toRes {cap : Nat} (r : BuildRes cap) (s : State) : Res Unit :=
  match r with
  | .ok _ _ _ => .ok () s
  | .fail c _ => .raised c s

/-- BUILD(cl_len, PV_CL, 7, 128) -> T_CL (R160, 43_block_engine R234). -/
def buildCL (s : State) : Res Unit :=
  let r := build Config.kCL (lensOf s.blk.clLen) pvCL s.tab.cl
  r.toRes ((s.setTab { s.tab with cl := r.table }).setScr (scratchOf (lensOf s.blk.clLen) s.scr r))

/-- BUILD(ll_len, PV_LL, 10, 1334) -> T_LL (R160, 43_block_engine R231, R243). -/
def buildLL (s : State) : Res Unit :=
  let r := build Config.kLL (lensOf s.blk.llLen) pvLL s.tab.ll
  r.toRes ((s.setTab { s.tab with ll := r.table }).setScr (scratchOf (lensOf s.blk.llLen) s.scr r))

/-- BUILD(d_len, PV_D, 8, 402) -> T_D (R160, 43_block_engine R231, R243). -/
def buildD (s : State) : Res Unit :=
  let r := build Config.kD (lensOf s.blk.dLen) pvD s.tab.d
  r.toRes ((s.setTab { s.tab with d := r.table }).setScr (scratchOf (lensOf s.blk.dLen) s.scr r))

/-- The two builds of a Huffman block, literal/length first, then the symbol loop (43_block_engine R231, R243). -/
def buildBoth (s : State) : Res Unit :=
  (buildLL s).bind fun _ t => (buildD t).bind fun _ u => .ok () (enterSyms u)

end Sys2Proof.Machine
end

