-- ==== Sys2Proof/Machine/BlockHeader.lean ====
section
/-! DEFINITION. The block headers: BLOCK_STORED, BLOCK_FIXED, BLOCK_DYNAMIC, BLOCK_RESERVED (43_block_engine R220 to R234). -/

namespace Sys2Proof.Machine

/-- BLOCK_HEADER: bfinal <- GET(1); btype <- GET(2), whose values the decoded row holds (R221). -/
def takeHeader (b : Bool) (t : BitVec 2) (s : State) : Res Unit :=
  (get 1 s).bind fun _ u =>
    (get 2 (u.setBlk { u.blk with bfinal := b })).bind fun _ v => .ok () (v.setBlk { v.blk with btype := t })

/-- The stored block after its header (R224 to R229): ALIGN, LEN, NLEN, the checks in their order, the payload. -/
def storedBody (s : State) : Res Unit :=
  (readLeU16 (align s)).bind fun len t =>
    (readLeU16 t).bind fun nlen u =>
      if nlen ^^^ 0xFFFF ≠ len then .raised .storedLenMismatch u
      else if u.rd.endOff.toNat < u.rd.cur + len then .raised .storedLenOverrun u
      else if outCap u < u.outLen.toNat + len then .raised .outputFull u
      else .ok () (endBlock (storedCopy len u))

/-- The fixed codeword lengths (R230). -/
def setFixedLens (s : State) : State :=
  s.setBlk { s.blk with llLen := Vector.ofFn fun i => fixedLL i.val, dLen := .replicate 32 fixedD }

/-- The header counts (R232). -/
def dynamicCounts (s : State) : Res Unit :=
  (get 5 s).bind fun a t =>
    (get 5 (t.setBlk { t.blk with hlit := BitVec.ofNat 9 (a + 257) })).bind fun b u =>
      (get 4 (u.setBlk { u.blk with hdist := BitVec.ofNat 6 (b + 1) })).bind fun c v => .ok () (v.setBlk { v.blk with hclen := BitVec.ofNat 5 (c + 4) })

/-- One GET(3) for each of the listed code-length symbols (R233). -/
def readClLens : List Nat → State → Res Unit
  | [], s => .ok () s
  | i :: r, s =>
    (get 3 s).bind fun v t =>
      readClLens r (t.setBlk { t.blk with clLen := t.blk.clLen.setIfInBounds i (BitVec.ofNat 3 v) })

/-- CL_LOOP's start: n <- 0, the first code-length symbol is next (R235). -/
def enterClread (s : State) : State := lookNext .cl (s.setCtl { s.ctl with seq := .clread, n := 0 })

/-- The dynamic block after its header (R232 to R235). -/
def dynamicBody (s : State) : Res Unit :=
  (dynamicCounts s).bind fun _ t =>
    (readClLens (perm.take t.blk.hclen.toNat) (t.setBlk { t.blk with clLen := .replicate 19 0 })).bind fun _ u =>
      (buildCL u).bind fun _ v => .ok () (enterClread v)

/-- BLOCK_STORED (R224 to R229). -/
def execBlockStored (b : Bool) (s : State) : Host.Outcome State Fault Refusal :=
  ((takeHeader b 0 s).bind fun _ t => storedBody t).finish

/-- BLOCK_FIXED (R230, R231). -/
def execBlockFixed (b : Bool) (s : State) : Host.Outcome State Fault Refusal :=
  ((takeHeader b 1 s).bind fun _ t => buildBoth (setFixedLens t)).finish

/-- BLOCK_DYNAMIC (R232 to R235). -/
def execBlockDynamic (b : Bool) (s : State) : Host.Outcome State Fault Refusal :=
  ((takeHeader b 2 s).bind fun _ t => dynamicBody t).finish

/-- BLOCK_RESERVED: stops with BTYPE_RESERVED after the three header bits (R223). -/
def execBlockReserved (b : Bool) (s : State) : Host.Outcome State Fault Refusal :=
  ((takeHeader b 3 s).bind fun _ t => (.raised .btypeReserved t : Res Unit)).finish

end Sys2Proof.Machine
end

