-- ==== Sys2Proof/Machine/CodeLength.lean ====
section
/-! DEFINITION. The code-length symbols: CL_LITERAL, CL_REPEAT, CL_ZEROS3, CL_ZEROS11, CL_UNKNOWN
(43_block_engine R235 to R243). -/

namespace Sys2Proof.Machine

/-- lens[n] <- v; n <- n + 1 (R236). -/
def storeLen (v : BitVec 4) (s : State) : State :=
  (s.setBlk { s.blk with lens := s.blk.lens.setIfInBounds s.ctl.n v }).setCtl { s.ctl with n := s.ctl.n + 1 }

/-- k copies of v (R237, R238). -/
def storeLens (v : BitVec 4) : Nat → State → State
  | 0, s => s
  | k + 1, s => storeLens v k (storeLen v s)

/-- total = hlit + hdist (R235). -/
def clTotal (s : State) : Nat := s.blk.hlit.toNat + s.blk.hdist.toNat

/-- lens[i]. -/
def lenAt (s : State) (i : Nat) : BitVec 4 := (s.blk.lens[i]?).getD 0

/-- Splitting the lengths (R242). -/
def splitLens (s : State) : State :=
  s.setBlk { s.blk with
    llLen := Vector.ofFn fun i => if i.val < s.blk.hlit.toNat then lenAt s i.val else 0
    dLen := Vector.ofFn fun i => if i.val < s.blk.hdist.toNat then lenAt s (s.blk.hlit.toNat + i.val) else 0 }

/-- The loop's test after a code-length symbol: the next one, or, when all are read, the split and both builds
(R235, R242, R243). -/
def clNext (s : State) : Res Unit :=
  if s.ctl.n < clTotal s then .ok () (lookNext .cl s) else buildBoth (splitLens s)

/-- A repeat of v: base + GET(bits) times, refused past the total before any length is stored (R237 to R239, R241). -/
def clRun (v : BitVec 4) (base bits : Nat) (s : State) : Res Unit :=
  (get bits s).bind fun x t =>
    if clTotal t < t.ctl.n + (base + x) then .raised .clRepeatOverflow t
    else clNext (storeLens v (base + x) t)

/-- CL_LITERAL (R236). -/
def execClLiteral (len : BitVec 4) (s : State) : Host.Outcome State Fault Refusal := (clNext (storeLen len s)).finish

/-- CL_REPEAT: the previous length again, 3 + GET(2) times (R237). -/
def execClRepeat (s : State) : Host.Outcome State Fault Refusal :=
  (if s.ctl.n = 0 then .raised .clRepeatNoPrevious s else clRun (lenAt s (s.ctl.n - 1)) 3 2 s).finish

/-- CL_ZEROS3: 3 + GET(3) zeros (R238). -/
def execClZeros3 (s : State) : Host.Outcome State Fault Refusal := (clRun 0 3 3 s).finish

/-- CL_ZEROS11: 11 + GET(7) zeros (R239). -/
def execClZeros11 (s : State) : Host.Outcome State Fault Refusal := (clRun 0 11 7 s).finish

/-- CL_UNKNOWN: stops with CL_SYMBOL_UNKNOWN; unreachable in a run (R240). -/
def execClUnknown (_sym : BitVec 5) (s : State) : Host.Outcome State Fault Refusal :=
  .next (raiseStop .clSymbolUnknown s)

end Sys2Proof.Machine
end

