-- ==== Sys2Proof/Machine/Distance.lean ====
section
/-! DEFINITION. The distance symbols: DIST0 to DIST29, BADDIST30, BADDIST31 (44_symbol_decode R258 to R266). -/

namespace Sys2Proof.Machine

/-- A distance symbol, its base and extra-bit count from the distance table (R259, 30_encoding R100), and the match's copy. -/
def distSymbol (d : Nat) (s : State) : Res Unit := matchDistance (dbase d) (dextra d) s

/-- DIST0 (R259, R261, R262, R264). -/
def execDist0 (s : State) : Host.Outcome State Fault Refusal := (distSymbol 0 s).finish

/-- DIST1 (R259, R261, R262, R264). -/
def execDist1 (s : State) : Host.Outcome State Fault Refusal := (distSymbol 1 s).finish

/-- DIST2 (R259, R261, R262, R264). -/
def execDist2 (s : State) : Host.Outcome State Fault Refusal := (distSymbol 2 s).finish

/-- DIST3 (R259, R261, R262, R264). -/
def execDist3 (s : State) : Host.Outcome State Fault Refusal := (distSymbol 3 s).finish

/-- DIST4 (R259, R261, R262, R264). -/
def execDist4 (s : State) : Host.Outcome State Fault Refusal := (distSymbol 4 s).finish

/-- DIST5 (R259, R261, R262, R264). -/
def execDist5 (s : State) : Host.Outcome State Fault Refusal := (distSymbol 5 s).finish

/-- DIST6 (R259, R261, R262, R264). -/
def execDist6 (s : State) : Host.Outcome State Fault Refusal := (distSymbol 6 s).finish

/-- DIST7 (R259, R261, R262, R264). -/
def execDist7 (s : State) : Host.Outcome State Fault Refusal := (distSymbol 7 s).finish

/-- DIST8 (R259, R261, R262, R264). -/
def execDist8 (s : State) : Host.Outcome State Fault Refusal := (distSymbol 8 s).finish

/-- DIST9 (R259, R261, R262, R264). -/
def execDist9 (s : State) : Host.Outcome State Fault Refusal := (distSymbol 9 s).finish

/-- DIST10 (R259, R261, R262, R264). -/
def execDist10 (s : State) : Host.Outcome State Fault Refusal := (distSymbol 10 s).finish

/-- DIST11 (R259, R261, R262, R264). -/
def execDist11 (s : State) : Host.Outcome State Fault Refusal := (distSymbol 11 s).finish

/-- DIST12 (R259, R261, R262, R264). -/
def execDist12 (s : State) : Host.Outcome State Fault Refusal := (distSymbol 12 s).finish

/-- DIST13 (R259, R261, R262, R264). -/
def execDist13 (s : State) : Host.Outcome State Fault Refusal := (distSymbol 13 s).finish

/-- DIST14 (R259, R261, R262, R264). -/
def execDist14 (s : State) : Host.Outcome State Fault Refusal := (distSymbol 14 s).finish

/-- DIST15 (R259, R261, R262, R264). -/
def execDist15 (s : State) : Host.Outcome State Fault Refusal := (distSymbol 15 s).finish

/-- DIST16 (R259, R261, R262, R264). -/
def execDist16 (s : State) : Host.Outcome State Fault Refusal := (distSymbol 16 s).finish

/-- DIST17 (R259, R261, R262, R264). -/
def execDist17 (s : State) : Host.Outcome State Fault Refusal := (distSymbol 17 s).finish

/-- DIST18 (R259, R261, R262, R264). -/
def execDist18 (s : State) : Host.Outcome State Fault Refusal := (distSymbol 18 s).finish

/-- DIST19 (R259, R261, R262, R264). -/
def execDist19 (s : State) : Host.Outcome State Fault Refusal := (distSymbol 19 s).finish

/-- DIST20 (R259, R261, R262, R264). -/
def execDist20 (s : State) : Host.Outcome State Fault Refusal := (distSymbol 20 s).finish

/-- DIST21 (R259, R261, R262, R264). -/
def execDist21 (s : State) : Host.Outcome State Fault Refusal := (distSymbol 21 s).finish

/-- DIST22 (R259, R261, R262, R264). -/
def execDist22 (s : State) : Host.Outcome State Fault Refusal := (distSymbol 22 s).finish

/-- DIST23 (R259, R261, R262, R264). -/
def execDist23 (s : State) : Host.Outcome State Fault Refusal := (distSymbol 23 s).finish

/-- DIST24 (R259, R261, R262, R264). -/
def execDist24 (s : State) : Host.Outcome State Fault Refusal := (distSymbol 24 s).finish

/-- DIST25 (R259, R261, R262, R264). -/
def execDist25 (s : State) : Host.Outcome State Fault Refusal := (distSymbol 25 s).finish

/-- DIST26 (R259, R261, R262, R264). -/
def execDist26 (s : State) : Host.Outcome State Fault Refusal := (distSymbol 26 s).finish

/-- DIST27 (R259, R261, R262, R264). -/
def execDist27 (s : State) : Host.Outcome State Fault Refusal := (distSymbol 27 s).finish

/-- DIST28 (R259, R261, R262, R264). -/
def execDist28 (s : State) : Host.Outcome State Fault Refusal := (distSymbol 28 s).finish

/-- DIST29 (R259, R261, R262, R264). -/
def execDist29 (s : State) : Host.Outcome State Fault Refusal := (distSymbol 29 s).finish

/-- BADDIST30: stops with INVALID_SYMBOL before any extra bits are read (R260). -/
def execBaddist30 (s : State) : Host.Outcome State Fault Refusal := .next (raiseStop .invalidSymbol s)

/-- BADDIST31: stops with INVALID_SYMBOL before any extra bits are read (R260). -/
def execBaddist31 (s : State) : Host.Outcome State Fault Refusal := .next (raiseStop .invalidSymbol s)

end Sys2Proof.Machine
end

