-- ==== Sys2Proof/Machine/EntryKinds.lean ====
section
/-! DEFINITION. The decode-table entries a lookup reads: ENTRY_SENTINEL, ENTRY_LINK, ENTRY_LITERAL, ENTRY_VALUE
(41_table_builder R178, 30_encoding R109). Together they are DECODE, one table read a step. -/

namespace Sys2Proof.Machine

/-- K of the lookup in progress (41_table_builder R160). -/
def kOf : Alphabet → Nat
  | .cl => Config.kCL
  | .ll => Config.kLL
  | .dist => Config.kD

/-- The literal/length symbol a value terminal stands for: base 0 is EOB, base 0xFFFF is BADSYM, else the row of the length
table with this base and extra count (R106, R109). 286 and 287 share one packed value (log entry 12). -/
def llSymbolOf (p : BitVec 24) (b : BlockRegs) : Option Nat :=
  if payloadBase p = 0xFFFF then some (if b.llLen[286] = 0 then 287 else 286)
  else if payloadBase p = 0 then some 256
  else (rowOf lengthTable (payloadBase p) (payloadExtra p)).map (· + 257)

/-- The distance symbol a terminal stands for (R107, R109). 30 and 31 share one packed value (log entry 12). -/
def distSymbolOf (p : BitVec 24) (b : BlockRegs) : Option Nat :=
  if payloadBase p = 0xFFFF then some (if b.dLen[30] = 0 then 31 else 30)
  else rowOf distTable (payloadBase p) (payloadExtra p)

/-- The terminal DECODE returns, classified by the alphabet: the code-length symbol is e[31:8] (43_block_engine R235); a
literal has T = 1 (44_symbol_decode R250). A base and extra count that are no row's, which the builder never writes, act
as R250 says: as a length or a distance. -/
def classify (p : BitVec 24) (t : Bool) (s : State) : Res Unit :=
  match s.ctl.alpha with
  | .cl => if p.toNat < 32 then .ok () (lookSymbol p.toNat s) else .raised .clSymbolUnknown s
  | .ll =>
    if t then .ok () (lookSymbol (payloadExtra p) s)
    else match llSymbolOf p s.blk with
      | some sym => .ok () (lookSymbol sym s)
      | none => matchLength (payloadBase p) (payloadExtra p) s
  | .dist =>
    match distSymbolOf p s.blk with
    | some sym => .ok () (lookSymbol sym s)
    | none => matchDistance (payloadBase p) (payloadExtra p) s

/-- The end of DECODE: DROP(e[5:0]) and the terminal (R178). -/
def terminal (p : BitVec 24) (t : Bool) (n : BitVec 6) (s : State) : Res Unit :=
  (drop n.toNat s).bind fun _ u => classify p t u

/-- ENTRY_SENTINEL: INVALID_CODEWORD (R178). -/
def execEntrySentinel (s : State) : Host.Outcome State Fault Refusal := .next (raiseStop .invalidCodeword s)

/-- ENTRY_LINK: DROP(K), then the subtable. DECODE does not look at L a second time, so in a subtable the entry is a
terminal (R178). -/
def execEntryLink (p : BitVec 24) (t : Bool) (n : BitVec 6) (s : State) : Host.Outcome State Fault Refusal :=
  match s.ctl.look with
  | .second _ _ => (terminal p t n s).finish
  | _ => ((drop (kOf s.ctl.alpha) s).bind fun _ u => .ok () (u.setCtl { u.ctl with look := .second p n })).finish

/-- ENTRY_LITERAL: a terminal with T = 1 (R178, R252). -/
def execEntryLiteral (p : BitVec 24) (n : BitVec 6) (s : State) : Host.Outcome State Fault Refusal :=
  (terminal p true n s).finish

/-- ENTRY_VALUE: a terminal with T = 0 (R178, R109). -/
def execEntryValue (p : BitVec 24) (n : BitVec 6) (s : State) : Host.Outcome State Fault Refusal :=
  (terminal p false n s).finish

end Sys2Proof.Machine
end

