-- ==== Sys2Proof/Machine/Gzip.lean ====
section
/-! DEFINITION. The gzip flags: GZ_FLAGS_RESERVED, GZ_FTEXT, GZ_FEXTRA, GZ_FNAME, GZ_FCOMMENT, GZ_FHCRC
(42_wrapper R195 to R201). flg is the flags still to be handled; each row clears its own bit. -/

namespace Sys2Proof.Machine

/-- FEXTRA's field (R197). -/
def skipExtra (left : Byte) (s : State) : Res Unit :=
  let p := s.ctl.hdrPos
  if gzipLim s < p + 2 then .raised .gzipHeaderTruncated s
  else
    let q := p + 2 + le16 (inByte s p) (inByte s (p + 1))
    if gzipLim s < q then .raised .gzipHeaderTruncated s else .ok () (gzipNext left q s)

/-- FHCRC's field: the CRC16 over bytes 0 .. p - 1 (R200); the CRC unit's register keeps its running value. -/
def checkHeaderCrc (left : Byte) (s : State) : Res Unit :=
  let p := s.ctl.hdrPos
  if gzipLim s < p + 2 then .raised .gzipHeaderTruncated s
  else
    let c := crcRegister (inByte s) p
    let t := s.setSums { s.sums with crc := c }
    if le16 (inByte s p) (inByte s (p + 1)) ≠ (c ^^^ 0xFFFFFFFF#32).toNat % 65536 then .raised .gzipHeaderCrc t
    else .ok () (gzipNext left (p + 2) t)

/-- GZ_FLAGS_RESERVED (R195). -/
def execGzFlagsReserved (_flg : Byte) (s : State) : Host.Outcome State Fault Refusal :=
  .next (raiseStop .gzipUnknownFlags s)

/-- GZ_FTEXT: no effect (R195, R116). -/
def execGzFtext (flg : Byte) (s : State) : Host.Outcome State Fault Refusal :=
  .next (gzipNext (flg &&& 0xFE#8) s.ctl.hdrPos s)

/-- GZ_FEXTRA (R197). -/
def execGzFextra (flg : Byte) (s : State) : Host.Outcome State Fault Refusal := (skipExtra (flg &&& 0xFB#8) s).finish

/-- GZ_FNAME (R198). -/
def execGzFname (flg : Byte) (s : State) : Host.Outcome State Fault Refusal := (skipString (flg &&& 0xF7#8) s).finish

/-- GZ_FCOMMENT (R199). -/
def execGzFcomment (flg : Byte) (s : State) : Host.Outcome State Fault Refusal := (skipString (flg &&& 0xEF#8) s).finish

/-- GZ_FHCRC (R200). -/
def execGzFhcrc (flg : Byte) (s : State) : Host.Outcome State Fault Refusal := (checkHeaderCrc (flg &&& 0xFD#8) s).finish

end Sys2Proof.Machine
end

