-- ==== Sys2Proof/Machine/HostAccess.lean ====
section
/-! DEFINITION. The host's register accesses (46_host_commands R310 to R318). -/

namespace Sys2Proof.Machine

/-- START: the IRQ_EN store (R313); while idle a run begins (R311), while busy nothing else happens (R312). A launch whose
buffers wrap or overlap has no move (20_memory R68, R69, R79; 93_implementation_defined U6). -/
def execStart (irqEn : Bool) (s : State) : Host.Outcome State Fault Refusal :=
  let t := setIrqEn irqEn s
  if t.regs.busy then .next t
  else if launchOk t.regs then .next (launchRun t)
  else .refused .launchBuffers

/-- SET_CTRL (R313). -/
def execSetCtrl (irqEn : Bool) (s : State) : Host.Outcome State Fault Refusal := .next (setIrqEn irqEn s)

/-- CLEAR_DONE (R314). -/
def execClearDone (s : State) : Host.Outcome State Fault Refusal := .next (s.setRegs { s.regs with done := false })

/-- A STATUS write with bit 1 = 0 has no effect (R317). -/
def execStatusNop (s : State) : Host.Outcome State Fault Refusal := .next s

/-- WRITE_IN_BASE (R315, R316). -/
def execWriteInBase (v : Word) (s : State) : Host.Outcome State Fault Refusal := .next (writeConfig { s.regs with inBase := v } s)

/-- WRITE_IN_LEN (R315, R316). -/
def execWriteInLen (v : Word) (s : State) : Host.Outcome State Fault Refusal := .next (writeConfig { s.regs with inLen := v } s)

/-- WRITE_OUT_BASE (R315, R316). -/
def execWriteOutBase (v : Word) (s : State) : Host.Outcome State Fault Refusal := .next (writeConfig { s.regs with outBase := v } s)

/-- WRITE_OUT_CAP (R315, R316). -/
def execWriteOutCap (v : Word) (s : State) : Host.Outcome State Fault Refusal := .next (writeConfig { s.regs with outCap := v } s)

/-- An ignored write (R317). -/
def execWriteIgnoredCause (_v : Word) (s : State) : Host.Outcome State Fault Refusal := .next s

/-- An ignored write (R317). -/
def execWriteIgnoredOutLen (_v : Word) (s : State) : Host.Outcome State Fault Refusal := .next s

/-- An ignored write (R317). -/
def execWriteIgnoredCheckCalc (_v : Word) (s : State) : Host.Outcome State Fault Refusal := .next s

/-- An ignored write (R317). -/
def execWriteIgnoredCheckExp (_v : Word) (s : State) : Host.Outcome State Fault Refusal := .next s

/-- An ignored write (R317). -/
def execWriteIgnoredIsize (_v : Word) (s : State) : Host.Outcome State Fault Refusal := .next s

/-- An ignored write (R317). -/
def execWriteIgnoredInBitpos (_v : Word) (s : State) : Host.Outcome State Fault Refusal := .next s

/-- An ignored write (R317). -/
def execWriteIgnoredRsvd30 (_v : Word) (s : State) : Host.Outcome State Fault Refusal := .next s

/-- An ignored write (R317). -/
def execWriteIgnoredRsvd34 (_v : Word) (s : State) : Host.Outcome State Fault Refusal := .next s

/-- An ignored write (R317). -/
def execWriteIgnoredRsvd38 (_v : Word) (s : State) : Host.Outcome State Fault Refusal := .next s

/-- An ignored write (R317). -/
def execWriteIgnoredRsvd3C (_v : Word) (s : State) : Host.Outcome State Fault Refusal := .next s

/-- An exact read (R310, R318). -/
def execReadCtrl (s : State) : Host.Outcome State Fault Refusal := .next (readExact (ctrlWord s.regs) s)

/-- An exact read (R310, R318). -/
def execReadStatus (s : State) : Host.Outcome State Fault Refusal := .next (readExact (statusWord s.regs) s)

/-- An exact read (R310, R318). -/
def execReadInBase (s : State) : Host.Outcome State Fault Refusal := .next (readExact (s.regs.inBase) s)

/-- An exact read (R310, R318). -/
def execReadInLen (s : State) : Host.Outcome State Fault Refusal := .next (readExact (s.regs.inLen) s)

/-- An exact read (R310, R318). -/
def execReadOutBase (s : State) : Host.Outcome State Fault Refusal := .next (readExact (s.regs.outBase) s)

/-- An exact read (R310, R318). -/
def execReadOutCap (s : State) : Host.Outcome State Fault Refusal := .next (readExact (s.regs.outCap) s)

/-- A read of a result register (R310, R318). -/
def execReadCause (s : State) : Host.Outcome State Fault Refusal := .next (readResult (causeWord s.regs) s)

/-- A read of a result register (R310, R318). -/
def execReadOutLen (s : State) : Host.Outcome State Fault Refusal := .next (readResult (s.regs.outLen) s)

/-- A read of a result register (R310, R318). -/
def execReadCheckCalc (s : State) : Host.Outcome State Fault Refusal := .next (readResult (s.regs.checkCalc) s)

/-- A read of a result register (R310, R318). -/
def execReadCheckExp (s : State) : Host.Outcome State Fault Refusal := .next (readResult (s.regs.checkExp) s)

/-- A read of a result register (R310, R318). -/
def execReadIsize (s : State) : Host.Outcome State Fault Refusal := .next (readResult (s.regs.isize) s)

/-- A read of a result register (R310, R318). -/
def execReadInBitpos (s : State) : Host.Outcome State Fault Refusal := .next (readResult (s.regs.inBitpos) s)

/-- READ_RESERVED: 0 (R310, 10_state R47). -/
def execReadReserved (_k : BitVec 2) (s : State) : Host.Outcome State Fault Refusal := .next (readExact 0 s)

end Sys2Proof.Machine
end

