-- ==== Sys2Proof/Machine/Symbols.lean ====
section
/-! DEFINITION. The literal/length symbols: LIT, EOB, LEN257 to LEN285, BADSYM286, BADSYM287 (44_symbol_decode R250 to R257). -/

namespace Sys2Proof.Machine

/-- A length symbol, its base and extra-bit count from the length table (R256, 30_encoding R99). -/
def lengthSymbol (sym : Nat) (s : State) : Res Unit := matchLength (lbase sym) (lextra sym) s

/-- LIT: emits the byte; the next literal/length symbol follows (R252, R253). -/
def execLit (b : Byte) (s : State) : Host.Outcome State Fault Refusal :=
  ((emit b s).bind fun _ t => .ok () (lookNext .ll t)).finish

/-- EOB: the block ends (R255). -/
def execEob (s : State) : Host.Outcome State Fault Refusal := .next (endBlock s)

/-- LEN257 (R256). -/
def execLen257 (s : State) : Host.Outcome State Fault Refusal := (lengthSymbol 257 s).finish

/-- LEN258 (R256). -/
def execLen258 (s : State) : Host.Outcome State Fault Refusal := (lengthSymbol 258 s).finish

/-- LEN259 (R256). -/
def execLen259 (s : State) : Host.Outcome State Fault Refusal := (lengthSymbol 259 s).finish

/-- LEN260 (R256). -/
def execLen260 (s : State) : Host.Outcome State Fault Refusal := (lengthSymbol 260 s).finish

/-- LEN261 (R256). -/
def execLen261 (s : State) : Host.Outcome State Fault Refusal := (lengthSymbol 261 s).finish

/-- LEN262 (R256). -/
def execLen262 (s : State) : Host.Outcome State Fault Refusal := (lengthSymbol 262 s).finish

/-- LEN263 (R256). -/
def execLen263 (s : State) : Host.Outcome State Fault Refusal := (lengthSymbol 263 s).finish

/-- LEN264 (R256). -/
def execLen264 (s : State) : Host.Outcome State Fault Refusal := (lengthSymbol 264 s).finish

/-- LEN265 (R256). -/
def execLen265 (s : State) : Host.Outcome State Fault Refusal := (lengthSymbol 265 s).finish

/-- LEN266 (R256). -/
def execLen266 (s : State) : Host.Outcome State Fault Refusal := (lengthSymbol 266 s).finish

/-- LEN267 (R256). -/
def execLen267 (s : State) : Host.Outcome State Fault Refusal := (lengthSymbol 267 s).finish

/-- LEN268 (R256). -/
def execLen268 (s : State) : Host.Outcome State Fault Refusal := (lengthSymbol 268 s).finish

/-- LEN269 (R256). -/
def execLen269 (s : State) : Host.Outcome State Fault Refusal := (lengthSymbol 269 s).finish

/-- LEN270 (R256). -/
def execLen270 (s : State) : Host.Outcome State Fault Refusal := (lengthSymbol 270 s).finish

/-- LEN271 (R256). -/
def execLen271 (s : State) : Host.Outcome State Fault Refusal := (lengthSymbol 271 s).finish

/-- LEN272 (R256). -/
def execLen272 (s : State) : Host.Outcome State Fault Refusal := (lengthSymbol 272 s).finish

/-- LEN273 (R256). -/
def execLen273 (s : State) : Host.Outcome State Fault Refusal := (lengthSymbol 273 s).finish

/-- LEN274 (R256). -/
def execLen274 (s : State) : Host.Outcome State Fault Refusal := (lengthSymbol 274 s).finish

/-- LEN275 (R256). -/
def execLen275 (s : State) : Host.Outcome State Fault Refusal := (lengthSymbol 275 s).finish

/-- LEN276 (R256). -/
def execLen276 (s : State) : Host.Outcome State Fault Refusal := (lengthSymbol 276 s).finish

/-- LEN277 (R256). -/
def execLen277 (s : State) : Host.Outcome State Fault Refusal := (lengthSymbol 277 s).finish

/-- LEN278 (R256). -/
def execLen278 (s : State) : Host.Outcome State Fault Refusal := (lengthSymbol 278 s).finish

/-- LEN279 (R256). -/
def execLen279 (s : State) : Host.Outcome State Fault Refusal := (lengthSymbol 279 s).finish

/-- LEN280 (R256). -/
def execLen280 (s : State) : Host.Outcome State Fault Refusal := (lengthSymbol 280 s).finish

/-- LEN281 (R256). -/
def execLen281 (s : State) : Host.Outcome State Fault Refusal := (lengthSymbol 281 s).finish

/-- LEN282 (R256). -/
def execLen282 (s : State) : Host.Outcome State Fault Refusal := (lengthSymbol 282 s).finish

/-- LEN283 (R256). -/
def execLen283 (s : State) : Host.Outcome State Fault Refusal := (lengthSymbol 283 s).finish

/-- LEN284 (R256). -/
def execLen284 (s : State) : Host.Outcome State Fault Refusal := (lengthSymbol 284 s).finish

/-- LEN285 (R256). -/
def execLen285 (s : State) : Host.Outcome State Fault Refusal := (lengthSymbol 285 s).finish

/-- BADSYM286: stops with INVALID_SYMBOL before any extra bits are read (R254). -/
def execBadsym286 (s : State) : Host.Outcome State Fault Refusal := .next (raiseStop .invalidSymbol s)

/-- BADSYM287: stops with INVALID_SYMBOL before any extra bits are read (R254). -/
def execBadsym287 (s : State) : Host.Outcome State Fault Refusal := .next (raiseStop .invalidSymbol s)

end Sys2Proof.Machine
end

