-- ==== Sys2Proof/Machine/Wrapper.lean ====
section
/-! DEFINITION. The wrapper rows: WRAP_GZIP, WRAP_ZLIB, WRAP_RAW (42_wrapper R190 to R194, R196, R208). -/

namespace Sys2Proof.Machine

/-- WRAP_GZIP: the method byte (R194), then p <- 10 and the flags of byte 3 (R195, R196). -/
def execWrapGzip (s : State) : Host.Outcome State Fault Refusal :=
  if inByte s 2 ≠ 0x08#8 then .next (raiseStop .gzipMethod s)
  else .next (gzipNext (inByte s 3) 10 s)

/-- WRAP_ZLIB: zlib is chosen, its header word is next (R192). -/
def execWrapZlib (s : State) : Host.Outcome State Fault Refusal :=
  .next (s.setCtl { s.ctl with wphase := .zlibHeader })

/-- WRAP_RAW: the raw result (R193, R208). -/
def execWrapRaw (s : State) : Host.Outcome State Fault Refusal := .next (rawResult s)

end Sys2Proof.Machine
end

