-- ==== Sys2Proof/Syntax.lean ====
section
/-! DEFINITION. The syntax: one constructor per row of spec/opcode_table.json, in the table's order.
A row is one thing the core decodes: a field of the input stream, an entry of a decode table, or a host bus access. -/

namespace Sys2Proof

/-- Everything the core decodes (30_encoding, introduction). -/
inductive Instr where
  -- block_header: h = GET(3) (R91, R92); bfinal = h[0]
  | blockStored (bfinal : Bool)
  | blockFixed (bfinal : Bool)
  | blockDynamic (bfinal : Bool)
  | blockReserved (bfinal : Bool)
  -- cl_symbol: the decoded code-length symbol (R97)
  | clLiteral (len : BitVec 4)
  | clRepeat
  | clZeros3
  | clZeros11
  | clUnknown (sym : BitVec 5)
  -- ll_symbol: the decoded literal/length symbol (R98, R99)
  | lit (byte : Byte)
  | eob
  | len257
  | len258
  | len259
  | len260
  | len261
  | len262
  | len263
  | len264
  | len265
  | len266
  | len267
  | len268
  | len269
  | len270
  | len271
  | len272
  | len273
  | len274
  | len275
  | len276
  | len277
  | len278
  | len279
  | len280
  | len281
  | len282
  | len283
  | len284
  | len285
  | badsym286
  | badsym287
  -- dist_symbol: the decoded distance symbol (R100)
  | dist0
  | dist1
  | dist2
  | dist3
  | dist4
  | dist5
  | dist6
  | dist7
  | dist8
  | dist9
  | dist10
  | dist11
  | dist12
  | dist13
  | dist14
  | dist15
  | dist16
  | dist17
  | dist18
  | dist19
  | dist20
  | dist21
  | dist22
  | dist23
  | dist24
  | dist25
  | dist26
  | dist27
  | dist28
  | dist29
  | baddist30
  | baddist31
  -- table_entry: payload = e[31:8], the T bit e[6], nbits = e[5:0] (R104, R105, R109)
  | entrySentinel
  | entryLink (payload : BitVec 24) (t : Bool) (nbits : BitVec 6)
  | entryLiteral (payload : BitVec 24) (nbits : BitVec 6)
  | entryValue (payload : BitVec 24) (nbits : BitVec 6)
  -- zlib_header: cinfo = CMF[7:4], flg = FLG (R114)
  | zlibSniff (cinfo : BitVec 4) (flg : Byte)
  | zlibCinfoBad (cinfo : BitVec 4) (flg : Byte)
  | zlibFcheckBad (cinfo : BitVec 4) (flg : Byte)
  | zlibFdictBad (cinfo : BitVec 4) (flg : Byte)
  -- gzip_flg: flg holds the FLG bits still to be handled (R116, R117)
  | gzFtext (flg : Byte)
  | gzFhcrc (flg : Byte)
  | gzFextra (flg : Byte)
  | gzFname (flg : Byte)
  | gzFcomment (flg : Byte)
  | gzFlagsReserved (flg : Byte)
  -- wrapper: decided by IN_LEN and input bytes 0 and 1 (R191 to R193)
  | wrapGzip
  | wrapZlib
  | wrapRaw
  -- host_access (R120): irqEn = v[1], v = the write data, k = offset[3:2]
  | start (irqEn : Bool)
  | setCtrl (irqEn : Bool)
  | clearDone
  | statusNop
  | writeInBase (v : Word)
  | writeInLen (v : Word)
  | writeOutBase (v : Word)
  | writeOutCap (v : Word)
  | writeIgnoredCause (v : Word)
  | writeIgnoredOutLen (v : Word)
  | writeIgnoredCheckCalc (v : Word)
  | writeIgnoredCheckExp (v : Word)
  | writeIgnoredIsize (v : Word)
  | writeIgnoredInBitpos (v : Word)
  | writeIgnoredRsvd30 (v : Word)
  | writeIgnoredRsvd34 (v : Word)
  | writeIgnoredRsvd38 (v : Word)
  | writeIgnoredRsvd3C (v : Word)
  | readCtrl
  | readStatus
  | readCause
  | readInBase
  | readInLen
  | readOutBase
  | readOutCap
  | readOutLen
  | readCheckCalc
  | readCheckExp
  | readIsize
  | readInBitpos
  | readReserved (k : BitVec 2)
  deriving DecidableEq, Repr

end Sys2Proof
end

