-- ==== Sys2Proof/WellFormed.lean ====
section
/-! DEFINITION. The well-formed terms of Instr: those some word of the spec's encoding stands for.
Where a row is one of several tested in order, its operands must be ones an earlier row does not take. -/

namespace Sys2Proof

/-- The zlib header word (CMF << 8) | FLG of a CM = 8 header (42_wrapper R204). -/
def zlibWord (cinfo : BitVec 4) (flg : Byte) : Nat :=
  cinfo.toNat * 4096 + 8 * 256 + flg.toNat

/-- The check of each constructor whose operands are not free. -/
def Instr.wf : Instr → Bool
  | .clUnknown s => decide (19 ≤ s.toNat)                                           -- R97, R240
  | .entryLink p t n => !(decide (p = 0) && t && decide (n = 63))                   -- R105: not the sentinel
  | .zlibCinfoBad c _ => decide (8 ≤ c.toNat)                                       -- R203
  | .zlibFcheckBad c f => decide (c.toNat ≤ 7) && decide (zlibWord c f % 31 ≠ 0)    -- R204
  | .zlibFdictBad c f =>
    decide (c.toNat ≤ 7) && decide (zlibWord c f % 31 = 0) && f.getLsbD 5           -- R205
  | .gzFlagsReserved f => decide (f &&& 0xE0#8 ≠ 0)                                 -- R195
  | .gzFtext f => decide (f &&& 0xE0#8 = 0) && f.getLsbD 0                          -- R116
  | .gzFextra f => decide (f &&& 0xE1#8 = 0) && f.getLsbD 2                         -- R117: the order FTEXT (no effect),
  | .gzFname f => decide (f &&& 0xE5#8 = 0) && f.getLsbD 3                          -- FEXTRA, FNAME, FCOMMENT, FHCRC
  | .gzFcomment f => decide (f &&& 0xED#8 = 0) && f.getLsbD 4
  | .gzFhcrc f => decide (f = 0x02#8)
  | _ => true

end Sys2Proof
end

