-- ==== Sys2Proof/Decode.lean ====
section
/-! DEFINITION. The decoder and the encoder, from the encoding tables of 30_encoding.md and opcode_table.json.
A word is a Nat numbered as the table numbers it: bit 0 is the least significant bit of the row's value. -/

namespace Sys2Proof

/-- What is decoded (the table's formats). zlib_header is decoded at two points: the sniff of the method nibble
(42_wrapper R192) and, once zlib is chosen, the verdict of the checks R203 to R205 in their order. -/
inductive Fmt where
  | blockHeader | clSymbol | llSymbol | distSymbol | tableEntry | zlibSniff | zlibVerdict | gzipFlg | wrapper | hostAccess
  deriving DecidableEq, Repr

/-- Why a word is no instruction of its format. -/
inductive Reject where
  /-- The word has bits above the format's width. -/
  | tooWide
  /-- A literal/length value above 287 (R98). -/
  | noSymbol
  /-- CM is not 8, so the word is no zlib header (R192). -/
  | notZlib
  /-- The zlib header passes every check R203 to R205, so no verdict row applies. -/
  | headerValid
  /-- No gzip flag is left to handle (R116). -/
  | noFlag
  /-- A register offset at or beyond 0x40 is not decoded by the core (10_state R47). -/
  | offsetNotDecoded
  /-- A register offset that is not a multiple of 4 has no defined behaviour (20_memory R65). -/
  | offsetMisaligned
  deriving DecidableEq, Repr

/-- The width of a format's word in bits. The wrapper's word is input byte 0, input byte 1 and IN_LEN, from bit 0 up. -/
def Fmt.width : Fmt → Nat
  | .blockHeader => 3
  | .clSymbol => 5
  | .llSymbol => 9
  | .distSymbol => 5
  | .tableEntry => 32
  | .zlibSniff => 16
  | .zlibVerdict => 16
  | .gzipFlg => 8
  | .wrapper => 48
  | .hostAccess => 41

/-- The n-bit field of w that starts at bit lo (00_scope R8). -/
def fieldAt (w lo n : Nat) : BitVec n := BitVec.ofNat n (w >>> lo)

/-- Block header (R91, R92). -/
def decodeBlockHeader (h : Nat) : Instr :=
  let b := h.testBit 0
  match h / 2 with
  | 0 => .blockStored b
  | 1 => .blockFixed b
  | 2 => .blockDynamic b
  | _ => .blockReserved b

/-- Code-length symbol (R97). -/
def decodeClSymbol (s : Nat) : Instr :=
  if s < 16 then .clLiteral (BitVec.ofNat 4 s)
  else if s = 16 then .clRepeat
  else if s = 17 then .clZeros3
  else if s = 18 then .clZeros11
  else .clUnknown (BitVec.ofNat 5 s)

/-- The rows of the symbols 257 to 287, in order (R99, R98). -/
def lengthRows : List Instr :=
  [.len257, .len258, .len259, .len260, .len261, .len262, .len263, .len264, .len265, .len266, .len267,
   .len268, .len269, .len270, .len271, .len272, .len273, .len274, .len275, .len276, .len277, .len278,
   .len279, .len280, .len281, .len282, .len283, .len284, .len285, .badsym286, .badsym287]

/-- Literal/length symbol (R98). -/
def decodeLlSymbol (s : Nat) : Except Reject Instr :=
  if s < 256 then .ok (.lit (BitVec.ofNat 8 s))
  else if s = 256 then .ok .eob
  else match lengthRows[s - 257]? with
    | some i => .ok i
    | none => .error .noSymbol

/-- The rows of the distance symbols 0 to 31, in order (R100). -/
def distRows : List Instr :=
  [.dist0, .dist1, .dist2, .dist3, .dist4, .dist5, .dist6, .dist7, .dist8, .dist9, .dist10,
   .dist11, .dist12, .dist13, .dist14, .dist15, .dist16, .dist17, .dist18, .dist19, .dist20, .dist21,
   .dist22, .dist23, .dist24, .dist25, .dist26, .dist27, .dist28, .dist29, .baddist30, .baddist31]

/-- Distance symbol (R100). -/
def decodeDistSymbol (d : Nat) : Except Reject Instr :=
  match distRows[d]? with
  | some i => .ok i
  | none => .error .noSymbol

/-- Table entry, classified in the order of R109. -/
def decodeTableEntry (e : Nat) : Instr :=
  if e = 0xFF then .entrySentinel
  else if e.testBit 7 then .entryLink (fieldAt e 8 24) (e.testBit 6) (fieldAt e 0 6)
  else if e.testBit 6 then .entryLiteral (fieldAt e 8 24) (fieldAt e 0 6)
  else .entryValue (fieldAt e 8 24) (fieldAt e 0 6)

/-- CM of a zlib header word (R114). -/
def zlibCM (w : Nat) : Nat := w / 256 % 16

/-- The sniff of the method nibble (R192). -/
def decodeZlibSniff (w : Nat) : Except Reject Instr :=
  if zlibCM w = 8 then .ok (.zlibSniff (fieldAt w 12 4) (fieldAt w 0 8)) else .error .notZlib

/-- The verdict of the checks, in the order CINFO, FCHECK, FDICT (R203 to R205, 60_exceptions R344). -/
def decodeZlibVerdict (w : Nat) : Except Reject Instr :=
  if zlibCM w ≠ 8 then .error .notZlib
  else if 7 < (fieldAt w 12 4).toNat then .ok (.zlibCinfoBad (fieldAt w 12 4) (fieldAt w 0 8))
  else if w % 31 ≠ 0 then .ok (.zlibFcheckBad (fieldAt w 12 4) (fieldAt w 0 8))
  else if w.testBit 5 then .ok (.zlibFdictBad (fieldAt w 12 4) (fieldAt w 0 8))
  else .error .headerValid

/-- The gzip flags still to be handled: a reserved bit first (R195), then FTEXT, which has no effect (R116), then the
optional fields in the order of R117. -/
def decodeGzipFlg (w : Nat) : Except Reject Instr :=
  let f : Byte := BitVec.ofNat 8 w
  if f &&& 0xE0#8 ≠ 0 then .ok (.gzFlagsReserved f)
  else if f.getLsbD 0 then .ok (.gzFtext f)
  else if f.getLsbD 2 then .ok (.gzFextra f)
  else if f.getLsbD 3 then .ok (.gzFname f)
  else if f.getLsbD 4 then .ok (.gzFcomment f)
  else if f.getLsbD 1 then .ok (.gzFhcrc f)
  else .error .noFlag

/-- The detection order of 42_wrapper R190 to R193, over the word (byte 0, byte 1, IN_LEN). -/
def decodeWrapper (w : Nat) : Instr :=
  let b0 := w % 256
  let b1 := w / 256 % 256
  let n := w / 65536
  if 18 ≤ n ∧ b0 = 0x1F ∧ b1 = 0x8B then .wrapGzip
  else if 6 ≤ n ∧ b0 % 16 = 8 then .wrapZlib
  else .wrapRaw

/-- A register write: k is the register's number, offset / 4, and v the data (R120). -/
def decodeWrite (k : Nat) (v : Word) : Instr :=
  match k with
  | 0 => if v.getLsbD 0 then .start (v.getLsbD 1) else .setCtrl (v.getLsbD 1)
  | 1 => if v.getLsbD 1 then .clearDone else .statusNop
  | 2 => .writeIgnoredCause v
  | 3 => .writeInBase v
  | 4 => .writeInLen v
  | 5 => .writeOutBase v
  | 6 => .writeOutCap v
  | 7 => .writeIgnoredOutLen v
  | 8 => .writeIgnoredCheckCalc v
  | 9 => .writeIgnoredCheckExp v
  | 10 => .writeIgnoredIsize v
  | 11 => .writeIgnoredInBitpos v
  | 12 => .writeIgnoredRsvd30 v
  | 13 => .writeIgnoredRsvd34 v
  | 14 => .writeIgnoredRsvd38 v
  | _ => .writeIgnoredRsvd3C v

/-- A register read: k is the register's number, offset / 4 (R120). -/
def decodeRead (k : Nat) : Instr :=
  match k with
  | 0 => .readCtrl
  | 1 => .readStatus
  | 2 => .readCause
  | 3 => .readInBase
  | 4 => .readInLen
  | 5 => .readOutBase
  | 6 => .readOutCap
  | 7 => .readOutLen
  | 8 => .readCheckCalc
  | 9 => .readCheckExp
  | 10 => .readIsize
  | 11 => .readInBitpos
  | k => .readReserved (BitVec.ofNat 2 k)

/-- A host bus access (R120). -/
def decodeHostAccess (a : Nat) : Except Reject Instr :=
  let off := a / 2 ^ 32 % 256
  if 0x40 ≤ off then .error .offsetNotDecoded
  else if off % 4 ≠ 0 then .error .offsetMisaligned
  else if a.testBit 40 then .ok (decodeWrite (off / 4) (BitVec.ofNat 32 a))
  else .ok (decodeRead (off / 4))

/-- The decoder: total on every word of every format. -/
def decode (f : Fmt) (w : Nat) : Except Reject Instr :=
  if 2 ^ f.width ≤ w then .error .tooWide
  else match f with
    | .blockHeader => .ok (decodeBlockHeader w)
    | .clSymbol => .ok (decodeClSymbol w)
    | .llSymbol => decodeLlSymbol w
    | .distSymbol => decodeDistSymbol w
    | .tableEntry => .ok (decodeTableEntry w)
    | .zlibSniff => decodeZlibSniff w
    | .zlibVerdict => decodeZlibVerdict w
    | .gzipFlg => decodeGzipFlg w
    | .wrapper => .ok (decodeWrapper w)
    | .hostAccess => decodeHostAccess w

/-- The format a bare table word of nbits bits is read in. The core knows the format from the sequencer's state, a bare
word does not say it: formats of one width share words, and this picks one for each word (DESIGN CHOICE, log entry 10). -/
def tableFmt (nbits w : Nat) : Fmt :=
  if nbits ≤ 8 then
    if w < 8 ∧ w % 2 = 0 then .blockHeader
    else if 16 ≤ w ∧ w ≤ 18 then .clSymbol
    else if w = 0x40 ∨ w = 0x80 then .tableEntry
    else if w = 1 ∨ w = 8 ∨ 32 ≤ w then .gzipFlg
    else .distSymbol
  else if nbits ≤ 16 then
    if 0x12 ≤ w ∧ w ≤ 0x1D then .distSymbol
    else if w < 0x200 then .llSymbol
    else if w.testBit 15 || w.testBit 5 then .zlibVerdict
    else .zlibSniff
  else if nbits ≤ 32 then .tableEntry
  else .hostAccess

/-- The instruction the decoder reads from a bare table word. -/
def decodeTableWord (nbits w : Nat) : Option Instr :=
  match decode (tableFmt nbits w) w with
  | .ok i => some i
  | .error _ => none

/-- A block header's word: h[0] = BFINAL, h[2:1] = BTYPE (R91). -/
def blockWord (b : Bool) (t : Nat) : Nat := b.toNat + 2 * t

/-- A table entry's word (R104). -/
def entryWord (payload : BitVec 24) (l t : Bool) (nbits : BitVec 6) : Nat :=
  payload.toNat * 256 + l.toNat * 128 + t.toNat * 64 + nbits.toNat

/-- A register write's word: the register's number and the data (R120). -/
def writeWord (k : Nat) (v : Nat) : Nat := 2 ^ 40 + 4 * k * 2 ^ 32 + v

/-- A register read's word (R120). -/
def readWord (k : Nat) : Nat := 4 * k * 2 ^ 32

/-- The wrapper's word (byte 0, byte 1, IN_LEN). -/
def wrapperWord (b0 b1 n : Nat) : Nat := b0 + b1 * 256 + n * 65536

/-- The encoder: each instruction's format and word. Bits the spec ignores are 0. -/
def encode : Instr → Fmt × Nat
  | .blockStored b => (.blockHeader, blockWord b 0)
  | .blockFixed b => (.blockHeader, blockWord b 1)
  | .blockDynamic b => (.blockHeader, blockWord b 2)
  | .blockReserved b => (.blockHeader, blockWord b 3)
  | .clLiteral l => (.clSymbol, l.toNat)
  | .clRepeat => (.clSymbol, 16)
  | .clZeros3 => (.clSymbol, 17)
  | .clZeros11 => (.clSymbol, 18)
  | .clUnknown s => (.clSymbol, s.toNat)
  | .lit b => (.llSymbol, b.toNat)
  | .eob => (.llSymbol, 256)
  | .len257 => (.llSymbol, 257)
  | .len258 => (.llSymbol, 258)
  | .len259 => (.llSymbol, 259)
  | .len260 => (.llSymbol, 260)
  | .len261 => (.llSymbol, 261)
  | .len262 => (.llSymbol, 262)
  | .len263 => (.llSymbol, 263)
  | .len264 => (.llSymbol, 264)
  | .len265 => (.llSymbol, 265)
  | .len266 => (.llSymbol, 266)
  | .len267 => (.llSymbol, 267)
  | .len268 => (.llSymbol, 268)
  | .len269 => (.llSymbol, 269)
  | .len270 => (.llSymbol, 270)
  | .len271 => (.llSymbol, 271)
  | .len272 => (.llSymbol, 272)
  | .len273 => (.llSymbol, 273)
  | .len274 => (.llSymbol, 274)
  | .len275 => (.llSymbol, 275)
  | .len276 => (.llSymbol, 276)
  | .len277 => (.llSymbol, 277)
  | .len278 => (.llSymbol, 278)
  | .len279 => (.llSymbol, 279)
  | .len280 => (.llSymbol, 280)
  | .len281 => (.llSymbol, 281)
  | .len282 => (.llSymbol, 282)
  | .len283 => (.llSymbol, 283)
  | .len284 => (.llSymbol, 284)
  | .len285 => (.llSymbol, 285)
  | .badsym286 => (.llSymbol, 286)
  | .badsym287 => (.llSymbol, 287)
  | .dist0 => (.distSymbol, 0)
  | .dist1 => (.distSymbol, 1)
  | .dist2 => (.distSymbol, 2)
  | .dist3 => (.distSymbol, 3)
  | .dist4 => (.distSymbol, 4)
  | .dist5 => (.distSymbol, 5)
  | .dist6 => (.distSymbol, 6)
  | .dist7 => (.distSymbol, 7)
  | .dist8 => (.distSymbol, 8)
  | .dist9 => (.distSymbol, 9)
  | .dist10 => (.distSymbol, 10)
  | .dist11 => (.distSymbol, 11)
  | .dist12 => (.distSymbol, 12)
  | .dist13 => (.distSymbol, 13)
  | .dist14 => (.distSymbol, 14)
  | .dist15 => (.distSymbol, 15)
  | .dist16 => (.distSymbol, 16)
  | .dist17 => (.distSymbol, 17)
  | .dist18 => (.distSymbol, 18)
  | .dist19 => (.distSymbol, 19)
  | .dist20 => (.distSymbol, 20)
  | .dist21 => (.distSymbol, 21)
  | .dist22 => (.distSymbol, 22)
  | .dist23 => (.distSymbol, 23)
  | .dist24 => (.distSymbol, 24)
  | .dist25 => (.distSymbol, 25)
  | .dist26 => (.distSymbol, 26)
  | .dist27 => (.distSymbol, 27)
  | .dist28 => (.distSymbol, 28)
  | .dist29 => (.distSymbol, 29)
  | .baddist30 => (.distSymbol, 30)
  | .baddist31 => (.distSymbol, 31)
  | .entrySentinel => (.tableEntry, 0xFF)
  | .entryLink p t n => (.tableEntry, entryWord p true t n)
  | .entryLiteral p n => (.tableEntry, entryWord p false true n)
  | .entryValue p n => (.tableEntry, entryWord p false false n)
  | .zlibSniff c f => (.zlibSniff, zlibWord c f)
  | .zlibCinfoBad c f => (.zlibVerdict, zlibWord c f)
  | .zlibFcheckBad c f => (.zlibVerdict, zlibWord c f)
  | .zlibFdictBad c f => (.zlibVerdict, zlibWord c f)
  | .gzFtext f => (.gzipFlg, f.toNat)
  | .gzFhcrc f => (.gzipFlg, f.toNat)
  | .gzFextra f => (.gzipFlg, f.toNat)
  | .gzFname f => (.gzipFlg, f.toNat)
  | .gzFcomment f => (.gzipFlg, f.toNat)
  | .gzFlagsReserved f => (.gzipFlg, f.toNat)
  | .wrapGzip => (.wrapper, wrapperWord 0x1F 0x8B 18)
  | .wrapZlib => (.wrapper, wrapperWord 0x08 0 6)
  | .wrapRaw => (.wrapper, wrapperWord 0 0 0)
  | .start e => (.hostAccess, writeWord 0 (1 + 2 * e.toNat))
  | .setCtrl e => (.hostAccess, writeWord 0 (2 * e.toNat))
  | .clearDone => (.hostAccess, writeWord 1 2)
  | .statusNop => (.hostAccess, writeWord 1 0)
  | .writeInBase v => (.hostAccess, writeWord 3 v.toNat)
  | .writeInLen v => (.hostAccess, writeWord 4 v.toNat)
  | .writeOutBase v => (.hostAccess, writeWord 5 v.toNat)
  | .writeOutCap v => (.hostAccess, writeWord 6 v.toNat)
  | .writeIgnoredCause v => (.hostAccess, writeWord 2 v.toNat)
  | .writeIgnoredOutLen v => (.hostAccess, writeWord 7 v.toNat)
  | .writeIgnoredCheckCalc v => (.hostAccess, writeWord 8 v.toNat)
  | .writeIgnoredCheckExp v => (.hostAccess, writeWord 9 v.toNat)
  | .writeIgnoredIsize v => (.hostAccess, writeWord 10 v.toNat)
  | .writeIgnoredInBitpos v => (.hostAccess, writeWord 11 v.toNat)
  | .writeIgnoredRsvd30 v => (.hostAccess, writeWord 12 v.toNat)
  | .writeIgnoredRsvd34 v => (.hostAccess, writeWord 13 v.toNat)
  | .writeIgnoredRsvd38 v => (.hostAccess, writeWord 14 v.toNat)
  | .writeIgnoredRsvd3C v => (.hostAccess, writeWord 15 v.toNat)
  | .readCtrl => (.hostAccess, readWord 0)
  | .readStatus => (.hostAccess, readWord 1)
  | .readCause => (.hostAccess, readWord 2)
  | .readInBase => (.hostAccess, readWord 3)
  | .readInLen => (.hostAccess, readWord 4)
  | .readOutBase => (.hostAccess, readWord 5)
  | .readOutCap => (.hostAccess, readWord 6)
  | .readOutLen => (.hostAccess, readWord 7)
  | .readCheckCalc => (.hostAccess, readWord 8)
  | .readCheckExp => (.hostAccess, readWord 9)
  | .readIsize => (.hostAccess, readWord 10)
  | .readInBitpos => (.hostAccess, readWord 11)
  | .readReserved k => (.hostAccess, readWord (12 + k.toNat))

end Sys2Proof
end

