-- ==== Sys2Proof/Machine/Zlib.lean ====
section
/-! DEFINITION. The zlib header: ZLIB_SNIFF, ZLIB_CINFO_BAD, ZLIB_FCHECK_BAD, ZLIB_FDICT_BAD (42_wrapper R192, R203 to R207). -/

namespace Sys2Proof.Machine

/-- The header passes CINFO, FCHECK and FDICT (R203 to R205). -/
def zlibHeaderOk (cinfo : BitVec 4) (flg : Byte) : Bool :=
  decide (cinfo.toNat ≤ 7) && decide (zlibWord cinfo flg % 31 = 0) && !flg.getLsbD 5

/-- ZLIB_SNIFF: the method nibble is 8. A header that passes the checks gives the zlib result (R207); for one that fails
a check, the row of that check is next. -/
def execZlibSniff (cinfo : BitVec 4) (flg : Byte) (s : State) : Host.Outcome State Fault Refusal :=
  if zlibHeaderOk cinfo flg then .next (zlibResult s)
  else .next (s.setCtl { s.ctl with wphase := .zlibVerdict })

/-- ZLIB_CINFO_BAD (R203). -/
def execZlibCinfoBad (_cinfo : BitVec 4) (_flg : Byte) (s : State) : Host.Outcome State Fault Refusal :=
  .next (raiseStop .zlibCinfo s)

/-- ZLIB_FCHECK_BAD (R204). -/
def execZlibFcheckBad (_cinfo : BitVec 4) (_flg : Byte) (s : State) : Host.Outcome State Fault Refusal :=
  .next (raiseStop .zlibFcheck s)

/-- ZLIB_FDICT_BAD (R205). -/
def execZlibFdictBad (_cinfo : BitVec 4) (_flg : Byte) (s : State) : Host.Outcome State Fault Refusal :=
  .next (raiseStop .zlibFdict s)

end Sys2Proof.Machine
end

