-- ==== Sys2Proof/Machine/Dispatch.lean ====
section
/-! DEFINITION. One arm per row of the opcode table. -/

namespace Sys2Proof.Machine

def exec (i : Instr) (s : State) : Host.Outcome State Fault Refusal :=
  match i with
  | .blockStored bfinal => Sys2Proof.Machine.execBlockStored bfinal s
  | .blockFixed bfinal => Sys2Proof.Machine.execBlockFixed bfinal s
  | .blockDynamic bfinal => Sys2Proof.Machine.execBlockDynamic bfinal s
  | .blockReserved bfinal => Sys2Proof.Machine.execBlockReserved bfinal s
  | .clLiteral len => Sys2Proof.Machine.execClLiteral len s
  | .clRepeat => Sys2Proof.Machine.execClRepeat s
  | .clZeros3 => Sys2Proof.Machine.execClZeros3 s
  | .clZeros11 => Sys2Proof.Machine.execClZeros11 s
  | .clUnknown sym => Sys2Proof.Machine.execClUnknown sym s
  | .lit byte => Sys2Proof.Machine.execLit byte s
  | .eob => Sys2Proof.Machine.execEob s
  | .len257 => Sys2Proof.Machine.execLen257 s
  | .len258 => Sys2Proof.Machine.execLen258 s
  | .len259 => Sys2Proof.Machine.execLen259 s
  | .len260 => Sys2Proof.Machine.execLen260 s
  | .len261 => Sys2Proof.Machine.execLen261 s
  | .len262 => Sys2Proof.Machine.execLen262 s
  | .len263 => Sys2Proof.Machine.execLen263 s
  | .len264 => Sys2Proof.Machine.execLen264 s
  | .len265 => Sys2Proof.Machine.execLen265 s
  | .len266 => Sys2Proof.Machine.execLen266 s
  | .len267 => Sys2Proof.Machine.execLen267 s
  | .len268 => Sys2Proof.Machine.execLen268 s
  | .len269 => Sys2Proof.Machine.execLen269 s
  | .len270 => Sys2Proof.Machine.execLen270 s
  | .len271 => Sys2Proof.Machine.execLen271 s
  | .len272 => Sys2Proof.Machine.execLen272 s
  | .len273 => Sys2Proof.Machine.execLen273 s
  | .len274 => Sys2Proof.Machine.execLen274 s
  | .len275 => Sys2Proof.Machine.execLen275 s
  | .len276 => Sys2Proof.Machine.execLen276 s
  | .len277 => Sys2Proof.Machine.execLen277 s
  | .len278 => Sys2Proof.Machine.execLen278 s
  | .len279 => Sys2Proof.Machine.execLen279 s
  | .len280 => Sys2Proof.Machine.execLen280 s
  | .len281 => Sys2Proof.Machine.execLen281 s
  | .len282 => Sys2Proof.Machine.execLen282 s
  | .len283 => Sys2Proof.Machine.execLen283 s
  | .len284 => Sys2Proof.Machine.execLen284 s
  | .len285 => Sys2Proof.Machine.execLen285 s
  | .badsym286 => Sys2Proof.Machine.execBadsym286 s
  | .badsym287 => Sys2Proof.Machine.execBadsym287 s
  | .dist0 => Sys2Proof.Machine.execDist0 s
  | .dist1 => Sys2Proof.Machine.execDist1 s
  | .dist2 => Sys2Proof.Machine.execDist2 s
  | .dist3 => Sys2Proof.Machine.execDist3 s
  | .dist4 => Sys2Proof.Machine.execDist4 s
  | .dist5 => Sys2Proof.Machine.execDist5 s
  | .dist6 => Sys2Proof.Machine.execDist6 s
  | .dist7 => Sys2Proof.Machine.execDist7 s
  | .dist8 => Sys2Proof.Machine.execDist8 s
  | .dist9 => Sys2Proof.Machine.execDist9 s
  | .dist10 => Sys2Proof.Machine.execDist10 s
  | .dist11 => Sys2Proof.Machine.execDist11 s
  | .dist12 => Sys2Proof.Machine.execDist12 s
  | .dist13 => Sys2Proof.Machine.execDist13 s
  | .dist14 => Sys2Proof.Machine.execDist14 s
  | .dist15 => Sys2Proof.Machine.execDist15 s
  | .dist16 => Sys2Proof.Machine.execDist16 s
  | .dist17 => Sys2Proof.Machine.execDist17 s
  | .dist18 => Sys2Proof.Machine.execDist18 s
  | .dist19 => Sys2Proof.Machine.execDist19 s
  | .dist20 => Sys2Proof.Machine.execDist20 s
  | .dist21 => Sys2Proof.Machine.execDist21 s
  | .dist22 => Sys2Proof.Machine.execDist22 s
  | .dist23 => Sys2Proof.Machine.execDist23 s
  | .dist24 => Sys2Proof.Machine.execDist24 s
  | .dist25 => Sys2Proof.Machine.execDist25 s
  | .dist26 => Sys2Proof.Machine.execDist26 s
  | .dist27 => Sys2Proof.Machine.execDist27 s
  | .dist28 => Sys2Proof.Machine.execDist28 s
  | .dist29 => Sys2Proof.Machine.execDist29 s
  | .baddist30 => Sys2Proof.Machine.execBaddist30 s
  | .baddist31 => Sys2Proof.Machine.execBaddist31 s
  | .entrySentinel => Sys2Proof.Machine.execEntrySentinel s
  | .entryLink payload t nbits => Sys2Proof.Machine.execEntryLink payload t nbits s
  | .entryLiteral payload nbits => Sys2Proof.Machine.execEntryLiteral payload nbits s
  | .entryValue payload nbits => Sys2Proof.Machine.execEntryValue payload nbits s
  | .zlibSniff cinfo flg => Sys2Proof.Machine.execZlibSniff cinfo flg s
  | .zlibCinfoBad cinfo flg => Sys2Proof.Machine.execZlibCinfoBad cinfo flg s
  | .zlibFcheckBad cinfo flg => Sys2Proof.Machine.execZlibFcheckBad cinfo flg s
  | .zlibFdictBad cinfo flg => Sys2Proof.Machine.execZlibFdictBad cinfo flg s
  | .gzFtext flg => Sys2Proof.Machine.execGzFtext flg s
  | .gzFhcrc flg => Sys2Proof.Machine.execGzFhcrc flg s
  | .gzFextra flg => Sys2Proof.Machine.execGzFextra flg s
  | .gzFname flg => Sys2Proof.Machine.execGzFname flg s
  | .gzFcomment flg => Sys2Proof.Machine.execGzFcomment flg s
  | .gzFlagsReserved flg => Sys2Proof.Machine.execGzFlagsReserved flg s
  | .wrapGzip => Sys2Proof.Machine.execWrapGzip s
  | .wrapZlib => Sys2Proof.Machine.execWrapZlib s
  | .wrapRaw => Sys2Proof.Machine.execWrapRaw s
  | .start irqEn => Sys2Proof.Machine.execStart irqEn s
  | .setCtrl irqEn => Sys2Proof.Machine.execSetCtrl irqEn s
  | .clearDone => Sys2Proof.Machine.execClearDone s
  | .statusNop => Sys2Proof.Machine.execStatusNop s
  | .writeInBase v => Sys2Proof.Machine.execWriteInBase v s
  | .writeInLen v => Sys2Proof.Machine.execWriteInLen v s
  | .writeOutBase v => Sys2Proof.Machine.execWriteOutBase v s
  | .writeOutCap v => Sys2Proof.Machine.execWriteOutCap v s
  | .writeIgnoredCause v => Sys2Proof.Machine.execWriteIgnoredCause v s
  | .writeIgnoredOutLen v => Sys2Proof.Machine.execWriteIgnoredOutLen v s
  | .writeIgnoredCheckCalc v => Sys2Proof.Machine.execWriteIgnoredCheckCalc v s
  | .writeIgnoredCheckExp v => Sys2Proof.Machine.execWriteIgnoredCheckExp v s
  | .writeIgnoredIsize v => Sys2Proof.Machine.execWriteIgnoredIsize v s
  | .writeIgnoredInBitpos v => Sys2Proof.Machine.execWriteIgnoredInBitpos v s
  | .writeIgnoredRsvd30 v => Sys2Proof.Machine.execWriteIgnoredRsvd30 v s
  | .writeIgnoredRsvd34 v => Sys2Proof.Machine.execWriteIgnoredRsvd34 v s
  | .writeIgnoredRsvd38 v => Sys2Proof.Machine.execWriteIgnoredRsvd38 v s
  | .writeIgnoredRsvd3C v => Sys2Proof.Machine.execWriteIgnoredRsvd3C v s
  | .readCtrl => Sys2Proof.Machine.execReadCtrl s
  | .readStatus => Sys2Proof.Machine.execReadStatus s
  | .readCause => Sys2Proof.Machine.execReadCause s
  | .readInBase => Sys2Proof.Machine.execReadInBase s
  | .readInLen => Sys2Proof.Machine.execReadInLen s
  | .readOutBase => Sys2Proof.Machine.execReadOutBase s
  | .readOutCap => Sys2Proof.Machine.execReadOutCap s
  | .readOutLen => Sys2Proof.Machine.execReadOutLen s
  | .readCheckCalc => Sys2Proof.Machine.execReadCheckCalc s
  | .readCheckExp => Sys2Proof.Machine.execReadCheckExp s
  | .readIsize => Sys2Proof.Machine.execReadIsize s
  | .readInBitpos => Sys2Proof.Machine.execReadInBitpos s
  | .readReserved k => Sys2Proof.Machine.execReadReserved k s

end Sys2Proof.Machine
end

