-- ==== Sys2Proof/Machine/Fetch.lean ====
section
/-! DEFINITION. What the engine decodes next: the core fetches no instructions, the sequencer's state says which element
of the input or of a table is decoded (10_state R32, 46_host_commands R319, R320). -/

namespace Sys2Proof.Machine

/-- What the engine does next. -/
inductive Fetched where
  /-- a decoded row, with the state its PEEK left -/
  | instr (i : Instr) (s : State)
  /-- the trailer check (45_checksums R295) -/
  | verify
  /-- no run in progress, or nothing a run can reach -/
  | nothing
  deriving DecidableEq, Repr

/-- A decoded word as what is next. -/
def fetched (r : Except Reject Instr) (s : State) : Fetched :=
  match r with
  | .ok i => .instr i s
  | .error _ => .nothing

/-- The wrapper's word: bytes 0 and 1 and IN_LEN (42_wrapper R190); a byte at or past IN_LEN is not read (20_memory R68). -/
def wrapperOf (s : State) : Nat :=
  wrapperWord (if 0 < inLen s then (inByte s 0).toNat else 0) (if 1 < inLen s then (inByte s 1).toNat else 0) (inLen s)

/-- The zlib header word (CMF << 8) | FLG (30_encoding R102). -/
def headerWordOf (s : State) : Nat := (inByte s 0).toNat * 256 + (inByte s 1).toNat

/-- The table entry at an index, of the alphabet in use (10_state R27). -/
def tableEntry (a : Alphabet) (t : Tables) (i : Nat) : Entry :=
  match a with
  | .cl => entryAt t.cl i
  | .ll => entryAt t.ll i
  | .dist => entryAt t.d i

/-- The format of an alphabet's symbols (30_encoding R97, R98, R100). -/
def symbolFmt : Alphabet → Fmt
  | .cl => .clSymbol
  | .ll => .llSymbol
  | .dist => .distSymbol

/-- DECODE's next element (41_table_builder R178): T[PEEK(K)], T[base + PEEK(w)], or the decoded symbol. -/
def fetchLookup (s : State) : Fetched :=
  match s.ctl.look with
  | .first =>
    let t := fill (kOf s.ctl.alpha) s
    fetched (decode .tableEntry (tableEntry t.ctl.alpha t.tab (low (kOf s.ctl.alpha) t)).toNat) t
  | .second base w =>
    let t := fill w.toNat s
    fetched (decode .tableEntry (tableEntry t.ctl.alpha t.tab (base.toNat + low w.toNat t)).toNat) t
  | .symbol sym => fetched (decode (symbolFmt s.ctl.alpha) sym.toNat) s

/-- What the sequencer's state says is next. -/
def fetch (s : State) : Fetched :=
  match s.ctl.seq with
  | .idle => .nothing
  | .wrap =>
    match s.ctl.wphase with
    | .sniff => fetched (decode .wrapper (wrapperOf s)) s
    | .zlibHeader => fetched (decode .zlibSniff (headerWordOf s)) s
    | .zlibVerdict => fetched (decode .zlibVerdict (headerWordOf s)) s
    | .gzipFlags => fetched (decode .gzipFlg s.ctl.gzLeft.toNat) s
  | .block => fetched (decode .blockHeader (low 3 (fill 3 s))) (fill 3 s)
  | .clread => fetchLookup s
  | .syms => fetchLookup s
  | .verify => .verify

/-- The bytes of host memory from address a on, lowest first. -/
def placeBytes (a : Nat) (m : List Host.Cell) : List Byte → List Host.Cell
  | [] => m
  | b :: r => placeBytes (a + 1) (memWrite m a b) r

/-- The state in which a run is in the sequencer state q and the engine moves next. -/
def midRun (q : Seq) (s : State) : State :=
  { s with regs := { s.regs with busy := true, done := false }, ctl := { s.ctl with seq := q }
           turns := if s.turns = [] then [] else .engine :: s.turns }

/-- Puts a word of a format where the engine (or the host) decodes it next. -/
def placeWord (f : Fmt) (w : Nat) (s : State) : State :=
  match f with
  | .blockHeader =>
    let t := midRun .block s
    { t with rd := { t.rd with acc := BitVec.ofNat 32 w, avail := 3 } }
  | .clSymbol =>
    let t := midRun .clread s
    { t with ctl := { t.ctl with alpha := .cl, look := .symbol (BitVec.ofNat 9 w) }
             blk := { t.blk with hlit := 257, hdist := 1 } }
  | .llSymbol =>
    let t := midRun .syms s
    { t with ctl := { t.ctl with alpha := .ll, look := .symbol (BitVec.ofNat 9 w) } }
  | .distSymbol =>
    let t := midRun .syms s
    { t with ctl := { t.ctl with alpha := .dist, look := .symbol (BitVec.ofNat 9 w), length := 3 } }
  | .tableEntry =>
    let t := midRun .syms s
    { t with ctl := { t.ctl with alpha := .ll, look := .first }
             rd := { t.rd with acc := 0, avail := 10 }
             tab := { t.tab with ll := t.tab.ll.setIfInBounds 0 (BitVec.ofNat 32 w) } }
  | .zlibSniff =>
    let t := midRun .wrap s
    { t with ctl := { t.ctl with wphase := .zlibHeader }, launch := { t.launch with inLen := 6 }
             mem := placeBytes t.launch.inBase.toNat t.mem [BitVec.ofNat 8 (w / 256), BitVec.ofNat 8 w] }
  | .zlibVerdict =>
    let t := midRun .wrap s
    { t with ctl := { t.ctl with wphase := .zlibVerdict }, launch := { t.launch with inLen := 6 }
             mem := placeBytes t.launch.inBase.toNat t.mem [BitVec.ofNat 8 (w / 256), BitVec.ofNat 8 w] }
  | .gzipFlg =>
    let t := midRun .wrap s
    { t with ctl := { t.ctl with wphase := .gzipFlags, gzLeft := BitVec.ofNat 8 w, hdrPos := 10 }
             launch := { t.launch with inLen := 18 } }
  | .wrapper =>
    let t := midRun .wrap s
    { t with ctl := { t.ctl with wphase := .sniff }, launch := { t.launch with inLen := BitVec.ofNat 32 (w / 65536) }
             mem := placeBytes t.launch.inBase.toNat t.mem [BitVec.ofNat 8 w, BitVec.ofNat 8 (w / 256)] }
  | .hostAccess => { s with turns := .access (BitVec.ofNat 41 w) :: s.turns }

end Sys2Proof.Machine
end

