-- ==== Sys2Proof/Machine/Engine.lean ====
section
/-! DEFINITION. The moves a step takes: the engine's, the host's register accesses, and reset. -/

namespace Sys2Proof.Machine

/-- One step of the engine: the row that is next, the trailer check, or, with no run in progress, nothing. -/
def engineStep (s : State) : Host.Outcome State Fault Refusal :=
  match fetch s with
  | .instr i t => exec i t
  | .verify => .next (verify s)
  | .nothing => .next s

/-- One host access to the register block (46_host_commands). -/
def accessStep (a : Access) (s : State) : Host.Outcome State Fault Refusal :=
  match decode .hostAccess a.toNat with
  | .ok i => exec i s
  | .error _ => .refused .badAccess

/-- Any value for each of k output bytes from j on (93_implementation_defined U1). -/
def freeOutput : Nat → Nat → State → State
  | 0, _, s => s
  | k + 1, j, s =>
    freeOutput k (j + 1)
      ((s.setMem (memWrite s.mem (busAddr s.launch.outBase j) (Config.resetByte s.free))).setFree (s.free + 1))

/-- How many output bytes are in flight: those the engine's next step would write (70 R380, R381, U1). -/
def inFlight (s : State) : Nat :=
  if s.regs.busy then
    match engineStep s with
    | .next t => t.outLen.toNat - s.outLen.toNat
    | _ => 0
  else 0

/-- The reset event (70_reset_and_hazards R380): the reset state; memory stays, but for the output bytes in flight, which
are any value. The schedule, the bus data and the build parameter are not the core's. -/
def resetEvent (s : State) : State :=
  let t := freeOutput (inFlight s) s.outLen.toNat s
  { State.reset with mem := t.mem, turns := s.turns, busData := s.busData, free := t.free, detect := s.detect }

/-- One move of the schedule. -/
def turnStep (t : Turn) (s : State) : Host.Outcome State Fault Refusal :=
  match t with
  | .engine => engineStep s
  | .access a => accessStep a s
  | .hostRead a => .next (hostReadMem a s)
  | .hostWrite a b => hostWriteMem a b s
  | .reset => .next (resetEvent s)

/-- The word of a bare table row, placed where it is decoded next. -/
def placeTableWord (nbits w : Nat) (s : State) : State := placeWord (tableFmt nbits w) w s

end Sys2Proof.Machine
end

