-- ==== Sys2Proof/Safety.lean ====
section
/-! DEFINITION. The terms statements are written in: the input as a stream of bits, a stop as the host sees it, and the
properties every step keeps. -/

namespace Sys2Proof.Machine

/-! ## The bit stream -/

/-- Bit i of the input, least significant bit of each byte first (20_memory R60, R61), with phantom zeros at or past the
logical end (40_bitreader R140). -/
def streamBit (s : State) (i : Nat) : Bool := (byteAt s (i / 8)).getLsbD (i % 8)

/-- The k stream bits from bit i on as a number, the first bit least significant (40_bitreader R142, R145). -/
def streamBits (s : State) (i : Nat) : Nat → Nat
  | 0 => 0
  | k + 1 => (streamBit s i).toNat + 2 * streamBits s (i + 1) k

/-- The reader invariants of 40_bitreader R149: the bit accumulator holds exactly the next avail bits of the stream. -/
structure ReaderOk (s : State) : Prop where
  /-- item 1: PEEK(16) leaves at most 23 bits -/
  few : s.rd.avail.toNat ≤ 23
  /-- item 4, and no more bits than were pulled: the position is at or past start -/
  pulled : 8 * s.rd.start.toNat + s.rd.avail.toNat ≤ 8 * s.rd.cur
  /-- items 2 and 3: the accumulator is the stream's bits from pos on, and nothing above them -/
  bits : s.rd.acc.toNat = streamBits s (pos s) s.rd.avail.toNat

/-- Consuming k more bits passes the OVERRUN_CHECK (40_bitreader R144): always, in the build of this core. -/
def BitsLeft (k : Nat) (s : State) : Prop := s.detect = true → pos s + k ≤ 8 * s.rd.endOff.toNat

/-- IN_BITPOS at a stop with format f and position n (10_state R46). -/
def bitpos (f : StreamFmt) (n : Nat) : Word := if f = .invalid then 0 else BitVec.ofNat 32 n

/-- The reader after k more stream bits have been consumed, everything that says where the stream lies unchanged. -/
structure Consumed (k : Nat) (s t : State) : Prop where
  pos : pos t = pos s + k
  reader : ReaderOk t
  start : t.rd.start = s.rd.start
  stop : t.rd.endOff = s.rd.endOff

/-- Everything but the reader and the control state is as before. -/
structure Untouched (s t : State) : Prop where
  regs : t.regs = s.regs
  launch : t.launch = s.launch
  outLen : t.outLen = s.outLen
  blk : t.blk = s.blk
  tab : t.tab = s.tab
  scr : t.scr = s.scr
  sums : t.sums = s.sums
  fe : t.fe = s.fe
  mem : t.mem = s.mem
  turns : t.turns = s.turns
  busData : t.busData = s.busData
  free : t.free = s.free
  detect : t.detect = s.detect

/-! ## The rows of the length and distance tables -/

/-- The length symbols with their base and number of extra bits (30_encoding R99). -/
def lengthSpec : List (Instr × Nat × Nat) :=
  [(.len257, 3, 0), (.len258, 4, 0), (.len259, 5, 0), (.len260, 6, 0), (.len261, 7, 0), (.len262, 8, 0),
   (.len263, 9, 0), (.len264, 10, 0), (.len265, 11, 1), (.len266, 13, 1), (.len267, 15, 1), (.len268, 17, 1),
   (.len269, 19, 2), (.len270, 23, 2), (.len271, 27, 2), (.len272, 31, 2), (.len273, 35, 3), (.len274, 43, 3),
   (.len275, 51, 3), (.len276, 59, 3), (.len277, 67, 4), (.len278, 83, 4), (.len279, 99, 4), (.len280, 115, 4),
   (.len281, 131, 5), (.len282, 163, 5), (.len283, 195, 5), (.len284, 227, 5), (.len285, 258, 0)]

/-- The distance symbols with their base and number of extra bits (30_encoding R100). -/
def distSpec : List (Instr × Nat × Nat) :=
  [(.dist0, 1, 0), (.dist1, 2, 0), (.dist2, 3, 0), (.dist3, 4, 0), (.dist4, 5, 1), (.dist5, 7, 1),
   (.dist6, 9, 2), (.dist7, 13, 2), (.dist8, 17, 3), (.dist9, 25, 3), (.dist10, 33, 4), (.dist11, 49, 4),
   (.dist12, 65, 5), (.dist13, 97, 5), (.dist14, 129, 6), (.dist15, 193, 6), (.dist16, 257, 7),
   (.dist17, 385, 7), (.dist18, 513, 8), (.dist19, 769, 8), (.dist20, 1025, 9), (.dist21, 1537, 9),
   (.dist22, 2049, 10), (.dist23, 3073, 10), (.dist24, 4097, 11), (.dist25, 6145, 11), (.dist26, 8193, 12),
   (.dist27, 12289, 12), (.dist28, 16385, 13), (.dist29, 24577, 13)]

/-- The ignored writes of value v (46_host_commands R317). -/
def ignoredWrites (v : Word) : List Instr :=
  [.statusNop, .writeIgnoredCause v, .writeIgnoredOutLen v, .writeIgnoredCheckCalc v, .writeIgnoredCheckExp v,
   .writeIgnoredIsize v, .writeIgnoredInBitpos v, .writeIgnoredRsvd30 v, .writeIgnoredRsvd34 v, .writeIgnoredRsvd38 v,
   .writeIgnoredRsvd3C v]

/-- The reads that are exact at any time, with what they return (46_host_commands R310, R318). -/
def exactReads (r : HostRegs) : List (Instr × Word) :=
  [(.readCtrl, ctrlWord r), (.readStatus, statusWord r), (.readInBase, r.inBase), (.readInLen, r.inLen),
   (.readOutBase, r.outBase), (.readOutCap, r.outCap), (.readReserved 0, 0), (.readReserved 1, 0), (.readReserved 2, 0),
   (.readReserved 3, 0)]

/-- The reads of the result registers, with what they return while idle (46_host_commands R310, R318). -/
def resultReads (r : HostRegs) : List (Instr × Word) :=
  [(.readCause, causeWord r), (.readOutLen, r.outLen), (.readCheckCalc, r.checkCalc), (.readCheckExp, r.checkExp),
   (.readIsize, r.isize), (.readInBitpos, r.inBitpos)]

/-- The stop causes with the code CAUSE reports and the RESULT of the stop (60_exceptions R340, R341). -/
def causeSpec : List (Cause × Nat × Result) :=
  [(.none, 0x00, .ok), (.gzipMethod, 0x01, .invalid), (.gzipUnknownFlags, 0x02, .invalid),
   (.gzipHeaderTruncated, 0x03, .invalid), (.gzipHeaderCrc, 0x04, .invalid), (.zlibCinfo, 0x05, .invalid),
   (.zlibFcheck, 0x06, .invalid), (.zlibFdict, 0x07, .invalid), (.btypeReserved, 0x08, .invalid),
   (.storedLenMismatch, 0x09, .invalid), (.storedLenOverrun, 0x0A, .invalid), (.huffmanOverfull, 0x0B, .invalid),
   (.huffmanIncomplete, 0x0C, .invalid), (.clRepeatNoPrevious, 0x0D, .invalid), (.clRepeatOverflow, 0x0E, .invalid),
   (.clSymbolUnknown, 0x0F, .invalid), (.invalidCodeword, 0x10, .invalid), (.invalidSymbol, 0x11, .invalid),
   (.distanceTooFar, 0x12, .invalid), (.checksumMismatch, 0x13, .checksum), (.inputOverrun, 0x14, .invalid),
   (.outputFull, 0x15, .outputFull), (.tableOverflow, 0x16, .invalid)]

/-! ## Codes -/

/-- The code-space sum of a set of lengths in units of 2^-15 (41_table_builder R163 with every term scaled to 15 bits). -/
def kraft (lens : List Nat) : Nat := ((lens.filter (0 < ·)).map fun l => 2 ^ (15 - l)).sum

/-- An l-bit codeword read the other way round (00_scope R13). -/
def revBits : Nat → Nat → Nat
  | 0, _ => 0
  | l + 1, c => 2 * revBits l (c % 2 ^ l) + c / 2 ^ l % 2

/-- The canonical value of symbol s's codeword, most significant bit first (41_table_builder R168, R170, as R112 gives it for
the fixed code): each symbol before it in the order of (length, symbol) takes its share of the code space. -/
def canonOf (lens : List Nat) (s : Nat) : Nat :=
  let len := fun t => (lens[t]?).getD 0
  (((List.range lens.length).filter fun t => decide (0 < len t ∧ (len t < len s ∨ len t = len s ∧ t < s))).map
    fun t => 2 ^ (len s - len t)).sum

/-- Stream bits x, the first one least significant, begin with the codeword of symbol s (00_scope R14). -/
def Begins (lens : List Nat) (s x : Nat) : Prop :=
  0 < (lens[s]?).getD 0 ∧ x % 2 ^ (lens[s]?).getD 0 = revBits ((lens[s]?).getD 0) (canonOf lens s)

/-- DECODE's table reads (41_table_builder R178) where the next stream bits are x: the final entry and the bits consumed. -/
def lookup {cap : Nat} (k : Nat) (t : Vector Entry cap) (x : Nat) : Entry × Nat :=
  let e := entryAt t (x % 2 ^ k)
  if isLink e then
    let f := entryAt t ((entryPayload e).toNat + x / 2 ^ k % 2 ^ entryNbits e)
    (f, k + entryNbits f)
  else (e, entryNbits e)

/-- A table with primary width k built from an accepted code of two or more symbols decodes it: from stream bits that begin
with the codeword of s, DECODE consumes len[s] bits and returns PV[s] | nbits, and they begin with no other codeword
(41_table_builder R179). -/
def DecodesExactly (cap k : Nat) (pv : Nat → Entry) : Prop :=
  ∀ (lens : List Nat) (t u : Vector Entry cap) (rc nf s x : Nat), (∀ l ∈ lens, l ≤ 15) →
    lens.filter (0 < ·) ≠ [1] → build k lens pv t = .ok u rc nf → Begins lens s x →
    lookup k u x =
      (pv s ||| BitVec.ofNat 32 (if (lens[s]?).getD 0 ≤ k then (lens[s]?).getD 0 else (lens[s]?).getD 0 - k),
        (lens[s]?).getD 0) ∧
    ∀ s', Begins lens s' x → s' = s

/-- cl_len as a dynamic header that starts at stream bit i gives it: k lengths in the order PERM, the rest 0
(43_block_engine R233). -/
def headerClLens (s : State) (i k : Nat) : List Nat :=
  (List.range 19).map fun sym => if perm.idxOf sym < k then streamBits s (i + 3 * perm.idxOf sym) 3 else 0

/-! ## Results of the rows -/

/-- A front-end result: the format, the trailer's values, the reader at start with nothing pulled, and the first block header
next (42_wrapper R201, R207, R208, 40_bitreader R150). -/
def FrontEndDone (f : StreamFmt) (start stop : Nat) (check isize : Word) (s t : State) : Prop :=
  t = { s with fe := { fmt := f, expCheck := check, isize := isize }
               rd := { acc := 0, avail := 0, cur := start, start := BitVec.ofNat 32 start, endOff := BitVec.ofNat 32 stop }
               ctl := { s.ctl with seq := .block } }

/-- Handling of a gzip flag is over: the flags left are next at offset p, or, when none is left, the gzip result holds
(30_encoding R117, 42_wrapper R201). -/
def GzipGoesOn (left : Byte) (p : Nat) (s t : State) : Prop :=
  if left = 0 then
    FrontEndDone .gzip p (inLen s - 8)
      (inByte s (inLen s - 5) ++ inByte s (inLen s - 6) ++ inByte s (inLen s - 7) ++ inByte s (inLen s - 8))
      (inByte s (inLen s - 1) ++ inByte s (inLen s - 2) ++ inByte s (inLen s - 3) ++ inByte s (inLen s - 4)) s t
  else t = { s with ctl := { s.ctl with wphase := .gzipFlags, gzLeft := left, hdrPos := p } }

/-- The two block latches after a header with BFINAL b and BTYPE k, the rest of the block registers as before. -/
def blockLatches (b : Bool) (k : BitVec 2) (s : State) : BlockRegs := { s.blk with bfinal := b, btype := k }

/-- The first byte boundary at or after the 3 header bits: where a stored block's LEN lies (43_block_engine R224). -/
def storedAt (s : State) : Nat := (pos s + 10) / 8

/-- lens, n and the lookup after r copies of v are stored and the total is not reached: everything else is as before. -/
structure LensStored (v : BitVec 4) (r : Nat) (s t : State) : Prop where
  stored : ∀ i, s.ctl.n ≤ i → i < s.ctl.n + r → lenAt t i = v
  others : ∀ i, i < s.ctl.n ∨ s.ctl.n + r ≤ i → lenAt t i = lenAt s i
  blk : t.blk = { s.blk with lens := t.blk.lens }
  ctl : t.ctl = { s.ctl with n := s.ctl.n + r, alpha := .cl, look := .first }
  rest : t = { s with blk := t.blk, ctl := t.ctl, rd := t.rd }

/-- The lengths of the literal/length and distance alphabets that the last code length completes: the first HLIT of lens and
the next HDIST, symbols at or past the counts absent (43_block_engine R242). -/
def splitLL (lens : Nat → BitVec 4) (hlit : Nat) : List Nat :=
  (List.range 288).map fun i => if i < hlit then (lens i).toNat else 0

/-- The distance half of splitLL (43_block_engine R242). -/
def splitD (lens : Nat → BitVec 4) (hlit hdist : Nat) : List Nat :=
  (List.range 32).map fun i => if i < hdist then (lens (hlit + i)).toNat else 0

/-! ## What the engine's operations keep -/

/-- What no operation of the engine but the stop changes (the front end's results as long as it runs), and what happens to host
memory: only the output bytes from out_len on, up to the new out_len, which stays within OUT_CAP (20_memory R69). -/
structure EngineKeeps (s t : State) : Prop where
  regs : t.regs = s.regs
  launch : t.launch = s.launch
  turns : t.turns = s.turns
  busData : t.busData = s.busData
  free : t.free = s.free
  detect : t.detect = s.detect
  running : s.ctl.seq ≠ .idle → t.ctl.seq ≠ .idle
  front : t.ctl.seq = .wrap → s.ctl.seq = .wrap ∧ t.fe = s.fe
  grows : s.outLen.toNat ≤ t.outLen.toNat
  fits : s.outLen.toNat ≤ outCap s → t.outLen.toNat ≤ outCap s
  memForm : memWf s.mem = true → memWf t.mem = true
  mem : ∀ a, (∀ j, s.outLen.toNat ≤ j → j < t.outLen.toNat → a ≠ busAddr s.launch.outBase j) → memRead t.mem a = memRead s.mem a

/-- The host's register accesses (30_encoding R120); every other row is the engine's. -/
def isAccess (i : Instr) : Bool := decide ((encode i).1 = .hostAccess)

/-- Both ways an operation can end satisfy P. -/
inductive Res.Post {α : Type} (P : State → Prop) : Res α → Prop where
  | ok {a : α} {s : State} (h : P s) : Res.Post P (.ok a s)
  | raised {c : Cause} {s : State} (h : P s) : Res.Post P (.raised c s)

/-! ## A stop as the host sees it -/

/-- The registers after a stop with cause c, format f, checksum k and bit position p: one event, in which every result
register is written, BUSY goes to 0 and DONE to 1, and nothing else of the register block changes
(46_host_commands R321, 60_exceptions R352). -/
def stoppedRegs (c : Cause) (f : StreamFmt) (k p : Word) (s : State) : HostRegs :=
  { irqEn := s.regs.irqEn, busy := false, done := true, result := resultOf c, format := f, cause := c,
    inBase := s.regs.inBase, inLen := s.regs.inLen, outBase := s.regs.outBase, outCap := s.regs.outCap,
    outLen := s.outLen, checkCalc := k, checkExp := s.fe.expCheck, isize := s.fe.isize, inBitpos := p }

/-- A stop with cause c from s: the registers, the engine idle, and memory, the launch and the outside untouched. -/
structure Stopped (c : Cause) (f : StreamFmt) (k p : Word) (s t : State) : Prop where
  regs : t.regs = stoppedRegs c f k p s
  seq : t.ctl.seq = .idle
  mem : t.mem = s.mem
  outLen : t.outLen = s.outLen
  launch : t.launch = s.launch
  turns : t.turns = s.turns
  busData : t.busData = s.busData
  free : t.free = s.free
  detect : t.detect = s.detect

/-- What a stop leaves of the datapath as it was in s: all of it but the sequencer's state and fmt. -/
structure DatapathKept (s t : State) : Prop where
  rd : t.rd = s.rd
  blk : t.blk = s.blk
  tab : t.tab = s.tab
  scr : t.scr = s.scr
  sums : t.sums = s.sums
  ctl : t.ctl = { s.ctl with seq := .idle }
  expCheck : t.fe.expCheck = s.fe.expCheck
  isize : t.fe.isize = s.fe.isize

/-- INPUT_OVERRUN's stop at stream bit p, of the datapath only the reader and the block registers changed
(40_bitreader R144, R147). -/
def OverrunsAt (p : Nat) (s t : State) : Prop :=
  Stopped .inputOverrun s.fe.fmt 0 (bitpos s.fe.fmt p) s t ∧ DatapathKept { s with rd := t.rd, blk := t.blk } t

/-- The code lengths once the last ones, from index n on, are v. -/
def lensThen (v : BitVec 4) (s : State) (i : Nat) : BitVec 4 := if s.ctl.n ≤ i then v else lenAt s i

/-- ll_len once the last code lengths are v (43_block_engine R242). -/
def lastLL (v : BitVec 4) (s : State) : List Nat := splitLL (lensThen v s) s.blk.hlit.toNat

/-- d_len once the last code lengths are v (43_block_engine R242). -/
def lastD (v : BitVec 4) (s : State) : List Nat := splitD (lensThen v s) s.blk.hlit.toNat s.blk.hdist.toNat

/-- The code lengths are complete, the last ones v, after c more stream bits: the literal/length code is built first, and a code
that is refused stops the run there with its verdict; both accepted, the symbol loop is next (43_block_engine R242, R243). The
field scratch, what rc and next_free hold once the builds are over, is the model's choice (log entry 24): 10_state R28 has them
live only inside one BUILD. -/
inductive BuildsBoth (v : BitVec 4) (c : Nat) (s t : State) : Prop where
  /-- the literal/length code is refused -/
  | llRefused (x : Cause) (tl : Vector Entry 1334) (ll : build 10 (lastLL v s) pvLL s.tab.ll = .fail x tl)
      (stopped : Stopped x s.fe.fmt 0 (bitpos s.fe.fmt (pos s + c)) s t) (tab : t.tab = { s.tab with ll := tl })
      (sums : t.sums = s.sums)
  /-- the literal/length code is accepted and the distance code refused -/
  | dRefused (x : Cause) (tl : Vector Entry 1334) (rc nf : Nat) (td : Vector Entry 402)
      (ll : build 10 (lastLL v s) pvLL s.tab.ll = .ok tl rc nf) (d : build 8 (lastD v s) pvD s.tab.d = .fail x td)
      (stopped : Stopped x s.fe.fmt 0 (bitpos s.fe.fmt (pos s + c)) s t) (tab : t.tab = { s.tab with ll := tl, d := td })
      (sums : t.sums = s.sums)
  /-- both are accepted -/
  | built (tl : Vector Entry 1334) (rcl nfl : Nat) (td : Vector Entry 402) (rc nf : Nat)
      (ll : build 10 (lastLL v s) pvLL s.tab.ll = .ok tl rcl nfl) (d : build 8 (lastD v s) pvD s.tab.d = .ok td rc nf)
      (tab : t.tab = { s.tab with ll := tl, d := td }) (llLen : lensOf t.blk.llLen = lastLL v s)
      (dLen : lensOf t.blk.dLen = lastD v s)
      (blk : t.blk = { s.blk with lens := t.blk.lens, llLen := t.blk.llLen, dLen := t.blk.dLen })
      (scratch : t.scr.rc = BitVec.ofNat 15 rc ∧ t.scr.nextFree = BitVec.ofNat 11 nf)
      (ctl : t.ctl = { s.ctl with seq := .syms, n := clTotal s, alpha := .ll, look := .first })
      (rest : t = { s with rd := t.rd, blk := t.blk, ctl := t.ctl, tab := t.tab, scr := t.scr })

/-! ## What every step keeps -/

/-- Memory is canonical; BUSY = 1 exactly while the sequencer is not idle; during a run DONE = 0, the result registers are
cleared, the latches equal the configuration registers, the buffers are legal and the output fits; and the front end's
results are NONE and 0 as long as it runs (10_state R44, R45, R50, 46_host_commands R311, R316, R321, 20_memory R68, R69, R79). -/
structure Inv (s : State) : Prop where
  memForm : memWf s.mem = true
  busy : s.regs.busy = true ↔ s.ctl.seq ≠ .idle
  done : s.regs.busy = true → s.regs.done = false
  cleared : s.regs.busy = true → s.regs.result = .ok ∧ s.regs.format = .none ∧ s.regs.cause = .none ∧ s.regs.outLen = 0 ∧
    s.regs.checkCalc = 0 ∧ s.regs.checkExp = 0 ∧ s.regs.isize = 0 ∧ s.regs.inBitpos = 0
  latched : s.regs.busy = true → s.launch =
    { inBase := s.regs.inBase, inLen := s.regs.inLen, outBase := s.regs.outBase, outCap := s.regs.outCap }
  buffers : s.regs.busy = true → launchOk s.regs = true
  fits : s.regs.busy = true → s.outLen.toNat ≤ outCap s
  front : s.ctl.seq = .wrap → s.fe = { fmt := .none, expCheck := 0, isize := 0 }

/-- A run that decodes DEFLATE data: the invariant, the reader on its stream, the stream inside the input. -/
structure Decoding (s : State) : Prop where
  inv : Inv s
  busy : s.regs.busy = true
  reader : ReaderOk s
  inside : s.rd.endOff.toNat ≤ inLen s

/-- The sequencer is decoding DEFLATE data. -/
def inDeflate (s : State) : Bool :=
  match s.ctl.seq with
  | .block | .clread | .syms => true
  | _ => false

/-- What the builder writes at index i of a table with primary width k: no link outside the primary region, a link's base
at or past it, no width above 15, in no packed value a low byte above x, and literals only where lit allows them
(41_table_builder R172 to R176). -/
structure EntryOk (k x : Nat) (lit : Bool) (i : Nat) (e : Entry) : Prop where
  primary : isLink e = true → i < 2 ^ k
  base : isLink e = true → 2 ^ k ≤ (entryPayload e).toNat
  nbits : e = sentinel ∨ entryNbits e ≤ 15
  extra : e = sentinel ∨ isLink e = true ∨ lit = true ∧ entryT e = true ∨ payloadExtra (entryPayload e) ≤ x

/-- Every entry of a table memory is one the builder writes. -/
def TableOk {cap : Nat} (k x : Nat) (lit : Bool) (t : Vector Entry cap) : Prop := ∀ i, (h : i < cap) → EntryOk k x lit i t[i]

/-- The legal values of the counts of a dynamic header (10_state R25, 43_block_engine R232). -/
structure CountsOk (b : BlockRegs) : Prop where
  hlit : 257 ≤ b.hlit.toNat ∧ b.hlit.toNat ≤ 288
  hdist : 1 ≤ b.hdist.toNat ∧ b.hdist.toNat ≤ 32
  hclen : 4 ≤ b.hclen.toNat ∧ b.hclen.toNat ≤ 19

/-- The bit reader follows the stream while DEFLATE data is decoded, inside the input, the counts of a dynamic header are
legal while its code lengths are read, and the table memories and the link in progress are the builder's. A packed value's low
byte is a code-length symbol (at most 18) in T_CL, a count of extra bits in T_LL and T_D (at most 13). -/
structure ReaderInv (s : State) : Prop where
  reader : inDeflate s = true → ReaderOk s ∧ s.rd.endOff.toNat ≤ inLen s
  cl : TableOk Config.kCL 18 false s.tab.cl
  ll : TableOk Config.kLL 13 true s.tab.ll
  d : TableOk Config.kD 13 false s.tab.d
  counts : s.ctl.seq = .clread → CountsOk s.blk
  link : ∀ base w, s.ctl.look = .second base w → 2 ^ kOf s.ctl.alpha ≤ base.toNat ∧ w.toNat ≤ 15

end Sys2Proof.Machine
end

