-- ==== Sys2Proof/Certificates/Slice0/Obligations.lean ====
section
/-! DEFINITION. The statements about the model, from the numbered rules of spec/. Each docstring names the rules it
formalises; OBLIGATIONS.json lists them. A statement that says exec gives a next state is that row's completion. -/

open Sys2Proof Sys2Proof.Machine

/-! ## Encodings -/

/-- Every well-formed row decodes back from the word the encoder gives it (30_encoding R91 to R120). -/
def Obligations.DecodeOfEncode : Prop :=
  ∀ i : Instr, i.wf = true → decode (encode i).1 (encode i).2 = .ok i

/-- Whatever the decoder gives is well-formed, and where the word has no ignored bits the encoder gives back the very word
decoded: no two words are one row. The wrapper row stands for a set of inputs and a host access has reserved bits, so these
two formats are left out of the second clause. -/
def Obligations.EncodeOfDecode : Prop :=
  ∀ (f : Fmt) (w : Nat) (i : Instr), decode f w = .ok i →
    i.wf = true ∧ (f ≠ .wrapper → f ≠ .hostAccess → encode i = (f, w))

/-- One word of each format, written out from its encoding table, decodes to its row (R91, R97, R98, R100, R105, R109, R114,
R116, R120, 42_wrapper R190). -/
def Obligations.SampleWordsDecode : Prop :=
  decode .blockHeader 0b101 = .ok (.blockDynamic true) ∧
  decode .clSymbol 0b10010 = .ok .clZeros11 ∧
  decode .llSymbol 0x100 = .ok .eob ∧
  decode .llSymbol 0x11D = .ok .len285 ∧
  decode .distSymbol 0b11101 = .ok .dist29 ∧
  decode .tableEntry 0x000000FF = .ok .entrySentinel ∧
  decode .tableEntry 0x00040082 = .ok (.entryLink 0x400 false 2) ∧
  decode .tableEntry 0x00006148 = .ok (.entryLiteral 0x61 8) ∧
  decode .tableEntry 0x00730408 = .ok (.entryValue 0x7304 8) ∧
  decode .zlibVerdict 0x7820 = .ok (.zlibFdictBad 7 0x20) ∧
  decode .gzipFlg 0x0A = .ok (.gzFname 0x0A) ∧
  decode .wrapper (wrapperWord 0x1F 0x8B 17) = .ok .wrapRaw ∧
  decode .hostAccess 0x1_00_00000003 = .ok (.start true)

/-- The wrapper is detected in the order gzip, zlib, raw (42_wrapper R190 to R193). -/
def Obligations.WrapperDetectionOrder : Prop :=
  ∀ b0 b1 n : Nat, b0 < 256 → b1 < 256 → n < 2 ^ 32 →
    decode .wrapper (wrapperWord b0 b1 n) =
      .ok (if 18 ≤ n ∧ b0 = 0x1F ∧ b1 = 0x8B then .wrapGzip else if 6 ≤ n ∧ b0 % 16 = 8 then .wrapZlib else .wrapRaw)

/-- The zlib checks are made in the order CINFO, FCHECK, FDICT, and a header that passes them all has no verdict row
(42_wrapper R203 to R205, 60_exceptions R344). -/
def Obligations.ZlibCheckOrder : Prop :=
  ∀ (c : BitVec 4) (f : Byte),
    decode .zlibVerdict (zlibWord c f) =
      if 7 < c.toNat then .ok (.zlibCinfoBad c f)
      else if (c.toNat * 4096 + 2048 + f.toNat) % 31 ≠ 0 then .ok (.zlibFcheckBad c f)
      else if f.getLsbD 5 = true then .ok (.zlibFdictBad c f)
      else .error .headerValid

/-! ## Steps -/

/-- A step runs the row that is decoded: at a block header, at the four points of the front end, at a table entry, at a
decoded symbol, and on a host access; VERIFY is the step it names. That the sequencer decodes these elements in this order is
46_host_commands R319 and R320. Around exec the step adds what PEEK pulls (40_bitreader R142) and, for a move of the schedule,
taking it off the schedule. How the run is cut into steps is the model's choice: the schedule (log entry 4), the front end's
separate steps (log entry 18), DECODE's separate steps (log entry 25), and that a step with nothing to do leaves the engine as
it is (log entry 20). -/
def Obligations.StepRunsDecodedRow : Prop :=
  ∀ (s : State) (i : Instr),
    (s.turns = [] → s.ctl.seq = .block → decode .blockHeader (low 3 (fill 3 s)) = .ok i → step s = exec i (fill 3 s)) ∧
    (s.turns = [] → s.ctl.seq = .wrap → s.ctl.wphase = .sniff → decode .wrapper (wrapperOf s) = .ok i →
      step s = exec i s) ∧
    (s.turns = [] → s.ctl.seq = .wrap → s.ctl.wphase = .zlibHeader → decode .zlibSniff (headerWordOf s) = .ok i →
      step s = exec i s) ∧
    (s.turns = [] → s.ctl.seq = .wrap → s.ctl.wphase = .zlibVerdict → decode .zlibVerdict (headerWordOf s) = .ok i →
      step s = exec i s) ∧
    (s.turns = [] → s.ctl.seq = .wrap → s.ctl.wphase = .gzipFlags → decode .gzipFlg s.ctl.gzLeft.toNat = .ok i →
      step s = exec i s) ∧
    (s.turns = [] → (s.ctl.seq = .clread ∨ s.ctl.seq = .syms) → s.ctl.look = .first →
      decode .tableEntry (tableEntry s.ctl.alpha s.tab (low (kOf s.ctl.alpha) (fill (kOf s.ctl.alpha) s))).toNat = .ok i →
      step s = exec i (fill (kOf s.ctl.alpha) s)) ∧
    (∀ (base : BitVec 24) (w : BitVec 6), s.turns = [] → (s.ctl.seq = .clread ∨ s.ctl.seq = .syms) →
      s.ctl.look = .second base w →
      decode .tableEntry (tableEntry s.ctl.alpha s.tab (base.toNat + low w.toNat (fill w.toNat s))).toNat = .ok i →
      step s = exec i (fill w.toNat s)) ∧
    (∀ sym : BitVec 9, s.turns = [] → (s.ctl.seq = .clread ∨ s.ctl.seq = .syms) → s.ctl.look = .symbol sym →
      decode (symbolFmt s.ctl.alpha) sym.toNat = .ok i → step s = exec i s) ∧
    (∀ (a : Access) (r : List Turn), s.turns = .access a :: r → decode .hostAccess a.toNat = .ok i →
      step s = exec i (s.setTurns r)) ∧
    (∀ r : List Turn, s.turns = .engine :: r → step s = engineStep (s.setTurns r)) ∧
    (s.turns = [] → step s = engineStep s) ∧
    (s.turns = [] → s.ctl.seq = .verify → step s = .next (verify s)) ∧
    (s.turns = [] → s.ctl.seq = .idle → step s = .next s)

/-- An access at an offset that is no multiple of 4 is no move (20_memory R65, 93_implementation_defined U9). That an offset of
0x40 or more is none either is the model's choice (log entry 17): 10_state R47 says only that what it reaches is platform
business. Every other access is a move (30_encoding R120), but for a START whose buffers are no legal launch (log entry 16). -/
def Obligations.AccessesOffTheMapAreRefused : Prop :=
  ∀ (s : State) (a : Access) (r : List Turn), s.turns = .access a :: r →
    ((0x40 ≤ a.toNat / 2 ^ 32 % 256 ∨ a.toNat / 2 ^ 32 % 4 ≠ 0) → step s = .refused .badAccess) ∧
    (a.toNat / 2 ^ 32 % 256 < 0x40 → a.toNat / 2 ^ 32 % 4 = 0 →
      ∃ i, decode .hostAccess a.toNat = .ok i ∧ isAccess i = true ∧
        ((∃ t, step s = .next t) ∨
          (∃ e, i = .start e) ∧ s.regs.busy = false ∧ launchOk s.regs = false ∧ step s = .refused .launchBuffers))

/-! ## Reset -/

/-- After reset every register reads 0, the sequencer is idle and irq is low (10_state R51). -/
def Obligations.ResetReadsZero : Prop :=
  (∀ p ∈ exactReads State.reset.regs ++ resultReads State.reset.regs,
    ∃ t, exec p.1 State.reset = .next t ∧ t.busData = 0) ∧
  State.reset.ctl.seq = .idle ∧ irq State.reset = false

/-- The reset state meets the invariants; that the datapath is zero there is the model's choice (log entry 2). -/
def Obligations.ResetMeetsInvariants : Prop := Inv State.reset ∧ ReaderInv State.reset

/-- A reset, at any moment, leaves every register 0, the engine idle and irq low, with no stop; memory is unchanged but for
output bytes the abandoned run had not yet counted (70_reset_and_hazards R380, R381, 93_implementation_defined U1). -/
def Obligations.ResetAbandonsTheRun : Prop :=
  ∀ (s : State) (r : List Turn), Inv s → s.turns = .reset :: r →
    ∃ t, step s = .next t ∧ t.regs = State.reset.regs ∧ t.ctl.seq = .idle ∧ irq t = false ∧ t.turns = r ∧
      t.busData = s.busData ∧ t.detect = s.detect ∧ memWf t.mem = true ∧
      (s.regs.busy = false → t.mem = s.mem) ∧
      ∀ a, (∀ j, s.outLen.toNat ≤ j → j < outCap s → a ≠ busAddr s.launch.outBase j) → memRead t.mem a = memRead s.mem a

/-! ## What every step keeps -/

/-- The invariant is kept by every step, from every state that meets it: memory canonical, BUSY exactly while the sequencer
is not idle, and during a run DONE = 0, result registers cleared, latches equal to the configuration registers, buffers
legal, output within OUT_CAP (46_host_commands R311, R316, R321, 20_memory R69). -/
def Obligations.InvariantKept : Prop :=
  ∀ s t : State, Inv s → step s = .next t → Inv t

/-- The reader invariants R149 of 40_bitreader hold between operations, whatever the host does: every step keeps them while
DEFLATE data is decoded, and every step keeps the table memories in the builder's form. -/
def Obligations.ReaderInvariantKept : Prop :=
  ∀ s t : State, Inv s → ReaderInv s → step s = .next t → ReaderInv t

/-- A step of the engine changes no byte of memory but output bytes it counts, all within OUT_CAP (20_memory R69). -/
def Obligations.EngineWritesOnlyOutput : Prop :=
  ∀ s t : State, Inv s → engineStep s = .next t → ∀ a, memRead t.mem a ≠ memRead s.mem a →
    s.regs.busy = true ∧ ∃ j, s.outLen.toNat ≤ j ∧ j < t.outLen.toNat ∧ j < outCap s ∧ a = busAddr s.launch.outBase j

/-- No step of a run, the engine's, the host's or a reset, changes a byte of the input (20_memory R67, R79). -/
def Obligations.InputNeverChanges : Prop :=
  ∀ s t : State, Inv s → s.regs.busy = true → step s = .next t → ∀ i, i < inLen s →
    memRead t.mem (busAddr s.launch.inBase i) = inByte s i

/-- Output bytes already counted are never written again by the engine (20_memory R69, 45_checksums R300). -/
def Obligations.OutputNeverRewritten : Prop :=
  ∀ s t : State, Inv s → engineStep s = .next t → ∀ j, j < s.outLen.toNat → s.regs.busy = true →
    memRead t.mem (busAddr s.launch.outBase j) = outByte s j

/-- A run's parameters cannot change during the run (46_host_commands R316). -/
def Obligations.ConfigFixedDuringRun : Prop :=
  ∀ s t : State, s.regs.busy = true → step s = .next t → t.regs.busy = true →
    t.regs.inBase = s.regs.inBase ∧ t.regs.inLen = s.regs.inLen ∧ t.regs.outBase = s.regs.outBase ∧
    t.regs.outCap = s.regs.outCap ∧ t.launch = s.launch

/-- A run ends only at its stop, which the engine takes and which sets DONE, or at a reset (46_host_commands R322). -/
def Obligations.RunEndsOnlyAtStopOrReset : Prop :=
  ∀ s t : State, s.regs.busy = true → step s = .next t → t.regs.busy = false →
    (t.regs.done = true ∧ t.ctl.seq = .idle ∧ (s.turns = [] ∨ ∃ r, s.turns = .engine :: r)) ∨ ∃ r, s.turns = .reset :: r

/-- The result registers change only in a stop, in the clearing of a START, or in a reset (46_host_commands R321, R311). -/
def Obligations.ResultsChangeOnlyAtStop : Prop :=
  ∀ s t : State, Inv s → step s = .next t →
    (t.regs.result = s.regs.result ∧ t.regs.format = s.regs.format ∧ t.regs.cause = s.regs.cause ∧
      t.regs.outLen = s.regs.outLen ∧ t.regs.checkCalc = s.regs.checkCalc ∧ t.regs.checkExp = s.regs.checkExp ∧
      t.regs.isize = s.regs.isize ∧ t.regs.inBitpos = s.regs.inBitpos) ∨
    (s.regs.busy = true ∧ t.regs.busy = false ∧ t.regs.done = true) ∨
    (s.regs.busy = false ∧ t.regs.busy = true ∧ t.regs.done = false) ∨
    ∃ r, s.turns = .reset :: r

/-! ## Host commands -/

/-- START while idle: the latches take the configuration, every result register is cleared, BUSY rises, IRQ_EN is stored,
and the wrapper is next; memory and the outside are untouched (46_host_commands R311, R313). The launch premises are the
model's reading of 20_memory R79 (log entry 16). -/
def Obligations.StartLaunchesWhenIdle : Prop :=
  ∀ (s : State) (e : Bool), s.regs.busy = false → launchOk s.regs = true →
    ∃ t, exec (.start e) s = .next t ∧
      t.regs = { irqEn := e, busy := true, done := false, result := .ok, format := .none, cause := .none,
                 inBase := s.regs.inBase, inLen := s.regs.inLen, outBase := s.regs.outBase, outCap := s.regs.outCap,
                 outLen := 0, checkCalc := 0, checkExp := 0, isize := 0, inBitpos := 0 } ∧
      t.launch = { inBase := s.regs.inBase, inLen := s.regs.inLen, outBase := s.regs.outBase, outCap := s.regs.outCap } ∧
      t.ctl.seq = .wrap ∧ t.ctl.wphase = .sniff ∧ t.outLen = 0 ∧
      t.fe = { fmt := .none, expCheck := 0, isize := 0 } ∧ irq t = false ∧
      t.mem = s.mem ∧ t.rd = s.rd ∧ t.blk = s.blk ∧ t.tab = s.tab ∧ t.scr = s.scr ∧ t.sums = s.sums ∧
      t.turns = s.turns ∧ t.busData = s.busData ∧ t.free = s.free ∧ t.detect = s.detect

/-- START while a run is in progress stores IRQ_EN and does nothing else (46_host_commands R312). -/
def Obligations.StartWhileBusyOnlyStoresIrqEn : Prop :=
  ∀ (s : State) (e : Bool), s.regs.busy = true → exec (.start e) s = .next { s with regs := { s.regs with irqEn := e } }

/-- A launch with buffers that pass the top of the address space or overlap is no move (20_memory R68, R69, R79). -/
def Obligations.StartRefusesBadBuffers : Prop :=
  ∀ (s : State) (e : Bool), s.regs.busy = false →
    (2 ^ 32 < s.regs.inBase.toNat + s.regs.inLen.toNat ∨ 2 ^ 32 < s.regs.outBase.toNat + s.regs.outCap.toNat ∨
      ∃ a, s.regs.inBase.toNat ≤ a ∧ a < s.regs.inBase.toNat + s.regs.inLen.toNat ∧
        s.regs.outBase.toNat ≤ a ∧ a < s.regs.outBase.toNat + s.regs.outCap.toNat) →
    exec (.start e) s = .refused .launchBuffers

/-- SET_CTRL stores IRQ_EN, busy or not, and changes irq = DONE ∧ IRQ_EN at once (46_host_commands R313). -/
def Obligations.SetCtrlStoresIrqEn : Prop :=
  ∀ (s : State) (e : Bool), ∃ t, exec (.setCtrl e) s = .next t ∧ t = { s with regs := { s.regs with irqEn := e } } ∧
    irq t = (s.regs.done && e)

/-- CLEAR_DONE clears DONE and keeps every result register; irq falls (46_host_commands R314). -/
def Obligations.ClearDoneClearsDone : Prop :=
  ∀ s : State, ∃ t, exec .clearDone s = .next t ∧ t = { s with regs := { s.regs with done := false } } ∧ irq t = false

/-- A configuration register can be written only while BUSY = 0; a write while BUSY = 1 is dropped
(46_host_commands R315, R316). -/
def Obligations.ConfigWritesOnlyWhileIdle : Prop :=
  ∀ (s : State) (v : Word),
    exec (.writeInBase v) s = .next (if s.regs.busy then s else { s with regs := { s.regs with inBase := v } }) ∧
    exec (.writeInLen v) s = .next (if s.regs.busy then s else { s with regs := { s.regs with inLen := v } }) ∧
    exec (.writeOutBase v) s = .next (if s.regs.busy then s else { s with regs := { s.regs with outBase := v } }) ∧
    exec (.writeOutCap v) s = .next (if s.regs.busy then s else { s with regs := { s.regs with outCap := v } })

/-- The ignored writes have no effect on any state, and of a CTRL or STATUS write only bits 1:0, or bit 1, count
(46_host_commands R317). -/
def Obligations.IgnoredWritesChangeNothing : Prop :=
  (∀ (s : State) (v : Word), ∀ i ∈ ignoredWrites v, exec i s = .next s) ∧
  ∀ v : Word,
    decode .hostAccess (writeWord 0 v.toNat) = .ok (if v.getLsbD 0 then .start (v.getLsbD 1) else .setCtrl (v.getLsbD 1)) ∧
    decode .hostAccess (writeWord 1 v.toNat) = .ok (if v.getLsbD 1 then .clearDone else .statusNop) ∧
    decode .hostAccess (writeWord 2 v.toNat) = .ok (.writeIgnoredCause v) ∧
    decode .hostAccess (writeWord 7 v.toNat) = .ok (.writeIgnoredOutLen v) ∧
    decode .hostAccess (writeWord 8 v.toNat) = .ok (.writeIgnoredCheckCalc v) ∧
    decode .hostAccess (writeWord 9 v.toNat) = .ok (.writeIgnoredCheckExp v) ∧
    decode .hostAccess (writeWord 10 v.toNat) = .ok (.writeIgnoredIsize v) ∧
    decode .hostAccess (writeWord 11 v.toNat) = .ok (.writeIgnoredInBitpos v) ∧
    decode .hostAccess (writeWord 12 v.toNat) = .ok (.writeIgnoredRsvd30 v) ∧
    decode .hostAccess (writeWord 13 v.toNat) = .ok (.writeIgnoredRsvd34 v) ∧
    decode .hostAccess (writeWord 14 v.toNat) = .ok (.writeIgnoredRsvd38 v) ∧
    decode .hostAccess (writeWord 15 v.toNat) = .ok (.writeIgnoredRsvd3C v)

/-- CTRL, STATUS, the configuration registers and the reserved offsets read exactly at any time, and the read changes
nothing (46_host_commands R310, R318). -/
def Obligations.ExactReadsReturnTheRegister : Prop :=
  ∀ s : State, ∀ p ∈ exactReads s.regs, exec p.1 s = .next { s with busData := p.2 }

/-- A result register reads exactly while idle; while BUSY = 1 the read gives some value, and the run goes on undisturbed
(46_host_commands R310, R318, 70_reset_and_hazards R396). -/
def Obligations.ResultReads : Prop :=
  ∀ s : State, ∀ p ∈ resultReads s.regs,
    (s.regs.busy = false → exec p.1 s = .next { s with busData := p.2 }) ∧
    (s.regs.busy = true → ∃ v, exec p.1 s = .next { s with busData := v, free := s.free + 1 })

/-- The layout of STATUS, CTRL and CAUSE as read (10_state R35, R36, R37); the code CAUSE reports of each of the 23 causes, and
the RESULT of a stop with it (60_exceptions R340, R341), both as the literals of causeSpec. -/
def Obligations.RegisterLayouts : Prop :=
  (∀ r : HostRegs,
    (statusWord r).getLsbD 0 = r.busy ∧ (statusWord r).getLsbD 1 = r.done ∧
    (statusWord r).extractLsb' 2 2 =
      (match r.result with | .ok => 0#2 | .checksum => 1#2 | .invalid => 2#2 | .outputFull => 3#2) ∧
    (statusWord r).extractLsb' 4 3 =
      (match r.format with | .none => 0#3 | .raw => 1#3 | .zlib => 2#3 | .gzip => 3#3 | .invalid => 4#3) ∧
    (statusWord r).extractLsb' 7 25 = 0 ∧
    (ctrlWord r).getLsbD 0 = false ∧ (ctrlWord r).getLsbD 1 = r.irqEn ∧ (ctrlWord r).extractLsb' 2 30 = 0 ∧
    (causeWord r).extractLsb' 8 24 = 0 ∧
    ∀ p ∈ causeSpec, r.cause = p.1 → (causeWord r).extractLsb' 0 8 = BitVec.ofNat 8 p.2.1) ∧
  (∀ c : Cause, c ∈ causeSpec.map (·.1)) ∧
  (∀ p ∈ causeSpec, resultOf p.1 = p.2.2) ∧
  ∀ (s : State), ∀ p ∈ causeSpec, (raiseStop p.1 s).regs.cause = p.1 ∧ (raiseStop p.1 s).regs.result = p.2.2

/-- irq is STATUS.DONE ∧ CTRL.IRQ_EN as these registers read; clearing DONE or IRQ_EN deasserts it (10_state R52). -/
def Obligations.IrqIsDoneAndEnabled : Prop :=
  ∀ s : State, irq s = ((statusWord s.regs).getLsbD 1 && (ctrlWord s.regs).getLsbD 1) ∧
    (∃ t, exec .clearDone s = .next t ∧ irq t = false) ∧ ∃ t, exec (.setCtrl false) s = .next t ∧ irq t = false

/-- The host's memory accesses. While BUSY = 1 it may write any byte outside both buffers, and a write inside one is no move
(70_reset_and_hazards R390 items 1 and 2, 20_memory R76); a read of the output buffer then gives some value, and the run goes on
undisturbed (R390 item 3, R76, 93_implementation_defined U5). Every other read returns the byte memory holds (20_memory R75 for
output bytes, after the host has read DONE = 1), and while BUSY = 0 any byte may be written. R390's duties last until the host has
observed DONE = 1: that the model ends them at the stop itself, so that between the stop and that observation any byte may be
written and a read of the output buffer is exact, is the model's choice (log entry 17). -/
def Obligations.HostMemoryMoves : Prop :=
  ∀ (s : State) (a : Addr) (b : Byte) (r : List Turn), Inv s →
    (s.turns = .hostWrite a b :: r →
      if s.regs.busy = true ∧ ((∃ i, i < inLen s ∧ a.toNat = busAddr s.launch.inBase i) ∨
          ∃ j, j < outCap s ∧ a.toNat = busAddr s.launch.outBase j)
      then step s = .refused .hostDuty
      else ∃ t, step s = .next t ∧ t = { s with mem := t.mem, turns := r } ∧ memRead t.mem a.toNat = b ∧
        ∀ x, x ≠ a.toNat → memRead t.mem x = memRead s.mem x) ∧
    (s.turns = .hostRead a :: r →
      if s.regs.busy = true ∧ ∃ j, j < outCap s ∧ a.toNat = busAddr s.launch.outBase j
      then ∃ v : Byte, step s = .next { s with busData := v.setWidth 32, free := s.free + 1, turns := r }
      else step s = .next { s with busData := (memRead s.mem a.toNat).setWidth 32, turns := r })

/-! ## The front end -/

/-- WRAP_GZIP: a method byte other than 8 stops; else the flags of byte 3 are handled from offset 10, or, if there are none,
the gzip result holds with the trailer read little-endian from the last 8 bytes (42_wrapper R194 to R196, R201). -/
def Obligations.GzipFixedHeader : Prop :=
  ∀ s : State, ∃ t, exec .wrapGzip s = .next t ∧
    (inByte s 2 ≠ 8 → Stopped .gzipMethod .invalid 0 0 s t ∧ DatapathKept s t) ∧
    (inByte s 2 = 8 → inByte s 3 ≠ 0 →
      t = { s with ctl := { s.ctl with wphase := .gzipFlags, gzLeft := inByte s 3, hdrPos := 10 } }) ∧
    (inByte s 2 = 8 → inByte s 3 = 0 →
      FrontEndDone .gzip 10 (inLen s - 8)
        (inByte s (inLen s - 5) ++ inByte s (inLen s - 6) ++ inByte s (inLen s - 7) ++ inByte s (inLen s - 8))
        (inByte s (inLen s - 1) ++ inByte s (inLen s - 2) ++ inByte s (inLen s - 3) ++ inByte s (inLen s - 4)) s t)

/-- WRAP_RAW gives the raw result at once; WRAP_ZLIB goes on to the header word. ZLIB_SNIFF: a header that passes CINFO, FCHECK
and FDICT gives the zlib result with the trailer read big-endian from the last 4 bytes; FLEVEL plays no part; a header that
fails a check goes on to that check's row (42_wrapper R192, R193, R203 to R208). That the header word and the failed check's
row are steps of their own is the model's choice (log entry 18). -/
def Obligations.RawAndZlibFrontEnds : Prop :=
  ∀ (s : State) (c : BitVec 4) (f : Byte),
    (∃ t, exec .wrapRaw s = .next t ∧ FrontEndDone .raw 0 (inLen s) 0 0 s t) ∧
    exec .wrapZlib s = .next { s with ctl := { s.ctl with wphase := .zlibHeader } } ∧
    ∃ t, exec (.zlibSniff c f) s = .next t ∧
      if c.toNat ≤ 7 ∧ (c.toNat * 4096 + 2048 + f.toNat) % 31 = 0 ∧ f.getLsbD 5 = false then
        FrontEndDone .zlib 2 (inLen s - 4)
          (inByte s (inLen s - 4) ++ inByte s (inLen s - 3) ++ inByte s (inLen s - 2) ++ inByte s (inLen s - 1)) 0 s t
      else t = { s with ctl := { s.ctl with wphase := .zlibVerdict } }

/-- The rows of the failed front-end checks stop with their cause, FORMAT INVALID and IN_BITPOS 0
(42_wrapper R195, R203 to R205, 60_exceptions R342, R352); and whatever check of the front end stops a run, FORMAT is INVALID
and CHECK_EXP, ISIZE, CHECK_CALC and IN_BITPOS are 0 (10_state R44 to R46). -/
def Obligations.FrontEndFailuresStop : Prop :=
  (∀ (s : State) (c : BitVec 4) (f : Byte),
    (∃ t, exec (.zlibCinfoBad c f) s = .next t ∧ Stopped .zlibCinfo .invalid 0 0 s t ∧ DatapathKept s t) ∧
    (∃ t, exec (.zlibFcheckBad c f) s = .next t ∧ Stopped .zlibFcheck .invalid 0 0 s t ∧ DatapathKept s t) ∧
    (∃ t, exec (.zlibFdictBad c f) s = .next t ∧ Stopped .zlibFdict .invalid 0 0 s t ∧ DatapathKept s t) ∧
    ∃ t, exec (.gzFlagsReserved f) s = .next t ∧ Stopped .gzipUnknownFlags .invalid 0 0 s t ∧ DatapathKept s t) ∧
  ∀ s t : State, Inv s → s.ctl.seq = .wrap → engineStep s = .next t → t.regs.done = true →
    t.regs.format = .invalid ∧ t.regs.checkExp = 0 ∧ t.regs.isize = 0 ∧ t.regs.checkCalc = 0 ∧ t.regs.inBitpos = 0

/-- FTEXT has no effect, and FEXTRA skips XLEN bytes after its length, or stops if its length or its bytes reach the trailer
(42_wrapper R195, R197). -/
def Obligations.GzipTextAndExtra : Prop :=
  ∀ (s : State) (f : Byte),
    (∃ t, exec (.gzFtext f) s = .next t ∧ GzipGoesOn (f &&& 0xFE#8) s.ctl.hdrPos s t) ∧
    ∃ t, exec (.gzFextra f) s = .next t ∧
      if inLen s - 8 < s.ctl.hdrPos + 2 ∨ inLen s - 8 < s.ctl.hdrPos + 2 +
          ((inByte s s.ctl.hdrPos).toNat + 256 * (inByte s (s.ctl.hdrPos + 1)).toNat) then
        Stopped .gzipHeaderTruncated .invalid 0 0 s t ∧ DatapathKept s t
      else GzipGoesOn (f &&& 0xFB#8) (s.ctl.hdrPos + 2 +
          ((inByte s s.ctl.hdrPos).toNat + 256 * (inByte s (s.ctl.hdrPos + 1)).toNat)) s t

/-- FNAME and FCOMMENT skip up to and including the first 0 byte, which must lie before the trailer, else they stop
(42_wrapper R198, R199). -/
def Obligations.GzipStrings : Prop :=
  ∀ (s : State) (f : Byte) (n : Nat),
    ((∀ k, k < n → inByte s (s.ctl.hdrPos + k) ≠ 0) → inByte s (s.ctl.hdrPos + n) = 0 →
      s.ctl.hdrPos + n < inLen s - 8 →
      (∃ t, exec (.gzFname f) s = .next t ∧ GzipGoesOn (f &&& 0xF7#8) (s.ctl.hdrPos + n + 1) s t) ∧
      ∃ t, exec (.gzFcomment f) s = .next t ∧ GzipGoesOn (f &&& 0xEF#8) (s.ctl.hdrPos + n + 1) s t) ∧
    ((∀ k, s.ctl.hdrPos + k < inLen s - 8 → inByte s (s.ctl.hdrPos + k) ≠ 0) →
      (∃ t, exec (.gzFname f) s = .next t ∧ Stopped .gzipHeaderTruncated .invalid 0 0 s t ∧ DatapathKept s t) ∧
      ∃ t, exec (.gzFcomment f) s = .next t ∧ Stopped .gzipHeaderTruncated .invalid 0 0 s t ∧ DatapathKept s t)

/-- FHCRC compares the two bytes at p, little-endian, with the low half of the CRC-32 over the header bytes before them
(42_wrapper R200); that the CRC unit's own register holds its running value afterwards is the model's choice (log
entry 19). -/
def Obligations.GzipHeaderCrc : Prop :=
  ∀ (s : State) (f : Byte), ∃ t, exec (.gzFhcrc f) s = .next t ∧
    if inLen s - 8 < s.ctl.hdrPos + 2 then Stopped .gzipHeaderTruncated .invalid 0 0 s t ∧ DatapathKept s t
    else if (inByte s s.ctl.hdrPos).toNat + 256 * (inByte s (s.ctl.hdrPos + 1)).toNat ≠
        (crc32 (inByte s) s.ctl.hdrPos).toNat % 65536 then
      Stopped .gzipHeaderCrc .invalid 0 0 s t ∧ ∃ c, DatapathKept { s with sums := { s.sums with crc := c } } t
    else ∃ c, GzipGoesOn (f &&& 0xFD#8) (s.ctl.hdrPos + 2) { s with sums := { s.sums with crc := c } } t

/-! ## Blocks -/

/-- A stored block: from the byte boundary LEN and NLEN, then LEN payload bytes, which go to the output verbatim; the reader
is left on the byte after them, and what follows is another block or VERIFY (43_block_engine R221, R224 to R229, R220). -/
def Obligations.StoredBlockCopies : Prop :=
  ∀ (s : State) (b : Bool) (len : Nat), Decoding s → BitsLeft 3 s →
    (s.detect = true → storedAt s + 4 ≤ s.rd.endOff.toNat) →
    len = (byteAt s (storedAt s)).toNat + 256 * (byteAt s (storedAt s + 1)).toNat →
    len ^^^ 0xFFFF = (byteAt s (storedAt s + 2)).toNat + 256 * (byteAt s (storedAt s + 3)).toNat →
    storedAt s + 4 + len ≤ s.rd.endOff.toNat → s.outLen.toNat + len ≤ outCap s →
    ∃ t, exec (.blockStored b) s = .next t ∧ EngineKeeps s t ∧ t.outLen.toNat = s.outLen.toNat + len ∧
      (∀ k, k < len → outByte t (s.outLen.toNat + k) = inByte s (storedAt s + 4 + k)) ∧
      t.rd = { acc := 0, avail := 0, cur := storedAt s + 4 + len, start := s.rd.start, endOff := s.rd.endOff } ∧
      t.ctl = { s.ctl with seq := if b then .verify else .block } ∧ t.blk = blockLatches b 0 s ∧
      t.tab = s.tab ∧ t.scr = s.scr ∧ t.sums = s.sums ∧ t.fe = s.fe

/-- The stored block's checks, in their order: NLEN, the input, the output; each stops after NLEN with nothing written
(43_block_engine R225 to R227, 60_exceptions R344). -/
def Obligations.StoredBlockTraps : Prop :=
  ∀ (s : State) (b : Bool) (len nlen : Nat), ReaderOk s → BitsLeft 3 s →
    (s.detect = true → storedAt s + 4 ≤ s.rd.endOff.toNat) →
    len = (byteAt s (storedAt s)).toNat + 256 * (byteAt s (storedAt s + 1)).toNat →
    nlen = (byteAt s (storedAt s + 2)).toNat + 256 * (byteAt s (storedAt s + 3)).toNat →
    ∃ t, exec (.blockStored b) s = .next t ∧
      if nlen ^^^ 0xFFFF ≠ len then
        Stopped .storedLenMismatch s.fe.fmt 0 (bitpos s.fe.fmt (8 * (storedAt s + 4))) s t ∧
          DatapathKept { s with rd := t.rd, blk := blockLatches b 0 s } t
      else if s.rd.endOff.toNat < storedAt s + 4 + len then
        Stopped .storedLenOverrun s.fe.fmt 0 (bitpos s.fe.fmt (8 * (storedAt s + 4))) s t ∧
          DatapathKept { s with rd := t.rd, blk := blockLatches b 0 s } t
      else if outCap s < s.outLen.toNat + len then
        Stopped .outputFull s.fe.fmt 0 (bitpos s.fe.fmt (8 * (storedAt s + 4))) s t ∧
          DatapathKept { s with rd := t.rd, blk := blockLatches b 0 s } t
      else t.outLen.toNat = s.outLen.toNat + len

/-- A fixed block: the fixed lengths, whose canonical codewords are those of 30_encoding R112, both builds, which succeed with no
subtable, and the symbol loop (43_block_engine R221, R230, R231). What the tables then decode is DecodeIsExact. -/
def Obligations.FixedBlockBuilds : Prop :=
  ∀ (s : State) (b : Bool), ReaderOk s → BitsLeft 3 s →
    ∃ t rc rc', exec (.blockFixed b) s = .next t ∧ EngineKeeps s t ∧ Consumed 3 s t ∧
      t.blk.bfinal = b ∧ t.blk.btype = 1 ∧
      (∀ i, (h : i < 288) →
        t.blk.llLen[i] = if i < 144 then 8 else if i < 256 then 9 else if i < 280 then 7 else 8) ∧
      (∀ i, (h : i < 32) → t.blk.dLen[i] = 5) ∧
      (∀ i, i < 288 → canonOf (lensOf t.blk.llLen) i =
        if i < 144 then 0x30 + i else if i < 256 then 0x190 + (i - 144) else if i < 280 then i - 256 else 0xC0 + (i - 280)) ∧
      (∀ i, i < 32 → canonOf (lensOf t.blk.dLen) i = i) ∧
      t.blk = { blockLatches b 1 s with llLen := t.blk.llLen, dLen := t.blk.dLen } ∧
      build 10 (lensOf t.blk.llLen) pvLL s.tab.ll = .ok t.tab.ll rc 1024 ∧
      build 8 (lensOf t.blk.dLen) pvD s.tab.d = .ok t.tab.d rc' 256 ∧ t.tab.cl = s.tab.cl ∧
      t.ctl = { s.ctl with seq := .syms, alpha := .ll, look := .first } ∧
      t.outLen = s.outLen ∧ t.mem = s.mem ∧ t.sums = s.sums ∧ t.fe = s.fe

/-- A dynamic block's header: the three counts, the code-length code's lengths in the order PERM, and the code-length build;
an accepted code goes on to the code lengths, a refused one stops with its verdict (43_block_engine R221, R232 to R235). -/
def Obligations.DynamicHeader : Prop :=
  ∀ (s : State) (b : Bool) (k : Nat), ReaderOk s → k = streamBits s (pos s + 13) 4 + 4 → BitsLeft (17 + 3 * k) s →
    ∃ t, exec (.blockDynamic b) s = .next t ∧ Consumed (17 + 3 * k) s t ∧
      t.blk = { blockLatches b 2 s with
        hlit := BitVec.ofNat 9 (streamBits s (pos s + 3) 5 + 257)
        hdist := BitVec.ofNat 6 (streamBits s (pos s + 8) 5 + 1)
        hclen := BitVec.ofNat 5 k
        clLen := t.blk.clLen } ∧
      lensOf t.blk.clLen = headerClLens s (pos s + 17) k ∧
      match verdict (headerClLens s (pos s + 17) k) with
      | some c => Stopped c s.fe.fmt 0 (bitpos s.fe.fmt (pos s + 17 + 3 * k)) s t ∧
        DatapathKept { s with rd := t.rd, blk := t.blk, scr := t.scr } t
      | none =>
        EngineKeeps s t ∧
        (∃ rc, build 7 (lensOf t.blk.clLen) pvCL s.tab.cl = .ok t.tab.cl rc 128) ∧
        t.tab.ll = s.tab.ll ∧ t.tab.d = s.tab.d ∧
        t.ctl = { s.ctl with seq := .clread, alpha := .cl, look := .first, n := 0 } ∧
        t.outLen = s.outLen ∧ t.mem = s.mem ∧ t.sums = s.sums ∧ t.fe = s.fe

/-- BTYPE 3 stops with BTYPE_RESERVED, exactly the 3 header bits consumed (43_block_engine R223). -/
def Obligations.ReservedBlockTypeStops : Prop :=
  ∀ (s : State) (b : Bool), ReaderOk s → BitsLeft 3 s →
    ∃ t, exec (.blockReserved b) s = .next t ∧ Stopped .btypeReserved s.fe.fmt 0 (bitpos s.fe.fmt (pos s + 3)) s t ∧
      Consumed 3 s t ∧ DatapathKept { s with rd := t.rd, blk := blockLatches b 3 s } t

/-- In the build with OVERRUN_DETECT, consuming a bit past the end stops with INPUT_OVERRUN, the position just past what the
operation consumed (40_bitreader R143, R144, R145, R147): in a block header's first bit or its BTYPE; in a dynamic header's
counts or code lengths, with the counts before it latched (43_block_engine R232, R233); in a stored block's LEN or NLEN; in the
DROP of a table's terminal or link (41_table_builder R178); in a length's or a distance's extra bits; and in a code-length
repeat's. -/
def Obligations.OverrunStops : Prop :=
  ∀ s : State, ReaderOk s → s.detect = true →
    (8 * s.rd.endOff.toNat < pos s + 1 → ∀ b : Bool,
      ∀ i ∈ [Instr.blockStored b, .blockFixed b, .blockDynamic b, .blockReserved b],
        ∃ t, exec i s = .next t ∧ OverrunsAt (pos s + 1) s t ∧ t.blk = s.blk) ∧
    (pos s + 1 ≤ 8 * s.rd.endOff.toNat → 8 * s.rd.endOff.toNat < pos s + 3 → ∀ b : Bool,
      ∀ i ∈ [Instr.blockStored b, .blockFixed b, .blockDynamic b, .blockReserved b],
        ∃ t, exec i s = .next t ∧ OverrunsAt (pos s + 3) s t ∧ t.blk = { s.blk with bfinal := b }) ∧
    (∀ (b : Bool) (k : Nat), k = streamBits s (pos s + 13) 4 + 4 →
      ∀ p ∈ [(3, 8), (8, 13), (13, 17)] ++ (List.range k).map (fun i => (17 + 3 * i, 20 + 3 * i)),
        pos s + p.1 ≤ 8 * s.rd.endOff.toNat → 8 * s.rd.endOff.toNat < pos s + p.2 →
        ∃ t, exec (.blockDynamic b) s = .next t ∧ OverrunsAt (pos s + p.2) s t ∧
          t.blk = { blockLatches b 2 s with
            hlit := if 8 ≤ p.1 then BitVec.ofNat 9 (streamBits s (pos s + 3) 5 + 257) else s.blk.hlit
            hdist := if 13 ≤ p.1 then BitVec.ofNat 6 (streamBits s (pos s + 8) 5 + 1) else s.blk.hdist
            hclen := if 17 ≤ p.1 then BitVec.ofNat 5 k else s.blk.hclen
            clLen := t.blk.clLen }) ∧
    (pos s + 3 ≤ 8 * s.rd.endOff.toNat → ∀ b : Bool,
      ∀ p ∈ [(0, 2), (2, 4)], storedAt s + p.1 ≤ s.rd.endOff.toNat → s.rd.endOff.toNat < storedAt s + p.2 →
        ∃ t, exec (.blockStored b) s = .next t ∧ OverrunsAt (8 * (storedAt s + p.2)) s t ∧ t.blk = blockLatches b 0 s) ∧
    (∀ (p : BitVec 24) (n : BitVec 6), n.toNat ≤ s.rd.avail.toNat → 8 * s.rd.endOff.toNat < pos s + n.toNat →
      ∀ i ∈ [Instr.entryLiteral p n, .entryValue p n],
        ∃ t, exec i s = .next t ∧ OverrunsAt (pos s + n.toNat) s t ∧ t.blk = s.blk) ∧
    (∀ (p : BitVec 24) (b : Bool) (n : BitVec 6), s.ctl.look = .first → kOf s.ctl.alpha ≤ s.rd.avail.toNat →
      8 * s.rd.endOff.toNat < pos s + kOf s.ctl.alpha →
        ∃ t, exec (.entryLink p b n) s = .next t ∧ OverrunsAt (pos s + kOf s.ctl.alpha) s t ∧ t.blk = s.blk) ∧
    (∀ p ∈ lengthSpec ++ distSpec, 0 < p.2.2 → 8 * s.rd.endOff.toNat < pos s + p.2.2 →
      ∃ t, exec p.1 s = .next t ∧ OverrunsAt (pos s + p.2.2) s t ∧ t.blk = s.blk) ∧
    (0 < s.ctl.n → 8 * s.rd.endOff.toNat < pos s + 2 →
      ∃ t, exec .clRepeat s = .next t ∧ OverrunsAt (pos s + 2) s t ∧ t.blk = s.blk) ∧
    ∀ p ∈ [(Instr.clZeros3, 3), (.clZeros11, 7)], 8 * s.rd.endOff.toNat < pos s + p.2 →
      ∃ t, exec p.1 s = .next t ∧ OverrunsAt (pos s + p.2) s t ∧ t.blk = s.blk

/-! ## Code lengths -/

/-- CL_LITERAL stores its length and, short of the total, the next code-length symbol follows (43_block_engine R235, R236). -/
def Obligations.CodeLengthLiteral : Prop :=
  ∀ (s : State) (v : BitVec 4), s.ctl.n + 1 < s.blk.hlit.toNat + s.blk.hdist.toNat → s.blk.hlit.toNat + s.blk.hdist.toNat ≤ 320 →
    ∃ t, exec (.clLiteral v) s = .next t ∧ LensStored v 1 s t ∧ t.rd = s.rd

/-- CL_REPEAT repeats the previous length 3 + GET(2) times, CL_ZEROS3 stores 3 + GET(3) zeros and CL_ZEROS11 11 + GET(7)
zeros, short of the total (43_block_engine R235, R237 to R239). -/
def Obligations.CodeLengthRepeats : Prop :=
  ∀ (s : State), ReaderOk s → s.blk.hlit.toNat + s.blk.hdist.toNat ≤ 320 →
    (0 < s.ctl.n → BitsLeft 2 s → s.ctl.n + (3 + streamBits s (pos s) 2) < s.blk.hlit.toNat + s.blk.hdist.toNat →
      ∃ t, exec .clRepeat s = .next t ∧ LensStored (lenAt s (s.ctl.n - 1)) (3 + streamBits s (pos s) 2) s t ∧
        Consumed 2 s t) ∧
    (BitsLeft 3 s → s.ctl.n + (3 + streamBits s (pos s) 3) < s.blk.hlit.toNat + s.blk.hdist.toNat →
      ∃ t, exec .clZeros3 s = .next t ∧ LensStored 0 (3 + streamBits s (pos s) 3) s t ∧ Consumed 3 s t) ∧
    (BitsLeft 7 s → s.ctl.n + (11 + streamBits s (pos s) 7) < s.blk.hlit.toNat + s.blk.hdist.toNat →
      ∃ t, exec .clZeros11 s = .next t ∧ LensStored 0 (11 + streamBits s (pos s) 7) s t ∧ Consumed 7 s t)

/-- A repeat with no previous length stops before its extra bits; a repeat past the total stops after them and before it
stores anything (43_block_engine R237, R241). -/
def Obligations.CodeLengthTraps : Prop :=
  ∀ (s : State), ReaderOk s →
    (s.ctl.n = 0 → ∃ t, exec .clRepeat s = .next t ∧
      Stopped .clRepeatNoPrevious s.fe.fmt 0 (bitpos s.fe.fmt (pos s)) s t ∧ DatapathKept s t) ∧
    (0 < s.ctl.n → BitsLeft 2 s → s.blk.hlit.toNat + s.blk.hdist.toNat < s.ctl.n + (3 + streamBits s (pos s) 2) →
      ∃ t, exec .clRepeat s = .next t ∧ Consumed 2 s t ∧ DatapathKept { s with rd := t.rd } t ∧
        Stopped .clRepeatOverflow s.fe.fmt 0 (bitpos s.fe.fmt (pos s + 2)) s t) ∧
    (BitsLeft 3 s → s.blk.hlit.toNat + s.blk.hdist.toNat < s.ctl.n + (3 + streamBits s (pos s) 3) →
      ∃ t, exec .clZeros3 s = .next t ∧ Consumed 3 s t ∧ DatapathKept { s with rd := t.rd } t ∧
        Stopped .clRepeatOverflow s.fe.fmt 0 (bitpos s.fe.fmt (pos s + 3)) s t) ∧
    (BitsLeft 7 s → s.blk.hlit.toNat + s.blk.hdist.toNat < s.ctl.n + (11 + streamBits s (pos s) 7) →
      ∃ t, exec .clZeros11 s = .next t ∧ Consumed 7 s t ∧ DatapathKept { s with rd := t.rd } t ∧
        Stopped .clRepeatOverflow s.fe.fmt 0 (bitpos s.fe.fmt (pos s + 7)) s t)

/-- The code-length symbol that completes the code lengths, a literal or a repeat that lands exactly on the total: the lengths
are split and both tables built, the literal/length one first, whose cause is reported first; accepted codes go on to the
symbol loop (43_block_engine R236 to R239, R241 to R243). What the scratch registers rc and next_free hold once the builds are
over is the model's choice (log entry 24). -/
def Obligations.LastCodeLengthBuilds : Prop :=
  ∀ s : State, s.blk.hlit.toNat ≤ 288 → s.blk.hdist.toNat ≤ 32 →
    (∀ v : BitVec 4, s.ctl.n + 1 = s.blk.hlit.toNat + s.blk.hdist.toNat →
      ∃ t, exec (.clLiteral v) s = .next t ∧ t.rd = s.rd ∧ BuildsBoth v 0 s t) ∧
    (ReaderOk s →
      (0 < s.ctl.n → BitsLeft 2 s → s.ctl.n + (3 + streamBits s (pos s) 2) = s.blk.hlit.toNat + s.blk.hdist.toNat →
        ∃ t, exec .clRepeat s = .next t ∧ Consumed 2 s t ∧ BuildsBoth (lenAt s (s.ctl.n - 1)) 2 s t) ∧
      (BitsLeft 3 s → s.ctl.n + (3 + streamBits s (pos s) 3) = s.blk.hlit.toNat + s.blk.hdist.toNat →
        ∃ t, exec .clZeros3 s = .next t ∧ Consumed 3 s t ∧ BuildsBoth 0 3 s t) ∧
      (BitsLeft 7 s → s.ctl.n + (11 + streamBits s (pos s) 7) = s.blk.hlit.toNat + s.blk.hdist.toNat →
        ∃ t, exec .clZeros11 s = .next t ∧ Consumed 7 s t ∧ BuildsBoth 0 7 s t))

/-! ## Symbols -/

/-- LIT writes its byte at out_len and counts it; no other byte changes, and the next literal/length symbol follows. With no
room for one more byte it stops with OUTPUT_FULL and writes nothing (44_symbol_decode R252, R253). -/
def Obligations.LiteralIsEmitted : Prop :=
  ∀ (s : State) (b : Byte),
    (memWf s.mem = true → s.outLen.toNat < outCap s →
      ∃ t, exec (.lit b) s = .next t ∧ t.outLen.toNat = s.outLen.toNat + 1 ∧ outByte t s.outLen.toNat = b ∧
        (∀ a, a ≠ busAddr s.launch.outBase s.outLen.toNat → memRead t.mem a = memRead s.mem a) ∧
        t = { s with mem := t.mem, outLen := t.outLen, ctl := { s.ctl with alpha := .ll, look := .first } }) ∧
    (outCap s ≤ s.outLen.toNat →
      ∃ t, exec (.lit b) s = .next t ∧ Stopped .outputFull s.fe.fmt 0 (bitpos s.fe.fmt (pos s)) s t ∧
        DatapathKept s t)

/-- EOB ends the block: another block, or VERIFY after the final one; nothing else changes
(44_symbol_decode R255, 43_block_engine R220, R245). -/
def Obligations.EndOfBlockEndsTheBlock : Prop :=
  ∀ s : State, exec .eob s =
    .next { s with ctl := { s.ctl with seq := if s.blk.bfinal then .verify else .block } }

/-- A length symbol: length = base + the value of its extra bits, which are consumed, and its distance symbol is next;
nothing else changes (44_symbol_decode R256, 30_encoding R99). -/
def Obligations.LengthSymbolsGiveTheLength : Prop :=
  ∀ p ∈ lengthSpec, ∀ s : State, ReaderOk s → BitsLeft p.2.2 s →
    ∃ t, exec p.1 s = .next t ∧ Consumed p.2.2 s t ∧ Untouched s t ∧
      t.ctl = { s.ctl with length := p.2.1 + streamBits s (pos s) p.2.2, alpha := .dist, look := .first }

/-- A distance symbol that passes its checks: dist = base + the value of its extra bits, and the match's bytes are copied
forward, each from dist bytes before it; nothing else of memory changes (44_symbol_decode R259, R264, 30_encoding R100). -/
def Obligations.MatchIsCopied : Prop :=
  ∀ p ∈ distSpec, ∀ (s : State) (d : Nat), Decoding s → BitsLeft p.2.2 s → d = p.2.1 + streamBits s (pos s) p.2.2 →
    d ≤ s.outLen.toNat → s.outLen.toNat + s.ctl.length ≤ outCap s →
    ∃ t, exec p.1 s = .next t ∧ EngineKeeps s t ∧ Consumed p.2.2 s t ∧ t.outLen.toNat = s.outLen.toNat + s.ctl.length ∧
      (∀ k, k < s.ctl.length → outByte t (s.outLen.toNat + k) = outByte t (s.outLen.toNat + k - d)) ∧
      (∀ j, j < s.outLen.toNat → outByte t j = outByte s j) ∧
      t.ctl = { s.ctl with alpha := .ll, look := .first } ∧
      t = { s with mem := t.mem, outLen := t.outLen, rd := t.rd, ctl := t.ctl }

/-- A distance beyond the output so far stops with DISTANCE_TOO_FAR, checked before the capacity; a match that does not fit
stops with OUTPUT_FULL; both after the extra bits and with nothing written (44_symbol_decode R261, R262). -/
def Obligations.MatchTraps : Prop :=
  ∀ p ∈ distSpec, ∀ (s : State) (d : Nat), ReaderOk s → BitsLeft p.2.2 s → d = p.2.1 + streamBits s (pos s) p.2.2 →
    (s.outLen.toNat < d → ∃ t, exec p.1 s = .next t ∧ Consumed p.2.2 s t ∧ DatapathKept { s with rd := t.rd } t ∧
      Stopped .distanceTooFar s.fe.fmt 0 (bitpos s.fe.fmt (pos s + p.2.2)) s t) ∧
    (d ≤ s.outLen.toNat → outCap s < s.outLen.toNat + s.ctl.length → ∃ t, exec p.1 s = .next t ∧ Consumed p.2.2 s t ∧
      DatapathKept { s with rd := t.rd } t ∧ Stopped .outputFull s.fe.fmt 0 (bitpos s.fe.fmt (pos s + p.2.2)) s t)

/-- The symbols with no meaning stop before any extra bits are read: 286, 287, 30 and 31 with INVALID_SYMBOL, a code-length
symbol above 18 with CL_SYMBOL_UNKNOWN; and the sentinel stops with INVALID_CODEWORD before anything is dropped
(44_symbol_decode R254, R260, 43_block_engine R240, 41_table_builder R178). -/
def Obligations.UndefinedSymbolsStop : Prop :=
  ∀ (s : State) (x : BitVec 5),
    (∀ i ∈ [Instr.badsym286, .badsym287, .baddist30, .baddist31],
      ∃ t, exec i s = .next t ∧ Stopped .invalidSymbol s.fe.fmt 0 (bitpos s.fe.fmt (pos s)) s t ∧ DatapathKept s t) ∧
    (∃ t, exec (.clUnknown x) s = .next t ∧ Stopped .clSymbolUnknown s.fe.fmt 0 (bitpos s.fe.fmt (pos s)) s t ∧
      DatapathKept s t) ∧
    ∃ t, exec .entrySentinel s = .next t ∧ Stopped .invalidCodeword s.fe.fmt 0 (bitpos s.fe.fmt (pos s)) s t ∧
      DatapathKept s t

/-! ## Table entries -/

/-- A link in the primary table: K bits are consumed and the subtable is next, at base with width w (41_table_builder R178). A
subtable entry of a built table is never a link (R178); what the row does in a subtable all the same is the model's reading (log
entry 25): the lookup does not look at the subtable flag a second time, so the entry acts as the terminal with its payload,
literal flag and nbits. -/
def Obligations.LinkGoesToTheSubtable : Prop :=
  ∀ (s : State) (p : BitVec 24) (b : Bool) (n : BitVec 6),
    (ReaderOk s → kOf s.ctl.alpha ≤ s.rd.avail.toNat → BitsLeft (kOf s.ctl.alpha) s → s.ctl.look = .first →
      ∃ t, exec (.entryLink p b n) s = .next t ∧ Consumed (kOf s.ctl.alpha) s t ∧ Untouched s t ∧
        t.ctl = { s.ctl with look := .second p n }) ∧
    ∀ (q : BitVec 24) (w : BitVec 6), s.ctl.look = .second q w →
      exec (.entryLink p b n) s = exec (if b then .entryLiteral p n else .entryValue p n) s

/-- A terminal consumes its nbits and its symbol is next: of the code-length table the payload; of the literal/length table a
literal's byte, EOB for base 0, else the length symbol with this base and extra count; of the distance table the distance
symbol with this base and extra count; for base 0xFFFF, BADSYM, a symbol with no meaning (41_table_builder R178, 30_encoding R106
to R109, 43_block_engine R235). Which of 286 and 287, or of 30 and 31, a BADSYM entry stands for is the model's choice (log entry
12) and not said here. -/
def Obligations.TerminalsGiveTheirSymbol : Prop :=
  ∀ (s : State) (n : BitVec 6), ReaderOk s → n.toNat ≤ s.rd.avail.toNat → BitsLeft n.toNat s →
    (∀ sym : Nat, sym < 19 → s.ctl.alpha = .cl →
      ∃ t, exec (.entryValue (BitVec.ofNat 24 sym) n) s = .next t ∧ Consumed n.toNat s t ∧ Untouched s t ∧
        t.ctl = { s.ctl with look := .symbol (BitVec.ofNat 9 sym) }) ∧
    (∀ b : Byte, s.ctl.alpha = .ll →
      ∃ t, exec (.entryLiteral (b.setWidth 24) n) s = .next t ∧ Consumed n.toNat s t ∧ Untouched s t ∧
        t.ctl = { s.ctl with look := .symbol (b.setWidth 9) }) ∧
    (s.ctl.alpha = .ll →
      ∃ t, exec (.entryValue 0 n) s = .next t ∧ Consumed n.toNat s t ∧ Untouched s t ∧
        t.ctl = { s.ctl with look := .symbol 256 }) ∧
    (∀ k : Nat, s.ctl.alpha = .ll → ∀ q, lengthSpec[k]? = some q →
      ∃ t, exec (.entryValue (BitVec.ofNat 24 (q.2.1 * 256 + q.2.2)) n) s = .next t ∧ Consumed n.toNat s t ∧
        Untouched s t ∧ t.ctl = { s.ctl with look := .symbol (BitVec.ofNat 9 (257 + k)) }) ∧
    (∀ k : Nat, s.ctl.alpha = .dist → ∀ q, distSpec[k]? = some q →
      ∃ t, exec (.entryValue (BitVec.ofNat 24 (q.2.1 * 256 + q.2.2)) n) s = .next t ∧ Consumed n.toNat s t ∧
        Untouched s t ∧ t.ctl = { s.ctl with look := .symbol (BitVec.ofNat 9 k) }) ∧
    (s.ctl.alpha = .ll →
      ∃ t sym, exec (.entryValue 0xFFFF00#24 n) s = .next t ∧ Consumed n.toNat s t ∧ Untouched s t ∧
        t.ctl = { s.ctl with look := .symbol sym } ∧ (sym = 286#9 ∨ sym = 287#9)) ∧
    (s.ctl.alpha = .dist →
      ∃ t sym, exec (.entryValue 0xFFFF00#24 n) s = .next t ∧ Consumed n.toNat s t ∧ Untouched s t ∧
        t.ctl = { s.ctl with look := .symbol sym } ∧ (sym = 30#9 ∨ sym = 31#9))

/-! ## The table builder -/

/-- The verdict on a length set: it is accepted exactly when it is complete (its code-space sum is the whole) or is one symbol
of length 1; refused as overfull exactly when the sum is more than the whole, else as incomplete
(41_table_builder R162 to R165). -/
def Obligations.BuildVerdict : Prop :=
  ∀ lens : List Nat, (∀ l ∈ lens, l ≤ 15) →
    (verdict lens = none ↔ kraft lens = 2 ^ 15 ∨ lens.filter (0 < ·) = [1]) ∧
    (verdict lens = some .huffmanOverfull ↔ 2 ^ 15 < kraft lens) ∧
    (verdict lens = some .huffmanIncomplete ↔ kraft lens < 2 ^ 15 ∧ lens.filter (0 < ·) ≠ [1])

/-- NEXT_REV is the canonical increment read the other way round (41_table_builder R169). -/
def Obligations.NextRevIsTheReversedIncrement : Prop :=
  ∀ l c : Nat, c + 1 < 2 ^ l → revBits l (nextRev c l) = revBits l c + 1 ∧ nextRev c l < 2 ^ l

/-- The one-symbol table, of any primary width, T_CL, T_LL and T_D among them: the entry at every primary index with bit 0 set,
the sentinel at every other, no subtable (41_table_builder R166). -/
def Obligations.OneSymbolTable : Prop :=
  ∀ (cap k : Nat) (pv : Nat → Entry) (lens : List Nat) (sym : Nat) (t : Vector Entry cap), 0 < k → (hk : 2 ^ k ≤ cap) →
    sym < lens.length → (∀ i, (h : i < lens.length) → lens[i] = if i = sym then 1 else 0) →
    ∃ u rc, build k lens pv t = .ok u rc (2 ^ k) ∧
      ∀ i, (h : i < 2 ^ k) → u[i] = if i % 2 = 1 then pv sym ||| 1#32 else 0x000000FF#32

/-- DECODE is exact for the three tables of the core: built from an accepted code of two or more symbols, a table gives, for
stream bits that begin with the canonical codeword of a symbol, that symbol's entry with nbits, consuming the codeword's length;
and the bits begin with no other symbol's codeword (41_table_builder R168, R170 to R174, R176, R179). -/
def Obligations.DecodeIsExact : Prop :=
  DecodesExactly 128 7 pvCL ∧ DecodesExactly 1334 10 pvLL ∧ DecodesExactly 402 8 pvD

/-! ## Verification -/

/-- VERIFY: no check for raw; Adler-32 for zlib and CRC-32 for gzip over the output bytes, compared with the trailer's value;
the stop reports the computed value either way (45_checksums R294 to R297). -/
def Obligations.VerifyStopsTheRun : Prop :=
  ∀ s : State, s.ctl.seq = .verify →
    ∃ t, engineStep s = .next t ∧ DatapathKept { s with sums := t.sums } t ∧
      match s.fe.fmt with
      | .zlib => Stopped (if adler32 (outByte s) s.outLen.toNat = s.fe.expCheck then .none else .checksumMismatch) .zlib
          (adler32 (outByte s) s.outLen.toNat) (BitVec.ofNat 32 (pos s)) s t
      | .gzip => Stopped (if crc32 (outByte s) s.outLen.toNat = s.fe.expCheck then .none else .checksumMismatch) .gzip
          (crc32 (outByte s) s.outLen.toNat) (BitVec.ofNat 32 (pos s)) s t
      | .raw => Stopped .none .raw 0 (BitVec.ofNat 32 (pos s)) s t
      | _ => t.regs.done = true

/-- Adler-32 with the reductions deferred to the end: s1 is 1 plus the sum of the bytes, s2 the sum of the s1 values, both
mod 65521; and a running CRC-32 over output bytes in order is the CRC-32 of the whole, one table step a byte, from 0xFFFFFFFF on,
where CRC_TABLE's entry is its index after eight steps of a shift and, where the bit shifted out is 1, an exclusive-or with the
polynomial (45_checksums R290 to R293, R300). -/
def Obligations.ChecksumsMayBeIncremental : Prop :=
  (∀ (f : Nat → Byte) (m k : Nat),
    adlerFold f m 0 1 0 =
      ((1 + ((List.range m).map fun i => (f i).toNat).sum) % 65521,
       ((List.range m).map fun i => 1 + ((List.range (i + 1)).map fun j => (f j).toNat).sum).sum % 65521) ∧
    adler32 f m = BitVec.ofNat 32 ((adlerFold f m 0 1 0).1 + 65536 * (adlerFold f m 0 1 0).2) ∧
    crcRegister f 0 = 0xFFFFFFFF#32 ∧
    crcRegister f (m + 1) = crcTable ((crcRegister f m).setWidth 8 ^^^ f m) ^^^ (crcRegister f m >>> 8) ∧
    crc32 f m = crcRegister f m ^^^ 0xFFFFFFFF#32 ∧
    crcRegister f (m + k) = crcFold f k m (crcRegister f m)) ∧
  ∀ n : Byte, crcTable n =
    Nat.repeat (fun c : Word => if c.getLsbD 0 then (c >>> 1) ^^^ 0xEDB88320#32 else c >>> 1) 8 (n.setWidth 32)
end

