-- ==== Sys2Proof/Laws/State.lean ====
section
/-! SUPPORT. One lemma per field per update of State. -/

namespace Sys2Proof.Machine

variable (s : State)

@[simp] theorem State.setRegs_regs (x : HostRegs) : (s.setRegs x).regs = x := rfl
@[simp] theorem State.setRegs_launch (x : HostRegs) : (s.setRegs x).launch = s.launch := rfl
@[simp] theorem State.setRegs_ctl (x : HostRegs) : (s.setRegs x).ctl = s.ctl := rfl
@[simp] theorem State.setRegs_rd (x : HostRegs) : (s.setRegs x).rd = s.rd := rfl
@[simp] theorem State.setRegs_outLen (x : HostRegs) : (s.setRegs x).outLen = s.outLen := rfl
@[simp] theorem State.setRegs_blk (x : HostRegs) : (s.setRegs x).blk = s.blk := rfl
@[simp] theorem State.setRegs_tab (x : HostRegs) : (s.setRegs x).tab = s.tab := rfl
@[simp] theorem State.setRegs_scr (x : HostRegs) : (s.setRegs x).scr = s.scr := rfl
@[simp] theorem State.setRegs_sums (x : HostRegs) : (s.setRegs x).sums = s.sums := rfl
@[simp] theorem State.setRegs_fe (x : HostRegs) : (s.setRegs x).fe = s.fe := rfl
@[simp] theorem State.setRegs_mem (x : HostRegs) : (s.setRegs x).mem = s.mem := rfl
@[simp] theorem State.setRegs_turns (x : HostRegs) : (s.setRegs x).turns = s.turns := rfl
@[simp] theorem State.setRegs_busData (x : HostRegs) : (s.setRegs x).busData = s.busData := rfl
@[simp] theorem State.setRegs_free (x : HostRegs) : (s.setRegs x).free = s.free := rfl
@[simp] theorem State.setRegs_detect (x : HostRegs) : (s.setRegs x).detect = s.detect := rfl
@[simp] theorem State.setLaunch_regs (x : Launch) : (s.setLaunch x).regs = s.regs := rfl
@[simp] theorem State.setLaunch_launch (x : Launch) : (s.setLaunch x).launch = x := rfl
@[simp] theorem State.setLaunch_ctl (x : Launch) : (s.setLaunch x).ctl = s.ctl := rfl
@[simp] theorem State.setLaunch_rd (x : Launch) : (s.setLaunch x).rd = s.rd := rfl
@[simp] theorem State.setLaunch_outLen (x : Launch) : (s.setLaunch x).outLen = s.outLen := rfl
@[simp] theorem State.setLaunch_blk (x : Launch) : (s.setLaunch x).blk = s.blk := rfl
@[simp] theorem State.setLaunch_tab (x : Launch) : (s.setLaunch x).tab = s.tab := rfl
@[simp] theorem State.setLaunch_scr (x : Launch) : (s.setLaunch x).scr = s.scr := rfl
@[simp] theorem State.setLaunch_sums (x : Launch) : (s.setLaunch x).sums = s.sums := rfl
@[simp] theorem State.setLaunch_fe (x : Launch) : (s.setLaunch x).fe = s.fe := rfl
@[simp] theorem State.setLaunch_mem (x : Launch) : (s.setLaunch x).mem = s.mem := rfl
@[simp] theorem State.setLaunch_turns (x : Launch) : (s.setLaunch x).turns = s.turns := rfl
@[simp] theorem State.setLaunch_busData (x : Launch) : (s.setLaunch x).busData = s.busData := rfl
@[simp] theorem State.setLaunch_free (x : Launch) : (s.setLaunch x).free = s.free := rfl
@[simp] theorem State.setLaunch_detect (x : Launch) : (s.setLaunch x).detect = s.detect := rfl
@[simp] theorem State.setCtl_regs (x : Control) : (s.setCtl x).regs = s.regs := rfl
@[simp] theorem State.setCtl_launch (x : Control) : (s.setCtl x).launch = s.launch := rfl
@[simp] theorem State.setCtl_ctl (x : Control) : (s.setCtl x).ctl = x := rfl
@[simp] theorem State.setCtl_rd (x : Control) : (s.setCtl x).rd = s.rd := rfl
@[simp] theorem State.setCtl_outLen (x : Control) : (s.setCtl x).outLen = s.outLen := rfl
@[simp] theorem State.setCtl_blk (x : Control) : (s.setCtl x).blk = s.blk := rfl
@[simp] theorem State.setCtl_tab (x : Control) : (s.setCtl x).tab = s.tab := rfl
@[simp] theorem State.setCtl_scr (x : Control) : (s.setCtl x).scr = s.scr := rfl
@[simp] theorem State.setCtl_sums (x : Control) : (s.setCtl x).sums = s.sums := rfl
@[simp] theorem State.setCtl_fe (x : Control) : (s.setCtl x).fe = s.fe := rfl
@[simp] theorem State.setCtl_mem (x : Control) : (s.setCtl x).mem = s.mem := rfl
@[simp] theorem State.setCtl_turns (x : Control) : (s.setCtl x).turns = s.turns := rfl
@[simp] theorem State.setCtl_busData (x : Control) : (s.setCtl x).busData = s.busData := rfl
@[simp] theorem State.setCtl_free (x : Control) : (s.setCtl x).free = s.free := rfl
@[simp] theorem State.setCtl_detect (x : Control) : (s.setCtl x).detect = s.detect := rfl
@[simp] theorem State.setRd_regs (x : Reader) : (s.setRd x).regs = s.regs := rfl
@[simp] theorem State.setRd_launch (x : Reader) : (s.setRd x).launch = s.launch := rfl
@[simp] theorem State.setRd_ctl (x : Reader) : (s.setRd x).ctl = s.ctl := rfl
@[simp] theorem State.setRd_rd (x : Reader) : (s.setRd x).rd = x := rfl
@[simp] theorem State.setRd_outLen (x : Reader) : (s.setRd x).outLen = s.outLen := rfl
@[simp] theorem State.setRd_blk (x : Reader) : (s.setRd x).blk = s.blk := rfl
@[simp] theorem State.setRd_tab (x : Reader) : (s.setRd x).tab = s.tab := rfl
@[simp] theorem State.setRd_scr (x : Reader) : (s.setRd x).scr = s.scr := rfl
@[simp] theorem State.setRd_sums (x : Reader) : (s.setRd x).sums = s.sums := rfl
@[simp] theorem State.setRd_fe (x : Reader) : (s.setRd x).fe = s.fe := rfl
@[simp] theorem State.setRd_mem (x : Reader) : (s.setRd x).mem = s.mem := rfl
@[simp] theorem State.setRd_turns (x : Reader) : (s.setRd x).turns = s.turns := rfl
@[simp] theorem State.setRd_busData (x : Reader) : (s.setRd x).busData = s.busData := rfl
@[simp] theorem State.setRd_free (x : Reader) : (s.setRd x).free = s.free := rfl
@[simp] theorem State.setRd_detect (x : Reader) : (s.setRd x).detect = s.detect := rfl
@[simp] theorem State.setOutLen_regs (x : Nat) : (s.setOutLen x).regs = s.regs := rfl
@[simp] theorem State.setOutLen_launch (x : Nat) : (s.setOutLen x).launch = s.launch := rfl
@[simp] theorem State.setOutLen_ctl (x : Nat) : (s.setOutLen x).ctl = s.ctl := rfl
@[simp] theorem State.setOutLen_rd (x : Nat) : (s.setOutLen x).rd = s.rd := rfl
@[simp] theorem State.setOutLen_outLen (x : Nat) : (s.setOutLen x).outLen = x := rfl
@[simp] theorem State.setOutLen_blk (x : Nat) : (s.setOutLen x).blk = s.blk := rfl
@[simp] theorem State.setOutLen_tab (x : Nat) : (s.setOutLen x).tab = s.tab := rfl
@[simp] theorem State.setOutLen_scr (x : Nat) : (s.setOutLen x).scr = s.scr := rfl
@[simp] theorem State.setOutLen_sums (x : Nat) : (s.setOutLen x).sums = s.sums := rfl
@[simp] theorem State.setOutLen_fe (x : Nat) : (s.setOutLen x).fe = s.fe := rfl
@[simp] theorem State.setOutLen_mem (x : Nat) : (s.setOutLen x).mem = s.mem := rfl
@[simp] theorem State.setOutLen_turns (x : Nat) : (s.setOutLen x).turns = s.turns := rfl
@[simp] theorem State.setOutLen_busData (x : Nat) : (s.setOutLen x).busData = s.busData := rfl
@[simp] theorem State.setOutLen_free (x : Nat) : (s.setOutLen x).free = s.free := rfl
@[simp] theorem State.setOutLen_detect (x : Nat) : (s.setOutLen x).detect = s.detect := rfl
@[simp] theorem State.setBlk_regs (x : BlockRegs) : (s.setBlk x).regs = s.regs := rfl
@[simp] theorem State.setBlk_launch (x : BlockRegs) : (s.setBlk x).launch = s.launch := rfl
@[simp] theorem State.setBlk_ctl (x : BlockRegs) : (s.setBlk x).ctl = s.ctl := rfl
@[simp] theorem State.setBlk_rd (x : BlockRegs) : (s.setBlk x).rd = s.rd := rfl
@[simp] theorem State.setBlk_outLen (x : BlockRegs) : (s.setBlk x).outLen = s.outLen := rfl
@[simp] theorem State.setBlk_blk (x : BlockRegs) : (s.setBlk x).blk = x := rfl
@[simp] theorem State.setBlk_tab (x : BlockRegs) : (s.setBlk x).tab = s.tab := rfl
@[simp] theorem State.setBlk_scr (x : BlockRegs) : (s.setBlk x).scr = s.scr := rfl
@[simp] theorem State.setBlk_sums (x : BlockRegs) : (s.setBlk x).sums = s.sums := rfl
@[simp] theorem State.setBlk_fe (x : BlockRegs) : (s.setBlk x).fe = s.fe := rfl
@[simp] theorem State.setBlk_mem (x : BlockRegs) : (s.setBlk x).mem = s.mem := rfl
@[simp] theorem State.setBlk_turns (x : BlockRegs) : (s.setBlk x).turns = s.turns := rfl
@[simp] theorem State.setBlk_busData (x : BlockRegs) : (s.setBlk x).busData = s.busData := rfl
@[simp] theorem State.setBlk_free (x : BlockRegs) : (s.setBlk x).free = s.free := rfl
@[simp] theorem State.setBlk_detect (x : BlockRegs) : (s.setBlk x).detect = s.detect := rfl
@[simp] theorem State.setTab_regs (x : Tables) : (s.setTab x).regs = s.regs := rfl
@[simp] theorem State.setTab_launch (x : Tables) : (s.setTab x).launch = s.launch := rfl
@[simp] theorem State.setTab_ctl (x : Tables) : (s.setTab x).ctl = s.ctl := rfl
@[simp] theorem State.setTab_rd (x : Tables) : (s.setTab x).rd = s.rd := rfl
@[simp] theorem State.setTab_outLen (x : Tables) : (s.setTab x).outLen = s.outLen := rfl
@[simp] theorem State.setTab_blk (x : Tables) : (s.setTab x).blk = s.blk := rfl
@[simp] theorem State.setTab_tab (x : Tables) : (s.setTab x).tab = x := rfl
@[simp] theorem State.setTab_scr (x : Tables) : (s.setTab x).scr = s.scr := rfl
@[simp] theorem State.setTab_sums (x : Tables) : (s.setTab x).sums = s.sums := rfl
@[simp] theorem State.setTab_fe (x : Tables) : (s.setTab x).fe = s.fe := rfl
@[simp] theorem State.setTab_mem (x : Tables) : (s.setTab x).mem = s.mem := rfl
@[simp] theorem State.setTab_turns (x : Tables) : (s.setTab x).turns = s.turns := rfl
@[simp] theorem State.setTab_busData (x : Tables) : (s.setTab x).busData = s.busData := rfl
@[simp] theorem State.setTab_free (x : Tables) : (s.setTab x).free = s.free := rfl
@[simp] theorem State.setTab_detect (x : Tables) : (s.setTab x).detect = s.detect := rfl
@[simp] theorem State.setScr_regs (x : Scratch) : (s.setScr x).regs = s.regs := rfl
@[simp] theorem State.setScr_launch (x : Scratch) : (s.setScr x).launch = s.launch := rfl
@[simp] theorem State.setScr_ctl (x : Scratch) : (s.setScr x).ctl = s.ctl := rfl
@[simp] theorem State.setScr_rd (x : Scratch) : (s.setScr x).rd = s.rd := rfl
@[simp] theorem State.setScr_outLen (x : Scratch) : (s.setScr x).outLen = s.outLen := rfl
@[simp] theorem State.setScr_blk (x : Scratch) : (s.setScr x).blk = s.blk := rfl
@[simp] theorem State.setScr_tab (x : Scratch) : (s.setScr x).tab = s.tab := rfl
@[simp] theorem State.setScr_scr (x : Scratch) : (s.setScr x).scr = x := rfl
@[simp] theorem State.setScr_sums (x : Scratch) : (s.setScr x).sums = s.sums := rfl
@[simp] theorem State.setScr_fe (x : Scratch) : (s.setScr x).fe = s.fe := rfl
@[simp] theorem State.setScr_mem (x : Scratch) : (s.setScr x).mem = s.mem := rfl
@[simp] theorem State.setScr_turns (x : Scratch) : (s.setScr x).turns = s.turns := rfl
@[simp] theorem State.setScr_busData (x : Scratch) : (s.setScr x).busData = s.busData := rfl
@[simp] theorem State.setScr_free (x : Scratch) : (s.setScr x).free = s.free := rfl
@[simp] theorem State.setScr_detect (x : Scratch) : (s.setScr x).detect = s.detect := rfl
@[simp] theorem State.setSums_regs (x : Sums) : (s.setSums x).regs = s.regs := rfl
@[simp] theorem State.setSums_launch (x : Sums) : (s.setSums x).launch = s.launch := rfl
@[simp] theorem State.setSums_ctl (x : Sums) : (s.setSums x).ctl = s.ctl := rfl
@[simp] theorem State.setSums_rd (x : Sums) : (s.setSums x).rd = s.rd := rfl
@[simp] theorem State.setSums_outLen (x : Sums) : (s.setSums x).outLen = s.outLen := rfl
@[simp] theorem State.setSums_blk (x : Sums) : (s.setSums x).blk = s.blk := rfl
@[simp] theorem State.setSums_tab (x : Sums) : (s.setSums x).tab = s.tab := rfl
@[simp] theorem State.setSums_scr (x : Sums) : (s.setSums x).scr = s.scr := rfl
@[simp] theorem State.setSums_sums (x : Sums) : (s.setSums x).sums = x := rfl
@[simp] theorem State.setSums_fe (x : Sums) : (s.setSums x).fe = s.fe := rfl
@[simp] theorem State.setSums_mem (x : Sums) : (s.setSums x).mem = s.mem := rfl
@[simp] theorem State.setSums_turns (x : Sums) : (s.setSums x).turns = s.turns := rfl
@[simp] theorem State.setSums_busData (x : Sums) : (s.setSums x).busData = s.busData := rfl
@[simp] theorem State.setSums_free (x : Sums) : (s.setSums x).free = s.free := rfl
@[simp] theorem State.setSums_detect (x : Sums) : (s.setSums x).detect = s.detect := rfl
@[simp] theorem State.setFe_regs (x : FrontEnd) : (s.setFe x).regs = s.regs := rfl
@[simp] theorem State.setFe_launch (x : FrontEnd) : (s.setFe x).launch = s.launch := rfl
@[simp] theorem State.setFe_ctl (x : FrontEnd) : (s.setFe x).ctl = s.ctl := rfl
@[simp] theorem State.setFe_rd (x : FrontEnd) : (s.setFe x).rd = s.rd := rfl
@[simp] theorem State.setFe_outLen (x : FrontEnd) : (s.setFe x).outLen = s.outLen := rfl
@[simp] theorem State.setFe_blk (x : FrontEnd) : (s.setFe x).blk = s.blk := rfl
@[simp] theorem State.setFe_tab (x : FrontEnd) : (s.setFe x).tab = s.tab := rfl
@[simp] theorem State.setFe_scr (x : FrontEnd) : (s.setFe x).scr = s.scr := rfl
@[simp] theorem State.setFe_sums (x : FrontEnd) : (s.setFe x).sums = s.sums := rfl
@[simp] theorem State.setFe_fe (x : FrontEnd) : (s.setFe x).fe = x := rfl
@[simp] theorem State.setFe_mem (x : FrontEnd) : (s.setFe x).mem = s.mem := rfl
@[simp] theorem State.setFe_turns (x : FrontEnd) : (s.setFe x).turns = s.turns := rfl
@[simp] theorem State.setFe_busData (x : FrontEnd) : (s.setFe x).busData = s.busData := rfl
@[simp] theorem State.setFe_free (x : FrontEnd) : (s.setFe x).free = s.free := rfl
@[simp] theorem State.setFe_detect (x : FrontEnd) : (s.setFe x).detect = s.detect := rfl
@[simp] theorem State.setMem_regs (x : List Host.Cell) : (s.setMem x).regs = s.regs := rfl
@[simp] theorem State.setMem_launch (x : List Host.Cell) : (s.setMem x).launch = s.launch := rfl
@[simp] theorem State.setMem_ctl (x : List Host.Cell) : (s.setMem x).ctl = s.ctl := rfl
@[simp] theorem State.setMem_rd (x : List Host.Cell) : (s.setMem x).rd = s.rd := rfl
@[simp] theorem State.setMem_outLen (x : List Host.Cell) : (s.setMem x).outLen = s.outLen := rfl
@[simp] theorem State.setMem_blk (x : List Host.Cell) : (s.setMem x).blk = s.blk := rfl
@[simp] theorem State.setMem_tab (x : List Host.Cell) : (s.setMem x).tab = s.tab := rfl
@[simp] theorem State.setMem_scr (x : List Host.Cell) : (s.setMem x).scr = s.scr := rfl
@[simp] theorem State.setMem_sums (x : List Host.Cell) : (s.setMem x).sums = s.sums := rfl
@[simp] theorem State.setMem_fe (x : List Host.Cell) : (s.setMem x).fe = s.fe := rfl
@[simp] theorem State.setMem_mem (x : List Host.Cell) : (s.setMem x).mem = x := rfl
@[simp] theorem State.setMem_turns (x : List Host.Cell) : (s.setMem x).turns = s.turns := rfl
@[simp] theorem State.setMem_busData (x : List Host.Cell) : (s.setMem x).busData = s.busData := rfl
@[simp] theorem State.setMem_free (x : List Host.Cell) : (s.setMem x).free = s.free := rfl
@[simp] theorem State.setMem_detect (x : List Host.Cell) : (s.setMem x).detect = s.detect := rfl
@[simp] theorem State.setTurns_regs (x : List Turn) : (s.setTurns x).regs = s.regs := rfl
@[simp] theorem State.setTurns_launch (x : List Turn) : (s.setTurns x).launch = s.launch := rfl
@[simp] theorem State.setTurns_ctl (x : List Turn) : (s.setTurns x).ctl = s.ctl := rfl
@[simp] theorem State.setTurns_rd (x : List Turn) : (s.setTurns x).rd = s.rd := rfl
@[simp] theorem State.setTurns_outLen (x : List Turn) : (s.setTurns x).outLen = s.outLen := rfl
@[simp] theorem State.setTurns_blk (x : List Turn) : (s.setTurns x).blk = s.blk := rfl
@[simp] theorem State.setTurns_tab (x : List Turn) : (s.setTurns x).tab = s.tab := rfl
@[simp] theorem State.setTurns_scr (x : List Turn) : (s.setTurns x).scr = s.scr := rfl
@[simp] theorem State.setTurns_sums (x : List Turn) : (s.setTurns x).sums = s.sums := rfl
@[simp] theorem State.setTurns_fe (x : List Turn) : (s.setTurns x).fe = s.fe := rfl
@[simp] theorem State.setTurns_mem (x : List Turn) : (s.setTurns x).mem = s.mem := rfl
@[simp] theorem State.setTurns_turns (x : List Turn) : (s.setTurns x).turns = x := rfl
@[simp] theorem State.setTurns_busData (x : List Turn) : (s.setTurns x).busData = s.busData := rfl
@[simp] theorem State.setTurns_free (x : List Turn) : (s.setTurns x).free = s.free := rfl
@[simp] theorem State.setTurns_detect (x : List Turn) : (s.setTurns x).detect = s.detect := rfl
@[simp] theorem State.setBusData_regs (x : Word) : (s.setBusData x).regs = s.regs := rfl
@[simp] theorem State.setBusData_launch (x : Word) : (s.setBusData x).launch = s.launch := rfl
@[simp] theorem State.setBusData_ctl (x : Word) : (s.setBusData x).ctl = s.ctl := rfl
@[simp] theorem State.setBusData_rd (x : Word) : (s.setBusData x).rd = s.rd := rfl
@[simp] theorem State.setBusData_outLen (x : Word) : (s.setBusData x).outLen = s.outLen := rfl
@[simp] theorem State.setBusData_blk (x : Word) : (s.setBusData x).blk = s.blk := rfl
@[simp] theorem State.setBusData_tab (x : Word) : (s.setBusData x).tab = s.tab := rfl
@[simp] theorem State.setBusData_scr (x : Word) : (s.setBusData x).scr = s.scr := rfl
@[simp] theorem State.setBusData_sums (x : Word) : (s.setBusData x).sums = s.sums := rfl
@[simp] theorem State.setBusData_fe (x : Word) : (s.setBusData x).fe = s.fe := rfl
@[simp] theorem State.setBusData_mem (x : Word) : (s.setBusData x).mem = s.mem := rfl
@[simp] theorem State.setBusData_turns (x : Word) : (s.setBusData x).turns = s.turns := rfl
@[simp] theorem State.setBusData_busData (x : Word) : (s.setBusData x).busData = x := rfl
@[simp] theorem State.setBusData_free (x : Word) : (s.setBusData x).free = s.free := rfl
@[simp] theorem State.setBusData_detect (x : Word) : (s.setBusData x).detect = s.detect := rfl
@[simp] theorem State.setFree_regs (x : Nat) : (s.setFree x).regs = s.regs := rfl
@[simp] theorem State.setFree_launch (x : Nat) : (s.setFree x).launch = s.launch := rfl
@[simp] theorem State.setFree_ctl (x : Nat) : (s.setFree x).ctl = s.ctl := rfl
@[simp] theorem State.setFree_rd (x : Nat) : (s.setFree x).rd = s.rd := rfl
@[simp] theorem State.setFree_outLen (x : Nat) : (s.setFree x).outLen = s.outLen := rfl
@[simp] theorem State.setFree_blk (x : Nat) : (s.setFree x).blk = s.blk := rfl
@[simp] theorem State.setFree_tab (x : Nat) : (s.setFree x).tab = s.tab := rfl
@[simp] theorem State.setFree_scr (x : Nat) : (s.setFree x).scr = s.scr := rfl
@[simp] theorem State.setFree_sums (x : Nat) : (s.setFree x).sums = s.sums := rfl
@[simp] theorem State.setFree_fe (x : Nat) : (s.setFree x).fe = s.fe := rfl
@[simp] theorem State.setFree_mem (x : Nat) : (s.setFree x).mem = s.mem := rfl
@[simp] theorem State.setFree_turns (x : Nat) : (s.setFree x).turns = s.turns := rfl
@[simp] theorem State.setFree_busData (x : Nat) : (s.setFree x).busData = s.busData := rfl
@[simp] theorem State.setFree_free (x : Nat) : (s.setFree x).free = x := rfl
@[simp] theorem State.setFree_detect (x : Nat) : (s.setFree x).detect = s.detect := rfl

end Sys2Proof.Machine
end

