-- ==== Sys2Proof/Laws/Access.lean ====
section
/-! SUPPORT. What a host access can do. -/

namespace Sys2Proof.Machine

/-- During a run a register access changes IRQ_EN and DONE at most (46_host_commands R312 to R318). -/
theorem access_busy {s t : State} {i : Instr} (hb : s.regs.busy = true) (hi : isAccess i = true) (e : exec i s = .next t) :
    t.regs.busy = true ∧ t.launch = s.launch ∧ t.mem = s.mem ∧
    t.regs = { s.regs with irqEn := t.regs.irqEn, done := t.regs.done } := by
  cases i with
  | start b =>
    have e' : execStart b s = .next t := e
    simp only [execStart] at e'
    rw [if_pos (by simpa [setIrqEn] using hb)] at e'
    cases Host.Outcome.next.inj e'; exact ⟨hb, rfl, rfl, rfl⟩
  | setCtrl _ => cases Host.Outcome.next.inj e; exact ⟨hb, rfl, rfl, rfl⟩
  | clearDone => cases Host.Outcome.next.inj e; exact ⟨hb, rfl, rfl, rfl⟩
  | statusNop => cases Host.Outcome.next.inj e; exact ⟨hb, rfl, rfl, rfl⟩
  | writeInBase _ => cases Host.Outcome.next.inj e; rw [writeConfig, if_pos hb]; exact ⟨hb, rfl, rfl, rfl⟩
  | writeInLen _ => cases Host.Outcome.next.inj e; rw [writeConfig, if_pos hb]; exact ⟨hb, rfl, rfl, rfl⟩
  | writeOutBase _ => cases Host.Outcome.next.inj e; rw [writeConfig, if_pos hb]; exact ⟨hb, rfl, rfl, rfl⟩
  | writeOutCap _ => cases Host.Outcome.next.inj e; rw [writeConfig, if_pos hb]; exact ⟨hb, rfl, rfl, rfl⟩
  | writeIgnoredCause _ => cases Host.Outcome.next.inj e; exact ⟨hb, rfl, rfl, rfl⟩
  | writeIgnoredOutLen _ => cases Host.Outcome.next.inj e; exact ⟨hb, rfl, rfl, rfl⟩
  | writeIgnoredCheckCalc _ => cases Host.Outcome.next.inj e; exact ⟨hb, rfl, rfl, rfl⟩
  | writeIgnoredCheckExp _ => cases Host.Outcome.next.inj e; exact ⟨hb, rfl, rfl, rfl⟩
  | writeIgnoredIsize _ => cases Host.Outcome.next.inj e; exact ⟨hb, rfl, rfl, rfl⟩
  | writeIgnoredInBitpos _ => cases Host.Outcome.next.inj e; exact ⟨hb, rfl, rfl, rfl⟩
  | writeIgnoredRsvd30 _ => cases Host.Outcome.next.inj e; exact ⟨hb, rfl, rfl, rfl⟩
  | writeIgnoredRsvd34 _ => cases Host.Outcome.next.inj e; exact ⟨hb, rfl, rfl, rfl⟩
  | writeIgnoredRsvd38 _ => cases Host.Outcome.next.inj e; exact ⟨hb, rfl, rfl, rfl⟩
  | writeIgnoredRsvd3C _ => cases Host.Outcome.next.inj e; exact ⟨hb, rfl, rfl, rfl⟩
  | readCtrl => cases Host.Outcome.next.inj e; exact ⟨hb, rfl, rfl, rfl⟩
  | readStatus => cases Host.Outcome.next.inj e; exact ⟨hb, rfl, rfl, rfl⟩
  | readInBase => cases Host.Outcome.next.inj e; exact ⟨hb, rfl, rfl, rfl⟩
  | readInLen => cases Host.Outcome.next.inj e; exact ⟨hb, rfl, rfl, rfl⟩
  | readOutBase => cases Host.Outcome.next.inj e; exact ⟨hb, rfl, rfl, rfl⟩
  | readOutCap => cases Host.Outcome.next.inj e; exact ⟨hb, rfl, rfl, rfl⟩
  | readReserved _ => cases Host.Outcome.next.inj e; exact ⟨hb, rfl, rfl, rfl⟩
  | readCause => cases Host.Outcome.next.inj e; rw [readResult, if_pos hb]; exact ⟨hb, rfl, rfl, rfl⟩
  | readOutLen => cases Host.Outcome.next.inj e; rw [readResult, if_pos hb]; exact ⟨hb, rfl, rfl, rfl⟩
  | readCheckCalc => cases Host.Outcome.next.inj e; rw [readResult, if_pos hb]; exact ⟨hb, rfl, rfl, rfl⟩
  | readCheckExp => cases Host.Outcome.next.inj e; rw [readResult, if_pos hb]; exact ⟨hb, rfl, rfl, rfl⟩
  | readIsize => cases Host.Outcome.next.inj e; rw [readResult, if_pos hb]; exact ⟨hb, rfl, rfl, rfl⟩
  | readInBitpos => cases Host.Outcome.next.inj e; rw [readResult, if_pos hb]; exact ⟨hb, rfl, rfl, rfl⟩
  | _ => cases hi

end Sys2Proof.Machine
end

