-- ==== Sys2Proof/Laws/Build.lean ====
section
/-! SUPPORT. BUILD: when it succeeds, why it fails, and that it writes only entries of the builder's form
(41_table_builder). -/

namespace Sys2Proof.Machine

/-! ## The codewords -/

theorem mem_assignFrom {c : Code} : ∀ {l : List (Nat × Nat)} {k : Nat}, c ∈ assignFrom k l → (c.len, c.sym) ∈ l := by
  intro l
  induction l with
  | nil => intro k h; cases h
  | cons p r ih =>
    obtain ⟨a, b⟩ := p
    intro k h
    simp only [assignFrom, List.mem_cons] at h ⊢
    rcases h with rfl | h
    · exact .inl rfl
    · exact .inr (ih h)

/-- Every symbol of the order has a length from 1 to 15, its own (41_table_builder R168). -/
theorem mem_symOrder {lens : List Nat} {l x : Nat} (h : (l, x) ∈ symOrder lens) :
    1 ≤ l ∧ l ≤ 15 ∧ lens[x]? = some l := by
  simp only [symOrder, List.mem_flatMap, List.mem_filter, List.mem_range'_1, beq_iff_eq] at h
  obtain ⟨a, ha, hb, rfl⟩ := h
  exact ⟨ha.1, by omega, List.mk_mem_zipIdx_iff_getElem?.1 hb⟩

theorem mem_codesOf {lens : List Nat} {c : Code} (h : c ∈ codesOf lens) :
    1 ≤ c.len ∧ c.len ≤ 15 ∧ lens[c.sym]? = some c.len := mem_symOrder (mem_assignFrom h)

/-! ## Success and failure -/

/-- BUILD fails with the verdict on the lengths before it writes anything (41_table_builder R162 to R165). -/
theorem build_fail {cap k : Nat} {lens : List Nat} {pv : Nat → Entry} (t : Vector Entry cap) {c : Cause}
    (h : verdict lens = some c) : build k lens pv t = .fail c t := by
  simp [build, h]

/-- With no codeword longer than K there is no subtable to run out of room for. -/
theorem walk_ok {cap k : Nat} (all : List Code) (pv : Nat → Entry) : ∀ (l : List Code) (t : Vector Entry cap) (rc nf : Nat),
    (∀ c ∈ l, c.len ≤ k) → ∃ t' rc', walk k all pv l t rc nf = .ok t' rc' nf := by
  intro l
  induction l with
  | nil => exact fun t rc nf _ => ⟨t, rc, rfl⟩
  | cons c r ih =>
    intro t rc nf h
    simp only [walk, h c (by simp), if_true]
    exact ih _ _ _ fun d hd => h d (by simp [hd])

/-- An accepted length set with no length above K builds. -/
theorem build_ok {cap k : Nat} {lens : List Nat} (pv : Nat → Entry) (t : Vector Entry cap) (h : verdict lens = none)
    (hk : ∀ l ∈ lens, l ≤ k) : ∃ t' rc, build k lens pv t = .ok t' rc (2 ^ k) := by
  simp only [build, h]
  split
  · exact ⟨_, _, rfl⟩
  · refine walk_ok _ _ _ _ _ _ fun c hc => hk _ ?_
    exact List.mem_of_getElem? (mem_codesOf hc).2.2

/-- The walk's one failure. -/
theorem walk_fail {cap k : Nat} (all : List Code) (pv : Nat → Entry) : ∀ (l : List Code) (t t' : Vector Entry cap)
    (rc nf : Nat) (c : Cause), walk k all pv l t rc nf = .fail c t' → c = .tableOverflow := by
  intro l
  induction l with
  | nil => intro t t' rc nf c h; cases h
  | cons d r ih =>
    intro t t' rc nf c h
    simp only [walk] at h
    split at h
    · exact ih _ _ _ _ _ h
    · split at h
      · exact ih _ _ _ _ _ h
      · split at h
        · simp only [BuildRes.fail.injEq] at h; exact h.1.symm
        · exact ih _ _ _ _ _ h

/-- Why BUILD fails: the verdict, or no room in the table memory. -/
theorem build_cause {cap k : Nat} {lens : List Nat} {pv : Nat → Entry} {t t' : Vector Entry cap} {c : Cause}
    (h : build k lens pv t = .fail c t') : verdict lens = some c ∨ verdict lens = none ∧ c = .tableOverflow := by
  simp only [build] at h
  split at h
  · rename_i d hd
    simp only [BuildRes.fail.injEq] at h
    exact .inl (h.1 ▸ hd)
  · rename_i hv
    split at h
    · cases h
    · exact .inr ⟨hv, walk_fail _ _ _ _ _ _ _ _ h⟩

/-! ## What is written -/

section entries

variable {cap k x : Nat} {lit : Bool} {t : Vector Entry cap} {e : Entry}

theorem tableOk_set (ht : TableOk k x lit t) (i : Nat) (he : EntryOk k x lit i e) : TableOk k x lit (t.setIfInBounds i e) := by
  intro j hj
  rw [Vector.getElem_setIfInBounds]
  split
  · rename_i h; exact h ▸ he
  · exact ht j hj

theorem tableOk_fill (he : ∀ i, EntryOk k x lit i e) (stride n : Nat) : ∀ (i : Nat) {t : Vector Entry cap},
    TableOk k x lit t → TableOk k x lit (fillStride t i stride e n) := by
  induction n with
  | zero => exact fun _ _ h => h
  | succ n ih => exact fun i _ h => ih _ (tableOk_set h i (he i))

theorem entryOk_sentinel (i : Nat) : EntryOk k x lit i sentinel :=
  ⟨by simp [isLink], by simp [isLink], .inl rfl, .inl rfl⟩

theorem isLink_entryAt {i : Nat} (ht : TableOk k x lit t) (h : isLink (entryAt t i) = true) :
    i < cap ∧ EntryOk k x lit i (entryAt t i) := by
  by_cases hi : i < cap
  · have : entryAt t i = t[i] := by simp [entryAt, hi]
    exact ⟨hi, this ▸ ht i hi⟩
  · have : entryAt t i = sentinel := by simp [entryAt, hi]
    rw [this] at h
    exact absurd h (by decide)

/-- A packed value that is no link, with a low byte of at most x unless it is a literal's and literals are allowed. -/
def PvOk (x : Nat) (lit : Bool) (pv : Entry) : Prop :=
  ∀ n, n < 16 → isLink (terminalEntry pv n) = false ∧ entryNbits (terminalEntry pv n) ≤ 15 ∧
    (lit = true ∧ entryT (terminalEntry pv n) = true ∨ payloadExtra (entryPayload (terminalEntry pv n)) ≤ x)

theorem entryOk_terminal {pv : Entry} {n : Nat} (h : PvOk x lit pv) (hn : n ≤ 15) (i : Nat) :
    EntryOk k x lit i (terminalEntry pv n) := by
  obtain ⟨h1, h2, h3⟩ := h n (by omega)
  exact ⟨by simp [h1], by simp [h1], .inr h2, .inr (.inr h3)⟩

theorem linkEntry_toNat {base w : Nat} (hb : base < 65536) (hw : w < 16) :
    (linkEntry base w).toNat = base * 256 + 128 + w := by
  simp only [linkEntry, BitVec.toNat_ofNat]
  omega

theorem entryOk_link {base w i : Nat} (hb : base < 65536) (hw : w ≤ 15) (hi : i < 2 ^ k) (hk : 2 ^ k ≤ base) :
    EntryOk k x lit i (linkEntry base w) := by
  have e := linkEntry_toNat hb (show w < 16 by omega)
  have hp : (entryPayload (linkEntry base w)).toNat = base := by
    simp only [entryPayload, BitVec.extractLsb'_toNat, e, Nat.shiftRight_eq_div_pow]
    omega
  have hn : entryNbits (linkEntry base w) = w := by
    simp only [entryNbits, BitVec.extractLsb'_toNat, e, Nat.shiftRight_eq_div_pow]
    omega
  refine ⟨fun _ => hi, fun _ => by rw [hp]; exact hk, .inr (by omega), .inr (.inl ?_)⟩
  have h7 : entryL (linkEntry base w) = true := by
    simp only [entryL, BitVec.getLsbD, e, Nat.testBit_eq_decide_div_mod_eq]
    exact decide_eq_true (by omega)
  have hs : linkEntry base w ≠ sentinel := by
    intro h
    rw [h] at hn
    have : entryNbits sentinel = 63 := by decide
    omega
  simp [isLink, h7, hs]

theorem tableOk_fillSub {c : Code} {pv : Entry} (h : PvOk x lit pv) (hc : c.len ≤ 15) (ht : TableOk k x lit t) :
    TableOk k x lit (fillSub k c pv t) :=
  tableOk_fill (fun i => entryOk_terminal h (by omega) i) _ _ _ ht

theorem subWidth_le {all : List Code} (h : ∀ c ∈ all, c.len ≤ 15) (p : Nat) : subWidth k all p ≤ 15 := by
  have key : ∀ (l : List Nat) (a : Nat), a ≤ 15 → (∀ y ∈ l, y ≤ 15) → l.foldl max a ≤ 15 := by
    intro l
    induction l with
    | nil => exact fun a ha _ => ha
    | cons y r ih => exact fun a ha hl => ih _ (Nat.max_le.2 ⟨ha, hl y (by simp)⟩) fun z hz => hl z (by simp [hz])
  refine Nat.le_trans (Nat.sub_le _ _) (key _ 0 (by omega) fun y hy => ?_)
  simp only [List.mem_map, List.mem_filter] at hy
  obtain ⟨c, ⟨hc, -⟩, rfl⟩ := hy
  exact h c hc

theorem tableOk_walk {all : List Code} (hall : ∀ c ∈ all, c.len ≤ 15) (hcap : cap < 65536) {pv : Nat → Entry} :
    ∀ (l : List Code) {t : Vector Entry cap} {rc nf : Nat}, (∀ c ∈ l, c.len ≤ 15 ∧ PvOk x lit (pv c.sym)) → 2 ^ k ≤ nf →
      TableOk k x lit t → TableOk k x lit (walk k all pv l t rc nf).table := by
  intro l
  induction l with
  | nil => exact fun _ _ ht => ht
  | cons c r ih =>
    intro t rc nf h hnf ht
    have hr : ∀ d ∈ r, d.len ≤ 15 ∧ PvOk x lit (pv d.sym) := fun d hd => h d (by simp [hd])
    obtain ⟨hc, hpv⟩ := h c (by simp)
    simp only [walk]
    split
    · exact ih hr hnf (tableOk_fill (fun i => entryOk_terminal hpv hc i) _ _ _ ht)
    · split
      · exact ih hr hnf (tableOk_fillSub hpv hc ht)
      · split
        · exact ht
        · have hw := Nat.two_pow_pos (subWidth k all (c.code % 2 ^ k))
          refine ih hr (by omega) (tableOk_fillSub hpv hc (tableOk_fill entryOk_sentinel _ _ _ (tableOk_set ht _ ?_)))
          exact entryOk_link (by omega) (subWidth_le hall _) (Nat.mod_lt _ (Nat.two_pow_pos k)) hnf

/-- BUILD writes only entries of the builder's form. -/
theorem tableOk_build {lens : List Nat} {pv : Nat → Entry} (hcap : cap < 65536)
    (hpv : ∀ i, i < lens.length → PvOk x lit (pv i)) (ht : TableOk k x lit t) : TableOk k x lit (build k lens pv t).table := by
  simp only [build]
  split
  · exact ht
  · split
    · rename_i hv hs
      refine tableOk_fill (fun i => entryOk_terminal (hpv _ ?_) (by omega) i) _ _ _ (tableOk_fill entryOk_sentinel _ _ _ ht)
      simp only [isSingle, Bool.and_eq_true, decide_eq_true_eq] at hs
      refine List.findIdx_lt_length_of_exists ?_
      have key : ∀ (l : List Nat) (a : Nat), l.foldl max a = 1 → a = 1 ∨ 1 ∈ l := by
        intro l
        induction l with
        | nil => exact fun a h => .inl h
        | cons y r ih =>
          intro a h
          rcases ih _ h with h | h
          · rcases Nat.le_total a y with h' | h'
            · rw [Nat.max_eq_right h'] at h; exact .inr (by simp [h])
            · rw [Nat.max_eq_left h'] at h; exact .inl h
          · exact .inr (by simp [h])
      rcases key _ 0 hs.2 with h | h
      · cases h
      · exact ⟨1, h, by simp⟩
    · refine tableOk_walk (fun c hc => (mem_codesOf hc).2.1) hcap _ (fun c hc => ?_) (Nat.le_refl _)
        (tableOk_fill entryOk_sentinel _ _ _ ht)
      obtain ⟨-, h2, h3⟩ := mem_codesOf hc
      exact ⟨h2, hpv _ (List.getElem?_eq_some_iff.1 h3).1⟩

end entries

/-! ## The three alphabets' packed values -/

/-- PvOk as a check that runs. -/
def pvCheck (x : Nat) (lit : Bool) (pv : Entry) : Bool :=
  (List.range 16).all fun n => !isLink (terminalEntry pv n) && decide (entryNbits (terminalEntry pv n) ≤ 15) &&
    (lit && entryT (terminalEntry pv n) || decide (payloadExtra (entryPayload (terminalEntry pv n)) ≤ x))

theorem pvOk_of_check {x : Nat} {lit : Bool} {pv : Entry} (h : pvCheck x lit pv = true) : PvOk x lit pv := by
  intro n hn
  have := List.all_eq_true.1 h n (List.mem_range.2 hn)
  simp only [Bool.and_eq_true, Bool.or_eq_true, Bool.not_eq_true', decide_eq_true_eq] at this
  exact ⟨this.1.1, this.1.2, this.2⟩

theorem pvCL_checks : (List.range 19).all (fun i => pvCheck 18 false (pvCL i)) = true := by decide +kernel
theorem pvLL_checks : (List.range 288).all (fun i => pvCheck 13 true (pvLL i)) = true := by decide +kernel
theorem pvD_checks : (List.range 32).all (fun i => pvCheck 13 false (pvD i)) = true := by decide +kernel

theorem pvCL_ok (i : Nat) (h : i < 19) : PvOk 18 false (pvCL i) :=
  pvOk_of_check (List.all_eq_true.1 pvCL_checks i (List.mem_range.2 h))

theorem pvLL_ok (i : Nat) (h : i < 288) : PvOk 13 true (pvLL i) :=
  pvOk_of_check (List.all_eq_true.1 pvLL_checks i (List.mem_range.2 h))

theorem pvD_ok (i : Nat) (h : i < 32) : PvOk 13 false (pvD i) :=
  pvOk_of_check (List.all_eq_true.1 pvD_checks i (List.mem_range.2 h))

theorem reset_tables_ok : TableOk Config.kCL 18 false State.reset.tab.cl ∧ TableOk Config.kLL 13 true State.reset.tab.ll ∧
    TableOk Config.kD 13 false State.reset.tab.d := by
  have e : ∀ k x lit i, EntryOk k x lit i 0#32 := fun k x lit i =>
    ⟨fun h => absurd h (by decide), fun h => absurd h (by decide), .inr (by decide), .inr (.inr (.inr
      (by rw [show payloadExtra (entryPayload 0#32) = 0 by decide]; exact Nat.zero_le x)))⟩
  refine ⟨fun i h => ?_, fun i h => ?_, fun i h => ?_⟩ <;>
  · simp only [State.reset, Vector.getElem_replicate]
    exact e _ _ _ _

end Sys2Proof.Machine
end

