-- ==== Sys2Proof/Laws/Memory.lean ====
section
/-! SUPPORT. Host memory: a read after a write, and that every write keeps the canonical form. -/

namespace Sys2Proof.Machine

theorem memWfFrom_cons {lo k : Nat} {b : Byte} {r : List Host.Cell} :
    memWfFrom lo ((k, b) :: r) = true ↔ lo ≤ k ∧ k < Config.addrSpace ∧ b ≠ unlisted ∧ memWfFrom (k + 1) r = true := by
  simp [memWfFrom, and_assoc]

/-- A list in canonical form from lo on is in canonical form from any lower address on. -/
theorem memWfFrom_mono {lo hi : Nat} {m : List Host.Cell} (h : memWfFrom hi m = true) (hl : lo ≤ hi) :
    memWfFrom lo m = true := by
  cases m with
  | nil => rfl
  | cons c r =>
    obtain ⟨k, b⟩ := c
    rw [memWfFrom_cons] at h ⊢
    exact ⟨by omega, h.2⟩

/-- Below its first address a canonical list lists nothing. -/
theorem memRead_below {lo a : Nat} {m : List Host.Cell} (h : memWfFrom lo m = true) (ha : a < lo) :
    memRead m a = unlisted := by
  induction m generalizing lo with
  | nil => rfl
  | cons c r ih =>
    obtain ⟨k, b⟩ := c
    rw [memWfFrom_cons] at h
    have : k ≠ a := by omega
    simp [memRead, this, ih h.2.2.2 (by omega)]

/-- Reading back the byte just written. -/
theorem memRead_memWrite_same {lo a : Nat} {m : List Host.Cell} (b : Byte) (h : memWfFrom lo m = true) :
    memRead (memWrite m a b) a = b := by
  induction m generalizing lo with
  | nil => by_cases hb : b = unlisted <;> simp [memWrite, memRead, hb]
  | cons c r ih =>
    obtain ⟨k, d⟩ := c
    have h' := memWfFrom_cons.1 h
    simp only [memWrite]
    split
    · split
      · rename_i hk hb
        rw [memRead_below h'.2.2.2 (by omega), hb]
      · simp [memRead]
    · split
      · split
        · rename_i hk hlt hb
          rw [memRead_below (lo := k) (by rw [memWfFrom_cons]; exact ⟨Nat.le_refl k, h'.2⟩) hlt, hb]
        · simp [memRead]
      · rename_i hk _
        simp [memRead, hk, ih h'.2.2.2]

/-- A write leaves every other address alone. -/
theorem memRead_memWrite_ne {a x : Nat} (m : List Host.Cell) (b : Byte) (hx : x ≠ a) :
    memRead (memWrite m a b) x = memRead m x := by
  induction m with
  | nil => by_cases hb : b = unlisted <;> simp [memWrite, memRead, hb, Ne.symm hx]
  | cons c r ih =>
    obtain ⟨k, d⟩ := c
    simp only [memWrite]
    split
    · rename_i hk
      subst hk
      split <;> simp [memRead, Ne.symm hx]
    · split
      · split <;> simp [memRead, Ne.symm hx]
      · simp only [memRead, ih]

/-- A write inside the address space keeps the canonical form. -/
theorem memWfFrom_memWrite {lo a : Nat} {m : List Host.Cell} {b : Byte} (h : memWfFrom lo m = true) (hlo : lo ≤ a)
    (ha : a < Config.addrSpace) : memWfFrom lo (memWrite m a b) = true := by
  induction m generalizing lo with
  | nil => by_cases hb : b = unlisted <;> simp [memWrite, memWfFrom, hb, hlo, ha]
  | cons c r ih =>
    obtain ⟨k, d⟩ := c
    have h' := memWfFrom_cons.1 h
    simp only [memWrite]
    split
    · rename_i hk
      subst hk
      split
      · exact memWfFrom_mono h'.2.2.2 (by omega)
      · rename_i hb
        exact memWfFrom_cons.2 ⟨hlo, ha, hb, h'.2.2.2⟩
    · split
      · split
        · exact h
        · rename_i hlt hb
          exact memWfFrom_cons.2 ⟨hlo, ha, hb, memWfFrom_cons.2 ⟨hlt, h'.2⟩⟩
      · exact memWfFrom_cons.2 ⟨h'.1, h'.2.1, h'.2.2.1, ih h'.2.2.2 (by omega)⟩

/-- What memWrite does to a canonical memory: the form is kept, the byte reads back, the others are unchanged. -/
theorem memWrite_spec {a : Nat} {m : List Host.Cell} (b : Byte) (h : memWf m = true) (ha : a < Config.addrSpace) :
    memWf (memWrite m a b) = true ∧ memRead (memWrite m a b) a = b ∧
      ∀ x, x ≠ a → memRead (memWrite m a b) x = memRead m x :=
  ⟨memWfFrom_memWrite h (Nat.zero_le a) ha, memRead_memWrite_same b h, fun _ hx => memRead_memWrite_ne m b hx⟩

theorem reset_memWf : memWf State.reset.mem = true := rfl

theorem busAddr_lt (base : Word) (i : Nat) : busAddr base i < Config.addrSpace :=
  Nat.mod_lt _ (by decide)

/-- Two offsets below the size of the address space have different addresses. -/
theorem busAddr_inj {base : Word} {i j : Nat} (hi : i < Config.addrSpace) (hj : j < Config.addrSpace)
    (h : busAddr base i = busAddr base j) : i = j := by
  have := base.isLt
  simp only [busAddr, show Config.addrSpace = 4294967296 from rfl] at h hi hj
  omega

/-- In a buffer that does not wrap the top of the address space, the reduction is the identity (20_memory R68, R69). -/
theorem busAddr_eq {base : Word} {i : Nat} (h : base.toNat + i < Config.addrSpace) : busAddr base i = base.toNat + i :=
  Nat.mod_eq_of_lt h

end Sys2Proof.Machine
end

