-- ==== Sys2Proof/Laws/Engine.lean ====
section
/-! SUPPORT. What the engine's operations keep (EngineKeeps), one lemma per operation, and how an operation ends a step. -/

namespace Sys2Proof.Machine

variable {α β : Type} {s t u : State}

/-! ## Sequencing -/

theorem Res.Post.mono {P Q : State → Prop} {r : Res α} (h : r.Post P) (hpq : ∀ x, P x → Q x) : r.Post Q := by
  cases h with
  | ok h => exact .ok (hpq _ h)
  | raised h => exact .raised (hpq _ h)

theorem Res.Post.bind {P : State → Prop} {r : Res α} {f : α → State → Res β} (h : r.Post P)
    (hf : ∀ a x, P x → (f a x).Post P) : (r.bind f).Post P := by
  cases h with
  | ok h => exact hf _ _ h
  | raised h => exact .raised h

/-- How a step ends: the operation's own state, or the stop its raise takes. -/
theorem Res.finish_next {r : Res α} {x : State} (h : r.finish = .next x) :
    (∃ a, r = .ok a x) ∨ ∃ c y, r = .raised c y ∧ x = raiseStop c y := by
  cases r with
  | ok a y => simp only [Res.finish, Host.Outcome.next.injEq] at h; exact .inl ⟨a, by rw [h]⟩
  | raised c y => simp only [Res.finish, Host.Outcome.next.injEq] at h; exact .inr ⟨c, y, rfl, h.symm⟩

@[simp] theorem Res.finish_ok (a : α) (x : State) : (Res.ok a x).finish = .next x := rfl

@[simp] theorem Res.finish_raised (c : Cause) (x : State) : (Res.raised (α := α) c x).finish = .next (raiseStop c x) := rfl

@[simp] theorem Res.bind_ok (a : α) (x : State) (f : α → State → Res β) : (Res.ok a x).bind f = f a x := rfl

@[simp] theorem Res.bind_raised (c : Cause) (x : State) (f : α → State → Res β) :
    (Res.raised c x).bind f = .raised c x := rfl

/-- An operation of the engine always gives a next state. -/
theorem Res.finish_exists (r : Res α) : ∃ x, r.finish = .next x := by
  cases r with
  | ok a x => exact ⟨x, rfl⟩
  | raised c x => exact ⟨_, rfl⟩

/-! ## EngineKeeps -/

/-- An operation that touches neither the register block, the outside, the output nor memory. -/
theorem EngineKeeps.quiet (h1 : t.regs = s.regs) (h2 : t.launch = s.launch) (h3 : t.turns = s.turns)
    (h4 : t.busData = s.busData) (h5 : t.free = s.free) (h6 : t.detect = s.detect) (h7 : t.outLen = s.outLen)
    (h8 : t.mem = s.mem) (h9 : s.ctl.seq ≠ .idle → t.ctl.seq ≠ .idle)
    (h10 : t.ctl.seq = .wrap → s.ctl.seq = .wrap ∧ t.fe = s.fe) : EngineKeeps s t :=
  ⟨h1, h2, h3, h4, h5, h6, h9, h10, Nat.le_of_eq (congrArg BitVec.toNat h7.symm), by rw [h7]; exact id, by rw [h8]; exact id, by simp [h8]⟩

theorem EngineKeeps.refl (s : State) : EngineKeeps s s :=
  .quiet rfl rfl rfl rfl rfl rfl rfl rfl id fun h => ⟨h, rfl⟩

theorem EngineKeeps.trans (h : EngineKeeps s t) (k : EngineKeeps t u) : EngineKeeps s u := by
  have hc : outCap t = outCap s := by simp [outCap, h.launch]
  refine ⟨k.regs.trans h.regs, k.launch.trans h.launch, k.turns.trans h.turns, k.busData.trans h.busData,
    k.free.trans h.free, k.detect.trans h.detect, fun x => k.running (h.running x),
    fun x => ⟨(h.front (k.front x).1).1, (k.front x).2.trans (h.front (k.front x).1).2⟩, Nat.le_trans h.grows k.grows,
    fun x => hc ▸ k.fits (hc ▸ h.fits x), fun x => k.memForm (h.memForm x), fun a ha => ?_⟩
  rw [k.mem a fun j hj hk => h.launch ▸ ha j (Nat.le_trans h.grows hj) hk,
    h.mem a fun j hj hk => ha j hj (Nat.lt_of_lt_of_le hk k.grows)]

theorem keeps_setRd (s : State) (x : Reader) : EngineKeeps s (s.setRd x) := .quiet rfl rfl rfl rfl rfl rfl rfl rfl id fun h => ⟨h, rfl⟩
theorem keeps_setCtl (s : State) (x : Control) (h : s.ctl.seq ≠ .idle → x.seq ≠ .idle)
    (k : x.seq = .wrap → s.ctl.seq = .wrap) : EngineKeeps s (s.setCtl x) :=
  .quiet rfl rfl rfl rfl rfl rfl rfl rfl h fun w => ⟨k w, rfl⟩
theorem keeps_setBlk (s : State) (x : BlockRegs) : EngineKeeps s (s.setBlk x) := .quiet rfl rfl rfl rfl rfl rfl rfl rfl id fun h => ⟨h, rfl⟩
theorem keeps_setTab (s : State) (x : Tables) : EngineKeeps s (s.setTab x) := .quiet rfl rfl rfl rfl rfl rfl rfl rfl id fun h => ⟨h, rfl⟩
theorem keeps_setScr (s : State) (x : Scratch) : EngineKeeps s (s.setScr x) := .quiet rfl rfl rfl rfl rfl rfl rfl rfl id fun h => ⟨h, rfl⟩
theorem keeps_setSums (s : State) (x : Sums) : EngineKeeps s (s.setSums x) := .quiet rfl rfl rfl rfl rfl rfl rfl rfl id fun h => ⟨h, rfl⟩

/-- Sequencing keeps what both parts keep. -/
theorem Res.Post.keeps {r : Res α} {f : α → State → Res β} (h : r.Post (EngineKeeps s))
    (hf : ∀ a x, (f a x).Post (EngineKeeps x)) : (r.bind f).Post (EngineKeeps s) :=
  h.bind fun a x hx => (hf a x).mono fun _ hy => hx.trans hy

/-- An operation after an update that keeps. -/
theorem Res.Post.after {r : Res α} (h : EngineKeeps s t) (hr : r.Post (EngineKeeps t)) : r.Post (EngineKeeps s) :=
  hr.mono fun _ hx => h.trans hx

/-! ## The bit reader -/

theorem pull_keeps (s : State) : EngineKeeps s (pull s) := by
  simp only [pull]; exact keeps_setRd _ _

theorem fill_keeps (n : Nat) (s : State) : EngineKeeps s (fill n s) := by
  simp only [fill]
  split
  · split
    · exact (pull_keeps s).trans (pull_keeps _)
    · exact pull_keeps s
  · exact .refl s

theorem shiftOut_keeps (n : Nat) (s : State) : EngineKeeps s (shiftOut n s) := by
  simp only [shiftOut]; exact keeps_setRd _ _

theorem drop_keeps (n : Nat) (s : State) : (drop n s).Post (EngineKeeps s) := by
  simp only [drop]
  split
  · exact .raised (shiftOut_keeps n s)
  · exact .ok (shiftOut_keeps n s)

theorem get_keeps (n : Nat) (s : State) : (get n s).Post (EngineKeeps s) := by
  simp only [get]
  split
  · exact .ok (.refl s)
  · exact (Res.Post.after (fill_keeps n s) (drop_keeps n _)).keeps fun _ x => .ok (.refl x)

theorem align_keeps (s : State) : EngineKeeps s (align s) := by
  simp only [align]; exact keeps_setRd _ _

theorem readLeU16_keeps (s : State) : (readLeU16 s).Post (EngineKeeps s) := by
  simp only [readLeU16]
  split
  · exact .raised (keeps_setRd _ _)
  · exact .ok (keeps_setRd _ _)

/-! ## Output -/

/-- Counting one more byte does not wrap while the output fits (10_state R23). -/
theorem putByte_outLen (b : Byte) (h : s.outLen.toNat < outCap s) : (putByte b s).outLen.toNat = s.outLen.toNat + 1 := by
  have := s.launch.outCap.isLt
  simp only [outCap] at h
  rw [show (putByte b s).outLen = s.outLen + 1#32 from rfl, BitVec.toNat_add, BitVec.toNat_ofNat]
  omega

theorem putByte_keeps (b : Byte) (h : s.outLen.toNat < outCap s) : EngineKeeps s (putByte b s) where
  regs := rfl
  launch := rfl
  turns := rfl
  busData := rfl
  free := rfl
  detect := rfl
  running := id
  front h := ⟨h, rfl⟩
  grows := by rw [putByte_outLen b h]; exact Nat.le_succ _
  fits _ := by rw [putByte_outLen b h]; exact h
  memForm hm := memWfFrom_memWrite hm (Nat.zero_le _) (busAddr_lt _ _)
  mem _ ha := memRead_memWrite_ne _ _ (ha s.outLen.toNat (Nat.le_refl _) (by rw [putByte_outLen b h]; exact Nat.lt_succ_self _))

theorem emit_keeps (b : Byte) (s : State) : (emit b s).Post (EngineKeeps s) := by
  simp only [emit]
  split
  · exact .raised (.refl s)
  · exact .ok (putByte_keeps b (by omega))

theorem copy_keeps (k d : Nat) : ∀ {s : State}, s.outLen.toNat + k ≤ outCap s →
    EngineKeeps s (copy k d s) ∧ (copy k d s).outLen.toNat = s.outLen.toNat + k := by
  induction k with
  | zero => exact fun _ => ⟨.refl _, rfl⟩
  | succ k ih =>
    intro s h
    have e := putByte_outLen (outByte s (s.outLen.toNat - d)) (s := s) (by omega)
    obtain ⟨h1, h2⟩ := ih (s := putByte (outByte s (s.outLen.toNat - d)) s)
      (by rw [e, show outCap (putByte _ s) = outCap s from rfl]; omega)
    exact ⟨(putByte_keeps _ (by omega)).trans h1, by rw [copy, h2, e]; omega⟩

theorem advanceCur_keeps (s : State) : EngineKeeps s (advanceCur s) := by
  simp only [advanceCur]; exact keeps_setRd _ _

theorem storedCopy_keeps (k : Nat) : ∀ {s : State}, s.outLen.toNat + k ≤ outCap s →
    EngineKeeps s (storedCopy k s) ∧ (storedCopy k s).outLen.toNat = s.outLen.toNat + k := by
  induction k with
  | zero => exact fun _ => ⟨.refl _, rfl⟩
  | succ k ih =>
    intro s h
    have e := putByte_outLen (inByte s s.rd.cur) (s := s) (by omega)
    obtain ⟨h1, h2⟩ := ih (s := advanceCur (putByte (inByte s s.rd.cur) s))
      (by rw [show (advanceCur (putByte (inByte s s.rd.cur) s)).outLen = (putByte (inByte s s.rd.cur) s).outLen from rfl, e,
        show outCap (advanceCur (putByte (inByte s s.rd.cur) s)) = outCap s from rfl]; omega)
    exact ⟨((putByte_keeps _ (by omega)).trans (advanceCur_keeps _)).trans h1, by
      rw [storedCopy, h2, show (advanceCur (putByte (inByte s s.rd.cur) s)).outLen = (putByte (inByte s s.rd.cur) s).outLen from rfl, e]
      omega⟩

/-! ## The sequencer's moves -/

theorem lookNext_keeps (a : Alphabet) (s : State) : EngineKeeps s (lookNext a s) := keeps_setCtl _ _ (by exact id) (by exact id)
theorem lookSymbol_keeps (k : Nat) (s : State) : EngineKeeps s (lookSymbol k s) := keeps_setCtl _ _ (by exact id) (by exact id)
theorem endBlock_keeps (s : State) : EngineKeeps s (endBlock s) :=
  keeps_setCtl _ _ (fun _ => by dsimp only; split <;> exact nofun) (by dsimp only; split <;> exact nofun)
theorem enterSyms_keeps (s : State) : EngineKeeps s (enterSyms s) := (keeps_setCtl _ _ (by intro _ h; cases h) (by exact nofun)).trans (lookNext_keeps _ _)
theorem enterClread_keeps (s : State) : EngineKeeps s (enterClread s) := (keeps_setCtl _ _ (by intro _ h; cases h) (by exact nofun)).trans (lookNext_keeps _ _)

/-! ## Symbols -/

theorem matchLength_keeps (base extra : Nat) (s : State) : (matchLength base extra s).Post (EngineKeeps s) :=
  (get_keeps extra s).keeps fun _ x => .ok ((keeps_setCtl x _ (by exact id) (by exact id)).trans (lookNext_keeps .dist _))

theorem matchDistance_keeps (base extra : Nat) (s : State) : (matchDistance base extra s).Post (EngineKeeps s) := by
  refine (get_keeps extra s).keeps fun v x => ?_
  split
  · exact .raised (.refl x)
  · split
    · exact .raised (.refl x)
    · exact .ok ((copy_keeps _ _ (by omega)).1.trans (lookNext_keeps .ll _))

/-! ## The block engine -/

theorem takeHeader_keeps (b : Bool) (y : BitVec 2) (s : State) : (takeHeader b y s).Post (EngineKeeps s) :=
  (get_keeps 1 s).keeps fun _ x =>
    (Res.Post.after (keeps_setBlk x _) (get_keeps 2 _)).keeps fun _ x => .ok (keeps_setBlk x _)

theorem storedBody_keeps (s : State) : (storedBody s).Post (EngineKeeps s) := by
  refine (Res.Post.after (align_keeps s) (readLeU16_keeps _)).keeps fun len x => ?_
  refine (readLeU16_keeps x).keeps fun nlen y => ?_
  split
  · exact .raised (.refl y)
  · split
    · exact .raised (.refl y)
    · split
      · exact .raised (.refl y)
      · exact .ok ((storedCopy_keeps len (by omega)).1.trans (endBlock_keeps _))

theorem setFixedLens_keeps (s : State) : EngineKeeps s (setFixedLens s) := by
  simp only [setFixedLens]; exact keeps_setBlk _ _

theorem toRes_keeps {cap : Nat} (r : BuildRes cap) (h : EngineKeeps s t) : (r.toRes t).Post (EngineKeeps s) := by
  cases r with
  | ok _ _ _ => exact .ok h
  | fail _ _ => exact .raised h

theorem buildCL_keeps (s : State) : (buildCL s).Post (EngineKeeps s) := by
  unfold buildCL
  dsimp only
  generalize build _ _ _ _ = r
  exact toRes_keeps r ((keeps_setTab s _).trans (keeps_setScr _ _))

theorem buildLL_keeps (s : State) : (buildLL s).Post (EngineKeeps s) := by
  unfold buildLL
  dsimp only
  generalize build _ _ _ _ = r
  exact toRes_keeps r ((keeps_setTab s _).trans (keeps_setScr _ _))

theorem buildD_keeps (s : State) : (buildD s).Post (EngineKeeps s) := by
  unfold buildD
  dsimp only
  generalize build _ _ _ _ = r
  exact toRes_keeps r ((keeps_setTab s _).trans (keeps_setScr _ _))

theorem buildBoth_keeps (s : State) : (buildBoth s).Post (EngineKeeps s) := by
  unfold buildBoth
  exact (buildLL_keeps s).keeps fun _ x => (buildD_keeps x).keeps fun _ y => .ok (enterSyms_keeps y)

theorem dynamicCounts_keeps (s : State) : (dynamicCounts s).Post (EngineKeeps s) :=
  (get_keeps 5 s).keeps fun _ x => (Res.Post.after (keeps_setBlk x _) (get_keeps 5 _)).keeps fun _ y =>
    (Res.Post.after (keeps_setBlk y _) (get_keeps 4 _)).keeps fun _ z => .ok (keeps_setBlk z _)

theorem readClLens_keeps (l : List Nat) : ∀ s, (readClLens l s).Post (EngineKeeps s) := by
  induction l with
  | nil => exact fun s => .ok (.refl s)
  | cons i r ih => exact fun s => (get_keeps 3 s).keeps fun _ x => Res.Post.after (keeps_setBlk x _) (ih _)

theorem dynamicBody_keeps (s : State) : (dynamicBody s).Post (EngineKeeps s) := by
  unfold dynamicBody
  exact (dynamicCounts_keeps s).keeps fun _ x =>
    (Res.Post.after (keeps_setBlk x _) (readClLens_keeps _ _)).keeps fun _ y =>
      (buildCL_keeps y).keeps fun _ z => .ok (enterClread_keeps z)

/-! ## Code lengths -/

theorem storeLen_keeps (v : BitVec 4) (s : State) : EngineKeeps s (storeLen v s) := (keeps_setBlk _ _).trans (keeps_setCtl _ _ (by exact id) (by exact id))

theorem storeLens_keeps (v : BitVec 4) (k : Nat) : ∀ s, EngineKeeps s (storeLens v k s) := by
  induction k with
  | zero => exact .refl
  | succ k ih => exact fun s => (storeLen_keeps v s).trans (ih _)

theorem splitLens_keeps (s : State) : EngineKeeps s (splitLens s) := by
  simp only [splitLens]; exact keeps_setBlk _ _

theorem clNext_keeps (s : State) : (clNext s).Post (EngineKeeps s) := by
  simp only [clNext]
  split
  · exact .ok (lookNext_keeps _ _)
  · exact Res.Post.after (splitLens_keeps s) (buildBoth_keeps _)

theorem clRun_keeps (v : BitVec 4) (base bits : Nat) (s : State) : (clRun v base bits s).Post (EngineKeeps s) := by
  refine (get_keeps bits s).keeps fun x y => ?_
  split
  · exact .raised (.refl y)
  · exact Res.Post.after (storeLens_keeps v _ y) (clNext_keeps _)

/-! ## Table entries -/

theorem classify_keeps (p : BitVec 24) (b : Bool) (s : State) : (classify p b s).Post (EngineKeeps s) := by
  simp only [classify]
  split
  · split
    · exact .ok (lookSymbol_keeps _ _)
    · exact .raised (.refl s)
  · split
    · exact .ok (lookSymbol_keeps _ _)
    · split
      · exact .ok (lookSymbol_keeps _ _)
      · exact matchLength_keeps _ _ _
  · split
    · exact .ok (lookSymbol_keeps _ _)
    · exact matchDistance_keeps _ _ _

theorem terminal_keeps (p : BitVec 24) (b : Bool) (n : BitVec 6) (s : State) : (terminal p b n s).Post (EngineKeeps s) :=
  (drop_keeps _ s).keeps fun _ x => classify_keeps p b x

/-! ## The front end -/

theorem startReader_keeps (a b : Nat) (s : State) : EngineKeeps s (startReader a b s) := keeps_setRd _ _

theorem acceptWrapper_keeps (f : StreamFmt) (a b : Nat) (x y : Word) (s : State) :
    EngineKeeps s (acceptWrapper f a b x y s) :=
  .quiet rfl rfl rfl rfl rfl rfl rfl rfl (fun _ => nofun) nofun

theorem gzipNext_keeps (left : Byte) (p : Nat) (s : State) : EngineKeeps s (gzipNext left p s) := by
  simp only [gzipNext]
  split
  · exact acceptWrapper_keeps _ _ _ _ _ _
  · exact keeps_setCtl _ _ id id

theorem skipExtra_keeps (left : Byte) (s : State) : (skipExtra left s).Post (EngineKeeps s) := by
  simp only [skipExtra]
  split
  · exact .raised (.refl s)
  · split
    · exact .raised (.refl s)
    · exact .ok (gzipNext_keeps _ _ _)

theorem skipString_keeps (left : Byte) (s : State) : (skipString left s).Post (EngineKeeps s) := by
  simp only [skipString]
  split
  · exact .ok (gzipNext_keeps _ _ _)
  · exact .raised (.refl s)

theorem checkHeaderCrc_keeps (left : Byte) (s : State) : (checkHeaderCrc left s).Post (EngineKeeps s) := by
  simp only [checkHeaderCrc]
  split
  · exact .raised (.refl s)
  · split
    · exact .raised (keeps_setSums _ _)
    · exact .ok ((keeps_setSums _ _).trans (gzipNext_keeps _ _ _))

/-! ## The stop -/

/-- fmt and IN_BITPOS at a raise: a front-end cause makes them INVALID and 0 (60_exceptions R342). -/
def raisedFmt (c : Cause) (s : State) : StreamFmt := if isFrontEnd c then .invalid else s.fe.fmt

/-- What raising a cause does (60_exceptions R352). -/
theorem raiseStop_spec (c : Cause) (s : State) :
    Stopped c (raisedFmt c s) 0 (if raisedFmt c s = .invalid then 0 else BitVec.ofNat 32 (pos s)) s (raiseStop c s) := by
  constructor <;> cases h : isFrontEnd c <;> simp [raiseStop, raiseFmt, stop, stoppedRegs, raisedFmt, reportPos, pos, h]

/-- A raise changes the register block, the control state and fmt alone. -/
theorem raiseStop_eq (c : Cause) (s : State) : raiseStop c s =
    ((s.setRegs (raiseStop c s).regs).setCtl (raiseStop c s).ctl).setFe (raiseStop c s).fe := by
  simp only [raiseStop, raiseFmt]
  split <;> rfl

@[simp] theorem raiseStop_tab (c : Cause) (s : State) : (raiseStop c s).tab = s.tab := by rw [raiseStop_eq]; rfl
@[simp] theorem raiseStop_blk (c : Cause) (s : State) : (raiseStop c s).blk = s.blk := by rw [raiseStop_eq]; rfl
@[simp] theorem raiseStop_rd (c : Cause) (s : State) : (raiseStop c s).rd = s.rd := by rw [raiseStop_eq]; rfl
@[simp] theorem raiseStop_scr (c : Cause) (s : State) : (raiseStop c s).scr = s.scr := by rw [raiseStop_eq]; rfl
@[simp] theorem raiseStop_sums (c : Cause) (s : State) : (raiseStop c s).sums = s.sums := by rw [raiseStop_eq]; rfl

/-- Of the control state a raise changes the sequencer's state alone. -/
theorem raiseStop_ctl (c : Cause) (s : State) : (raiseStop c s).ctl = { s.ctl with seq := .idle } := by
  simp only [raiseStop, raiseFmt]
  split <;> rfl

/-- A raise leaves the datapath as it was. -/
theorem raiseStop_kept (c : Cause) (s : State) : DatapathKept s (raiseStop c s) := by
  refine ⟨raiseStop_rd c s, raiseStop_blk c s, raiseStop_tab c s, raiseStop_scr c s, raiseStop_sums c s, raiseStop_ctl c s, ?_, ?_⟩ <;>
  · simp only [raiseStop, raiseFmt]
    split <;> rfl

/-- Only the reader, the control state, the block registers, the tables and their scratch, and the sums may differ. -/
structure Inside (s t : State) : Prop where
  regs : t.regs = s.regs
  launch : t.launch = s.launch
  outLen : t.outLen = s.outLen
  fe : t.fe = s.fe
  mem : t.mem = s.mem
  turns : t.turns = s.turns
  busData : t.busData = s.busData
  free : t.free = s.free
  detect : t.detect = s.detect

theorem Inside.refl (s : State) : Inside s s := ⟨rfl, rfl, rfl, rfl, rfl, rfl, rfl, rfl, rfl⟩

theorem Inside.trans (h : Inside s t) (k : Inside t u) : Inside s u :=
  ⟨k.regs.trans h.regs, k.launch.trans h.launch, k.outLen.trans h.outLen, k.fe.trans h.fe, k.mem.trans h.mem,
    k.turns.trans h.turns, k.busData.trans h.busData, k.free.trans h.free, k.detect.trans h.detect⟩

theorem Inside.setRd (s : State) (x : Reader) : Inside s (s.setRd x) := ⟨rfl, rfl, rfl, rfl, rfl, rfl, rfl, rfl, rfl⟩
theorem Inside.setCtl (s : State) (x : Control) : Inside s (s.setCtl x) := ⟨rfl, rfl, rfl, rfl, rfl, rfl, rfl, rfl, rfl⟩
theorem Inside.setBlk (s : State) (x : BlockRegs) : Inside s (s.setBlk x) := ⟨rfl, rfl, rfl, rfl, rfl, rfl, rfl, rfl, rfl⟩
theorem Inside.setTab (s : State) (x : Tables) : Inside s (s.setTab x) := ⟨rfl, rfl, rfl, rfl, rfl, rfl, rfl, rfl, rfl⟩
theorem Inside.setScr (s : State) (x : Scratch) : Inside s (s.setScr x) := ⟨rfl, rfl, rfl, rfl, rfl, rfl, rfl, rfl, rfl⟩
theorem Inside.setSums (s : State) (x : Sums) : Inside s (s.setSums x) := ⟨rfl, rfl, rfl, rfl, rfl, rfl, rfl, rfl, rfl⟩

/-- A cause of the block engine, raised after moves inside the engine, as the host sees it from where they began. -/
theorem Inside.raise {c : Cause} (h : Inside s u) (hc : isFrontEnd c = false) :
    Stopped c s.fe.fmt 0 (bitpos s.fe.fmt (pos u)) s (raiseStop c u) := by
  obtain ⟨a1, a2, a3, a4, a5, a6, a7, a8, a9⟩ := h
  constructor <;>
    simp [raiseStop, raiseFmt, stop, stoppedRegs, reportPos, bitpos, pos, hc, a1, a2, a3, a4, a5, a6, a7, a8, a9]

/-- A front-end cause reports FORMAT INVALID and IN_BITPOS 0 (60_exceptions R342, 10_state R46). -/
theorem Inside.raiseFront {c : Cause} (h : Inside s u) (hc : isFrontEnd c = true) :
    Stopped c .invalid 0 0 s (raiseStop c u) := by
  obtain ⟨a1, a2, a3, a4, a5, a6, a7, a8, a9⟩ := h
  constructor <;>
    simp [raiseStop, raiseFmt, stop, stoppedRegs, reportPos, hc, a1, a2, a3, a4, a5, a6, a7, a8, a9]

/-! ## The rows the engine decodes -/

/-- What a row of the engine does: it goes on, keeping what EngineKeeps says, or it stops with a cause. -/
def EngineMoves (s t : State) : Prop := EngineKeeps s t ∨ ∃ c u, EngineKeeps s u ∧ t = raiseStop c u

theorem Res.Post.moves {r : Res α} (h : r.Post (EngineKeeps s)) (e : r.finish = .next t) : EngineMoves s t := by
  cases h with
  | ok h => simp only [Res.finish, Host.Outcome.next.injEq] at e; exact .inl (e ▸ h)
  | raised h => simp only [Res.finish, Host.Outcome.next.injEq] at e; exact .inr ⟨_, _, h, e.symm⟩

theorem raise_moves {c : Cause}
    (e : (Host.Outcome.next (raiseStop c s) : Host.Outcome State Fault Refusal) = .next t) : EngineMoves s t :=
  .inr ⟨c, s, .refl s, (Host.Outcome.next.inj e).symm⟩

theorem next_moves (h : EngineKeeps s u) (e : (Host.Outcome.next u : Host.Outcome State Fault Refusal) = .next t) :
    EngineMoves s t := .inl (Host.Outcome.next.inj e ▸ h)

theorem wrapGzip_moves (e : execWrapGzip s = .next t) : EngineMoves s t := by
  simp only [execWrapGzip] at e
  split at e
  · exact raise_moves e
  · exact next_moves (gzipNext_keeps _ _ _) e

theorem zlibSniff_moves {c : BitVec 4} {f : Byte} (e : execZlibSniff c f s = .next t) : EngineMoves s t := by
  simp only [execZlibSniff] at e
  split at e
  · exact next_moves (acceptWrapper_keeps _ _ _ _ _ _) e
  · exact next_moves (keeps_setCtl _ _ (by exact id) (by exact id)) e

theorem entryLink_moves {p : BitVec 24} {b : Bool} {n : BitVec 6} (e : execEntryLink p b n s = .next t) :
    EngineMoves s t := by
  simp only [execEntryLink] at e
  split at e
  · exact (terminal_keeps _ _ _ _).moves e
  · exact Res.Post.moves (r := (drop _ s).bind _) ((drop_keeps _ s).keeps fun _ x => .ok (keeps_setCtl x _ (by exact id) (by exact id))) e

theorem lengthSymbol_moves {n : Nat} (e : (lengthSymbol n s).finish = .next t) : EngineMoves s t :=
  (matchLength_keeps _ _ s).moves e

theorem distSymbol_moves {n : Nat} (e : (distSymbol n s).finish = .next t) : EngineMoves s t :=
  (matchDistance_keeps _ _ s).moves e

theorem clRepeat_moves (e : execClRepeat s = .next t) : EngineMoves s t := by
  simp only [execClRepeat] at e
  split at e
  · exact raise_moves e
  · exact (clRun_keeps _ _ _ s).moves e

theorem lit_moves {b : Byte} (e : execLit b s = .next t) : EngineMoves s t :=
  ((emit_keeps b s).keeps fun _ x => .ok (lookNext_keeps .ll x)).moves e

theorem blockReserved_moves {b : Bool} (e : execBlockReserved b s = .next t) : EngineMoves s t :=
  Res.Post.moves (r := (takeHeader b 3 s).bind fun _ t => (.raised .btypeReserved t : Res Unit))
    ((takeHeader_keeps _ _ s).keeps fun _ x => .raised (.refl x)) e

/-- Every row of the engine only does what EngineMoves says. -/
theorem exec_moves (i : Instr) (h : isAccess i = false) (e : exec i s = .next t) : EngineMoves s t := by
  cases i with
  | blockStored _ => exact ((takeHeader_keeps _ _ s).keeps fun _ x => storedBody_keeps x).moves e
  | blockFixed _ => exact ((takeHeader_keeps _ _ s).keeps fun _ x => .after (setFixedLens_keeps x) (buildBoth_keeps _)).moves e
  | blockDynamic _ => exact ((takeHeader_keeps _ _ s).keeps fun _ x => dynamicBody_keeps x).moves e
  | blockReserved _ => exact blockReserved_moves e
  | clLiteral _ => exact (Res.Post.after (storeLen_keeps _ s) (clNext_keeps _)).moves e
  | clRepeat => exact clRepeat_moves e
  | clZeros3 => exact (clRun_keeps _ _ _ s).moves e
  | clZeros11 => exact (clRun_keeps _ _ _ s).moves e
  | clUnknown _ => exact raise_moves e
  | lit _ => exact lit_moves e
  | eob => exact next_moves (endBlock_keeps s) e
  | len257 => exact lengthSymbol_moves (n := 257) e
  | len258 => exact lengthSymbol_moves (n := 258) e
  | len259 => exact lengthSymbol_moves (n := 259) e
  | len260 => exact lengthSymbol_moves (n := 260) e
  | len261 => exact lengthSymbol_moves (n := 261) e
  | len262 => exact lengthSymbol_moves (n := 262) e
  | len263 => exact lengthSymbol_moves (n := 263) e
  | len264 => exact lengthSymbol_moves (n := 264) e
  | len265 => exact lengthSymbol_moves (n := 265) e
  | len266 => exact lengthSymbol_moves (n := 266) e
  | len267 => exact lengthSymbol_moves (n := 267) e
  | len268 => exact lengthSymbol_moves (n := 268) e
  | len269 => exact lengthSymbol_moves (n := 269) e
  | len270 => exact lengthSymbol_moves (n := 270) e
  | len271 => exact lengthSymbol_moves (n := 271) e
  | len272 => exact lengthSymbol_moves (n := 272) e
  | len273 => exact lengthSymbol_moves (n := 273) e
  | len274 => exact lengthSymbol_moves (n := 274) e
  | len275 => exact lengthSymbol_moves (n := 275) e
  | len276 => exact lengthSymbol_moves (n := 276) e
  | len277 => exact lengthSymbol_moves (n := 277) e
  | len278 => exact lengthSymbol_moves (n := 278) e
  | len279 => exact lengthSymbol_moves (n := 279) e
  | len280 => exact lengthSymbol_moves (n := 280) e
  | len281 => exact lengthSymbol_moves (n := 281) e
  | len282 => exact lengthSymbol_moves (n := 282) e
  | len283 => exact lengthSymbol_moves (n := 283) e
  | len284 => exact lengthSymbol_moves (n := 284) e
  | len285 => exact lengthSymbol_moves (n := 285) e
  | badsym286 => exact raise_moves e
  | badsym287 => exact raise_moves e
  | dist0 => exact distSymbol_moves (n := 0) e
  | dist1 => exact distSymbol_moves (n := 1) e
  | dist2 => exact distSymbol_moves (n := 2) e
  | dist3 => exact distSymbol_moves (n := 3) e
  | dist4 => exact distSymbol_moves (n := 4) e
  | dist5 => exact distSymbol_moves (n := 5) e
  | dist6 => exact distSymbol_moves (n := 6) e
  | dist7 => exact distSymbol_moves (n := 7) e
  | dist8 => exact distSymbol_moves (n := 8) e
  | dist9 => exact distSymbol_moves (n := 9) e
  | dist10 => exact distSymbol_moves (n := 10) e
  | dist11 => exact distSymbol_moves (n := 11) e
  | dist12 => exact distSymbol_moves (n := 12) e
  | dist13 => exact distSymbol_moves (n := 13) e
  | dist14 => exact distSymbol_moves (n := 14) e
  | dist15 => exact distSymbol_moves (n := 15) e
  | dist16 => exact distSymbol_moves (n := 16) e
  | dist17 => exact distSymbol_moves (n := 17) e
  | dist18 => exact distSymbol_moves (n := 18) e
  | dist19 => exact distSymbol_moves (n := 19) e
  | dist20 => exact distSymbol_moves (n := 20) e
  | dist21 => exact distSymbol_moves (n := 21) e
  | dist22 => exact distSymbol_moves (n := 22) e
  | dist23 => exact distSymbol_moves (n := 23) e
  | dist24 => exact distSymbol_moves (n := 24) e
  | dist25 => exact distSymbol_moves (n := 25) e
  | dist26 => exact distSymbol_moves (n := 26) e
  | dist27 => exact distSymbol_moves (n := 27) e
  | dist28 => exact distSymbol_moves (n := 28) e
  | dist29 => exact distSymbol_moves (n := 29) e
  | baddist30 => exact raise_moves e
  | baddist31 => exact raise_moves e
  | entrySentinel => exact raise_moves e
  | entryLink _ _ _ => exact entryLink_moves e
  | entryLiteral _ _ => exact (terminal_keeps _ _ _ s).moves e
  | entryValue _ _ => exact (terminal_keeps _ _ _ s).moves e
  | zlibSniff _ _ => exact zlibSniff_moves e
  | zlibCinfoBad _ _ => exact raise_moves e
  | zlibFcheckBad _ _ => exact raise_moves e
  | zlibFdictBad _ _ => exact raise_moves e
  | gzFtext _ => exact next_moves (gzipNext_keeps _ _ _) e
  | gzFhcrc _ => exact (checkHeaderCrc_keeps _ s).moves e
  | gzFextra _ => exact (skipExtra_keeps _ s).moves e
  | gzFname _ => exact (skipString_keeps _ s).moves e
  | gzFcomment _ => exact (skipString_keeps _ s).moves e
  | gzFlagsReserved _ => exact raise_moves e
  | wrapGzip => exact wrapGzip_moves e
  | wrapZlib => exact next_moves (keeps_setCtl _ _ (by exact id) (by exact id)) e
  | wrapRaw => exact next_moves (acceptWrapper_keeps _ _ _ _ _ _) e
  | start _ => cases h
  | setCtrl _ => cases h
  | clearDone => cases h
  | statusNop => cases h
  | writeInBase _ => cases h
  | writeInLen _ => cases h
  | writeOutBase _ => cases h
  | writeOutCap _ => cases h
  | writeIgnoredCause _ => cases h
  | writeIgnoredOutLen _ => cases h
  | writeIgnoredCheckCalc _ => cases h
  | writeIgnoredCheckExp _ => cases h
  | writeIgnoredIsize _ => cases h
  | writeIgnoredInBitpos _ => cases h
  | writeIgnoredRsvd30 _ => cases h
  | writeIgnoredRsvd34 _ => cases h
  | writeIgnoredRsvd38 _ => cases h
  | writeIgnoredRsvd3C _ => cases h
  | readCtrl => cases h
  | readStatus => cases h
  | readCause => cases h
  | readInBase => cases h
  | readInLen => cases h
  | readOutBase => cases h
  | readOutCap => cases h
  | readOutLen => cases h
  | readCheckCalc => cases h
  | readCheckExp => cases h
  | readIsize => cases h
  | readInBitpos => cases h
  | readReserved _ => cases h
end Sys2Proof.Machine
end

