-- ==== Sys2Proof/Laws/Reader.lean ====
section
/-! SUPPORT. The bit reader against the bit stream: what PULL, PEEK, DROP, GET, ALIGN and READ_LE_U16 do (40_bitreader). -/

namespace Sys2Proof.Machine

/-! ## The stream -/

theorem streamBits_lt (s : State) (i k : Nat) : streamBits s i k < 2 ^ k := by
  induction k generalizing i with
  | zero => simp [streamBits]
  | succ k ih =>
    have h1 := ih (i + 1)
    have h2 : (streamBit s i).toNat ≤ 1 := Bool.toNat_le _
    simp only [streamBits, Nat.pow_succ]
    omega

theorem streamBits_add (s : State) (i m k : Nat) :
    streamBits s i (m + k) = streamBits s i m + 2 ^ m * streamBits s (i + m) k := by
  induction m generalizing i with
  | zero => simp [streamBits]
  | succ m ih =>
    rw [Nat.add_right_comm m 1 k]
    simp only [streamBits, ih, Nat.pow_succ]
    rw [show i + 1 + m = i + (m + 1) by omega, Nat.mul_add, Nat.mul_comm (2 ^ m) 2, Nat.mul_assoc]
    omega

theorem streamBits_mod (s : State) (i : Nat) {m k : Nat} (h : m ≤ k) :
    streamBits s i k % 2 ^ m = streamBits s i m := by
  obtain ⟨d, rfl⟩ := Nat.exists_eq_add_of_le h
  rw [streamBits_add, Nat.add_mul_mod_self_left, Nat.mod_eq_of_lt (streamBits_lt s i m)]

theorem streamBits_div (s : State) (i : Nat) {m k : Nat} (h : m ≤ k) :
    streamBits s i k / 2 ^ m = streamBits s (i + m) (k - m) := by
  obtain ⟨d, rfl⟩ := Nat.exists_eq_add_of_le h
  rw [streamBits_add, Nat.add_mul_div_left _ _ (Nat.two_pow_pos m), Nat.div_eq_of_lt (streamBits_lt s i m),
    Nat.add_sub_cancel_left, Nat.zero_add]

/-- The stream depends on the input bytes and the logical end alone. -/
theorem streamBits_congr {s t : State} (h : ∀ i, byteAt t i = byteAt s i) (i k : Nat) :
    streamBits t i k = streamBits s i k := by
  induction k generalizing i with
  | zero => rfl
  | succ k ih => simp only [streamBits, streamBit, h, ih]

theorem toNat_bits (b : Byte) : b.toNat = (b.getLsbD 0).toNat + 2 * ((b.getLsbD 1).toNat + 2 * ((b.getLsbD 2).toNat +
    2 * ((b.getLsbD 3).toNat + 2 * ((b.getLsbD 4).toNat + 2 * ((b.getLsbD 5).toNat + 2 * ((b.getLsbD 6).toNat +
    2 * ((b.getLsbD 7).toNat + 2 * 0))))))) := by
  revert b; decide

/-- Eight bits from a byte boundary are that byte (40_bitreader R141). -/
theorem streamBits_byte (s : State) (i : Nat) : streamBits s (8 * i) 8 = (byteAt s i).toNat := by
  have e (j : Nat) (hj : j < 8) : streamBit s (8 * i + j) = (byteAt s i).getLsbD j := by
    simp only [streamBit]
    rw [show (8 * i + j) / 8 = i by omega, show (8 * i + j) % 8 = j by omega]
  have e0 : streamBit s (8 * i) = (byteAt s i).getLsbD 0 := e 0 (by omega)
  rw [toNat_bits (byteAt s i)]
  simp only [streamBits, Nat.add_assoc, Nat.reduceAdd, e, e0, Nat.reduceLT]

/-! ## PULL and PEEK -/

theorem byteAt_setRd (s : State) (r : Reader) (h : r.endOff = s.rd.endOff) (i : Nat) :
    byteAt (s.setRd r) i = byteAt s i := by
  simp [byteAt, inByte, h]

theorem byteAt_pull (s : State) (i : Nat) : byteAt (pull s) i = byteAt s i := by
  simp only [pull]
  exact byteAt_setRd s _ rfl i

theorem byteAt_shiftOut (n : Nat) (s : State) (i : Nat) : byteAt (shiftOut n s) i = byteAt s i := by
  simp only [shiftOut]
  exact byteAt_setRd s _ rfl i

theorem low_eq {s : State} (h : ReaderOk s) {n : Nat} (hn : n ≤ s.rd.avail.toNat) : low n s = streamBits s (pos s) n := by
  rw [low, h.bits, streamBits_mod _ _ hn]

/-- avail's six bits hold what a PULL of a PEEK leaves. -/
theorem pull_avail {s : State} (h : s.rd.avail.toNat ≤ 24) : (pull s).rd.avail.toNat = s.rd.avail.toNat + 8 := by
  simp [pull]; omega

@[simp] theorem shiftOut_avail (n : Nat) (s : State) : (shiftOut n s).rd.avail.toNat = s.rd.avail.toNat - n := by
  simp [shiftOut]; omega

/-- PULL moves one byte from the stream into the accumulator and consumes nothing. -/
theorem pull_spec {s : State} (h1 : s.rd.avail.toNat ≤ 24) (h2 : s.rd.avail.toNat ≤ 8 * s.rd.cur)
    (h3 : s.rd.acc.toNat = streamBits s (pos s) s.rd.avail.toNat) :
    pos (pull s) = pos s ∧ (pull s).rd.acc.toNat = streamBits s (pos s) (s.rd.avail.toNat + 8) := by
  refine ⟨by have := pull_avail h1; simp only [pos, this]; simp only [pull, State.setRd_rd]; omega, ?_⟩
  have hb : streamBits s (pos s + s.rd.avail.toNat) 8 = (byteAt s s.rd.cur).toNat := by
    rw [show pos s + s.rd.avail.toNat = 8 * s.rd.cur by simp [pos]; omega, streamBits_byte]
  have ha : s.rd.acc.toNat < 2 ^ s.rd.avail.toNat := h3 ▸ streamBits_lt _ _ _
  have hx : (byteAt s s.rd.cur).toNat < 2 ^ 8 := (byteAt s s.rd.cur).isLt
  have hp : 2 ^ s.rd.avail.toNat * 2 ^ 8 ≤ 2 ^ 32 := by
    rw [← Nat.pow_add]; exact Nat.pow_le_pow_right (by decide) (by omega)
  have hm : (byteAt s s.rd.cur).toNat * 2 ^ s.rd.avail.toNat < 2 ^ 32 :=
    Nat.lt_of_lt_of_le (by rw [Nat.mul_comm]; exact Nat.mul_lt_mul_of_pos_left hx (Nat.two_pow_pos _)) hp
  rw [streamBits_add, hb, ← h3]
  simp only [pull, State.setRd_rd, BitVec.toNat_or, BitVec.toNat_shiftLeft, BitVec.toNat_setWidth, Nat.shiftLeft_eq]
  rw [Nat.mod_eq_of_lt (a := (byteAt s s.rd.cur).toNat) (by omega), Nat.mod_eq_of_lt hm, Nat.or_comm,
    Nat.mul_comm _ (2 ^ s.rd.avail.toNat), ← Nat.two_pow_add_eq_or_of_lt ha, Nat.add_comm]

/-- The reader is in a good state but may hold up to 8 more bits than ReaderOk allows between two PULLs. -/
theorem pull_ok {s : State} (h : ReaderOk s) (hn : s.rd.avail.toNat ≤ 15) :
    ReaderOk (pull s) ∧ pos (pull s) = pos s ∧ (pull s).rd.avail.toNat = s.rd.avail.toNat + 8 := by
  have h2 := h.pulled
  obtain ⟨p1, p2⟩ := pull_spec (by omega) (by omega) h.bits
  have pa := pull_avail (s := s) (by omega)
  refine ⟨⟨by omega, ?_, ?_⟩, p1, pa⟩
  · rw [pa]; simp only [pull, State.setRd_rd]; omega
  · rw [p1, p2, pa]
    exact (streamBits_congr (byteAt_pull s) _ _).symm

/-- What PEEK's pulls do, for n up to 16: nothing is consumed and n bits are there (40_bitreader R142). -/
theorem fill_spec {n : Nat} (hn : n ≤ 16) {s : State} (h : ReaderOk s) :
    ReaderOk (fill n s) ∧ pos (fill n s) = pos s ∧ n ≤ (fill n s).rd.avail.toNat := by
  simp only [fill]
  split
  · rename_i h1
    obtain ⟨a1, a2, a3⟩ := pull_ok h (by omega)
    split
    · obtain ⟨b1, b2, b3⟩ := pull_ok a1 (by omega)
      exact ⟨b1, by rw [b2, a2], by omega⟩
    · exact ⟨a1, a2, by omega⟩
  · exact ⟨h, rfl, by omega⟩

/-- PEEK's pulls change the reader only. -/
theorem pull_eq (s : State) : ∃ r : Reader, pull s = s.setRd r ∧ r.start = s.rd.start ∧ r.endOff = s.rd.endOff :=
  ⟨_, rfl, rfl, rfl⟩

theorem fill_eq (n : Nat) (s : State) :
    ∃ r : Reader, fill n s = s.setRd r ∧ r.start = s.rd.start ∧ r.endOff = s.rd.endOff := by
  simp only [fill]
  split
  · split
    · exact ⟨_, rfl, rfl, rfl⟩
    · exact ⟨_, rfl, rfl, rfl⟩
  · exact ⟨s.rd, rfl, rfl, rfl⟩

/-! ## DROP and GET -/

/-- Shifting bits out keeps the accumulator equal to the stream, whatever their number. -/
theorem shiftOut_ok (n : Nat) {s : State} (h : ReaderOk s) : ReaderOk (shiftOut n s) := by
  obtain ⟨h1, h2, h3⟩ := h
  refine ⟨by rw [shiftOut_avail]; omega, by rw [shiftOut_avail]; simp only [shiftOut, State.setRd_rd]; omega, ?_⟩
  have e : ∀ i k, streamBits (shiftOut n s) i k = streamBits s i k :=
    streamBits_congr (byteAt_shiftOut n s)
  rw [e, shiftOut_avail]
  by_cases hn : n ≤ s.rd.avail.toNat
  · rw [show pos (shiftOut n s) = pos s + n by simp only [pos, shiftOut_avail]; simp only [shiftOut, State.setRd_rd]; omega]
    simp only [shiftOut, State.setRd_rd, BitVec.toNat_ushiftRight, Nat.shiftRight_eq_div_pow]
    rw [h3, streamBits_div _ _ hn]
  · have : s.rd.avail.toNat - n = 0 := by omega
    simp only [shiftOut, State.setRd_rd, BitVec.toNat_ushiftRight, Nat.shiftRight_eq_div_pow, this, streamBits]
    refine Nat.div_eq_of_lt (Nat.lt_of_lt_of_le (h3 ▸ streamBits_lt s _ _) (Nat.pow_le_pow_right (by decide) (by omega)))

/-- Consuming n bits that are there. -/
theorem shiftOut_consumed {n : Nat} {s : State} (h : ReaderOk s) (hn : n ≤ s.rd.avail.toNat) : Consumed n s (shiftOut n s) :=
  ⟨by have := h.pulled; simp only [pos, shiftOut_avail]; simp only [shiftOut, State.setRd_rd]; omega, shiftOut_ok n h, rfl, rfl⟩

/-- What DROP does (40_bitreader R143, R144). -/
theorem drop_spec {n : Nat} {s : State} (h : ReaderOk s) (hn : n ≤ s.rd.avail.toNat) :
    Consumed n s (shiftOut n s) ∧
    drop n s = if s.detect = true ∧ 8 * s.rd.endOff.toNat < pos s + n then .raised .inputOverrun (shiftOut n s)
      else .ok () (shiftOut n s) := by
  have c := shiftOut_consumed h hn
  refine ⟨c, ?_⟩
  simp only [drop, overrun, c.pos, c.stop, Bool.and_eq_true, decide_eq_true_eq]
  rfl

/-- The state GET(n) leaves. -/
def afterGet (n : Nat) (s : State) : State := if n = 0 then s else shiftOut n (fill n s)

/-- What GET(n) does for n up to 16: the next n stream bits are consumed and are its value, the first bit least
significant; in the build with the overrun check it raises when one of them lies past the end (40_bitreader R144, R145). -/
theorem get_spec {n : Nat} (hn : n ≤ 16) {s : State} (h : ReaderOk s) :
    Consumed n s (afterGet n s) ∧ (∃ r : Reader, afterGet n s = s.setRd r) ∧
    get n s = if 0 < n ∧ s.detect = true ∧ 8 * s.rd.endOff.toNat < pos s + n then .raised .inputOverrun (afterGet n s)
      else .ok (streamBits s (pos s) n) (afterGet n s) := by
  by_cases h0 : n = 0
  · subst h0
    exact ⟨⟨rfl, h, rfl, rfl⟩, ⟨s.rd, rfl⟩, by simp [get, afterGet, streamBits]⟩
  · obtain ⟨f1, f2, f3⟩ := fill_spec hn h
    obtain ⟨r, hr, hs, he⟩ := fill_eq n s
    have c := shiftOut_consumed f1 f3
    have a : afterGet n s = shiftOut n (fill n s) := by simp [afterGet, h0]
    obtain ⟨-, d⟩ := drop_spec f1 f3
    have e : streamBits (fill n s) (pos (fill n s)) n = streamBits s (pos s) n := by
      rw [f2, hr]; exact streamBits_congr (byteAt_setRd s r he) _ _
    refine ⟨a ▸ ⟨by rw [c.pos, f2], c.reader, by rw [c.start, hr]; exact hs, by rw [c.stop, hr]; exact he⟩,
      ⟨(afterGet n s).rd, by rw [a, hr]; rfl⟩, ?_⟩
    simp only [get, h0, if_false, d, a, low_eq f1 f3, e]
    rw [f2]
    rw [show (fill n s).detect = s.detect by rw [hr]; rfl, show (fill n s).rd.endOff = s.rd.endOff by rw [hr]; exact he]
    have : 0 < n := by omega
    split <;> rename_i hc
    · simp [hc, this, Res.bind]
    · simp only [this, true_and, hc, if_false, Res.bind]

/-- GET(n) succeeds when its bits are left. -/
theorem get_ok {n : Nat} (hn : n ≤ 16) {s : State} (h : ReaderOk s) (hl : BitsLeft n s) :
    get n s = .ok (streamBits s (pos s) n) (afterGet n s) := by
  rw [(get_spec hn h).2.2, if_neg]
  rintro ⟨-, h1, h2⟩
  have := hl h1
  omega

/-! ## ALIGN and READ_LE_U16 -/

/-- ALIGN goes to the next byte boundary at or after the position, and empties the accumulator (40_bitreader R146). -/
theorem align_spec {s : State} (h : ReaderOk s) :
    ReaderOk (align s) ∧ pos (align s) = 8 * (align s).rd.cur ∧ (align s).rd.cur = (pos s + 7) / 8 ∧
    (align s).rd.avail.toNat = 0 := by
  have h2 := h.pulled
  refine ⟨⟨by simp [align], by simp [align]; omega, by simp [align, streamBits]⟩, by simp [pos, align], ?_, by simp [align]⟩
  simp only [align, State.setRd_rd, pos]
  omega

/-- What READ_LE_U16 does (40_bitreader R147). -/
theorem readLeU16_spec (s : State) :
    readLeU16 s = if s.detect = true ∧ s.rd.endOff.toNat < s.rd.cur + 2
      then .raised .inputOverrun (s.setRd { s.rd with cur := s.rd.cur + 2 })
      else .ok (le16 (byteAt s s.rd.cur) (byteAt s (s.rd.cur + 1))) (s.setRd { s.rd with cur := s.rd.cur + 2 }) := by
  by_cases h1 : s.detect = true <;> by_cases h2 : s.rd.endOff.toNat < s.rd.cur + 2 <;> simp [readLeU16, h1, h2]

/-! ## Moving these facts between states -/

section congr

variable {s t u v : State}

/-- ReaderOk depends on the reader and the stream's bytes alone. -/
theorem ReaderOk.congr (h : ReaderOk s) (hr : u.rd = s.rd) (hb : ∀ i, byteAt u i = byteAt s i) : ReaderOk u := by
  refine ⟨by rw [hr]; exact h.few, by rw [hr]; exact h.pulled, ?_⟩
  rw [streamBits_congr hb, pos, hr]
  exact h.bits

/-- So does Consumed. -/
theorem Consumed.congr {k : Nat} (h : Consumed k s t) (hs : u.rd = s.rd) (ht : v.rd = t.rd)
    (hb : ∀ i, byteAt v i = byteAt t i) : Consumed k u v :=
  ⟨by have := h.pos; simp only [Machine.pos, hs, ht] at this ⊢; exact this, h.reader.congr ht hb,
    by rw [hs, ht]; exact h.start, by rw [hs, ht]; exact h.stop⟩

theorem Consumed.trans {j k : Nat} (h : Consumed j s t) (h' : Consumed k t u) : Consumed (j + k) s u :=
  ⟨by rw [h'.pos, h.pos, Nat.add_assoc], h'.reader, h'.start.trans h.start, h'.stop.trans h.stop⟩

/-- Consuming bits leaves the stream itself alone. -/
theorem Consumed.bits {k : Nat} (h : Consumed k s t) (hm : t.mem = s.mem) (hl : t.launch = s.launch) (i n : Nat) :
    streamBits t i n = streamBits s i n :=
  streamBits_congr (fun j => by simp only [byteAt, inByte, h.stop, hm, hl]) i n

/-- GET(n) with its bits left, as one change of the reader. -/
theorem get_setRd {n : Nat} (hn : n ≤ 16) (h : ReaderOk s) (hl : BitsLeft n s) :
    ∃ r, get n s = .ok (streamBits s (pos s) n) (s.setRd r) ∧ Consumed n s (s.setRd r) := by
  obtain ⟨c, ⟨r, hr⟩, -⟩ := get_spec hn h
  refine ⟨r, ?_, hr ▸ c⟩
  rw [get_ok hn h hl, hr]

/-- GET(n) past the end, in the build with the overrun check (40_bitreader R144). -/
theorem get_over {n : Nat} (hn : n ≤ 16) (h : ReaderOk s) (h0 : 0 < n) (hd : s.detect = true)
    (ho : 8 * s.rd.endOff.toNat < pos s + n) :
    ∃ r, get n s = .raised .inputOverrun (s.setRd r) ∧ Consumed n s (s.setRd r) := by
  obtain ⟨c, ⟨r, hr⟩, e⟩ := get_spec hn h
  refine ⟨r, ?_, hr ▸ c⟩
  rw [e, if_pos ⟨h0, hd, ho⟩, hr]

end congr

/-- A DROP past the end, with OVERRUN_DETECT (40_bitreader R144). -/
theorem drop_over {n : Nat} {s : State} (h : ReaderOk s) (hn : n ≤ s.rd.avail.toNat) (hd : s.detect = true) (ho : 8 * s.rd.endOff.toNat < pos s + n) :
    ∃ x, drop n s = .raised .inputOverrun (s.setRd x) ∧ pos (s.setRd x) = pos s + n := by
  obtain ⟨c, e⟩ := drop_spec h hn
  rw [if_pos ⟨hd, ho⟩] at e
  exact ⟨_, e, c.pos⟩

end Sys2Proof.Machine
end

