-- ==== Sys2Proof/Laws/Output.lean ====
section
/-! SUPPORT. The bytes the copies write (44_symbol_decode R253, R264, 43_block_engine R228), and that the input is not
among them. -/

namespace Sys2Proof.Machine

variable {s : State}

theorem outCap_lt (s : State) : outCap s < Config.addrSpace := s.launch.outCap.isLt

theorem outByte_putByte_same (b : Byte) (hm : memWf s.mem = true) : outByte (putByte b s) s.outLen.toNat = b :=
  memRead_memWrite_same b hm

theorem outByte_putByte_ne (b : Byte) {j : Nat} (hj : j < Config.addrSpace) (ho : s.outLen.toNat < Config.addrSpace)
    (h : j ≠ s.outLen.toNat) : outByte (putByte b s) j = outByte s j :=
  memRead_memWrite_ne _ b fun e => h (busAddr_inj hj ho e)

/-- What has been written stays: output bytes below out_len (20_memory R69). -/
theorem outByte_kept {t : State} (h : EngineKeeps s t) (hc : t.outLen.toNat ≤ Config.addrSpace) {j : Nat} (hj : j < s.outLen.toNat) :
    outByte t j = outByte s j := by
  simp only [outByte, h.launch]
  refine h.mem _ fun i hi hi' e => ?_
  have := busAddr_inj (by omega) (by omega) e
  omega

/-- The output bytes past the new out_len are as they were, too. -/
theorem outByte_beyond {t : State} (h : EngineKeeps s t) {j : Nat} (hj : t.outLen.toNat ≤ j) (hc : j < Config.addrSpace) :
    outByte t j = outByte s j := by
  simp only [outByte, h.launch]
  refine h.mem _ fun i _ hi' e => ?_
  have := busAddr_inj hc (by omega) e
  omega

/-- COPY changes memory and out_len alone. -/
theorem copy_eq (k d : Nat) : ∀ s : State, ∃ m n, copy k d s = (s.setMem m).setOutLen n := by
  induction k with
  | zero => exact fun s => ⟨s.mem, s.outLen, rfl⟩
  | succ k ih =>
    intro s
    obtain ⟨m, n, e⟩ := ih (putByte (outByte s (s.outLen.toNat - d)) s)
    exact ⟨m, n, by rw [copy, e]; rfl⟩

/-- The stored payload's copy changes memory, out_len and the reader alone. -/
theorem storedCopy_eq (k : Nat) : ∀ s : State, ∃ m n r, storedCopy k s = ((s.setMem m).setOutLen n).setRd r := by
  induction k with
  | zero => exact fun s => ⟨s.mem, s.outLen, s.rd, rfl⟩
  | succ k ih =>
    intro s
    obtain ⟨m, n, r, e⟩ := ih (advanceCur (putByte (inByte s s.rd.cur) s))
    exact ⟨m, n, r, by rw [storedCopy, e]; rfl⟩

/-- COPY, forward and byte by byte: each byte of the copy is the byte d before it (44_symbol_decode R264). -/
theorem copy_bytes (k d : Nat) : ∀ {s : State}, memWf s.mem = true → s.outLen.toNat + k ≤ outCap s → 0 < d → d ≤ s.outLen.toNat →
    ∀ i, i < k → outByte (copy k d s) (s.outLen.toNat + i) = outByte (copy k d s) (s.outLen.toNat + i - d) := by
  induction k with
  | zero => intro s _ _ _ _ i hi; omega
  | succ k ih =>
    intro s hm hc hd hl i hi
    have hA := outCap_lt s
    have k1 := putByte_keeps (s := s) (outByte s (s.outLen.toNat - d)) (by omega)
    have ho : (putByte (outByte s (s.outLen.toNat - d)) s).outLen.toNat = s.outLen.toNat + 1 := putByte_outLen _ (by omega)
    have hcap : outCap (putByte (outByte s (s.outLen.toNat - d)) s) = outCap s := rfl
    obtain ⟨k2, h2⟩ := copy_keeps k d (s := putByte (outByte s (s.outLen.toNat - d)) s) (by omega)
    simp only [copy]
    cases i with
    | zero =>
      rw [outByte_kept k2 (by omega) (by omega), outByte_kept k2 (by omega) (by omega), Nat.add_zero,
        outByte_putByte_same _ hm, outByte_kept k1 (by omega) (by omega)]
    | succ i =>
      have := ih (s := putByte (outByte s (s.outLen.toNat - d)) s) (k1.memForm hm) (by omega) hd (by omega) i (by omega)
      rw [ho] at this
      rw [show s.outLen.toNat + (i + 1) = s.outLen.toNat + 1 + i by omega, this]

/-- The stored payload's copy touches the reader's cursor alone. -/
theorem storedCopy_rd (k : Nat) : ∀ s : State, (storedCopy k s).rd = { s.rd with cur := s.rd.cur + k } := by
  induction k with
  | zero => exact fun _ => rfl
  | succ k ih =>
    intro s
    rw [storedCopy, ih, show (advanceCur (putByte (inByte s s.rd.cur) s)).rd = { s.rd with cur := s.rd.cur + 1 } from rfl]
    dsimp only
    congr 1
    omega

/-- The stored payload's copy: the output gets the input bytes from the cursor on, if writing them leaves those bytes alone
(43_block_engine R228). -/
theorem storedCopy_bytes (k : Nat) : ∀ {s : State}, memWf s.mem = true → s.outLen.toNat + k ≤ outCap s →
    (∀ i j, i < s.rd.cur + k → j < outCap s → busAddr s.launch.inBase i ≠ busAddr s.launch.outBase j) →
    ∀ i, i < k → outByte (storedCopy k s) (s.outLen.toNat + i) = inByte s (s.rd.cur + i) := by
  induction k with
  | zero => intro s _ _ _ i hi; omega
  | succ k ih =>
    intro s hm hc hd i hi
    have hA := outCap_lt s
    have k1 := (putByte_keeps (s := s) (inByte s s.rd.cur) (by omega)).trans (advanceCur_keeps _)
    have ho : (advanceCur (putByte (inByte s s.rd.cur) s)).outLen.toNat = s.outLen.toNat + 1 :=
      putByte_outLen (inByte s s.rd.cur) (by omega)
    have hcur : (advanceCur (putByte (inByte s s.rd.cur) s)).rd.cur = s.rd.cur + 1 := rfl
    have hcap : outCap (advanceCur (putByte (inByte s s.rd.cur) s)) = outCap s := rfl
    obtain ⟨k2, h2⟩ := storedCopy_keeps k (s := advanceCur (putByte (inByte s s.rd.cur) s)) (by omega)
    simp only [storedCopy]
    cases i with
    | zero =>
      rw [outByte_kept k2 (by omega) (by omega)]
      exact outByte_putByte_same _ hm
    | succ i =>
      have := ih (s := advanceCur (putByte (inByte s s.rd.cur) s)) (k1.memForm hm) (by omega)
        (fun x y hx hy => hd x y (by omega) hy) i (by omega)
      rw [ho, hcur] at this
      rw [show s.outLen.toNat + (i + 1) = s.outLen.toNat + 1 + i by omega, this, show s.rd.cur + 1 + i = s.rd.cur + (i + 1) by omega]
      exact k1.mem _ fun j hj hj' => hd _ _ (by omega) (by omega)

/-- In a run the buffers are apart, so no input byte has the address of an output byte (20_memory R79). -/
theorem buffers_apart (h : Inv s) (hb : s.regs.busy = true) {i j : Nat} (hi : i < inLen s) (hj : j < outCap s) :
    busAddr s.launch.inBase i ≠ busAddr s.launch.outBase j := by
  have hl := h.latched hb
  have ho := h.buffers hb
  simp only [launchOk, Bool.and_eq_true, Bool.or_eq_true, decide_eq_true_eq] at ho
  simp only [inLen, outCap, hl] at hi hj
  rw [hl]
  dsimp only
  rw [busAddr_eq (by omega), busAddr_eq (by omega)]
  omega

/-- So the engine's writes leave the input, and the bit stream, as they were (20_memory R67, R79). -/
theorem byteAt_kept {t : State} (h : Inv s) (hb : s.regs.busy = true) (k : EngineKeeps s t)
    (he : s.rd.endOff.toNat ≤ inLen s) (hr : t.rd.endOff = s.rd.endOff) (i : Nat) : byteAt t i = byteAt s i := by
  simp only [byteAt, hr]
  split
  · simp only [inByte, k.launch]
    exact k.mem _ fun j _ hj => buffers_apart h hb (by omega) (Nat.lt_of_lt_of_le hj (k.fits (h.fits hb)))
  · rfl

end Sys2Proof.Machine
end

