-- ==== Sys2Proof/Laws/Block.lean ====
section
/-! SUPPORT. The block engine's operations: the header, the builds as operations of the engine, the dynamic header's fields
and the stores of code lengths (43_block_engine R221 to R243). -/

namespace Sys2Proof.Machine

variable {s t u : State}

/-- BLOCK_HEADER with its bits left (43_block_engine R221). -/
theorem takeHeader_ok (b : Bool) (k : BitVec 2) (h : ReaderOk s) (hl : BitsLeft 3 s) :
    ∃ r, takeHeader b k s = .ok () ((s.setRd r).setBlk (blockLatches b k s)) ∧ Consumed 3 s (s.setRd r) := by
  obtain ⟨r1, e1, c1⟩ := get_setRd (n := 1) (by omega) h (fun x => by have := hl x; omega)
  have ok2 : ReaderOk ((s.setRd r1).setBlk { s.blk with bfinal := b }) := c1.reader.congr rfl fun _ => rfl
  have p2 : pos ((s.setRd r1).setBlk { s.blk with bfinal := b }) = pos s + 1 := c1.pos
  have s1 := c1.stop
  obtain ⟨r2, e2, c2⟩ := get_setRd (n := 2) (by omega) ok2 (fun x => by have := hl x; rw [p2]; simp only [State.setBlk_rd, s1]; omega)
  refine ⟨r2, ?_, ?_⟩
  · rw [takeHeader, e1, Res.bind_ok]
    simp only [State.setRd_blk]
    rw [e2]; rfl
  · exact c1.trans (Consumed.congr c2 (u := s.setRd r1) (v := s.setRd r2) rfl rfl fun _ => rfl)

/-- With OVERRUN_DETECT, a header whose first bit is past the end. -/
theorem takeHeader_over1 (b : Bool) (k : BitVec 2) (h : ReaderOk s) (hd : s.detect = true) (ho : 8 * s.rd.endOff.toNat < pos s + 1) :
    ∃ r, takeHeader b k s = .raised .inputOverrun (s.setRd r) ∧ pos (s.setRd r) = pos s + 1 := by
  obtain ⟨r, e, c⟩ := get_over (n := 1) (by omega) h (by omega) hd ho
  exact ⟨r, by rw [takeHeader, e]; rfl, c.pos⟩

/-- With OVERRUN_DETECT, a header whose BTYPE passes the end: BFINAL is latched. -/
theorem takeHeader_over3 (b : Bool) (k : BitVec 2) (h : ReaderOk s) (hd : s.detect = true)
    (hl : pos s + 1 ≤ 8 * s.rd.endOff.toNat) (ho : 8 * s.rd.endOff.toNat < pos s + 3) :
    ∃ r, takeHeader b k s = .raised .inputOverrun ((s.setRd r).setBlk { s.blk with bfinal := b }) ∧
      pos (s.setRd r) = pos s + 3 := by
  obtain ⟨r1, e1, c1⟩ := get_setRd (n := 1) (by omega) h (fun _ => hl)
  have ok2 : ReaderOk ((s.setRd r1).setBlk { s.blk with bfinal := b }) := c1.reader.congr rfl fun _ => rfl
  have p2 : pos ((s.setRd r1).setBlk { s.blk with bfinal := b }) = pos s + 1 := c1.pos
  have s1 := c1.stop
  obtain ⟨r2, e2, c2⟩ := get_over (n := 2) (by omega) ok2 (by omega) hd (by rw [p2]; simp only [State.setBlk_rd, s1]; omega)
  refine ⟨r2, by rw [takeHeader, e1, Res.bind_ok]; simp only [State.setRd_blk]; rw [e2]; rfl, ?_⟩
  have := c2.pos
  rw [p2] at this
  exact this

theorem buildLL_ok {tl : Vector Entry 1334} {rc nf : Nat} (e : build Config.kLL (lensOf s.blk.llLen) pvLL s.tab.ll = .ok tl rc nf) :
    buildLL s = .ok () ((s.setTab { s.tab with ll := tl }).setScr
      { count := counts (lensOf s.blk.llLen), rc := BitVec.ofNat 15 rc, nextFree := BitVec.ofNat 11 nf }) := by
  unfold buildLL; rw [e]; rfl

theorem buildLL_fail {tl : Vector Entry 1334} {c : Cause} (e : build Config.kLL (lensOf s.blk.llLen) pvLL s.tab.ll = .fail c tl) :
    buildLL s = .raised c ((s.setTab { s.tab with ll := tl }).setScr { s.scr with count := counts (lensOf s.blk.llLen) }) := by
  unfold buildLL; rw [e]; rfl

theorem buildD_ok {td : Vector Entry 402} {rc nf : Nat} (e : build Config.kD (lensOf s.blk.dLen) pvD s.tab.d = .ok td rc nf) :
    buildD s = .ok () ((s.setTab { s.tab with d := td }).setScr
      { count := counts (lensOf s.blk.dLen), rc := BitVec.ofNat 15 rc, nextFree := BitVec.ofNat 11 nf }) := by
  unfold buildD; rw [e]; rfl

theorem buildD_fail {td : Vector Entry 402} {c : Cause} (e : build Config.kD (lensOf s.blk.dLen) pvD s.tab.d = .fail c td) :
    buildD s = .raised c ((s.setTab { s.tab with d := td }).setScr { s.scr with count := counts (lensOf s.blk.dLen) }) := by
  unfold buildD; rw [e]; rfl

theorem buildCL_ok {tc : Vector Entry 128} {rc nf : Nat} (e : build Config.kCL (lensOf s.blk.clLen) pvCL s.tab.cl = .ok tc rc nf) :
    buildCL s = .ok () ((s.setTab { s.tab with cl := tc }).setScr
      { count := counts (lensOf s.blk.clLen), rc := BitVec.ofNat 15 rc, nextFree := BitVec.ofNat 11 nf }) := by
  unfold buildCL; rw [e]; rfl

theorem buildCL_fail {tc : Vector Entry 128} {c : Cause} (e : build Config.kCL (lensOf s.blk.clLen) pvCL s.tab.cl = .fail c tc) :
    buildCL s = .raised c ((s.setTab { s.tab with cl := tc }).setScr { s.scr with count := counts (lensOf s.blk.clLen) }) := by
  unfold buildCL; rw [e]; rfl

/-- Both builds succeed (43_block_engine R231, R243). -/
theorem buildBoth_ok {tl : Vector Entry 1334} {td : Vector Entry 402} {rc nf rc' nf' : Nat}
    (e : build Config.kLL (lensOf s.blk.llLen) pvLL s.tab.ll = .ok tl rc nf)
    (e' : build Config.kD (lensOf s.blk.dLen) pvD s.tab.d = .ok td rc' nf') :
    buildBoth s = .ok () (enterSyms ((s.setTab { s.tab with ll := tl, d := td }).setScr
      { count := counts (lensOf s.blk.dLen), rc := BitVec.ofNat 15 rc', nextFree := BitVec.ofNat 11 nf' })) := by
  rw [buildBoth, buildLL_ok e, Res.bind_ok, buildD_ok (s := (s.setTab { s.tab with ll := tl }).setScr _) e']; rfl

/-- The literal/length build fails. -/
theorem buildBoth_failLL {tl : Vector Entry 1334} {c : Cause} (e : build Config.kLL (lensOf s.blk.llLen) pvLL s.tab.ll = .fail c tl) :
    buildBoth s = .raised c ((s.setTab { s.tab with ll := tl }).setScr { s.scr with count := counts (lensOf s.blk.llLen) }) := by
  rw [buildBoth, buildLL_fail e]; rfl

/-- The distance build fails. -/
theorem buildBoth_failD {tl : Vector Entry 1334} {td : Vector Entry 402} {c : Cause} {rc nf : Nat}
    (e : build Config.kLL (lensOf s.blk.llLen) pvLL s.tab.ll = .ok tl rc nf)
    (e' : build Config.kD (lensOf s.blk.dLen) pvD s.tab.d = .fail c td) :
    buildBoth s = .raised c ((s.setTab { s.tab with ll := tl, d := td }).setScr
      { count := counts (lensOf s.blk.dLen), rc := BitVec.ofNat 15 rc, nextFree := BitVec.ofNat 11 nf }) := by
  rw [buildBoth, buildLL_ok e, Res.bind_ok, buildD_fail (s := (s.setTab { s.tab with ll := tl }).setScr _) e']; rfl

/-- A build never raises a front-end cause. -/
theorem build_cause_back {cap k : Nat} {lens : List Nat} {pv : Nat → Entry} {t t' : Vector Entry cap} {c : Cause}
    (h : build k lens pv t = .fail c t') : isFrontEnd c = false := by
  rcases build_cause h with h | ⟨-, rfl⟩
  · simp only [verdict] at h
    repeat' split at h
    all_goals cases h
    all_goals rfl
  · rfl

theorem lensOf_ofFn {n w : Nat} (f : Fin n → BitVec w) (g : Nat → Nat) (h : ∀ i, (hi : i < n) → (f ⟨i, hi⟩).toNat = g i) :
    lensOf (Vector.ofFn f) = (List.range n).map g := by
  apply List.ext_getElem
  · simp [lensOf]
  · intro i h1 h2
    simp only [lensOf, List.length_map, Vector.length_toList] at h1
    simp [lensOf, h i h1]

/-- The header counts (43_block_engine R232) after a and b are read. -/
def withCounts (a b : Nat) (s : State) : BlockRegs :=
  { s.blk with hlit := BitVec.ofNat 9 (a + 257), hdist := BitVec.ofNat 6 (b + 1) }

/-- The header counts from their three reads. -/
theorem dynamicCounts_gets {a b c : Nat} {r1 r2 r3 : Reader} (e1 : get 5 s = .ok a (s.setRd r1))
    (e2 : get 5 ((s.setRd r1).setBlk { s.blk with hlit := BitVec.ofNat 9 (a + 257) }) =
      .ok b ((s.setRd r2).setBlk { s.blk with hlit := BitVec.ofNat 9 (a + 257) }))
    (e3 : get 4 ((s.setRd r2).setBlk (withCounts a b s)) = .ok c ((s.setRd r3).setBlk (withCounts a b s))) :
    dynamicCounts s = .ok () ((s.setRd r3).setBlk { withCounts a b s with hclen := BitVec.ofNat 5 (c + 4) }) := by
  rw [dynamicCounts, e1, Res.bind_ok, State.setRd_blk, e2, Res.bind_ok]
  exact congrArg (fun x : Res Nat => x.bind fun c v => .ok () (v.setBlk { v.blk with hclen := BitVec.ofNat 5 (c + 4) })) e3

/-- The header counts (43_block_engine R232). -/
theorem dynamicCounts_ok (h : ReaderOk s) (hl : BitsLeft 14 s) :
    ∃ r, dynamicCounts s = .ok () ((s.setRd r).setBlk { withCounts (streamBits s (pos s) 5) (streamBits s (pos s + 5) 5) s with
        hclen := BitVec.ofNat 5 (streamBits s (pos s + 10) 4 + 4) }) ∧ Consumed 14 s (s.setRd r) := by
  obtain ⟨r1, e1, c1⟩ := get_setRd (n := 5) (by omega) h (fun x => by have := hl x; omega)
  generalize hB1 : ({ s.blk with hlit := BitVec.ofNat 9 (streamBits s (pos s) 5 + 257) } : BlockRegs) = B1
  have o1 : ReaderOk ((s.setRd r1).setBlk B1) := c1.reader.congr rfl fun _ => rfl
  have p1 : pos ((s.setRd r1).setBlk B1) = pos s + 5 := c1.pos
  have s1 : ((s.setRd r1).setBlk B1).rd.endOff = s.rd.endOff := c1.stop
  have b1 : ∀ i n, streamBits ((s.setRd r1).setBlk B1) i n = streamBits s i n := fun i n =>
    streamBits_congr (fun j => by simp only [byteAt, s1]; rfl) i n
  obtain ⟨r2, e2, c2⟩ := get_setRd (n := 5) (by omega) o1 (fun x => by have := hl x; rw [p1, s1]; omega)
  rw [b1, p1] at e2
  have c12 : Consumed 10 s (s.setRd r2) := c1.trans (c2.congr (u := s.setRd r1) (v := s.setRd r2) rfl rfl fun _ => rfl)
  generalize hB2 : withCounts (streamBits s (pos s) 5) (streamBits s (pos s + 5) 5) s = B2
  have o2 : ReaderOk ((s.setRd r2).setBlk B2) := c12.reader.congr rfl fun _ => rfl
  have p2 : pos ((s.setRd r2).setBlk B2) = pos s + 10 := c12.pos
  have s2 : ((s.setRd r2).setBlk B2).rd.endOff = s.rd.endOff := c12.stop
  have b2 : ∀ i n, streamBits ((s.setRd r2).setBlk B2) i n = streamBits s i n := fun i n =>
    streamBits_congr (fun j => by simp only [byteAt, s2]; rfl) i n
  obtain ⟨r3, e3, c3⟩ := get_setRd (n := 4) (by omega) o2 (fun x => by have := hl x; rw [p2, s2]; omega)
  rw [b2, p2] at e3
  refine ⟨r3, ?_, c12.trans (c3.congr (u := s.setRd r2) (v := s.setRd r3) rfl rfl fun _ => rfl)⟩
  subst hB1 hB2
  generalize streamBits s (pos s) 5 = a at e1 e2 e3 ⊢
  generalize streamBits s (pos s + 5) 5 = b at e2 e3 ⊢
  exact dynamicCounts_gets e1 e2 e3

theorem idxOf_cons_of_ne {x i : Nat} (l : List Nat) (h : ¬ x = i) : (x :: l).idxOf i = l.idxOf i + 1 := by
  rw [List.idxOf_cons]
  have : (x == i) = false := by simpa using h
  rw [this]; rfl

/-- The code-length code's lengths, one GET(3) each (43_block_engine R233). -/
theorem readClLens_ok : ∀ (l : List Nat) {s : State}, ReaderOk s → BitsLeft (3 * l.length) s → (∀ x ∈ l, x < 19) → l.Nodup →
    ∃ r cl, readClLens l s = .ok () ((s.setRd r).setBlk { s.blk with clLen := cl }) ∧ Consumed (3 * l.length) s (s.setRd r) ∧
      ∀ i, (h : i < 19) → cl[i].toNat = if l.idxOf i < l.length then streamBits s (pos s + 3 * l.idxOf i) 3 else s.blk.clLen[i].toNat := by
  intro l
  induction l with
  | nil => intro s h _ _ _; exact ⟨s.rd, s.blk.clLen, rfl, ⟨rfl, h, rfl, rfl⟩, fun i hi => by simp⟩
  | cons x r ih =>
    intro s h hl hx hn
    have hl' := hl
    simp only [List.length_cons] at hl'
    obtain ⟨r1, e1, c1⟩ := get_setRd (n := 3) (by omega) h (fun y => by have := hl' y; omega)
    let B1 : BlockRegs := { s.blk with clLen := s.blk.clLen.setIfInBounds x (BitVec.ofNat 3 (streamBits s (pos s) 3)) }
    have o1 : ReaderOk ((s.setRd r1).setBlk B1) := c1.reader.congr rfl fun _ => rfl
    have p1 : pos ((s.setRd r1).setBlk B1) = pos s + 3 := c1.pos
    have s1 : ((s.setRd r1).setBlk B1).rd.endOff = s.rd.endOff := c1.stop
    have b1 : ∀ i n, streamBits ((s.setRd r1).setBlk B1) i n = streamBits s i n := fun i n =>
      streamBits_congr (fun j => by simp only [byteAt, s1]; rfl) i n
    obtain ⟨r2, c, e2, c2, hc⟩ := ih o1 (fun y => by have := hl' y; rw [p1, s1]; omega) (fun y hy => hx y (by simp [hy])) (List.nodup_cons.1 hn).2
    refine ⟨r2, c, ?_, ?_, fun i hi => ?_⟩
    · rw [readClLens, e1, Res.bind_ok]
      exact e2
    · rw [List.length_cons, Nat.mul_add, Nat.add_comm]
      exact c1.trans (c2.congr (u := s.setRd r1) (v := s.setRd r2) rfl rfl fun _ => rfl)
    · rw [hc i hi, b1, p1]
      by_cases hxi : x = i
      · subst hxi
        have hnm := (List.nodup_cons.1 hn).1
        have : ¬ r.idxOf x < r.length := fun hh => hnm (List.idxOf_lt_length_iff.1 hh)
        rw [if_neg this]
        simp only [List.idxOf_cons_self, List.length_cons]
        rw [if_pos (by omega)]
        show (s.blk.clLen.setIfInBounds x (BitVec.ofNat 3 (streamBits s (pos s) 3)))[x].toNat = _
        rw [Vector.getElem_setIfInBounds, if_pos rfl, BitVec.toNat_ofNat, Nat.mod_eq_of_lt (streamBits_lt _ _ _)]; rfl
      · rw [idxOf_cons_of_ne _ hxi, List.length_cons]
        have : B1.clLen[i] = s.blk.clLen[i] := by
          show (s.blk.clLen.setIfInBounds x _)[i] = _
          rw [Vector.getElem_setIfInBounds, if_neg hxi]
        simp only [show ((s.setRd r1).setBlk B1).blk.clLen[i] = B1.clLen[i] from rfl, this]
        by_cases hh : r.idxOf i < r.length
        · rw [if_pos hh, if_pos (by omega)]; congr 1; omega
        · rw [if_neg hh, if_neg (by omega)]

/-- k copies of x, in order (43_block_engine R237, R238). -/
theorem storeLens_eq (x : BitVec 4) (k : Nat) : ∀ s : State, ∃ l, storeLens x k s = (s.setBlk { s.blk with lens := l }).setCtl { s.ctl with n := s.ctl.n + k } ∧
   (s.ctl.n + k ≤ 320 → ∀ i, ((l[i]?).getD 0) = if s.ctl.n ≤ i ∧ i < s.ctl.n + k then x else lenAt s i) := by
  induction k with
  | zero => exact fun s => ⟨s.blk.lens, rfl, fun _ i => by rw [if_neg (by omega)]; rfl⟩
  | succ k ih =>
    intro s
    obtain ⟨l, e, h⟩ := ih (storeLen x s)
    refine ⟨l, ?_, fun hk i => ?_⟩
    · rw [storeLens, e]
      simp only [storeLen, State.setCtl, State.setBlk, Nat.add_assoc, Nat.add_comm 1 k]
    · rw [h (by simp [storeLen]; omega)]
      have n1 : (storeLen x s).ctl.n = s.ctl.n + 1 := rfl
      rw [n1]
      by_cases h1 : i = s.ctl.n
      · subst h1
        rw [if_neg (by omega), if_pos (by omega)]
        simp [storeLen, lenAt, show s.ctl.n < 320 by omega]
      · have : lenAt (storeLen x s) i = lenAt s i := by
          simp [storeLen, lenAt, Ne.symm h1]
        rw [this]
        by_cases h2 : s.ctl.n + 1 ≤ i ∧ i < s.ctl.n + 1 + k
        · rw [if_pos h2, if_pos (by omega)]
        · rw [if_neg h2, if_neg (by omega)]

/-- The stores of a code-length symbol that does not reach the total. -/
theorem lens_stored (x : BitVec 4) (k : Nat) (s : State) (h : s.ctl.n + k < clTotal s) (ht : clTotal s ≤ 320) :
    ∃ t, clNext (storeLens x k s) = .ok () t ∧ LensStored x k s t ∧ t.rd = s.rd := by
  obtain ⟨l, e, hl⟩ := storeLens_eq x k s
  have c : clNext (storeLens x k s) = .ok () (lookNext .cl (storeLens x k s)) := by
    rw [clNext, if_pos]
    rw [e]; exact h
  have hh := hl (by omega)
  refine ⟨_, c, ⟨fun i h1 h2 => ?_, fun i hi => ?_, ?_, ?_, ?_⟩, ?_⟩
  · rw [e]; exact (hh i).trans (if_pos ⟨h1, h2⟩)
  · rw [e]; exact (hh i).trans (if_neg (by omega))
  · rw [e]; rfl
  · rw [e]; rfl
  · rw [e]; rfl
  · rw [e]; rfl

/-- The code-length code's lengths where the j-th passes the end, with OVERRUN_DETECT (43_block_engine R233). -/
theorem readClLens_over : ∀ (l : List Nat) {s : State} (j : Nat), ReaderOk s → s.detect = true → j < l.length →
    pos s + 3 * j ≤ 8 * s.rd.endOff.toNat → 8 * s.rd.endOff.toNat < pos s + 3 * j + 3 →
    ∃ r cl, readClLens l s = .raised .inputOverrun ((s.setRd r).setBlk { s.blk with clLen := cl }) ∧ pos (s.setRd r) = pos s + 3 * j + 3 := by
  intro l
  induction l with
  | nil => intro s j _ _ hj; simp at hj
  | cons x l ih =>
    intro s j h hd hj h1 h2
    cases j with
    | zero =>
      obtain ⟨r, e, c⟩ := get_over (n := 3) (by omega) h (by omega) hd (by omega)
      exact ⟨r, s.blk.clLen, by rw [readClLens, e]; rfl, c.pos⟩
    | succ j =>
      obtain ⟨r1, e1, c1⟩ := get_setRd (n := 3) (by omega) h (fun _ => by omega)
      have s1 := c1.stop
      have p1 := c1.pos
      obtain ⟨r, cl, e, p⟩ := ih (s := (s.setRd r1).setBlk { s.blk with clLen := s.blk.clLen.setIfInBounds x (BitVec.ofNat 3 (streamBits s (pos s) 3)) }) j
        (c1.reader.congr rfl fun _ => rfl) hd (by simpa using hj)
        (by show pos (s.setRd r1) + _ ≤ 8 * (s.setRd r1).rd.endOff.toNat; rw [s1, p1]; omega)
        (by show 8 * (s.setRd r1).rd.endOff.toNat < pos (s.setRd r1) + _ + _; rw [s1, p1]; omega)
      refine ⟨r, cl, by rw [readClLens, e1, Res.bind_ok]; exact e, ?_⟩
      have : pos (s.setRd r) = pos (s.setRd r1) + 3 * j + 3 := p
      rw [this, p1]; omega

/-- The code lengths complete: what the last ones, all v, leave for the two builds (43_block_engine R242). -/
theorem lens_complete (v : BitVec 4) (k : Nat) (s : State) (h : s.ctl.n + k = clTotal s) (ht : clTotal s ≤ 320) :
    ∃ T : State, clNext (storeLens v k s) = buildBoth T ∧ T = (s.setBlk T.blk).setCtl { s.ctl with n := clTotal s } ∧
      T.blk = { s.blk with lens := T.blk.lens, llLen := T.blk.llLen, dLen := T.blk.dLen } ∧
      lensOf T.blk.llLen = lastLL v s ∧
      (s.blk.hlit.toNat ≤ 288 → s.blk.hdist.toNat ≤ 32 →
        lensOf T.blk.dLen = lastD v s) := by
  obtain ⟨l, e, hl⟩ := storeLens_eq v k s
  have hl' : ∀ i, i < clTotal s → lenAt (storeLens v k s) i = lensThen v s i := fun i hi => by
    rw [e]
    refine (hl (by omega) i).trans ?_
    unfold lensThen
    by_cases hh : s.ctl.n ≤ i
    · rw [if_pos ⟨hh, by omega⟩, if_pos hh]
    · rw [if_neg (by omega), if_neg hh]
  have hb : (storeLens v k s).blk.hlit = s.blk.hlit ∧ (storeLens v k s).blk.hdist = s.blk.hdist := by rw [e]; exact ⟨rfl, rfl⟩
  refine ⟨splitLens (storeLens v k s), ?_, ?_, ?_, ?_, ?_⟩
  · rw [clNext, if_neg]
    rw [e]; show ¬ s.ctl.n + k < clTotal s; omega
  · rw [e, ← h]; rfl
  · rw [e]; rfl
  · rw [lastLL, splitLL]
    refine lensOf_ofFn _ _ fun i hi => ?_
    dsimp only
    rw [hb.1]
    by_cases hi' : i < s.blk.hlit.toNat
    · rw [if_pos hi', if_pos hi', hl' i (by unfold clTotal; omega)]
    · rw [if_neg hi', if_neg hi']; rfl
  · intro h1 h2
    rw [lastD, splitD]
    refine lensOf_ofFn _ _ fun i hi => ?_
    dsimp only
    rw [hb.1, hb.2]
    by_cases hi' : i < s.blk.hdist.toNat
    · rw [if_pos hi', if_pos hi', hl' _ (by unfold clTotal; omega)]
    · rw [if_neg hi', if_neg hi']; rfl

end Sys2Proof.Machine
end

