-- ==== Sys2Proof/Laws/Codes.lean ====
section
/-! SUPPORT. The codewords of a complete code (41_table_builder R168 to R171): a codeword of length l is an interval of 2^(15-l)
of the 2^15 MSB-first values of 15 stream bits, the intervals follow each other in the order of the symbols, so no two
codewords meet. -/

namespace Sys2Proof.Machine

/-! ## Bit reversal (00_scope R13) -/

theorem revBits_lt (l : Nat) : ∀ c, revBits l c < 2 ^ l := by
  induction l with
  | zero => intro c; simp [revBits]
  | succ l ih => intro c; have := ih (c % 2 ^ l); rw [revBits, Nat.pow_succ]; omega

/-- The low bits of a reversed number are the high bits reversed. -/
theorem revBits_mod (l k : Nat) : ∀ c, revBits (l + k) c % 2 ^ l = revBits l (c / 2 ^ k) := by
  induction l with
  | zero => intro c; simp [revBits, Nat.mod_one]
  | succ l ih =>
    intro c
    rw [show l + 1 + k = l + k + 1 by omega, revBits, revBits, Nat.pow_succ, Nat.mul_comm (2 ^ l) 2, Nat.mod_mul,
      Nat.mul_add_mod_self_left, Nat.mod_eq_of_lt (show c / 2 ^ (l + k) % 2 < 2 by omega),
      Nat.mul_add_div (by decide), Nat.div_eq_of_lt (show c / 2 ^ (l + k) % 2 < 2 by omega), Nat.add_zero, ih,
      Nat.div_div_eq_div_mul, ← Nat.pow_add, Nat.add_comm k l, Nat.add_comm l k, Nat.pow_add 2 k l,
      Nat.mod_mul_right_div_self, Nat.add_comm]

/-- The high bits of a reversed number are the low bits reversed. -/
theorem revBits_div (l k : Nat) : ∀ c, revBits (l + k) c / 2 ^ l = revBits k (c % 2 ^ k) := by
  induction l with
  | zero =>
    intro c
    rw [Nat.zero_add, Nat.pow_zero, Nat.div_one]
    cases k with
    | zero => rfl
    | succ k => rw [revBits, revBits, Nat.mod_mod_of_dvd _ (Nat.pow_dvd_pow 2 (Nat.le_succ k)), Nat.pow_succ, Nat.mod_mul_right_div_self, Nat.mod_mod]
  | succ l ih =>
    intro c
    rw [show l + 1 + k = l + k + 1 by omega, revBits, Nat.pow_succ, Nat.mul_comm (2 ^ l) 2, ← Nat.div_div_eq_div_mul,
      Nat.mul_add_div (by decide), Nat.div_eq_of_lt (show c / 2 ^ (l + k) % 2 < 2 by omega), Nat.add_zero, ih,
      Nat.mod_mod_of_dvd _ (Nat.pow_dvd_pow 2 (Nat.le_add_left k l))]

/-- Reversing twice. -/
theorem revBits_revBits (l : Nat) : ∀ c, c < 2 ^ l → revBits l (revBits l c) = c := by
  induction l with
  | zero => intro c h; simp only [revBits]; simp at h; omega
  | succ l ih =>
    intro c h
    have h1 := revBits_mod l 1 c
    have h2 := revBits_div l 1 c
    rw [Nat.pow_one] at h1 h2
    have h3 : revBits 1 (c % 2) = c % 2 := by simp [revBits]
    rw [revBits, h1, h2, h3, ih _ (by rw [Nat.pow_succ] at h; omega)]
    omega

/-- Trailing zeros of the number are leading zeros of its reverse. -/
theorem revBits_mul (l k c : Nat) : revBits (l + k) (c * 2 ^ k) = revBits l c := by
  have h1 := revBits_mod l k (c * 2 ^ k)
  have h2 := revBits_div l k (c * 2 ^ k)
  have h0 : ∀ n, revBits n 0 = 0 := by
    intro n; induction n with
    | zero => rfl
    | succ n ih => simp [revBits, ih]
  rw [Nat.mul_div_cancel _ (Nat.two_pow_pos k)] at h1
  rw [Nat.mul_mod_left, h0] at h2
  have := Nat.div_add_mod (revBits (l + k) (c * 2 ^ k)) (2 ^ l)
  rw [h1, h2] at this
  omega

theorem topZero_mod (c l : Nat) : ∀ j, j ≤ l → topZero (c % 2 ^ l) j = topZero c j := by
  intro j
  induction j with
  | zero => intro _; rfl
  | succ j ih => intro h; rw [topZero, topZero, ih (by omega), Nat.testBit_mod_two_pow]; simp [show j < l by omega]

theorem topZero_lt {c b : Nat} : ∀ {j : Nat}, topZero c j = some b → b < j := by
  intro j
  induction j with
  | zero => intro h; cases h
  | succ j ih =>
    intro h
    rw [topZero] at h
    split at h
    · have := ih h; omega
    · cases h; omega

/-- NEXT_REV on the reverse of v gives the reverse of v + 1 (41_table_builder R169). -/
theorem nextRev_revBits (l : Nat) : ∀ v, v + 1 < 2 ^ l → nextRev (revBits l v) l = revBits l (v + 1) := by
  induction l with
  | zero => intro v h; simp at h
  | succ l ih =>
    intro v h
    have hm : ∀ x, revBits (l + 1) x % 2 ^ l = revBits l (x / 2) := fun x => by simpa using revBits_mod l 1 x
    have hd : ∀ x, revBits (l + 1) x / 2 ^ l = x % 2 := fun x => by
      have := revBits_div l 1 x
      rw [Nat.pow_one] at this
      rw [this]; simp [revBits]
    have hs : ∀ x, revBits (l + 1) x = 2 ^ l * (x % 2) + revBits l (x / 2) := fun x => by
      rw [← hm, ← hd]; exact (Nat.div_add_mod _ _).symm
    have ht : (revBits (l + 1) v).testBit l = decide (v % 2 = 1) := by
      rw [Nat.testBit_eq_decide_div_mod_eq, hd, Nat.mod_mod]
    rw [Nat.pow_succ] at h
    rcases Nat.mod_two_eq_zero_or_one v with h2 | h2
    · have : nextRev (revBits (l + 1) v) (l + 1) = revBits (l + 1) v % 2 ^ l + 2 ^ l := by
        rw [nextRev, topZero, ht]; simp [h2]
      rw [this, hm, hs (v + 1), show (v + 1) % 2 = 1 by omega, show (v + 1) / 2 = v / 2 by omega]
      omega
    · have e : topZero (revBits (l + 1) v) (l + 1) = topZero (revBits l (v / 2)) l := by
        rw [topZero, ht]; simp only [h2, decide_true, if_true]
        rw [← hm, topZero_mod _ _ _ (Nat.le_refl l)]
      have hv := ih (v / 2) (by omega)
      have hz : ∃ b, topZero (revBits l (v / 2)) l = some b := by
        cases hh : topZero (revBits l (v / 2)) l with
        | some b => exact ⟨b, rfl⟩
        | none =>
          exfalso
          rw [nextRev, hh] at hv
          have h1 := revBits_revBits l (v / 2) (by omega)
          have h2 := revBits_revBits l (v / 2 + 1) (by omega)
          dsimp only at hv
          rw [hv] at h1
          omega
      obtain ⟨b, hb⟩ := hz
      have hbl := topZero_lt hb
      rw [nextRev, e, hb, hs (v + 1), show (v + 1) % 2 = 0 by omega, show (v + 1) / 2 = v / 2 + 1 by omega, ← hv, nextRev, hb]
      dsimp only
      rw [← hm, Nat.mod_mod_of_dvd _ (Nat.pow_dvd_pow 2 (Nat.le_of_lt hbl))]
      omega

/-! ## Codewords as intervals -/

/-- The next 15 stream bits as an MSB-first value. -/
def msb (x : Nat) : Nat := revBits 15 (x % 2 ^ 15)

/-- Stream bits begin with a codeword exactly when their MSB-first value lies in the codeword's interval. -/
theorem begins_iff {l a x : Nat} (hl : l ≤ 15) (ha : a < 2 ^ 15) (hd : 2 ^ (15 - l) ∣ a) :
    x % 2 ^ l = revBits 15 a ↔ a ≤ msb x ∧ msb x < a + 2 ^ (15 - l) := by
  obtain ⟨v, rfl⟩ := hd
  have hp := Nat.two_pow_pos (15 - l)
  have e15 : 2 ^ 15 = 2 ^ (15 - l) * 2 ^ l := by rw [← Nat.pow_add, Nat.sub_add_cancel hl]
  have hv : v < 2 ^ l := by rw [e15] at ha; exact Nat.lt_of_mul_lt_mul_left ha
  have h1 : revBits 15 (2 ^ (15 - l) * v) = revBits l v := by
    rw [Nat.mul_comm]
    have := revBits_mul l (15 - l) v
    rwa [show l + (15 - l) = 15 by omega] at this
  have h2 : msb x / 2 ^ (15 - l) = revBits l (x % 2 ^ l) := by
    have := revBits_div (15 - l) l (x % 2 ^ 15)
    rw [show 15 - l + l = 15 by omega, Nat.mod_mod_of_dvd _ (Nat.pow_dvd_pow 2 hl)] at this
    exact this
  have h3 : x % 2 ^ l = revBits l v ↔ revBits l (x % 2 ^ l) = v := by
    constructor
    · intro h; rw [h, revBits_revBits l v hv]
    · intro h; rw [← h, revBits_revBits l _ (Nat.mod_lt _ (Nat.two_pow_pos l))]
  rw [h1, h3, ← h2]
  constructor
  · rintro rfl
    have := Nat.div_add_mod (msb x) (2 ^ (15 - l))
    have := Nat.mod_lt (msb x) hp
    omega
  · rintro ⟨h4, h5⟩
    refine Nat.div_eq_of_lt_le ?_ ?_
    · rw [Nat.mul_comm]; exact h4
    · rw [Nat.add_one_mul, Nat.mul_comm]; exact h5

/-! ## The assignment -/

/-- The code space the symbols of a list take, of 2^15 (41_table_builder R163). -/
def spaceOf (L : List (Nat × Nat)) : Nat := (L.map fun p => 2 ^ (15 - p.1)).sum

/-- Each symbol of a list with its codeword, the code space before it taken from a on. -/
def withSpace (a : Nat) : List (Nat × Nat) → List Code
  | [] => []
  | (l, s) :: r => { len := l, sym := s, code := revBits 15 a } :: withSpace (a + 2 ^ (15 - l)) r

/-- Where a codeword's interval starts. -/
def Code.start (c : Code) : Nat := revBits 15 c.code

theorem assignFrom_eq : ∀ (L : List (Nat × Nat)) (a : Nat), L.Pairwise (fun p q => p.1 ≤ q.1) → (∀ p ∈ L, 1 ≤ p.1 ∧ p.1 ≤ 15) →
    (∀ p ∈ L, 2 ^ (15 - p.1) ∣ a) → a + spaceOf L ≤ 2 ^ 15 → assignFrom (revBits 15 a) L = withSpace a L := by
  intro L
  induction L with
  | nil => exact fun _ _ _ _ _ => rfl
  | cons p r ih =>
    obtain ⟨l, s⟩ := p
    intro a hs hl hd ha
    rw [assignFrom, withSpace]
    refine congrArg (List.cons _) ?_
    cases r with
    | nil => rfl
    | cons q r =>
      simp only [spaceOf, List.map_cons, List.sum_cons] at ha
      have hl0 := hl (l, s) (by simp)
      dsimp only at hl0
      obtain ⟨v, hv⟩ := hd (l, s) (by simp)
      dsimp only at hv
      have h15 : l + (15 - l) = 15 := by omega
      have hq := Nat.two_pow_pos (15 - q.1)
      have e15 : 2 ^ 15 = 2 ^ (15 - l) * 2 ^ l := by rw [← Nat.pow_add, Nat.sub_add_cancel hl0.2]
      have hv1 : v + 1 < 2 ^ l := by
        refine Nat.lt_of_mul_lt_mul_left (a := 2 ^ (15 - l)) ?_
        rw [← e15, Nat.mul_add_one, ← hv]; omega
      have hn : nextRev (revBits 15 a) l = revBits 15 (a + 2 ^ (15 - l)) := by
        have m : ∀ w, revBits 15 (w * 2 ^ (15 - l)) = revBits l w := fun w => by
          have := revBits_mul l (15 - l) w
          rwa [h15] at this
        rw [show a = v * 2 ^ (15 - l) by rw [hv, Nat.mul_comm], ← Nat.add_one_mul, m, m, nextRev_revBits l v hv1]
      rw [hn]
      refine ih _ (List.pairwise_cons.1 hs).2 (fun p hp => hl p (by simp [List.mem_cons.1 hp])) (fun p hp => ?_) ?_
      · refine Nat.dvd_add (hd p (by simp [List.mem_cons.1 hp])) (Nat.pow_dvd_pow 2 ?_)
        have := (List.pairwise_cons.1 hs).1 p hp
        dsimp only at this; omega
      · simp only [spaceOf, List.map_cons, List.sum_cons]; omega

/-- A list's codewords: their intervals start at or past a and end within it plus their space. -/
theorem withSpace_mem : ∀ {L : List (Nat × Nat)} {a : Nat} {c : Code}, c ∈ withSpace a L → (∀ p ∈ L, 1 ≤ p.1 ∧ p.1 ≤ 15) →
    a + spaceOf L ≤ 2 ^ 15 → (c.len, c.sym) ∈ L ∧ c.code = revBits 15 c.start ∧ a ≤ c.start ∧ c.start + 2 ^ (15 - c.len) ≤ 2 ^ 15 := by
  intro L
  induction L with
  | nil => intro a c h; cases h
  | cons p r ih =>
    obtain ⟨l, s⟩ := p
    intro a c h hl ha
    simp only [spaceOf, List.map_cons, List.sum_cons] at ha
    have hp := Nat.two_pow_pos (15 - l)
    rw [withSpace, List.mem_cons] at h
    rcases h with rfl | h
    · have e : Code.start { len := l, sym := s, code := revBits 15 a } = a := revBits_revBits 15 a (by omega)
      refine ⟨by simp, ?_, ?_, ?_⟩
      · rw [e]
      · exact Nat.le_of_eq e.symm
      · rw [e]; dsimp only; omega
    · obtain ⟨h1, h2, h3, h4⟩ := ih h (fun p hp => hl p (by simp [hp])) (by simp only [spaceOf]; omega)
      exact ⟨by simp [h1], h2, by omega, h4⟩

/-- The intervals follow each other. -/
theorem withSpace_pairwise : ∀ (L : List (Nat × Nat)) (a : Nat), (∀ p ∈ L, 1 ≤ p.1 ∧ p.1 ≤ 15) → a + spaceOf L ≤ 2 ^ 15 →
    (withSpace a L).Pairwise fun c d => c.start + 2 ^ (15 - c.len) ≤ d.start := by
  intro L
  induction L with
  | nil => exact fun _ _ _ => .nil
  | cons p r ih =>
    obtain ⟨l, s⟩ := p
    intro a hl ha
    simp only [spaceOf, List.map_cons, List.sum_cons] at ha
    have hp := Nat.two_pow_pos (15 - l)
    have hr : ∀ p ∈ r, 1 ≤ p.1 ∧ p.1 ≤ 15 := fun p hp => hl p (by simp [hp])
    have ha' : a + 2 ^ (15 - l) + spaceOf r ≤ 2 ^ 15 := by simp only [spaceOf]; omega
    rw [withSpace, List.pairwise_cons]
    refine ⟨fun d hd => ?_, ih _ hr ha'⟩
    have e : Code.start { len := l, sym := s, code := revBits 15 a } = a := revBits_revBits 15 a (by omega)
    rw [e]
    exact (withSpace_mem hd hr ha').2.2.1

/-- The order (length, symbol) (41_table_builder R168). -/
def Before (p q : Nat × Nat) : Prop := p.1 < q.1 ∨ p.1 = q.1 ∧ p.2 < q.2

/-- A codeword's interval starts where the space of the symbols before it ends. -/
theorem withSpace_start (b : Nat × Nat → Nat × Nat → Bool) (hb : ∀ p q, b p q = true ↔ Before p q) :
    ∀ {L : List (Nat × Nat)} {a : Nat} {c : Code}, L.Pairwise Before → c ∈ withSpace a L → (∀ p ∈ L, 1 ≤ p.1 ∧ p.1 ≤ 15) →
    a + spaceOf L ≤ 2 ^ 15 → c.start = a + spaceOf (L.filter fun p => b p (c.len, c.sym)) := by
  intro L
  induction L with
  | nil => intro a c _ h; cases h
  | cons p r ih =>
    obtain ⟨l, s⟩ := p
    intro a c hs h hl ha
    simp only [spaceOf, List.map_cons, List.sum_cons] at ha
    have hp := Nat.two_pow_pos (15 - l)
    have hr : ∀ p ∈ r, 1 ≤ p.1 ∧ p.1 ≤ 15 := fun p hp => hl p (by simp [hp])
    have ha' : a + 2 ^ (15 - l) + spaceOf r ≤ 2 ^ 15 := by simp only [spaceOf]; omega
    obtain ⟨hs1, hs2⟩ := List.pairwise_cons.1 hs
    rw [withSpace, List.mem_cons] at h
    rcases h with rfl | h
    · have e : Code.start { len := l, sym := s, code := revBits 15 a } = a := revBits_revBits 15 a (by omega)
      rw [e]
      have : ((l, s) :: r).filter (fun p => b p (l, s)) = [] := by
        rw [List.filter_eq_nil_iff]
        intro q hq hbq
        have hbq := (hb _ _).1 hbq
        rcases List.mem_cons.1 hq with rfl | hq
        · simp only [Before] at hbq; omega
        · have := hs1 q hq
          simp only [Before] at hbq this; omega
      dsimp only
      rw [this]; rfl
    · have hm := (withSpace_mem h hr ha').1
      have : b (l, s) (c.len, c.sym) = true := (hb _ _).2 (hs1 _ hm)
      rw [List.filter_cons_of_pos (p := fun p => b p (c.len, c.sym)) (a := (l, s)) this, ih hs2 h hr ha']
      simp only [spaceOf, List.map_cons, List.sum_cons]
      omega

/-! ## The order of the symbols -/

/-- Before, as a check that runs. -/
def isBefore (p q : Nat × Nat) : Bool := decide (p.1 < q.1 ∨ p.1 = q.1 ∧ p.2 < q.2)

theorem isBefore_iff (p q : Nat × Nat) : isBefore p q = true ↔ Before p q := decide_eq_true_iff

theorem sum_map_add (f g : Nat → Nat) (R : List Nat) : (R.map fun l => f l + g l).sum = (R.map f).sum + (R.map g).sum := by
  induction R with
  | nil => rfl
  | cons l R ih => simp only [List.map_cons, List.sum_cons, ih]; omega

theorem sum_ite_range' (x y : Nat) : ∀ n a, ((List.range' a n).map fun l => if x = l then y else 0).sum =
    if a ≤ x ∧ x < a + n then y else 0 := by
  intro n
  induction n with
  | zero => intro a; simp only [List.range'_zero, List.map_nil, List.sum_nil]; rw [if_neg (by omega)]
  | succ n ih =>
    intro a
    rw [List.range'_succ, List.map_cons, List.sum_cons, ih]
    by_cases h1 : x = a
    · rw [if_pos h1, if_neg (by omega), if_pos (by omega), Nat.add_zero]
    · rw [if_neg h1, Nat.zero_add]
      by_cases h2 : a + 1 ≤ x ∧ x < a + 1 + n
      · rw [if_pos h2, if_pos (by omega)]
      · rw [if_neg h2, if_neg (by omega)]

/-- A sum over the symbols in their order is the sum over the alphabet. -/
theorem sum_order (f : Nat × Nat → Bool) (g : Nat × Nat → Nat) (Z : List (Nat × Nat)) :
    ((((List.range' 1 15).flatMap fun l => Z.filter fun p => p.1 == l).filter f).map g).sum =
      (Z.map fun p => if 1 ≤ p.1 ∧ p.1 < 1 + 15 then (if f p then g p else 0) else 0).sum := by
  have h1 : ∀ R : List Nat, (((R.flatMap fun l => Z.filter fun p => p.1 == l).filter f).map g).sum =
      (R.map fun l => (((Z.filter fun p => p.1 == l).filter f).map g).sum).sum := by
    intro R
    induction R with
    | nil => rfl
    | cons l R ih => simp only [List.flatMap_cons, List.filter_append, List.map_append, List.sum_append, ih, List.map_cons, List.sum_cons]
  rw [h1]
  clear h1
  induction Z with
  | nil => simp only [List.filter_nil, List.map_nil, List.sum_nil]; rfl
  | cons p Z ih =>
    rw [List.map_cons, List.sum_cons, ← ih, ← sum_ite_range', ← sum_map_add]
    refine congrArg List.sum (List.map_congr_left fun l _ => ?_)
    by_cases h : p.1 = l
    · by_cases hf : f p = true
      · simp [h, hf]
      · simp [h, hf]
    · simp [h]

theorem zipIdx_map (f : Nat × Nat → Nat) (lens : List Nat) :
    lens.zipIdx.map f = (List.range lens.length).map fun t => f ((lens[t]?).getD 0, t) := by
  apply List.ext_getElem
  · simp
  · intro i h1 h2
    simp at h1
    simp [h1]

theorem symOrder_pairwise (lens : List Nat) : (symOrder lens).Pairwise Before := by
  rw [symOrder, List.pairwise_flatMap]
  constructor
  · intro l _
    have hz : lens.zipIdx.Pairwise fun p q => p.2 < q.2 := by
      rw [List.pairwise_iff_getElem]
      intro i j h1 h2 h
      simp; exact h
    have := hz.filter (fun p => p.1 == l)
    refine List.Pairwise.imp_of_mem ?_ this
    intro p q hp hq h
    simp only [List.mem_filter, beq_iff_eq] at hp hq
    exact .inr ⟨hp.2.trans hq.2.symm, h⟩
  · refine (List.pairwise_lt_range' (s := 1) (n := 15) (step := 1)).imp ?_
    intro a b hab p hp q hq
    simp only [List.mem_filter, beq_iff_eq] at hp hq
    exact .inl (by omega)

theorem spaceOf_filter (f : Nat × Nat → Bool) (lens : List Nat) : spaceOf ((symOrder lens).filter f) =
    ((List.range lens.length).map fun t => if 1 ≤ (lens[t]?).getD 0 ∧ (lens[t]?).getD 0 < 1 + 15 then
      (if f ((lens[t]?).getD 0, t) then 2 ^ (15 - (lens[t]?).getD 0) else 0) else 0).sum := by
  rw [spaceOf, symOrder, sum_order, zipIdx_map]

/-! ## The codewords of an accepted code -/

/-- What an accepted code of two or more symbols assigns (41_table_builder R170, R171). -/
structure Canonical (lens : List Nat) : Prop where
  /-- the intervals follow each other in the order of the symbols -/
  apart : (codesOf lens).Pairwise fun c d => c.start + 2 ^ (15 - c.len) ≤ d.start
  /-- a codeword is its interval's start, reversed -/
  code : ∀ c ∈ codesOf lens, c.code = revBits 15 c.start ∧ c.start + 2 ^ (15 - c.len) ≤ 2 ^ 15
  /-- the interval starts at the canonical value -/
  canon : ∀ c ∈ codesOf lens, c.start = canonOf lens c.sym * 2 ^ (15 - c.len)
  /-- every symbol present has its codeword -/
  all : ∀ s l, lens[s]? = some l → 1 ≤ l → l ≤ 15 → ∃ c ∈ codesOf lens, c.sym = s ∧ c.len = l

theorem mem_assignFrom_of {p : Nat × Nat} : ∀ {L : List (Nat × Nat)} {k : Nat}, p ∈ L →
    ∃ c ∈ assignFrom k L, c.sym = p.2 ∧ c.len = p.1 := by
  intro L
  induction L with
  | nil => intro k h; cases h
  | cons q r ih =>
    obtain ⟨l, s⟩ := q
    intro k h
    rw [List.mem_cons] at h
    rcases h with rfl | h
    · exact ⟨_, List.mem_cons_self .., rfl, rfl⟩
    · obtain ⟨c, hc, e⟩ := ih (k := nextRev k l) h
      exact ⟨c, List.mem_cons_of_mem _ hc, e⟩

theorem foldl_max_ge : ∀ (L : List Nat) (a : Nat), a ≤ L.foldl max a ∧ ∀ x ∈ L, x ≤ L.foldl max a := by
  intro L
  induction L with
  | nil => exact fun a => ⟨Nat.le_refl a, nofun⟩
  | cons y r ih =>
    intro a
    obtain ⟨h1, h2⟩ := ih (max a y)
    refine ⟨Nat.le_trans (Nat.le_max_left _ _) h1, fun x hx => ?_⟩
    rcases List.mem_cons.1 hx with rfl | hx
    · exact Nat.le_trans (Nat.le_max_right _ _) h1
    · exact h2 x hx

theorem foldl_max_le : ∀ (L : List Nat) (a b : Nat), a ≤ b → (∀ x ∈ L, x ≤ b) → L.foldl max a ≤ b := by
  intro L
  induction L with
  | nil => exact fun a b h _ => h
  | cons y r ih => exact fun a b h hl => ih _ _ (Nat.max_le.2 ⟨h, hl y (by simp)⟩) fun x hx => hl x (by simp [hx])

theorem count_eq_zipIdx (lens : List Nat) (l : Nat) : ((lens.zipIdx.filter fun p => p.1 == l).map fun p => 2 ^ (15 - p.1)).sum =
    countOf lens l * 2 ^ (15 - l) := by
  have : ∀ (L : List Nat) (n : Nat), (((L.zipIdx n).filter fun p => p.1 == l).map fun p => 2 ^ (15 - p.1)).sum = L.count l * 2 ^ (15 - l) := by
    intro L
    induction L with
    | nil => intro n; simp
    | cons y r ih =>
      intro n
      rw [List.zipIdx_cons, List.count_cons]
      by_cases h : y = l
      · subst h
        rw [List.filter_cons_of_pos (by simp), List.map_cons, List.sum_cons, ih]
        simp only [beq_self_eq_true, if_true, Nat.add_one_mul]; omega
      · rw [List.filter_cons_of_neg (by simpa using h), ih]
        simp [h]
  exact this lens 0

/-- The space of all symbols, from the counts. -/
theorem spaceOf_symOrder (lens : List Nat) : spaceOf (symOrder lens) =
    ((List.range' 1 15).map fun l => countOf lens l * 2 ^ (15 - l)).sum := by
  have : ∀ R : List Nat, spaceOf (R.flatMap fun l => lens.zipIdx.filter fun p => p.1 == l) =
      (R.map fun l => countOf lens l * 2 ^ (15 - l)).sum := by
    intro R
    induction R with
    | nil => rfl
    | cons l R ih =>
      have h := count_eq_zipIdx lens l
      simp only [spaceOf, List.flatMap_cons, List.map_append, List.sum_append, List.map_cons, List.sum_cons] at ih ⊢
      rw [ih, h]
  exact this _

/-- The space of all symbols, from R163's sum. -/
theorem spaceOf_spaceSum {lens : List Nat} (hl : ∀ l ∈ lens, l ≤ 15) :
    spaceOf (symOrder lens) = spaceSum lens * 2 ^ (15 - maxLen lens) := by
  have hM : maxLen lens ≤ 15 := foldl_max_le _ _ _ (by omega) hl
  have hz : ∀ l, maxLen lens < l → countOf lens l = 0 := fun l h =>
    List.count_eq_zero.2 fun hm => absurd ((foldl_max_ge lens 0).2 l hm) (Nat.not_le.2 h)
  have h1 : ((List.range' 1 15).map fun l => countOf lens l * 2 ^ (15 - l)).sum =
      ((List.range' 1 (maxLen lens)).map fun l => countOf lens l * 2 ^ (15 - l)).sum := by
    rw [show 15 = maxLen lens + (15 - maxLen lens) by omega, ← List.range'_append_1, List.map_append, List.sum_append,
      show maxLen lens + (15 - maxLen lens) = 15 by omega]
    have : ∀ n a, maxLen lens < a → ((List.range' a n).map fun l => countOf lens l * 2 ^ (15 - l)).sum = 0 := by
      intro n
      induction n with
      | zero => intro a _; rfl
      | succ n ih => intro a h; rw [List.range'_succ, List.map_cons, List.sum_cons, ih _ (by omega), hz a h]; simp
    rw [this (15 - maxLen lens) (1 + maxLen lens) (by omega), Nat.add_zero]
  have h2 : ∀ n a, a + n ≤ maxLen lens + 1 → ((List.range' a n).map fun l => countOf lens l * 2 ^ (15 - l)).sum =
      ((List.range' a n).map fun l => countOf lens l * 2 ^ (maxLen lens - l)).sum * 2 ^ (15 - maxLen lens) := by
    intro n
    induction n with
    | zero => intro a _; simp
    | succ n ih =>
      intro a h
      rw [List.range'_succ, List.map_cons, List.sum_cons, List.map_cons, List.sum_cons, ih _ (by omega), Nat.add_mul, Nat.mul_assoc,
        ← Nat.pow_add, show maxLen lens - a + (15 - maxLen lens) = 15 - a by omega]
  rw [spaceOf_symOrder, h1, h2 _ _ (by omega)]
  have : ((List.range' 1 (maxLen lens)).map fun l => countOf lens l * 2 ^ (maxLen lens - l)).sum = spaceSum lens := rfl
  rw [this]

/-- An accepted code of two or more symbols takes the whole code space (41_table_builder R163 to R165). -/
theorem spaceOf_accepted {lens : List Nat} (hl : ∀ l ∈ lens, l ≤ 15) (hv : verdict lens = none) (hs : isSingle lens = false) :
    spaceOf (symOrder lens) = 2 ^ 15 := by
  have hM : maxLen lens ≤ 15 := foldl_max_le _ _ _ (by omega) hl
  have hS : spaceSum lens = 2 ^ maxLen lens := by
    simp only [verdict, hs, Bool.not_false, Bool.and_true, decide_eq_true_eq] at hv
    split at hv
    · cases hv
    · split at hv
      · cases hv
      · split at hv
        · cases hv
        · omega
  rw [spaceOf_spaceSum hl, hS, ← Nat.pow_add, show maxLen lens + (15 - maxLen lens) = 15 by omega]

/-! ## The counts of R161 as sums over the symbols present -/

theorem sum_counts (g : Nat → Nat) {lens : List Nat} (hl : ∀ l ∈ lens, l ≤ 15) :
    ((List.range' 1 15).map fun l => countOf lens l * g l).sum = ((lens.filter (0 < ·)).map g).sum := by
  induction lens with
  | nil => simp [countOf, List.map_const']
  | cons x r ih =>
    have hx := hl x (List.mem_cons_self ..)
    have e : (fun l => countOf (x :: r) l * g l) = fun l => countOf r l * g l + if x = l then g x else 0 := by
      funext l
      simp only [countOf, List.count_cons]
      by_cases h : x = l
      · subst h; simp [Nat.add_mul]
      · simp [h]
    rw [e, sum_map_add, ih fun l h => hl l (List.mem_cons_of_mem _ h), sum_ite_range']
    by_cases h0 : 0 < x
    · rw [if_pos (by omega), List.filter_cons_of_pos (by simpa using h0), List.map_cons, List.sum_cons, Nat.add_comm]
    · rw [if_neg (by omega), List.filter_cons_of_neg (by simpa using h0), Nat.add_zero]

/-- nz counts the symbols present (R161). -/
theorem nzOf_eq {lens : List Nat} (hl : ∀ l ∈ lens, l ≤ 15) : nzOf lens = (lens.filter (0 < ·)).length := by
  have := sum_counts (fun _ => 1) hl
  simp only [Nat.mul_one] at this
  rw [nzOf, this, List.map_const', List.sum_replicate_nat, Nat.mul_one]

/-- The code-space sum in units of 2^-15 (R163). -/
theorem kraft_eq {lens : List Nat} (hl : ∀ l ∈ lens, l ≤ 15) : kraft lens = spaceSum lens * 2 ^ (15 - maxLen lens) := by
  rw [← spaceOf_spaceSum hl, spaceOf_symOrder, sum_counts _ hl, kraft]

/-- The one-symbol exception in terms of the symbols present (R165). -/
theorem isSingle_iff {lens : List Nat} (hl : ∀ l ∈ lens, l ≤ 15) : isSingle lens = true ↔ lens.filter (0 < ·) = [1] := by
  have hm : ∀ y, lens.filter (0 < ·) = [y] → maxLen lens = y := fun y h => by
    refine Nat.le_antisymm (foldl_max_le _ _ _ (Nat.zero_le _) fun z hz => ?_)
      ((foldl_max_ge lens 0).2 y (List.mem_filter.1 (h ▸ List.mem_singleton.2 rfl : y ∈ lens.filter (0 < ·))).1)
    by_cases h0 : 0 < z
    · have : z ∈ lens.filter (0 < ·) := List.mem_filter.2 ⟨hz, by simpa using h0⟩
      rw [h, List.mem_singleton] at this
      omega
    · omega
  simp only [isSingle, Bool.and_eq_true, decide_eq_true_eq, nzOf_eq hl]
  constructor
  · rintro ⟨h1, h2⟩
    obtain ⟨y, hy⟩ := List.length_eq_one_iff.1 h1
    rw [hy, ← hm y hy, h2]
  · intro h
    exact ⟨by rw [h]; rfl, hm 1 h⟩

theorem canonical {lens : List Nat} (hl : ∀ l ∈ lens, l ≤ 15) (hv : verdict lens = none) (hs : isSingle lens = false) :
    Canonical lens := by
  have hsp := spaceOf_accepted hl hv hs
  have hmem : ∀ p ∈ symOrder lens, 1 ≤ p.1 ∧ p.1 ≤ 15 := fun p hp => ⟨(mem_symOrder hp).1, (mem_symOrder hp).2.1⟩
  have h0 : revBits 15 0 = 0 := by decide
  have he : codesOf lens = withSpace 0 (symOrder lens) := by
    rw [codesOf]
    have := assignFrom_eq (symOrder lens) 0 ((symOrder_pairwise lens).imp fun h => by rcases h with h | h <;> omega) hmem
      (fun p _ => Nat.dvd_zero _) (by omega)
    rwa [h0] at this
  refine ⟨?_, ?_, ?_, ?_⟩
  · rw [he]; exact withSpace_pairwise _ _ hmem (by omega)
  · intro c hc
    rw [he] at hc
    obtain ⟨-, h2, -, h4⟩ := withSpace_mem hc hmem (by omega)
    exact ⟨h2, h4⟩
  · intro c hc
    obtain ⟨c1, c2, c3⟩ := mem_codesOf hc
    rw [he] at hc
    rw [withSpace_start isBefore isBefore_iff (symOrder_pairwise lens) hc hmem (by omega), Nat.zero_add, spaceOf_filter]
    have hc3 : (lens[c.sym]?).getD 0 = c.len := by rw [c3]; rfl
    have key : ∀ R : List Nat, (R.map fun t => if 1 ≤ (lens[t]?).getD 0 ∧ (lens[t]?).getD 0 < 1 + 15 then
        (if isBefore ((lens[t]?).getD 0, t) (c.len, c.sym) then 2 ^ (15 - (lens[t]?).getD 0) else 0) else 0).sum =
        ((R.filter fun t => decide (0 < (lens[t]?).getD 0 ∧ ((lens[t]?).getD 0 < (lens[c.sym]?).getD 0 ∨
          (lens[t]?).getD 0 = (lens[c.sym]?).getD 0 ∧ t < c.sym))).map fun t => 2 ^ ((lens[c.sym]?).getD 0 - (lens[t]?).getD 0)).sum *
          2 ^ (15 - c.len) := by
      intro R
      induction R with
      | nil => simp
      | cons t R ih =>
        rw [List.map_cons, List.sum_cons, ih, hc3]
        generalize hlt : (lens[t]?).getD 0 = lt
        have hlt15 : lt ≤ 15 := by
          rw [← hlt]
          cases hh : lens[t]? with
          | none => simp
          | some x => exact hl x (List.mem_of_getElem? hh)
        by_cases hb : 0 < lt ∧ (lt < c.len ∨ lt = c.len ∧ t < c.sym)
        · rw [List.filter_cons_of_pos (by rw [hlt]; exact decide_eq_true hb), List.map_cons, List.sum_cons, Nat.add_mul, hlt, ← Nat.pow_add,
            show c.len - lt + (15 - c.len) = 15 - lt by omega, if_pos (by omega),
            if_pos (by rw [isBefore_iff]; exact hb.2)]
        · rw [List.filter_cons_of_neg (by rw [hlt]; simpa using hb)]
          have : (if 1 ≤ lt ∧ lt < 1 + 15 then (if isBefore (lt, t) (c.len, c.sym) = true then 2 ^ (15 - lt) else 0) else 0) = 0 := by
            by_cases h1 : 1 ≤ lt ∧ lt < 1 + 15
            · rw [if_pos h1, if_neg]
              rw [isBefore_iff]
              exact fun h => hb ⟨by omega, h⟩
            · rw [if_neg h1]
          rw [this, Nat.zero_add]
    exact key _
  · intro s l h h1 h2
    refine mem_assignFrom_of (p := (l, s)) ?_
    simp only [symOrder, List.mem_flatMap, List.mem_filter, List.mem_range'_1, beq_iff_eq]
    exact ⟨l, by omega, List.mk_mem_zipIdx_iff_getElem?.2 h, rfl⟩

section

variable {lens : List Nat} {c d : Code} {s x : Nat}

/-- Stream bits begin with a codeword exactly when their MSB-first value lies in its interval. -/
theorem Canonical.begins (h : Canonical lens) (hc : c ∈ codesOf lens) :
    x % 2 ^ c.len = c.code ↔ c.start ≤ msb x ∧ msb x < c.start + 2 ^ (15 - c.len) := by
  obtain ⟨h1, h2⟩ := h.code c hc
  have hp := Nat.two_pow_pos (15 - c.len)
  rw [h1]
  exact begins_iff (mem_codesOf hc).2.1 (by omega) (by rw [h.canon c hc]; exact Nat.dvd_mul_left _ _)

/-- Two codewords never begin the same bits: the code is prefix-free (41_table_builder R171). -/
theorem Canonical.prefixFree (h : Canonical lens) (hc : c ∈ codesOf lens) (hd : d ∈ codesOf lens)
    (h1 : x % 2 ^ c.len = c.code) (h2 : x % 2 ^ d.len = d.code) : c = d := by
  have h1 := (h.begins hc).1 h1
  have h2 := (h.begins hd).1 h2
  refine Classical.byContradiction fun hn => ?_
  have : c.start + 2 ^ (15 - c.len) ≤ d.start ∨ d.start + 2 ^ (15 - d.len) ≤ c.start := by
    have key : ∀ L : List Code, L.Pairwise (fun c d => c.start + 2 ^ (15 - c.len) ≤ d.start) → c ∈ L → d ∈ L →
        c.start + 2 ^ (15 - c.len) ≤ d.start ∨ d.start + 2 ^ (15 - d.len) ≤ c.start := by
      intro L
      induction L with
      | nil => intro _ h; cases h
      | cons e r ih =>
        intro hp hc hd
        obtain ⟨hp1, hp2⟩ := List.pairwise_cons.1 hp
        rcases List.mem_cons.1 hc with rfl | hc'
        · rcases List.mem_cons.1 hd with rfl | hd'
          · exact absurd rfl hn
          · exact .inl (hp1 d hd')
        · rcases List.mem_cons.1 hd with rfl | hd'
          · exact .inr (hp1 c hc')
          · exact ih hp2 hc' hd'
    exact key _ h.apart hc hd
  omega

/-- Beginning with a symbol's canonical codeword is beginning with the codeword assigned to it. -/
theorem Canonical.begins_symbol (h : Canonical lens) (hl : ∀ l ∈ lens, l ≤ 15) :
    Begins lens s x ↔ ∃ c ∈ codesOf lens, c.sym = s ∧ (lens[s]?).getD 0 = c.len ∧ x % 2 ^ c.len = c.code := by
  have code : ∀ c ∈ codesOf lens, c.code = revBits c.len (canonOf lens c.sym) := fun c hc => by
    rw [(h.code c hc).1, h.canon c hc]
    have := revBits_mul c.len (15 - c.len) (canonOf lens c.sym)
    rwa [show c.len + (15 - c.len) = 15 by have := (mem_codesOf hc).2.1; omega] at this
  constructor
  · rintro ⟨h0, h1⟩
    cases hx : lens[s]? with
    | none => rw [hx] at h0; simp at h0
    | some l =>
      rw [hx] at h0 h1
      simp only [Option.getD_some] at h0 h1 ⊢
      obtain ⟨c, hc, rfl, rfl⟩ := h.all s l hx h0 (hl l (List.mem_of_getElem? hx))
      exact ⟨c, hc, rfl, rfl, by rw [code c hc]; exact h1⟩
  · rintro ⟨c, hc, rfl, h2, h3⟩
    refine ⟨by have := (mem_codesOf hc).1; omega, ?_⟩
    rw [h2, h3, code c hc]

/-- The canonical values of an accepted code, read off the codewords BUILD assigns. -/
theorem Canonical.values (h : Canonical lens) (v : Nat → Nat)
    (hv : (codesOf lens).all (fun c => c.start == v c.sym * 2 ^ (15 - c.len)) = true) {l : Nat} (hs : lens[s]? = some l)
    (h1 : 1 ≤ l) (h2 : l ≤ 15) : canonOf lens s = v s := by
  obtain ⟨c, hc, rfl, rfl⟩ := h.all s l hs h1 h2
  have e := eq_of_beq (List.all_eq_true.1 hv c hc)
  rw [h.canon c hc] at e
  exact Nat.eq_of_mul_eq_mul_right (Nat.two_pow_pos _) e

end

end Sys2Proof.Machine
end

