-- ==== Sys2Proof/Laws/Front.lean ====
section
/-! SUPPORT. The scan of a gzip header's strings (42_wrapper R198, R199). -/

namespace Sys2Proof.Machine

/-- The scan stops after the first 0 byte. -/
theorem skipNul_some (s : State) (n : Nat) : ∀ p k, n < k → (∀ i, i < n → inByte s (p + i) ≠ 0) → inByte s (p + n) = 0 →
    skipNul s k p = some (p + n + 1) := by
  induction n with
  | zero =>
    intro p k hk _ h
    cases k with
    | zero => omega
    | succ k => simp only [skipNul]; rw [if_pos (by simpa [and_assoc] using h)]; try rfl
  | succ n ih =>
    intro p k hk h1 h2
    cases k with
    | zero => omega
    | succ k =>
      simp only [skipNul]
      rw [if_neg (by simpa using h1 0 (by omega)), ih (p + 1) k (by omega) (fun i hi => by have := h1 (i+1) (by omega); rwa [show p + 1 + i = p + (i+1) by omega])
        (by rwa [show p + 1 + n = p + (n+1) by omega])]
      congr 1; omega

/-- With no 0 byte in reach the scan fails. -/
theorem skipNul_none (s : State) : ∀ k p, (∀ i, i < k → inByte s (p + i) ≠ 0) → skipNul s k p = none := by
  intro k
  induction k with
  | zero => exact fun _ _ => rfl
  | succ k ih =>
    intro p h
    simp only [skipNul]
    rw [if_neg (by simpa using h 0 (by omega)), ih (p+1) fun i hi => by have := h (i+1) (by omega); rwa [show p + 1 + i = p + (i+1) by omega]]

end Sys2Proof.Machine
end

