-- ==== Sys2Proof/Laws/Invariant.lean ====
section
/-! SUPPORT. What the operations on DEFLATE data do to the properties of ReaderInv, one lemma per operation. -/

namespace Sys2Proof.Machine

variable {s t u v : State} {α β : Type}

/-- The part of ReaderInv that does not speak of the reader. -/
structure TablesInv (s : State) : Prop where
  cl : TableOk Config.kCL 18 false s.tab.cl
  ll : TableOk Config.kLL 13 true s.tab.ll
  d : TableOk Config.kD 13 false s.tab.d
  link : ∀ base w, s.ctl.look = .second base w → 2 ^ kOf s.ctl.alpha ≤ base.toNat ∧ w.toNat ≤ 15

/-- A run that decodes DEFLATE data, with ReaderInv. -/
structure Run (s : State) : Prop where
  inv : Inv s
  busy : s.regs.busy = true
  reader : ReaderOk s
  inside : s.rd.endOff.toNat ≤ inLen s
  counts : s.ctl.seq = .clread → CountsOk s.blk
  weak : TablesInv s

/-- What an operation leaves: Run when it goes on, TablesInv when it raises. -/
inductive ResOk : Res α → Prop where
  | ok {a : α} {u : State} (h : Run u) : ResOk (.ok a u)
  | raised {c : Cause} {u : State} (h : TablesInv u) : ResOk (.raised c u)

theorem ResOk.bind {r : Res α} {f : α → State → Res β} (h : ResOk r) (hf : ∀ a x, r = .ok a x → Run x → ResOk (f a x)) : ResOk (r.bind f) := by
  cases h with
  | ok h => exact hf _ _ rfl h
  | raised h => exact .raised h

theorem Inv.same (h : Inv s) (h1 : u.regs = s.regs) (h2 : u.launch = s.launch) (h3 : u.mem = s.mem) (h4 : u.outLen = s.outLen)
    (h5 : u.ctl.seq = .idle ↔ s.ctl.seq = .idle) (h6 : u.ctl.seq = .wrap → s.ctl.seq = .wrap ∧ u.fe = s.fe) : Inv u := by
  obtain ⟨a, b, c, d, e, f, g, w⟩ := h
  refine ⟨by rw [h3]; exact a, by rw [h1, b, Ne, Ne, h5], by rw [h1]; exact c, by rw [h1]; exact d, by rw [h1, h2]; exact e, by rw [h1]; exact f, by rw [h1, h4, outCap, h2]; exact g,
    fun x => (h6 x).2.trans (w (h6 x).1)⟩

theorem Run.notIdle (h : Run s) : s.ctl.seq ≠ .idle := (h.inv.busy).1 h.busy

theorem Run.setRd (h : Run s) {r : Reader} (hr : ReaderOk (s.setRd r)) (he : r.endOff = s.rd.endOff) : Run (s.setRd r) :=
  ⟨h.inv.same rfl rfl rfl rfl Iff.rfl fun x => ⟨x, rfl⟩, h.busy, hr, by show r.endOff.toNat ≤ _; rw [he]; exact h.inside,
    h.counts, ⟨h.weak.cl, h.weak.ll, h.weak.d, h.weak.link⟩⟩

theorem Run.setBlk (h : Run s) (b : BlockRegs) (hb : CountsOk s.blk → CountsOk b) : Run (s.setBlk b) :=
  ⟨h.inv.same rfl rfl rfl rfl Iff.rfl fun x => ⟨x, rfl⟩, h.busy, h.reader.congr rfl fun _ => rfl, h.inside,
    fun x => hb (h.counts x), ⟨h.weak.cl, h.weak.ll, h.weak.d, h.weak.link⟩⟩

theorem Run.setCtl (h : Run s) (c : Control) (hc : c.seq ≠ .idle) (hw : c.seq = .wrap → s.ctl.seq = .wrap)
    (hn : c.seq = .clread → CountsOk s.blk)
    (hl : ∀ base w, c.look = .second base w → 2 ^ kOf c.alpha ≤ base.toNat ∧ w.toNat ≤ 15) : Run (s.setCtl c) :=
  ⟨h.inv.same rfl rfl rfl rfl ⟨fun x => absurd x hc, fun x => absurd x h.notIdle⟩ fun x => ⟨hw x, rfl⟩, h.busy,
    h.reader.congr rfl fun _ => rfl, h.inside, hn, ⟨h.weak.cl, h.weak.ll, h.weak.d, hl⟩⟩

/-- Where the sequencer's state is the old one. -/
theorem Run.setCtl_same (h : Run s) (c : Control) (hc : c.seq = s.ctl.seq)
    (hl : ∀ base w, c.look = .second base w → 2 ^ kOf c.alpha ≤ base.toNat ∧ w.toNat ≤ 15) : Run (s.setCtl c) :=
  h.setCtl c (hc ▸ h.notIdle) (fun x => hc ▸ x) (fun x => h.counts (hc ▸ x)) hl

theorem Run.op_lookNext (h : Run s) (a : Alphabet) : Run (lookNext a s) := h.setCtl_same _ rfl nofun
theorem Run.op_lookSymbol (h : Run s) (a : Nat) : Run (lookSymbol a s) := h.setCtl_same _ rfl nofun
theorem Run.op_endBlock (h : Run s) : Run (endBlock s) :=
  h.setCtl _ (by dsimp only; split <;> exact nofun) (by dsimp only; split <;> exact nofun)
    (by dsimp only; split <;> exact nofun) h.weak.link
theorem Run.op_enterSyms (h : Run s) : Run (enterSyms s) :=
  Run.op_lookNext (h.setCtl { s.ctl with seq := .syms } (by exact nofun) (by exact nofun) (by exact nofun) h.weak.link) _
theorem Run.op_enterClread (h : Run s) (hn : CountsOk s.blk) : Run (enterClread s) :=
  Run.op_lookNext (h.setCtl { s.ctl with seq := .clread, n := 0 } (by exact nofun) (by exact nofun) (fun _ => hn) h.weak.link) _

theorem Run.op_fill (h : Run s) {n : Nat} (hn : n ≤ 16) : Run (fill n s) := by
  obtain ⟨r, e, -, he⟩ := fill_eq n s
  have := (fill_spec hn h.reader).1
  rw [e] at this ⊢
  exact h.setRd this he

theorem Run.op_shiftOut (h : Run s) (n : Nat) : Run (shiftOut n s) := h.setRd (shiftOut_ok n h.reader) rfl

theorem Run.op_drop (h : Run s) (n : Nat) : ResOk (drop n s) := by
  unfold Machine.drop; split
  · exact .raised (h.op_shiftOut n).weak
  · exact .ok (h.op_shiftOut n)

theorem Run.op_get (h : Run s) {n : Nat} (hn : n ≤ 16) : ResOk (get n s) := by
  unfold Machine.get; split
  · exact .ok h
  · exact ((h.op_fill hn).op_drop n).bind fun _ x _ hx => .ok hx

theorem Run.op_align (h : Run s) : Run (align s) := h.setRd (align_spec h.reader).1 rfl

theorem Run.op_readLeU16 (h : Run s) (ha : s.rd.avail.toNat = 0) : ResOk (readLeU16 s) ∧ ∀ a x, readLeU16 s = .ok a x → x.rd.avail.toNat = 0 := by
  have g : Run (s.setRd { s.rd with cur := s.rd.cur + 2 }) := by
    refine h.setRd ⟨?_, ?_, ?_⟩ rfl
    · show s.rd.avail.toNat ≤ 23; omega
    · have := h.reader.pulled; show 8 * s.rd.start.toNat + s.rd.avail.toNat ≤ 8 * (s.rd.cur + 2); omega
    · have := h.reader.bits
      rw [ha] at this
      show s.rd.acc.toNat = streamBits _ _ s.rd.avail.toNat
      rw [this, ha]; exact (show (0:Nat) = 0 from rfl)
  generalize hx : s.setRd { s.rd with cur := s.rd.cur + 2 } = x at g
  have hx2 : x.rd.avail.toNat = 0 := by rw [← hx]; exact ha
  have e : Machine.readLeU16 s = .raised .inputOverrun x ∨ ∃ a, Machine.readLeU16 s = .ok a x := by
    rw [readLeU16_spec, hx]
    split
    · exact .inl rfl
    · exact .inr ⟨_, rfl⟩
  rcases e with e | ⟨a, e⟩
  · rw [e]; exact ⟨.raised g.weak, fun a x e => absurd e (by simp)⟩
  · rw [e]
    refine ⟨.ok g, fun b y e => ?_⟩
    rw [← (Res.ok.inj e).2]; exact hx2

theorem Run.keep (h : Run s) (k : EngineKeeps s t) (hr : t.rd = s.rd) (hs : t.ctl = s.ctl) (ht : t.tab = s.tab)
    (hb : t.blk = s.blk) : Run t := by
  have hy : t.regs.busy = true := by rw [k.regs]; exact h.busy
  have hi : Inv t := by
    obtain ⟨a, b, c, d, e, f, g, w⟩ := h.inv
    refine ⟨k.memForm a, by rw [k.regs, hs]; exact b, by rw [k.regs]; exact c, by rw [k.regs]; exact d, by rw [k.regs, k.launch]; exact e, by rw [k.regs]; exact f, ?_, ?_⟩
    · rw [k.regs, outCap, k.launch]; exact fun x => k.fits (g x)
    · exact fun x => (k.front x).2.trans (w (k.front x).1)
  refine ⟨hi, hy, h.reader.congr hr (byteAt_kept h.inv h.busy k h.inside (by rw [hr])), by rw [hr, inLen, k.launch]; exact h.inside, by rw [hs, hb]; exact h.counts, ?_⟩
  refine ⟨by rw [ht]; exact h.weak.cl, by rw [ht]; exact h.weak.ll, by rw [ht]; exact h.weak.d, by rw [hs]; exact h.weak.link⟩

theorem Run.op_copy (h : Run s) (k d : Nat) (hk : s.outLen.toNat + k ≤ outCap s) : Run (copy k d s) := by
  obtain ⟨m, n, e⟩ := copy_eq k d s
  exact h.keep (copy_keeps k d hk).1 (by rw [e]; rfl) (by rw [e]; rfl) (by rw [e]; rfl) (by rw [e]; rfl)

theorem Run.op_putByte (h : Run s) (b : Byte) (hk : s.outLen.toNat < outCap s) : Run (putByte b s) :=
  h.keep (putByte_keeps b hk) rfl rfl rfl rfl

theorem Run.op_storedCopy (h : Run s) (k : Nat) (ha : s.rd.avail.toNat = 0) (hk : s.outLen.toNat + k ≤ outCap s) : Run (storedCopy k s) := by
  induction k generalizing s with
  | zero => exact h
  | succ k ih =>
    have g := h.op_putByte (inByte s s.rd.cur) (by omega)
    have g2 : Run (advanceCur (Machine.putByte (inByte s s.rd.cur) s)) := by
      refine g.setRd ⟨?_, ?_, ?_⟩ rfl
      · show s.rd.avail.toNat ≤ 23; omega
      · have := h.reader.pulled; show 8 * s.rd.start.toNat + s.rd.avail.toNat ≤ 8 * (s.rd.cur + 1); omega
      · have := h.reader.bits
        rw [ha] at this
        show s.rd.acc.toNat = streamBits _ _ s.rd.avail.toNat
        rw [this, ha]; exact (show (0:Nat) = 0 from rfl)
    exact ih g2 ha (by
      rw [show (advanceCur (Machine.putByte (inByte s s.rd.cur) s)).outLen = (Machine.putByte (inByte s s.rd.cur) s).outLen from rfl,
        putByte_outLen _ (by omega), show outCap (advanceCur (Machine.putByte (inByte s s.rd.cur) s)) = outCap s from rfl]
      omega)

theorem Run.op_matchLength (h : Run s) (b : Nat) {e : Nat} (he : e ≤ 16) : ResOk (matchLength b e s) :=
  (h.op_get he).bind fun v x _ hx => .ok <| Run.op_lookNext (hx.setCtl_same { x.ctl with length := b + v } rfl hx.weak.link) .dist

theorem Run.op_matchDistance (h : Run s) (b : Nat) {e : Nat} (he : e ≤ 16) : ResOk (matchDistance b e s) := by
  refine (h.op_get he).bind fun v x _ hx => ?_
  split
  · exact .raised hx.weak
  · split
    · exact .raised hx.weak
    · exact .ok <| (hx.op_copy _ _ (by omega)).op_lookNext _

theorem Run.op_takeHeader (h : Run s) (b : Bool) (k : BitVec 2) : ResOk (takeHeader b k s) :=
  (h.op_get (by omega)).bind fun _ x _ hx => ((hx.setBlk _ (by exact fun c => ⟨c.hlit, c.hdist, c.hclen⟩)).op_get (by omega)).bind fun _ y _ hy =>
    .ok (hy.setBlk _ (by exact fun c => ⟨c.hlit, c.hdist, c.hclen⟩))

theorem Run.op_storedBody (h : Run s) : ResOk (storedBody s) := by
  have g := h.op_align
  obtain ⟨g1, g2⟩ := g.op_readLeU16 (align_spec h.reader).2.2.2
  refine g1.bind fun len x e hx => ?_
  obtain ⟨g3, g4⟩ := hx.op_readLeU16 (g2 _ _ e)
  refine g3.bind fun nlen y e hy => ?_
  split
  · exact .raised hy.weak
  · split
    · exact .raised hy.weak
    · split
      · exact .raised hy.weak
      · exact .ok (hy.op_storedCopy len (g4 _ _ e) (by omega)).op_endBlock

theorem lensOf_length {n w : Nat} (v : Vector (BitVec w) n) : (lensOf v).length = n := by simp [lensOf]

theorem Run.op_buildLL (h : Run s) : ResOk (buildLL s) := by
  have ht : TableOk Config.kLL 13 true (build Config.kLL (lensOf s.blk.llLen) pvLL s.tab.ll).table :=
    tableOk_build (by decide) (fun i hi => pvLL_ok i (by rwa [lensOf_length] at hi)) h.weak.ll
  cases e : build Config.kLL (lensOf s.blk.llLen) pvLL s.tab.ll with
  | ok tl rc nf =>
    rw [e] at ht; rw [buildLL_ok e]
    exact .ok ⟨h.inv.same rfl rfl rfl rfl Iff.rfl fun x => ⟨x, rfl⟩, h.busy, h.reader.congr rfl fun _ => rfl, h.inside, h.counts, ⟨h.weak.cl, ht, h.weak.d, h.weak.link⟩⟩
  | fail c tl =>
    rw [e] at ht; rw [buildLL_fail e]
    exact .raised ⟨h.weak.cl, ht, h.weak.d, h.weak.link⟩

theorem Run.op_buildD (h : Run s) : ResOk (buildD s) := by
  have ht : TableOk Config.kD 13 false (build Config.kD (lensOf s.blk.dLen) pvD s.tab.d).table :=
    tableOk_build (by decide) (fun i hi => pvD_ok i (by rwa [lensOf_length] at hi)) h.weak.d
  cases e : build Config.kD (lensOf s.blk.dLen) pvD s.tab.d with
  | ok tl rc nf =>
    rw [e] at ht; rw [buildD_ok e]
    exact .ok ⟨h.inv.same rfl rfl rfl rfl Iff.rfl fun x => ⟨x, rfl⟩, h.busy, h.reader.congr rfl fun _ => rfl, h.inside, h.counts, ⟨h.weak.cl, h.weak.ll, ht, h.weak.link⟩⟩
  | fail c tl =>
    rw [e] at ht; rw [buildD_fail e]
    exact .raised ⟨h.weak.cl, h.weak.ll, ht, h.weak.link⟩

theorem Run.op_buildCL (h : Run s) : ResOk (buildCL s) := by
  have ht : TableOk Config.kCL 18 false (build Config.kCL (lensOf s.blk.clLen) pvCL s.tab.cl).table :=
    tableOk_build (by decide) (fun i hi => pvCL_ok i (by rwa [lensOf_length] at hi)) h.weak.cl
  cases e : build Config.kCL (lensOf s.blk.clLen) pvCL s.tab.cl with
  | ok tl rc nf =>
    rw [e] at ht; rw [buildCL_ok e]
    exact .ok ⟨h.inv.same rfl rfl rfl rfl Iff.rfl fun x => ⟨x, rfl⟩, h.busy, h.reader.congr rfl fun _ => rfl, h.inside, h.counts, ⟨ht, h.weak.ll, h.weak.d, h.weak.link⟩⟩
  | fail c tl =>
    rw [e] at ht; rw [buildCL_fail e]
    exact .raised ⟨ht, h.weak.ll, h.weak.d, h.weak.link⟩

theorem Run.op_buildBoth (h : Run s) : ResOk (buildBoth s) :=
  h.op_buildLL.bind fun _ _ _ hx => hx.op_buildD.bind fun _ _ _ hy => .ok hy.op_enterSyms

theorem get_lt {n a : Nat} (e : get n s = .ok a t) : a < 2 ^ n := by
  simp only [Machine.get] at e
  split at e
  · cases e; exact Nat.two_pow_pos n
  · cases hd : drop n (fill n s) with
    | ok _ y => rw [hd, Res.bind_ok] at e; cases e; exact Nat.mod_lt _ (Nat.two_pow_pos n)
    | raised c y => rw [hd, Res.bind_raised] at e; cases e

theorem Res.bind_eq_ok {r : Res α} {f : α → State → Res β} {b : β} (e : r.bind f = .ok b t) :
    ∃ a x, r = .ok a x ∧ f a x = .ok b t := by
  cases r with
  | ok a x => exact ⟨a, x, rfl, e⟩
  | raised c x => cases e

/-- GET changes the reader alone. -/
theorem get_blk {n a : Nat} (e : get n s = .ok a t) : t.blk = s.blk := by
  simp only [Machine.get] at e
  split at e
  · cases e; rfl
  · obtain ⟨_, x, hd, e⟩ := Res.bind_eq_ok e
    cases e
    unfold Machine.drop at hd
    obtain ⟨r, hr, -⟩ := fill_eq n s
    split at hd
    · cases hd
    · cases hd; rw [hr]; rfl

/-- The counts a header gives are legal (43_block_engine R232). -/
theorem dynamicCounts_legal {a : Unit} (e : dynamicCounts s = .ok a t) : CountsOk t.blk := by
  obtain ⟨a, x, e1, e⟩ := Res.bind_eq_ok e
  obtain ⟨b, y, e2, e⟩ := Res.bind_eq_ok e
  obtain ⟨c, z, e3, e⟩ := Res.bind_eq_ok e
  cases e
  have h1 := get_lt e1
  have h2 := get_lt e2
  have h3 := get_lt e3
  have b2 := get_blk e2
  have b3 := get_blk e3
  refine ⟨?_, ?_, ?_⟩
  · rw [State.setBlk_blk, b3, State.setBlk_blk, b2, State.setBlk_blk, BitVec.toNat_ofNat]; omega
  · rw [State.setBlk_blk, b3, State.setBlk_blk, BitVec.toNat_ofNat]; omega
  · rw [State.setBlk_blk, BitVec.toNat_ofNat]; omega

theorem readClLens_counts (l : List Nat) : ∀ {s : State} {a : Unit}, readClLens l s = .ok a t → CountsOk s.blk → CountsOk t.blk := by
  induction l with
  | nil => intro s a e h; cases e; exact h
  | cons i r ih =>
    intro s a e h
    obtain ⟨v, x, e1, e⟩ := Res.bind_eq_ok e
    have hb : x.blk = s.blk := get_blk e1
    exact ih e (by rw [State.setBlk_blk, hb]; exact ⟨h.hlit, h.hdist, h.hclen⟩)

theorem buildCL_blk {a : Unit} (e : buildCL s = .ok a t) : t.blk = s.blk := by
  cases hb : build Config.kCL (lensOf s.blk.clLen) pvCL s.tab.cl with
  | ok tc rc nf => rw [buildCL_ok hb] at e; cases e; rfl
  | fail c tc => rw [buildCL_fail hb] at e; cases e

theorem Run.op_dynamicCounts (h : Run s) : ResOk (dynamicCounts s) :=
  (h.op_get (by omega)).bind fun a _ ha hx =>
    ((hx.setBlk _ (by exact fun c => ⟨by have := get_lt ha; rw [BitVec.toNat_ofNat]; omega, c.hdist, c.hclen⟩)).op_get
      (by omega)).bind fun b _ hb hy =>
        ((hy.setBlk _ (by exact fun c => ⟨c.hlit, by have := get_lt hb; rw [BitVec.toNat_ofNat]; omega, c.hclen⟩)).op_get
          (by omega)).bind fun k _ hk hz =>
            .ok (hz.setBlk _ (by exact fun c => ⟨c.hlit, c.hdist, by have := get_lt hk; rw [BitVec.toNat_ofNat]; omega⟩))

theorem Run.op_dynamicBody (h : Run s) : ResOk (dynamicBody s) := by
  have h2 : ∀ (l : List Nat) {s : State}, Run s → ResOk (readClLens l s) := by
    intro l
    induction l with
    | nil => exact fun h => .ok h
    | cons i r ih => exact fun h => (h.op_get (by omega)).bind fun _ _ _ hx => ih (hx.setBlk _ (by exact fun c => ⟨c.hlit, c.hdist, c.hclen⟩))
  refine h.op_dynamicCounts.bind fun _ x ex hx => ?_
  refine (h2 _ (hx.setBlk _ (by exact fun c => ⟨c.hlit, c.hdist, c.hclen⟩))).bind fun _ y ey hy => ?_
  refine hy.op_buildCL.bind fun _ z ez hz => .ok (hz.op_enterClread ?_)
  have c := dynamicCounts_legal ex
  rw [buildCL_blk ez]
  exact readClLens_counts _ ey ⟨c.hlit, c.hdist, c.hclen⟩

theorem Run.op_storeLens (v : BitVec 4) (k : Nat) : ∀ {s : State}, Run s → Run (storeLens v k s) := by
  induction k with
  | zero => exact fun h => h
  | succ k ih => exact fun h => ih ((h.setBlk _ (by exact fun c => ⟨c.hlit, c.hdist, c.hclen⟩)).setCtl_same _ rfl h.weak.link)

theorem Run.op_clNext (h : Run s) : ResOk (clNext s) := by
  unfold Machine.clNext; split
  · exact .ok (h.op_lookNext _)
  · exact (h.setBlk _ (by exact fun c => ⟨c.hlit, c.hdist, c.hclen⟩)).op_buildBoth

theorem Run.op_clRun (h : Run s) (v : BitVec 4) (b : Nat) {n : Nat} (hn : n ≤ 16) : ResOk (clRun v b n s) := by
  refine (h.op_get hn).bind fun x y _ hy => ?_
  split
  · exact .raised hy.weak
  · exact (hy.op_storeLens v _).op_clNext

theorem classify_resOk (h : Run s) (p : BitVec 24) (b : Bool) (hp : s.ctl.alpha = .cl ∨ s.ctl.alpha = .ll ∧ b = true ∨ payloadExtra p ≤ 16) : ResOk (classify p b s) := by
  unfold classify
  split
  · split
    · exact .ok (h.op_lookSymbol _)
    · exact .raised h.weak
  · rename_i ha
    split
    · exact .ok (h.op_lookSymbol _)
    · rename_i hb
      split
      · exact .ok (h.op_lookSymbol _)
      · refine h.op_matchLength _ ?_
        rcases hp with hp | hp | hp
        · rw [ha] at hp; cases hp
        · exact absurd hp.2 hb
        · exact hp
  · rename_i ha
    split
    · exact .ok (h.op_lookSymbol _)
    · refine h.op_matchDistance _ ?_
      rcases hp with hp | hp | hp
      · rw [ha] at hp; cases hp
      · rw [ha] at hp; cases hp.1
      · exact hp

theorem terminal_resOk (h : Run s) (p : BitVec 24) (b : Bool) (n : BitVec 6) (hp : s.ctl.alpha = .cl ∨ s.ctl.alpha = .ll ∧ b = true ∨ payloadExtra p ≤ 16) : ResOk (terminal p b n s) := by
  refine (h.op_drop _).bind fun _ x e hx => classify_resOk hx p b ?_
  have : x.ctl = s.ctl := by
    unfold Machine.drop at e; split at e
    · cases e
    · cases e; rfl
  rw [this]; exact hp

end Sys2Proof.Machine
end

