-- ==== Sys2Proof/Laws/PerInstr.lean ====
section
/-! SUPPORT. Statements made per instruction: every encoding fits the width of its format. -/

/-- The encoding of i fits its format's width (30_encoding R91 to R120). -/
def Sys2Proof.Laws.EncodeFits.Statement (i : Sys2Proof.Instr) : Prop :=
  (Sys2Proof.encode i).2 < 2 ^ (Sys2Proof.encode i).1.width

namespace Sys2Proof.Laws.EncodeFits

open Sys2Proof

theorem of_check {i : Instr} (h : decide ((encode i).2 < 2 ^ (encode i).1.width) = true) : Statement i := by
  simpa [Statement] using h

theorem access_fits (k : Nat) (v : Word) (hk : k < 16) : writeWord k v.toNat < 2 ^ 41 := by
  have := v.isLt
  simp only [writeWord]
  omega

theorem entry_fits (p : BitVec 24) (l t : Bool) (n : BitVec 6) : entryWord p l t n < 2 ^ 32 := by
  have h1 := p.isLt
  have h2 := n.isLt
  have h3 := Bool.toNat_le l
  have h4 := Bool.toNat_le t
  simp only [entryWord]
  omega

theorem zlib_fits (c : BitVec 4) (f : Byte) : zlibWord c f < 2 ^ 16 := by
  have h1 := c.isLt
  have h2 := f.isLt
  simp only [zlibWord]
  omega

theorem blockStored (bfinal : Bool) : Statement (.blockStored bfinal) := by cases bfinal <;> exact of_check rfl
theorem blockFixed (bfinal : Bool) : Statement (.blockFixed bfinal) := by cases bfinal <;> exact of_check rfl
theorem blockDynamic (bfinal : Bool) : Statement (.blockDynamic bfinal) := by cases bfinal <;> exact of_check rfl
theorem blockReserved (bfinal : Bool) : Statement (.blockReserved bfinal) := by cases bfinal <;> exact of_check rfl
theorem clLiteral (len : BitVec 4) : Statement (.clLiteral len) := Nat.lt_of_lt_of_le len.isLt (show 2 ^ 4 ≤ 2 ^ 5 by decide)
theorem clRepeat : Statement (.clRepeat) := of_check rfl
theorem clZeros3 : Statement (.clZeros3) := of_check rfl
theorem clZeros11 : Statement (.clZeros11) := of_check rfl
theorem clUnknown (sym : BitVec 5) : Statement (.clUnknown sym) := sym.isLt
theorem lit (byte : Byte) : Statement (.lit byte) := Nat.lt_of_lt_of_le byte.isLt (show 2 ^ 8 ≤ 2 ^ 9 by decide)
theorem eob : Statement (.eob) := of_check rfl
theorem len257 : Statement (.len257) := of_check rfl
theorem len258 : Statement (.len258) := of_check rfl
theorem len259 : Statement (.len259) := of_check rfl
theorem len260 : Statement (.len260) := of_check rfl
theorem len261 : Statement (.len261) := of_check rfl
theorem len262 : Statement (.len262) := of_check rfl
theorem len263 : Statement (.len263) := of_check rfl
theorem len264 : Statement (.len264) := of_check rfl
theorem len265 : Statement (.len265) := of_check rfl
theorem len266 : Statement (.len266) := of_check rfl
theorem len267 : Statement (.len267) := of_check rfl
theorem len268 : Statement (.len268) := of_check rfl
theorem len269 : Statement (.len269) := of_check rfl
theorem len270 : Statement (.len270) := of_check rfl
theorem len271 : Statement (.len271) := of_check rfl
theorem len272 : Statement (.len272) := of_check rfl
theorem len273 : Statement (.len273) := of_check rfl
theorem len274 : Statement (.len274) := of_check rfl
theorem len275 : Statement (.len275) := of_check rfl
theorem len276 : Statement (.len276) := of_check rfl
theorem len277 : Statement (.len277) := of_check rfl
theorem len278 : Statement (.len278) := of_check rfl
theorem len279 : Statement (.len279) := of_check rfl
theorem len280 : Statement (.len280) := of_check rfl
theorem len281 : Statement (.len281) := of_check rfl
theorem len282 : Statement (.len282) := of_check rfl
theorem len283 : Statement (.len283) := of_check rfl
theorem len284 : Statement (.len284) := of_check rfl
theorem len285 : Statement (.len285) := of_check rfl
theorem badsym286 : Statement (.badsym286) := of_check rfl
theorem badsym287 : Statement (.badsym287) := of_check rfl
theorem dist0 : Statement (.dist0) := of_check rfl
theorem dist1 : Statement (.dist1) := of_check rfl
theorem dist2 : Statement (.dist2) := of_check rfl
theorem dist3 : Statement (.dist3) := of_check rfl
theorem dist4 : Statement (.dist4) := of_check rfl
theorem dist5 : Statement (.dist5) := of_check rfl
theorem dist6 : Statement (.dist6) := of_check rfl
theorem dist7 : Statement (.dist7) := of_check rfl
theorem dist8 : Statement (.dist8) := of_check rfl
theorem dist9 : Statement (.dist9) := of_check rfl
theorem dist10 : Statement (.dist10) := of_check rfl
theorem dist11 : Statement (.dist11) := of_check rfl
theorem dist12 : Statement (.dist12) := of_check rfl
theorem dist13 : Statement (.dist13) := of_check rfl
theorem dist14 : Statement (.dist14) := of_check rfl
theorem dist15 : Statement (.dist15) := of_check rfl
theorem dist16 : Statement (.dist16) := of_check rfl
theorem dist17 : Statement (.dist17) := of_check rfl
theorem dist18 : Statement (.dist18) := of_check rfl
theorem dist19 : Statement (.dist19) := of_check rfl
theorem dist20 : Statement (.dist20) := of_check rfl
theorem dist21 : Statement (.dist21) := of_check rfl
theorem dist22 : Statement (.dist22) := of_check rfl
theorem dist23 : Statement (.dist23) := of_check rfl
theorem dist24 : Statement (.dist24) := of_check rfl
theorem dist25 : Statement (.dist25) := of_check rfl
theorem dist26 : Statement (.dist26) := of_check rfl
theorem dist27 : Statement (.dist27) := of_check rfl
theorem dist28 : Statement (.dist28) := of_check rfl
theorem dist29 : Statement (.dist29) := of_check rfl
theorem baddist30 : Statement (.baddist30) := of_check rfl
theorem baddist31 : Statement (.baddist31) := of_check rfl
theorem entrySentinel : Statement (.entrySentinel) := of_check rfl
theorem entryLink (payload : BitVec 24) (t : Bool) (nbits : BitVec 6) : Statement (.entryLink payload t nbits) := entry_fits _ _ _ _
theorem entryLiteral (payload : BitVec 24) (nbits : BitVec 6) : Statement (.entryLiteral payload nbits) := entry_fits _ _ _ _
theorem entryValue (payload : BitVec 24) (nbits : BitVec 6) : Statement (.entryValue payload nbits) := entry_fits _ _ _ _
theorem zlibSniff (cinfo : BitVec 4) (flg : Byte) : Statement (.zlibSniff cinfo flg) := zlib_fits _ _
theorem zlibCinfoBad (cinfo : BitVec 4) (flg : Byte) : Statement (.zlibCinfoBad cinfo flg) := zlib_fits _ _
theorem zlibFcheckBad (cinfo : BitVec 4) (flg : Byte) : Statement (.zlibFcheckBad cinfo flg) := zlib_fits _ _
theorem zlibFdictBad (cinfo : BitVec 4) (flg : Byte) : Statement (.zlibFdictBad cinfo flg) := zlib_fits _ _
theorem gzFtext (flg : Byte) : Statement (.gzFtext flg) := flg.isLt
theorem gzFhcrc (flg : Byte) : Statement (.gzFhcrc flg) := flg.isLt
theorem gzFextra (flg : Byte) : Statement (.gzFextra flg) := flg.isLt
theorem gzFname (flg : Byte) : Statement (.gzFname flg) := flg.isLt
theorem gzFcomment (flg : Byte) : Statement (.gzFcomment flg) := flg.isLt
theorem gzFlagsReserved (flg : Byte) : Statement (.gzFlagsReserved flg) := flg.isLt
theorem wrapGzip : Statement (.wrapGzip) := of_check rfl
theorem wrapZlib : Statement (.wrapZlib) := of_check rfl
theorem wrapRaw : Statement (.wrapRaw) := of_check rfl
theorem start (irqEn : Bool) : Statement (.start irqEn) := by cases irqEn <;> exact of_check rfl
theorem setCtrl (irqEn : Bool) : Statement (.setCtrl irqEn) := by cases irqEn <;> exact of_check rfl
theorem clearDone : Statement (.clearDone) := of_check rfl
theorem statusNop : Statement (.statusNop) := of_check rfl
theorem writeInBase (v : Word) : Statement (.writeInBase v) := access_fits _ v (by decide)
theorem writeInLen (v : Word) : Statement (.writeInLen v) := access_fits _ v (by decide)
theorem writeOutBase (v : Word) : Statement (.writeOutBase v) := access_fits _ v (by decide)
theorem writeOutCap (v : Word) : Statement (.writeOutCap v) := access_fits _ v (by decide)
theorem writeIgnoredCause (v : Word) : Statement (.writeIgnoredCause v) := access_fits _ v (by decide)
theorem writeIgnoredOutLen (v : Word) : Statement (.writeIgnoredOutLen v) := access_fits _ v (by decide)
theorem writeIgnoredCheckCalc (v : Word) : Statement (.writeIgnoredCheckCalc v) := access_fits _ v (by decide)
theorem writeIgnoredCheckExp (v : Word) : Statement (.writeIgnoredCheckExp v) := access_fits _ v (by decide)
theorem writeIgnoredIsize (v : Word) : Statement (.writeIgnoredIsize v) := access_fits _ v (by decide)
theorem writeIgnoredInBitpos (v : Word) : Statement (.writeIgnoredInBitpos v) := access_fits _ v (by decide)
theorem writeIgnoredRsvd30 (v : Word) : Statement (.writeIgnoredRsvd30 v) := access_fits _ v (by decide)
theorem writeIgnoredRsvd34 (v : Word) : Statement (.writeIgnoredRsvd34 v) := access_fits _ v (by decide)
theorem writeIgnoredRsvd38 (v : Word) : Statement (.writeIgnoredRsvd38 v) := access_fits _ v (by decide)
theorem writeIgnoredRsvd3C (v : Word) : Statement (.writeIgnoredRsvd3C v) := access_fits _ v (by decide)
theorem readCtrl : Statement (.readCtrl) := of_check rfl
theorem readStatus : Statement (.readStatus) := of_check rfl
theorem readCause : Statement (.readCause) := of_check rfl
theorem readInBase : Statement (.readInBase) := of_check rfl
theorem readInLen : Statement (.readInLen) := of_check rfl
theorem readOutBase : Statement (.readOutBase) := of_check rfl
theorem readOutCap : Statement (.readOutCap) := of_check rfl
theorem readOutLen : Statement (.readOutLen) := of_check rfl
theorem readCheckCalc : Statement (.readCheckCalc) := of_check rfl
theorem readCheckExp : Statement (.readCheckExp) := of_check rfl
theorem readIsize : Statement (.readIsize) := of_check rfl
theorem readInBitpos : Statement (.readInBitpos) := of_check rfl
theorem readReserved (k : BitVec 2) : Statement (.readReserved k) := by have := k.isLt; show readWord (12 + k.toNat) < 2 ^ 41; simp only [readWord]; omega

end Sys2Proof.Laws.EncodeFits
end

