-- ==== Sys2Proof/Laws/Step.lean ====
section
/-! SUPPORT. What is decoded next and what a step of the engine can do: the row that is next, VERIFY, or nothing. -/

namespace Sys2Proof.Machine

variable {s t : State}

theorem mem_lengthRows_fmt : (lengthRows.all fun i => decide ((encode i).1 = Fmt.llSymbol)) = true := by decide
theorem mem_distRows_fmt : (distRows.all fun i => decide ((encode i).1 = Fmt.distSymbol)) = true := by decide

/-- A decoded row is a row of the format it was decoded in. -/
theorem decode_fmt {f : Fmt} {w : Nat} {i : Instr} (h : decode f w = .ok i) : (encode i).1 = f := by
  simp only [decode] at h
  split at h
  · cases h
  cases f with
  | blockHeader =>
    simp only [decodeBlockHeader, Except.ok.injEq] at h
    subst h
    split <;> rfl
  | clSymbol =>
    simp only [decodeClSymbol, Except.ok.injEq] at h
    subst h
    repeat' split
    all_goals rfl
  | llSymbol =>
    simp only [decodeLlSymbol] at h
    split at h
    · cases h; rfl
    · split at h
      · cases h; rfl
      · split at h
        · rename_i j hj
          cases h
          exact of_decide_eq_true (List.all_eq_true.1 mem_lengthRows_fmt _ (List.mem_of_getElem? hj))
        · cases h
  | distSymbol =>
    simp only [decodeDistSymbol] at h
    split at h
    · rename_i j hj
      cases h
      exact of_decide_eq_true (List.all_eq_true.1 mem_distRows_fmt _ (List.mem_of_getElem? hj))
    · cases h
  | tableEntry =>
    simp only [decodeTableEntry, Except.ok.injEq] at h
    subst h
    repeat' split
    all_goals rfl
  | zlibSniff =>
    simp only [decodeZlibSniff] at h
    split at h <;> cases h
    rfl
  | zlibVerdict =>
    simp only [decodeZlibVerdict] at h
    repeat' split at h
    all_goals cases h
    all_goals rfl
  | gzipFlg =>
    simp only [decodeGzipFlg] at h
    repeat' split at h
    all_goals cases h
    all_goals rfl
  | wrapper =>
    simp only [decodeWrapper, Except.ok.injEq] at h
    subst h
    repeat' split
    all_goals rfl
  | hostAccess =>
    simp only [decodeHostAccess] at h
    split at h
    · cases h
    · split at h
      · cases h
      · split at h
        · simp only [decodeWrite, Except.ok.injEq] at h
          subst h
          repeat' split
          all_goals rfl
        · simp only [decodeRead, Except.ok.injEq] at h
          subst h
          repeat' split
          all_goals rfl

/-- What is fetched is a row of the engine's, and fetching keeps what EngineKeeps says. -/
def FetchOk (s : State) : Fetched → Prop
  | .instr i t => EngineKeeps s t ∧ isAccess i = false ∧ s.ctl.seq ≠ .idle
  | .verify => s.ctl.seq = .verify
  | .nothing => True

theorem fetched_ok {f : Fmt} {w : Nat} (hf : f ≠ .hostAccess) (h : EngineKeeps s t) (hs : s.ctl.seq ≠ .idle) :
    FetchOk s (fetched (decode f w) t) := by
  cases hd : decode f w with
  | ok i => exact ⟨h, decide_eq_false (by rw [decode_fmt hd]; exact hf), hs⟩
  | error r => trivial

theorem symbolFmt_ne (a : Alphabet) : symbolFmt a ≠ .hostAccess := by cases a <;> exact nofun

theorem fetchLookup_ok (hs : s.ctl.seq ≠ .idle) : FetchOk s (fetchLookup s) := by
  simp only [fetchLookup]
  split
  · exact fetched_ok nofun (fill_keeps _ s) hs
  · exact fetched_ok nofun (fill_keeps _ s) hs
  · exact fetched_ok (symbolFmt_ne _) (.refl s) hs

theorem fetch_ok (s : State) : FetchOk s (fetch s) := by
  simp only [fetch]
  split
  · trivial
  · rename_i hs
    split <;> exact fetched_ok nofun (.refl s) (by rw [hs]; exact nofun)
  · rename_i hs
    exact fetched_ok nofun (fill_keeps _ s) (by rw [hs]; exact nofun)
  · rename_i hs
    exact fetchLookup_ok (by rw [hs]; exact nofun)
  · rename_i hs
    exact fetchLookup_ok (by rw [hs]; exact nofun)
  · rename_i hs
    exact hs

/-- VERIFY as a stop: its result, cause and checksum (45_checksums R295). -/
theorem verify_stop (s : State) : ∃ (r : Result) (c : Cause) (k : Word) (x : Sums),
    verify s = stop r c k (s.setSums x) ∧ (r = .ok ∧ c = .none ∨ r = .checksum ∧ c = .checksumMismatch) := by
  simp only [verify]
  split
  · split
    · exact ⟨_, _, _, _, rfl, .inl ⟨rfl, rfl⟩⟩
    · exact ⟨_, _, _, _, rfl, .inr ⟨rfl, rfl⟩⟩
  · split
    · exact ⟨_, _, _, _, rfl, .inl ⟨rfl, rfl⟩⟩
    · exact ⟨_, _, _, _, rfl, .inr ⟨rfl, rfl⟩⟩
  · exact ⟨.ok, .none, 0, s.sums, rfl, .inl ⟨rfl, rfl⟩⟩

/-- What a step of the engine can do. -/
theorem engineStep_cases (h : engineStep s = .next t) :
    t = s ∨ (s.ctl.seq ≠ .idle ∧ EngineMoves s t) ∨ (s.ctl.seq = .verify ∧ t = verify s) := by
  have hf := fetch_ok s
  simp only [engineStep] at h
  split at h
  · rename_i i u hi
    rw [hi] at hf
    obtain ⟨h1, h2, h3⟩ := hf
    refine .inr (.inl ⟨h3, ?_⟩)
    rcases exec_moves i h2 h with k | ⟨c, v, k, rfl⟩
    · exact .inl (h1.trans k)
    · exact .inr ⟨c, v, h1.trans k, rfl⟩
  · rename_i hi
    rw [hi] at hf
    exact .inr (.inr ⟨hf, (Host.Outcome.next.inj h).symm⟩)
  · exact .inl (Host.Outcome.next.inj h).symm

/-- Idle, the engine does nothing. -/
theorem engineStep_idle (h : s.ctl.seq = .idle) : engineStep s = .next s := by
  simp only [engineStep, fetch, h]

/-- The output bytes in flight at a reset get any values, and nothing else changes (93_implementation_defined U1). -/
theorem freeOutput_spec (k : Nat) : ∀ (j : Nat) (s : State), ∃ (m : List Host.Cell) (n : Nat),
    freeOutput k j s = (s.setMem m).setFree n ∧ (memWf s.mem = true → memWf m = true) ∧
    ∀ a, (∀ i, j ≤ i → i < j + k → a ≠ busAddr s.launch.outBase i) → memRead m a = memRead s.mem a := by
  induction k with
  | zero => exact fun j s => ⟨s.mem, s.free, rfl, id, fun _ _ => rfl⟩
  | succ k ih =>
    intro j s
    obtain ⟨m, n, h1, h2, h3⟩ := ih (j + 1)
      ((s.setMem (memWrite s.mem (busAddr s.launch.outBase j) (Config.resetByte s.free))).setFree (s.free + 1))
    refine ⟨m, n, by rw [freeOutput, h1]; rfl,
      fun h => h2 (memWfFrom_memWrite h (Nat.zero_le _) (busAddr_lt _ _)), fun a ha => ?_⟩
    rw [h3 a fun i hi hi' => ha i (by omega) (by omega)]
    exact memRead_memWrite_ne _ _ (ha j (Nat.le_refl _) (by omega))

end Sys2Proof.Machine
end

