-- ==== Sys2Proof/Laws/Symbols.lean ====
section
/-! SUPPORT. The rows of lengthSpec and distSpec run the shared length and distance operations. -/

namespace Sys2Proof.Machine

theorem lengthSpec_rows : ∀ p ∈ lengthSpec, ∃ k, p.2.2 ≤ 5 ∧ p.2.1 = lbase k ∧ p.2.2 = lextra k ∧ ∀ s, exec p.1 s = (lengthSymbol k s).finish := by
  intro p hp
  simp only [lengthSpec, List.mem_cons, List.not_mem_nil, or_false] at hp
  rcases hp with rfl | rfl | rfl | rfl | rfl | rfl | rfl | rfl | rfl | rfl | rfl | rfl | rfl | rfl | rfl | rfl | rfl | rfl | rfl | rfl | rfl | rfl | rfl | rfl | rfl | rfl | rfl | rfl | rfl
  · exact ⟨257, by decide, by decide, by decide, fun _ => rfl⟩
  · exact ⟨258, by decide, by decide, by decide, fun _ => rfl⟩
  · exact ⟨259, by decide, by decide, by decide, fun _ => rfl⟩
  · exact ⟨260, by decide, by decide, by decide, fun _ => rfl⟩
  · exact ⟨261, by decide, by decide, by decide, fun _ => rfl⟩
  · exact ⟨262, by decide, by decide, by decide, fun _ => rfl⟩
  · exact ⟨263, by decide, by decide, by decide, fun _ => rfl⟩
  · exact ⟨264, by decide, by decide, by decide, fun _ => rfl⟩
  · exact ⟨265, by decide, by decide, by decide, fun _ => rfl⟩
  · exact ⟨266, by decide, by decide, by decide, fun _ => rfl⟩
  · exact ⟨267, by decide, by decide, by decide, fun _ => rfl⟩
  · exact ⟨268, by decide, by decide, by decide, fun _ => rfl⟩
  · exact ⟨269, by decide, by decide, by decide, fun _ => rfl⟩
  · exact ⟨270, by decide, by decide, by decide, fun _ => rfl⟩
  · exact ⟨271, by decide, by decide, by decide, fun _ => rfl⟩
  · exact ⟨272, by decide, by decide, by decide, fun _ => rfl⟩
  · exact ⟨273, by decide, by decide, by decide, fun _ => rfl⟩
  · exact ⟨274, by decide, by decide, by decide, fun _ => rfl⟩
  · exact ⟨275, by decide, by decide, by decide, fun _ => rfl⟩
  · exact ⟨276, by decide, by decide, by decide, fun _ => rfl⟩
  · exact ⟨277, by decide, by decide, by decide, fun _ => rfl⟩
  · exact ⟨278, by decide, by decide, by decide, fun _ => rfl⟩
  · exact ⟨279, by decide, by decide, by decide, fun _ => rfl⟩
  · exact ⟨280, by decide, by decide, by decide, fun _ => rfl⟩
  · exact ⟨281, by decide, by decide, by decide, fun _ => rfl⟩
  · exact ⟨282, by decide, by decide, by decide, fun _ => rfl⟩
  · exact ⟨283, by decide, by decide, by decide, fun _ => rfl⟩
  · exact ⟨284, by decide, by decide, by decide, fun _ => rfl⟩
  · exact ⟨285, by decide, by decide, by decide, fun _ => rfl⟩

theorem distSpec_rows : ∀ p ∈ distSpec, ∃ k, p.2.2 ≤ 13 ∧ 1 ≤ p.2.1 ∧ p.2.1 = dbase k ∧ p.2.2 = dextra k ∧ ∀ s, exec p.1 s = (distSymbol k s).finish := by
  intro p hp
  simp only [distSpec, List.mem_cons, List.not_mem_nil, or_false] at hp
  rcases hp with rfl | rfl | rfl | rfl | rfl | rfl | rfl | rfl | rfl | rfl | rfl | rfl | rfl | rfl | rfl | rfl | rfl | rfl | rfl | rfl | rfl | rfl | rfl | rfl | rfl | rfl | rfl | rfl | rfl | rfl
  · exact ⟨0, by decide, by decide, by decide, by decide, fun _ => rfl⟩
  · exact ⟨1, by decide, by decide, by decide, by decide, fun _ => rfl⟩
  · exact ⟨2, by decide, by decide, by decide, by decide, fun _ => rfl⟩
  · exact ⟨3, by decide, by decide, by decide, by decide, fun _ => rfl⟩
  · exact ⟨4, by decide, by decide, by decide, by decide, fun _ => rfl⟩
  · exact ⟨5, by decide, by decide, by decide, by decide, fun _ => rfl⟩
  · exact ⟨6, by decide, by decide, by decide, by decide, fun _ => rfl⟩
  · exact ⟨7, by decide, by decide, by decide, by decide, fun _ => rfl⟩
  · exact ⟨8, by decide, by decide, by decide, by decide, fun _ => rfl⟩
  · exact ⟨9, by decide, by decide, by decide, by decide, fun _ => rfl⟩
  · exact ⟨10, by decide, by decide, by decide, by decide, fun _ => rfl⟩
  · exact ⟨11, by decide, by decide, by decide, by decide, fun _ => rfl⟩
  · exact ⟨12, by decide, by decide, by decide, by decide, fun _ => rfl⟩
  · exact ⟨13, by decide, by decide, by decide, by decide, fun _ => rfl⟩
  · exact ⟨14, by decide, by decide, by decide, by decide, fun _ => rfl⟩
  · exact ⟨15, by decide, by decide, by decide, by decide, fun _ => rfl⟩
  · exact ⟨16, by decide, by decide, by decide, by decide, fun _ => rfl⟩
  · exact ⟨17, by decide, by decide, by decide, by decide, fun _ => rfl⟩
  · exact ⟨18, by decide, by decide, by decide, by decide, fun _ => rfl⟩
  · exact ⟨19, by decide, by decide, by decide, by decide, fun _ => rfl⟩
  · exact ⟨20, by decide, by decide, by decide, by decide, fun _ => rfl⟩
  · exact ⟨21, by decide, by decide, by decide, by decide, fun _ => rfl⟩
  · exact ⟨22, by decide, by decide, by decide, by decide, fun _ => rfl⟩
  · exact ⟨23, by decide, by decide, by decide, by decide, fun _ => rfl⟩
  · exact ⟨24, by decide, by decide, by decide, by decide, fun _ => rfl⟩
  · exact ⟨25, by decide, by decide, by decide, by decide, fun _ => rfl⟩
  · exact ⟨26, by decide, by decide, by decide, by decide, fun _ => rfl⟩
  · exact ⟨27, by decide, by decide, by decide, by decide, fun _ => rfl⟩
  · exact ⟨28, by decide, by decide, by decide, by decide, fun _ => rfl⟩
  · exact ⟨29, by decide, by decide, by decide, by decide, fun _ => rfl⟩

end Sys2Proof.Machine
end

