-- ==== Sys2Proof/Laws/Walk.lean ====
section
/-! SUPPORT. What the walk of BUILD leaves in the table (41_table_builder R172 to R179): an invariant over the codewords walked
so far, kept by each of the three ways a codeword is entered, and what DECODE's lookup then finds. -/

namespace Sys2Proof.Machine

section fills
variable {cap : Nat} {t : Vector Entry cap} {e : Entry} {b r l w j x : Nat}

theorem entryAt_set (t : Vector Entry cap) (i : Nat) (e : Entry) (x : Nat) :
    entryAt (t.setIfInBounds i e) x = if i = x ∧ x < cap then e else entryAt t x := by
  by_cases hx : x < cap
  · simp [entryAt, hx, Vector.getElem_setIfInBounds]
  · simp [entryAt, hx]

theorem entryAt_fill_out (stride : Nat) : ∀ (n i : Nat) (t : Vector Entry cap), (∀ m, m < n → x ≠ i + m * stride) →
    entryAt (fillStride t i stride e n) x = entryAt t x := by
  intro n
  induction n with
  | zero => exact fun _ _ _ => rfl
  | succ n ih =>
    intro i t h
    rw [fillStride, ih _ _ fun m hm => by have := h (m + 1) (by omega); rw [Nat.succ_mul] at this; omega, entryAt_set,
      if_neg fun hh => h 0 (by omega) (by omega)]

theorem entryAt_fill_in (stride : Nat) : ∀ (n i : Nat) (t : Vector Entry cap) (m : Nat), m < n → i + m * stride < cap →
    entryAt (fillStride t i stride e n) (i + m * stride) = e := by
  intro n
  induction n with
  | zero => intro i t m h; omega
  | succ n ih =>
    intro i t m h hc
    by_cases hs : ∃ m', m' < n ∧ i + m * stride = i + stride + m' * stride
    · obtain ⟨m', h1, h2⟩ := hs
      rw [fillStride, h2, ih _ _ _ h1 (by omega)]
    · have h0 : m = 0 := by
        rcases m with _ | m
        · rfl
        · exact absurd ⟨m, by omega, by rw [Nat.succ_mul]; omega⟩ hs
      subst h0
      rw [fillStride, entryAt_fill_out _ _ _ _ fun m' h1 h2 => hs ⟨m', h1, h2⟩, entryAt_set, if_pos ⟨by omega, by omega⟩]

/-- A fill of every index of a region of 2^w from b on with residue r mod 2^l: inside. -/
theorem entryAt_region_in (hl : l ≤ w) (hb : b + 2 ^ w ≤ cap) (hj : j < 2 ^ w) (hr : j % 2 ^ l = r) :
    entryAt (fillStride t (b + r) (2 ^ l) e (2 ^ (w - l))) (b + j) = e := by
  have hd := Nat.div_add_mod j (2 ^ l)
  have hw : 2 ^ w = 2 ^ l * 2 ^ (w - l) := by rw [← Nat.pow_add]; congr 1; omega
  have hm : j / 2 ^ l < 2 ^ (w - l) := Nat.div_lt_of_lt_mul (by rw [← hw]; exact hj)
  rw [Nat.mul_comm] at hd
  have e1 : b + j = b + r + j / 2 ^ l * 2 ^ l := by omega
  rw [e1]
  exact entryAt_fill_in _ _ _ _ _ hm (by omega)

/-- The same fill: outside. -/
theorem entryAt_region_out (hl : l ≤ w) (hr : r < 2 ^ l) (h : ∀ j, j < 2 ^ w → j % 2 ^ l = r → x ≠ b + j) :
    entryAt (fillStride t (b + r) (2 ^ l) e (2 ^ (w - l))) x = entryAt t x := by
  refine entryAt_fill_out _ _ _ _ fun m hm => ?_
  have hw : 2 ^ w = 2 ^ l * 2 ^ (w - l) := by rw [← Nat.pow_add]; congr 1; omega
  have h1 : (m + 1) * 2 ^ l ≤ 2 ^ (w - l) * 2 ^ l := Nat.mul_le_mul_right _ hm
  rw [Nat.succ_mul, Nat.mul_comm (2 ^ (w - l)), ← hw] at h1
  have := h (r + m * 2 ^ l) (by omega) (by rw [Nat.add_mul_mod_self_right, Nat.mod_eq_of_lt hr])
  omega

end fills

/-! ## Links -/

theorem link_fields {base w : Nat} (hb : base < 65536) (hw : w ≤ 15) (h0 : 0 < base) :
    isLink (linkEntry base w) = true ∧ (entryPayload (linkEntry base w)).toNat = base ∧ entryNbits (linkEntry base w) = w := by
  have e := linkEntry_toNat hb (show w < 16 by omega)
  refine ⟨?_, ?_, ?_⟩
  · simp only [isLink, Bool.and_eq_true, bne_iff_ne, ne_eq, entryL]
    refine ⟨fun h => ?_, ?_⟩
    · have := congrArg BitVec.toNat h
      rw [e] at this
      simp only [sentinel] at this
      simp at this
      omega
    · rw [BitVec.getLsbD, Nat.testBit_eq_decide_div_mod_eq, e]
      simp only [decide_eq_true_eq]
      omega
  · simp only [entryPayload, BitVec.extractLsb'_toNat, e, Nat.shiftRight_eq_div_pow]
    omega
  · simp only [entryNbits, BitVec.extractLsb'_toNat, e, Nat.shiftRight_eq_div_pow]
    omega

/-- A subtable is wide enough for every codeword with its prefix. -/
theorem le_subWidth {k : Nat} {all : List Code} {c : Code} (hc : c ∈ all) (hk : k < c.len) :
    c.len - k ≤ subWidth k all (c.code % 2 ^ k) := by
  have := (foldl_max_ge ((all.filter fun d => decide (k < d.len) && decide (d.code % 2 ^ k = c.code % 2 ^ k)).map Code.len) 0).2
    c.len (List.mem_map.2 ⟨c, List.mem_filter.2 ⟨hc, by simp [hk]⟩, rfl⟩)
  unfold subWidth
  omega

/-! ## The walk -/

/-- The packed values of an alphabet carry no link flag and leave nbits free. -/
def PvExact (pv : Nat → Entry) : Prop :=
  ∀ s n, n ≤ 15 → isLink (terminalEntry (pv s) n) = false ∧ entryNbits (terminalEntry (pv s) n) = n

/-- A prefix-free set of codewords of at most 15 bits. -/
structure PrefixFree (all : List Code) : Prop where
  one : ∀ c ∈ all, ∀ d ∈ all, ∀ x, x % 2 ^ c.len = c.code → x % 2 ^ d.len = d.code → c = d
  code : ∀ c ∈ all, c.code < 2 ^ c.len
  len : ∀ c ∈ all, c.len ≤ 15

/-- The table once the codewords done are entered: links at the prefixes L, their subtables from base on, one after the other up
to nf. -/
structure Walked {cap : Nat} (k : Nat) (all : List Code) (pv : Nat → Entry) (done : Code → Prop) (L : Nat → Prop)
    (base : Nat → Nat) (t : Vector Entry cap) (nf : Nat) : Prop where
  room : 2 ^ k ≤ nf ∧ nf ≤ cap
  owner : ∀ p, L p → ∃ d ∈ all, k < d.len ∧ d.code % 2 ^ k = p
  link : ∀ p, L p → entryAt t p = linkEntry (base p) (subWidth k all p) ∧ 2 ^ k ≤ base p ∧
    base p + 2 ^ subWidth k all p ≤ nf
  apart : ∀ p q, L p → L q → p ≠ q →
    base p + 2 ^ subWidth k all p ≤ base q ∨ base q + 2 ^ subWidth k all q ≤ base p
  plain : ∀ p, p < 2 ^ k → ¬ L p → isLink (entryAt t p) = false
  short : ∀ c, done c → c ∈ all ∧ (c.len ≤ k → ∀ i, i < 2 ^ k → i % 2 ^ c.len = c.code →
    entryAt t i = terminalEntry (pv c.sym) c.len)
  long : ∀ c, done c → k < c.len → L (c.code % 2 ^ k) ∧
    ∀ j, j < 2 ^ subWidth k all (c.code % 2 ^ k) → j % 2 ^ (c.len - k) = c.code / 2 ^ k →
      entryAt t (base (c.code % 2 ^ k) + j) = terminalEntry (pv c.sym) (c.len - k)

section walk
variable {cap k : Nat} {all : List Code} {pv : Nat → Entry} {done : Code → Prop} {L : Nat → Prop} {base : Nat → Nat}
  {t : Vector Entry cap} {nf : Nat} {c : Code}

/-- A codeword whose prefix begins with a short one is that one. -/
theorem PrefixFree.prefix (h : PrefixFree all) {c d : Code} (hc : c ∈ all) (hd : d ∈ all) (h1 : d.len ≤ k) (h2 : k < c.len)
    (h3 : c.code % 2 ^ k % 2 ^ d.len = d.code) : False := by
  rw [Nat.mod_mod_of_dvd _ (Nat.pow_dvd_pow 2 h1)] at h3
  have := h.one c hc d hd c.code (Nat.mod_eq_of_lt (h.code c hc)) h3
  subst this
  omega

/-- R172: a codeword of at most k bits. -/
theorem Walked.addShort (hp : PrefixFree all) (hpv : PvExact pv) (h : Walked k all pv done L base t nf) (hc : c ∈ all) (hk : c.len ≤ k) :
    Walked k all pv (fun d => d = c ∨ done d) L base
      (fillStride t c.code (2 ^ c.len) (terminalEntry (pv c.sym) c.len) (2 ^ (k - c.len))) nf := by
  obtain ⟨r1, r2⟩ := h.room
  have hin : ∀ i, i < 2 ^ k → i % 2 ^ c.len = c.code →
      entryAt (fillStride t c.code (2 ^ c.len) (terminalEntry (pv c.sym) c.len) (2 ^ (k - c.len))) i = terminalEntry (pv c.sym) c.len := by
    intro i hi hr
    have := entryAt_region_in (t := t) (e := terminalEntry (pv c.sym) c.len) (b := 0) hk (by omega : 0 + 2 ^ k ≤ cap) hi hr
    simpa only [Nat.zero_add] using this
  have hout : ∀ i, (i < 2 ^ k → i % 2 ^ c.len ≠ c.code) →
      entryAt (fillStride t c.code (2 ^ c.len) (terminalEntry (pv c.sym) c.len) (2 ^ (k - c.len))) i = entryAt t i := by
    intro i hi
    have := entryAt_region_out (t := t) (e := terminalEntry (pv c.sym) c.len) (b := 0) (x := i) hk (hp.code c hc)
      fun j hj hr he => hi (by omega) (by rw [he, Nat.zero_add]; exact hr)
    simpa only [Nat.zero_add] using this
  refine ⟨h.room, h.owner, fun p hL => ?_, h.apart, fun p hp1 hL => ?_, fun d hd => ?_, fun d hd hkd => ?_⟩
  · obtain ⟨l1, l2, l3⟩ := h.link p hL
    obtain ⟨d, hd, d1, d2⟩ := h.owner p hL
    refine ⟨?_, l2, l3⟩
    rw [hout p fun _ hr => hp.prefix hd hc hk d1 (by rw [d2]; exact hr), l1]
  · by_cases hr : p % 2 ^ c.len = c.code
    · rw [hin p hp1 hr]; exact (hpv _ _ (hp.len c hc)).1
    · rw [hout p fun _ => hr]; exact h.plain p hp1 hL
  · rcases hd with rfl | hd
    · exact ⟨hc, fun _ => hin⟩
    · obtain ⟨m, hs⟩ := h.short d hd
      refine ⟨m, fun hdk i hi hr => ?_⟩
      by_cases hr' : i % 2 ^ c.len = c.code
      · rw [hin i hi hr', hp.one d m c hc i hr hr']
      · rw [hout i fun _ => hr']; exact hs hdk i hi hr
  · rcases hd with rfl | hd
    · omega
    · obtain ⟨l1, l2⟩ := h.long d hd hkd
      refine ⟨l1, fun j hj hr => ?_⟩
      rw [hout _ fun hh => by have := (h.link _ l1).2.1; omega]
      exact l2 j hj hr

/-- R173, R174: a link to a new subtable, all sentinels. -/
theorem Walked.open (hp : PrefixFree all) (h : Walked k all pv done L base t nf) (hc : c ∈ all) (hk : k < c.len)
    (hL : ¬ L (c.code % 2 ^ k)) (hcap : nf + 2 ^ subWidth k all (c.code % 2 ^ k) ≤ cap) :
    Walked k all pv done (fun p => p = c.code % 2 ^ k ∨ L p) (fun p => if p = c.code % 2 ^ k then nf else base p)
      (fillStride (t.setIfInBounds (c.code % 2 ^ k) (linkEntry nf (subWidth k all (c.code % 2 ^ k)))) nf 1 sentinel
        (2 ^ subWidth k all (c.code % 2 ^ k))) (nf + 2 ^ subWidth k all (c.code % 2 ^ k)) := by
  obtain ⟨r1, r2⟩ := h.room
  have hpk : c.code % 2 ^ k < 2 ^ k := Nat.mod_lt _ (Nat.two_pow_pos k)
  generalize hpp : c.code % 2 ^ k = p0 at *
  generalize hww : subWidth k all p0 = w at *
  have hpos := Nat.two_pow_pos w
  have hout : ∀ i, i ≠ p0 → i < nf →
      entryAt (fillStride (t.setIfInBounds p0 (linkEntry nf w)) nf 1 sentinel (2 ^ w)) i = entryAt t i := fun i h1 h2 => by
    rw [entryAt_fill_out _ _ _ _ fun m _ => by omega, entryAt_set, if_neg fun hh => h1 hh.1.symm]
  have hat : entryAt (fillStride (t.setIfInBounds p0 (linkEntry nf w)) nf 1 sentinel (2 ^ w)) p0 = linkEntry nf w := by
    rw [entryAt_fill_out _ _ _ _ fun m _ => by omega, entryAt_set, if_pos ⟨rfl, by omega⟩]
  have ltk : ∀ p, L p → p < 2 ^ k := fun p hl => by
    obtain ⟨d, -, -, rfl⟩ := h.owner p hl
    exact Nat.mod_lt _ (Nat.two_pow_pos k)
  refine ⟨⟨by omega, hcap⟩, fun p hl => ?_, fun p hl => ?_, fun p q hl hq hpq => ?_, fun p hp1 hl => ?_, fun d hd => ?_,
    fun d hd hkd => ?_⟩
  · rcases hl with rfl | hl
    · exact ⟨c, hc, hk, hpp⟩
    · exact h.owner p hl
  · by_cases hpe : p = p0
    · subst hpe
      simp only [if_true]
      rw [hww]
      exact ⟨hat, r1, Nat.le_refl _⟩
    · obtain hl := hl.resolve_left hpe
      obtain ⟨l1, l2, l3⟩ := h.link p hl
      simp only [hpe, if_false]
      exact ⟨by rw [hout p hpe (by have := ltk p hl; omega), l1], l2, by omega⟩
  · have cross : ∀ q, L q → base q + 2 ^ subWidth k all q ≤ nf := fun q hq => (h.link q hq).2.2
    by_cases hpe : p = p0 <;> by_cases hqe : q = p0
    · omega
    · subst hpe
      simp only [hqe, if_false, if_true]
      exact .inr (cross q (hq.resolve_left hqe))
    · subst hqe
      simp only [hpe, if_false, if_true]
      exact .inl (cross p (hl.resolve_left hpe))
    · simp only [hpe, hqe, if_false]
      exact h.apart p q (hl.resolve_left hpe) (hq.resolve_left hqe) hpq
  · rw [hout p (fun e => hl (.inl e)) (by omega)]
    exact h.plain p hp1 fun hh => hl (.inr hh)
  · obtain ⟨m, hs⟩ := h.short d hd
    refine ⟨m, fun hdk i hi hr => ?_⟩
    rw [hout i (fun e => hp.prefix hc m hdk hk (by rw [hpp, ← e]; exact hr)) (by omega)]
    exact hs hdk i hi hr
  · obtain ⟨l1, l2⟩ := h.long d hd hkd
    obtain ⟨-, m1, m2⟩ := h.link _ l1
    have hne : d.code % 2 ^ k ≠ p0 := fun e => hL (e ▸ l1)
    refine ⟨.inr l1, fun j hj hr => ?_⟩
    simp only [hne, if_false]
    rw [hout _ (by omega) (by omega)]
    exact l2 j hj hr

/-- R176: a codeword of more than k bits, its subtable open. -/
theorem Walked.addLong (hp : PrefixFree all) (h : Walked k all pv done L base t nf) (hcap : cap < 65536)
    (hc : c ∈ all) (hk : k < c.len) (hL : L (c.code % 2 ^ k)) :
    Walked k all pv (fun d => d = c ∨ done d) L base (fillSub k c (pv c.sym) t) nf := by
  obtain ⟨r1, r2⟩ := h.room
  obtain ⟨l1, l2, l3⟩ := h.link _ hL
  have hsw := le_subWidth hc hk
  have h15 := subWidth_le (k := k) hp.len (c.code % 2 ^ k)
  have hpk : c.code % 2 ^ k < 2 ^ k := Nat.mod_lt _ (Nat.two_pow_pos k)
  have hpos := Nat.two_pow_pos (subWidth k all (c.code % 2 ^ k))
  have hkp := Nat.two_pow_pos k
  obtain ⟨f1, f2, f3⟩ := link_fields (base := base (c.code % 2 ^ k)) (by omega) h15 (by omega)
  have hq : c.code / 2 ^ k < 2 ^ (c.len - k) := Nat.div_lt_of_lt_mul (by
    rw [← Nat.pow_add, show k + (c.len - k) = c.len by omega]; exact hp.code c hc)
  have e : fillSub k c (pv c.sym) t = fillStride t (base (c.code % 2 ^ k) + c.code / 2 ^ k) (2 ^ (c.len - k))
      (terminalEntry (pv c.sym) (c.len - k)) (2 ^ (subWidth k all (c.code % 2 ^ k) - (c.len - k))) := by
    simp only [fillSub, l1, f2, f3]
  have hin : ∀ j, j < 2 ^ subWidth k all (c.code % 2 ^ k) → j % 2 ^ (c.len - k) = c.code / 2 ^ k →
      entryAt (fillSub k c (pv c.sym) t) (base (c.code % 2 ^ k) + j) = terminalEntry (pv c.sym) (c.len - k) := fun j hj hr => by
    rw [e]; exact entryAt_region_in hsw (by omega) hj hr
  have hout : ∀ x, (∀ j, j < 2 ^ subWidth k all (c.code % 2 ^ k) → j % 2 ^ (c.len - k) = c.code / 2 ^ k →
      x ≠ base (c.code % 2 ^ k) + j) → entryAt (fillSub k c (pv c.sym) t) x = entryAt t x := fun x hx => by
    rw [e]; exact entryAt_region_out hsw hq hx
  have hprim : ∀ x, x < 2 ^ k → entryAt (fillSub k c (pv c.sym) t) x = entryAt t x := fun x hx =>
    hout x fun j _ _ => by omega
  have ltk : ∀ p, L p → p < 2 ^ k := fun p hl => by
    obtain ⟨d, -, -, rfl⟩ := h.owner p hl
    exact Nat.mod_lt _ (Nat.two_pow_pos k)
  refine ⟨h.room, h.owner, fun p hl => ?_, h.apart, fun p hp1 hl => ?_, fun d hd => ?_, fun d hd hkd => ?_⟩
  · rw [hprim p (ltk p hl)]; exact h.link p hl
  · rw [hprim p hp1]; exact h.plain p hp1 hl
  · rcases hd with rfl | hd
    · exact ⟨hc, fun hh => by omega⟩
    · obtain ⟨m, hs⟩ := h.short d hd
      exact ⟨m, fun hdk i hi hr => by rw [hprim i hi]; exact hs hdk i hi hr⟩
  · rcases hd with rfl | hd
    · exact ⟨hL, hin⟩
    · obtain ⟨m, -⟩ := h.short d hd
      obtain ⟨a1, a2⟩ := h.long d hd hkd
      refine ⟨a1, fun j hj hr => ?_⟩
      by_cases hpe : d.code % 2 ^ k = c.code % 2 ^ k
      · by_cases hr' : j % 2 ^ (c.len - k) = c.code / 2 ^ k
        · -- both codewords begin the bits with prefix p and then j
          have key : ∀ b : Code, k < b.len → b.code % 2 ^ k = c.code % 2 ^ k → j % 2 ^ (b.len - k) = b.code / 2 ^ k →
              (c.code % 2 ^ k + 2 ^ k * j) % 2 ^ b.len = b.code := fun b hb h1 h2 => by
            have hb' : b.len = k + (b.len - k) := by omega
            rw [hb', Nat.pow_add, Nat.mod_mul, Nat.add_mul_mod_self_left, Nat.mod_mod, Nat.add_mul_div_left _ _ hkp,
              Nat.div_eq_of_lt hpk, Nat.zero_add, h2, ← h1]
            exact Nat.mod_add_div _ _
          have := hp.one d m c hc _ (key d hkd hpe hr) (key c hk rfl hr')
          subst this
          exact hin j hj hr
        · rw [hout _ fun j' _ hr2 he => hr' (by rw [hpe] at he; rw [show j = j' by omega]; exact hr2)]
          exact a2 j hj hr
      · rw [hout _ fun j' hj' _ he => by have := h.apart _ _ a1 hL hpe; omega]
        exact a2 j hj hr

/-- The walk keeps it. -/
theorem Walked.walk (hp : PrefixFree all) (hpv : PvExact pv) (hcap : cap < 65536) : ∀ (l : List Code) {done : Code → Prop}
    {L : Nat → Prop} {base : Nat → Nat} {t u : Vector Entry cap} {rc nf rc' nf' : Nat}, (∀ c ∈ l, c ∈ all) →
    Walked k all pv done L base t nf → Machine.walk k all pv l t rc nf = .ok u rc' nf' →
    ∃ L base, Walked k all pv (fun d => d ∈ l ∨ done d) L base u nf' := by
  intro l
  induction l with
  | nil =>
    intro done L base t u rc nf rc' nf' _ h hw
    cases hw
    exact ⟨L, base, by simpa using h⟩
  | cons c r ih =>
    intro done L base t u rc nf rc' nf' hall h hw
    have hc := hall c (List.mem_cons_self ..)
    have wrap : ∀ {L' base'}, Walked k all pv (fun d => d ∈ r ∨ d = c ∨ done d) L' base' u nf' →
        ∃ L base, Walked k all pv (fun d => d ∈ c :: r ∨ done d) L base u nf' := fun {L' base'} hh => by
      refine ⟨L', base', ?_⟩
      have : (fun d => d ∈ c :: r ∨ done d) = fun d => d ∈ r ∨ d = c ∨ done d := by
        funext d
        simp only [List.mem_cons, eq_iff_iff]
        constructor
        · rintro ((h | h) | h)
          · exact .inr (.inl h)
          · exact .inl h
          · exact .inr (.inr h)
        · rintro (h | h | h)
          · exact .inl (.inr h)
          · exact .inl (.inl h)
          · exact .inr h
      rw [this]; exact hh
    rw [Machine.walk] at hw
    split at hw
    · rename_i hk
      obtain ⟨L', b', hh⟩ := ih (fun d hd => hall d (List.mem_cons_of_mem _ hd)) (h.addShort hp hpv hc hk) hw
      exact wrap hh
    · rename_i hk
      have hk : k < c.len := by omega
      have hpk : c.code % 2 ^ k < 2 ^ k := Nat.mod_lt _ (Nat.two_pow_pos k)
      by_cases hL : L (c.code % 2 ^ k)
      · obtain ⟨l1, l2, l3⟩ := h.link _ hL
        have h15 := subWidth_le (k := k) hp.len (c.code % 2 ^ k)
        have hpos := Nat.two_pow_pos (subWidth k all (c.code % 2 ^ k))
        have := h.room.2
        obtain ⟨f1, -, -⟩ := link_fields (base := base (c.code % 2 ^ k)) (by omega) h15 (by omega)
        rw [if_pos (by rw [l1]; exact f1)] at hw
        obtain ⟨L', b', hh⟩ := ih (fun d hd => hall d (List.mem_cons_of_mem _ hd)) (h.addLong hp hcap hc hk hL) hw
        exact wrap hh
      · rw [if_neg (by rw [h.plain _ hpk hL]; decide)] at hw
        simp only at hw
        split at hw
        · cases hw
        · rename_i hn
          have h1 := h.open hp hc hk hL (by omega)
          obtain ⟨L', b', hh⟩ := ih (fun d hd => hall d (List.mem_cons_of_mem _ hd)) (h1.addLong hp hcap hc hk (.inl rfl)) hw
          exact wrap hh

/-- What the lookup finds for stream bits that begin with a codeword entered. -/
theorem Walked.lookup (hp : PrefixFree all) (hpv : PvExact pv) (hcap : cap < 65536) (h : Walked k all pv done L base t nf)
    (hd : done c) {x : Nat} (hx : x % 2 ^ c.len = c.code) :
    Machine.lookup k t x =
      (terminalEntry (pv c.sym) (if c.len ≤ k then c.len else c.len - k), c.len) := by
  obtain ⟨hc, hs⟩ := h.short c hd
  have hxk : x % 2 ^ k < 2 ^ k := Nat.mod_lt _ (Nat.two_pow_pos k)
  by_cases hk : c.len ≤ k
  · have e := hs hk (x % 2 ^ k) hxk (by rw [Nat.mod_mod_of_dvd _ (Nat.pow_dvd_pow 2 hk)]; exact hx)
    obtain ⟨v1, v2⟩ := hpv c.sym c.len (hp.len c hc)
    simp only [Machine.lookup, e, v1, v2, if_pos hk]
    rfl
  · obtain ⟨a1, a2⟩ := h.long c hd (by omega)
    obtain ⟨l1, l2, l3⟩ := h.link _ a1
    have h15 := subWidth_le (k := k) hp.len (c.code % 2 ^ k)
    have hsw := le_subWidth hc (show k < c.len by omega)
    have hpos := Nat.two_pow_pos (subWidth k all (c.code % 2 ^ k))
    have hkp := Nat.two_pow_pos k
    have := h.room.2
    obtain ⟨f1, f2, f3⟩ := link_fields (base := base (c.code % 2 ^ k)) (by omega) h15 (by omega)
    have hpx : x % 2 ^ k = c.code % 2 ^ k := by rw [← hx, Nat.mod_mod_of_dvd _ (Nat.pow_dvd_pow 2 (by omega))]
    have hj : x / 2 ^ k % 2 ^ (c.len - k) = c.code / 2 ^ k := by
      rw [← hx, show 2 ^ c.len = 2 ^ k * 2 ^ (c.len - k) by rw [← Nat.pow_add]; congr 1; omega, Nat.mod_mul_right_div_self]
    have e := a2 (x / 2 ^ k % 2 ^ subWidth k all (c.code % 2 ^ k)) (Nat.mod_lt _ hpos)
      (by rw [Nat.mod_mod_of_dvd _ (Nat.pow_dvd_pow 2 hsw)]; exact hj)
    obtain ⟨v1, v2⟩ := hpv c.sym (c.len - k) (by have := hp.len c hc; omega)
    simp only [Machine.lookup, hpx, l1, f1, f2, f3, e, v2, if_neg hk, if_true]
    rw [show k + (c.len - k) = c.len by omega]

end walk

/-! ## BUILD -/

/-- An accepted code of two or more symbols assigns a prefix-free set of codewords (41_table_builder R171). -/
theorem Canonical.codes {lens : List Nat} (h : Canonical lens) : PrefixFree (codesOf lens) where
  one _ hc _ hd _ h1 h2 := h.prefixFree hc hd h1 h2
  code c hc := by
    have h15 := (mem_codesOf hc).2.1
    rw [(h.code c hc).1, h.canon c hc]
    have := revBits_mul c.len (15 - c.len) (canonOf lens c.sym)
    rw [show c.len + (15 - c.len) = 15 by omega] at this
    rw [this]
    exact revBits_lt _ _
  len _ hc := (mem_codesOf hc).2.1

/-- What BUILD leaves for an accepted code of two or more symbols: every codeword entered (41_table_builder R172 to R177). -/
theorem walked_build {cap k : Nat} {pv : Nat → Entry} {lens : List Nat} {t u : Vector Entry cap} {rc nf : Nat}
    (hpv : PvExact pv) (hcap : cap < 65536) (hk : 2 ^ k ≤ cap) (h : Canonical lens) (hs : isSingle lens = false)
    (hb : build k lens pv t = .ok u rc nf) :
    ∃ L base, Walked k (codesOf lens) pv (· ∈ codesOf lens) L base u nf := by
  simp only [build] at hb
  split at hb
  · cases hb
  · rw [if_neg (by simp [hs])] at hb
    have h0 : Walked k (codesOf lens) pv (fun _ => False) (fun _ => False) (fun _ => 0) (fillStride t 0 1 sentinel (2 ^ k)) (2 ^ k) := by
      refine ⟨⟨Nat.le_refl _, hk⟩, nofun, nofun, nofun, fun p hp _ => ?_, nofun, nofun⟩
      have := entryAt_region_in (t := t) (e := sentinel) (b := 0) (r := 0) (l := 0) (Nat.zero_le k) (by omega : 0 + 2 ^ k ≤ cap) hp
        (by simp [Nat.mod_one])
      simp only [Nat.pow_zero, Nat.sub_zero, Nat.zero_add] at this
      rw [this]
      rfl
    obtain ⟨L, base, hw⟩ := Walked.walk h.codes hpv hcap _ (fun c hc => hc) h0 hb
    exact ⟨L, base, by simpa using hw⟩

theorem fits_nbits {v n : Nat} (hn : n ≤ 15) (h1 : v % 64 = 0) (h2 : v / 128 % 2 = 0) (h3 : v < 2 ^ 32) :
    isLink (BitVec.ofNat 32 v ||| BitVec.ofNat 32 n) = false ∧ entryNbits (BitVec.ofNat 32 v ||| BitVec.ofNat 32 n) = n := by
  have e : (BitVec.ofNat 32 v ||| BitVec.ofNat 32 n).toNat = v + n := by
    rw [BitVec.toNat_or, BitVec.toNat_ofNat, BitVec.toNat_ofNat, Nat.mod_eq_of_lt h3, Nat.mod_eq_of_lt (by omega)]
    have := Nat.two_pow_add_eq_or_of_lt (show n < 2 ^ 6 by omega) (v / 64)
    rw [show 2 ^ 6 * (v / 64) = v by omega] at this
    exact this.symm
  refine ⟨?_, ?_⟩
  · rw [isLink, entryL, BitVec.getLsbD, Nat.testBit_eq_decide_div_mod_eq, e]
    simp only [Bool.and_eq_false_iff, decide_eq_false_iff_not]
    right
    omega
  · simp only [entryNbits, BitVec.extractLsb'_toNat, e, Nat.shiftRight_eq_div_pow]
    omega

/-- The three alphabets' packed values (30_encoding R106 to R108). -/
theorem pv_exact : PvExact pvCL ∧ PvExact pvLL ∧ PvExact pvD := by
  have bad : ∀ n, n ≤ 15 → isLink (terminalEntry badsym n) = false ∧ entryNbits (terminalEntry badsym n) = n :=
    fun n hn => fits_nbits (v := 0xFFFF0000) hn (by decide) (by decide) (by decide)
  have mod : ∀ v : Nat, BitVec.ofNat 32 v = BitVec.ofNat 32 (v % 2 ^ 32) := fun v => by
    apply BitVec.eq_of_toNat_eq; simp
  refine ⟨fun s n hn => ?_, fun s n hn => ?_, fun s n hn => ?_⟩
  · rw [pvCL, terminalEntry, mod]
    exact fits_nbits hn (by omega) (by omega) (by omega)
  · rw [pvLL]
    split
    · exact fits_nbits hn (by omega) (by omega) (by omega)
    · split
      · exact fits_nbits (v := 0) hn (by decide) (by decide) (by decide)
      · split
        · rw [packBase, terminalEntry, mod]
          exact fits_nbits hn (by omega) (by omega) (by omega)
        · exact bad n hn
  · rw [pvD]
    split
    · rw [packBase, terminalEntry, mod]
      exact fits_nbits hn (by omega) (by omega) (by omega)
    · exact bad n hn

end Sys2Proof.Machine
end

