-- ==== Sys2Proof/Tests/Slice0.lean ====
section
/-! SUPPORT. Tests: ill-formed terms are refused, every row's word decodes, one-step results from the spec's own examples
(95_test_vectors and the rules' examples), and a witness for the hypotheses of each statement that has some. -/

open Sys2Proof Sys2Proof.Machine

set_option Elab.async false

namespace Sys2Proof.Tests

/-! ## Helpers -/

/-- The word w of format f decodes to i. -/
def decodes (f : Fmt) (w : Nat) (i : Instr) : Bool :=
  match decode f w with
  | .ok j => decide (i = j)
  | .error _ => false

/-- The word w of format f is refused with r. -/
def rejects (f : Fmt) (w : Nat) (r : Reject) : Bool :=
  match decode f w with
  | .ok _ => false
  | .error x => decide (r = x)

/-- The outcome is a next state with property p. -/
def goes (o : Host.Outcome State Fault Refusal) (p : State → Bool) : Bool :=
  match o with
  | .next t => p t
  | _ => false

/-- The outcome is the refusal r. -/
def refuses (o : Host.Outcome State Fault Refusal) (r : Refusal) : Bool :=
  match o with
  | .refused x => decide (x = r)
  | _ => false

/-- The control state at the start of the sequencer's state q. -/
def inSeq (q : Seq) : Control := { State.reset.ctl with seq := q }

/-- The control state with a decoded symbol of alphabet a. -/
def atSymbol (a : Alphabet) (sym : BitVec 9) : Control := { State.reset.ctl with seq := .syms, alpha := a, look := .symbol sym }

/-- A raw run over the bytes at 0x100 with 64 bytes of output room at 0x1000, in control state c, n bytes of output done. -/
def demo (bytes : List Byte) (c : Control) (n : Nat) : State :=
  { State.reset with
    regs := { HostRegs.reset with
      busy := true, inBase := 0x100, inLen := BitVec.ofNat 32 bytes.length, outBase := 0x1000, outCap := 64 }
    launch := { inBase := 0x100, inLen := BitVec.ofNat 32 bytes.length, outBase := 0x1000, outCap := 64 }
    ctl := c
    outLen := BitVec.ofNat 32 n
    rd := { acc := 0, avail := 0, cur := 0, start := 0, endOff := BitVec.ofNat 32 bytes.length }
    fe := { fmt := .raw, expCheck := 0, isize := 0 }
    mem := placeBytes 0x100 [] bytes }

/-- The same in the build with OVERRUN_DETECT. -/
def demoDetect (bytes : List Byte) (c : Control) (n : Nat) : State := { demo bytes c n with detect := true }

/-- The stopped registers show cause c, OUT_LEN n and IN_BITPOS p. -/
def stopsWith (c : Cause) (n p : Nat) (t : State) : Bool :=
  t.regs.done && !t.regs.busy && decide (t.regs.cause = c) && decide (t.regs.result = resultOf c) &&
    decide (t.regs.outLen.toNat = n) && decide (t.regs.inBitpos.toNat = p)

/-- Output bytes 0, 1, … are those listed. -/
def outputs (bs : List Byte) (t : State) : Bool :=
  decide (t.outLen.toNat = bs.length) && (List.range bs.length).all fun j => decide (some (outByte t j) = bs[j]?)

theorem demo_inv (bytes : List Byte) (c : Control) (n : Nat) (h1 : memWf (placeBytes 0x100 [] bytes) = true)
    (h2 : c.seq ≠ .idle) (h3 : bytes.length ≤ 64) (h4 : n ≤ 64) (h5 : c.seq ≠ .wrap) : Inv (demo bytes c n) where
  memForm := h1
  busy := ⟨fun _ => h2, fun _ => rfl⟩
  done _ := rfl
  cleared _ := ⟨rfl, rfl, rfl, rfl, rfl, rfl, rfl, rfl⟩
  latched _ := rfl
  buffers _ := by
    have e : (BitVec.ofNat 32 bytes.length).toNat = bytes.length := by rw [BitVec.toNat_ofNat]; omega
    simp only [launchOk, demo, e, Bool.and_eq_true, Bool.or_eq_true, decide_eq_true_eq]
    refine ⟨⟨?_, by rfl⟩, .inl (.inr ?_)⟩
    · show 256 + _ ≤ 2 ^ 32; omega
    · show 256 + _ ≤ 4096; omega
  fits _ := by show (BitVec.ofNat 32 n).toNat ≤ 64; rw [BitVec.toNat_ofNat]; omega
  front x := absurd x h5

/-- The invariant does not see the schedule or the build parameter. -/
theorem inv_turns {s : State} (h : Inv s) (r : List Turn) (d : Bool) : Inv { s with turns := r, detect := d } :=
  ⟨h.memForm, h.busy, h.done, h.cleared, h.latched, h.buffers, h.fits, h.front⟩

theorem demo_reader (bytes : List Byte) (c : Control) (n : Nat) : ReaderOk (demo bytes c n) :=
  ⟨by show 0 ≤ 23; omega, by show 8 * 0 + 0 ≤ 8 * 0; omega, rfl⟩

theorem demoDetect_reader (bytes : List Byte) (c : Control) (n : Nat) : ReaderOk (demoDetect bytes c n) :=
  ⟨by show 0 ≤ 23; omega, by show 8 * 0 + 0 ≤ 8 * 0; omega, rfl⟩

theorem demo_decoding (bytes : List Byte) (c : Control) (n : Nat) (h1 : memWf (placeBytes 0x100 [] bytes) = true)
    (h2 : c.seq ≠ .idle) (h3 : bytes.length ≤ 64) (h4 : n ≤ 64) (h5 : c.seq ≠ .wrap) : Decoding (demo bytes c n) :=
  ⟨demo_inv bytes c n h1 h2 h3 h4 h5, rfl, demo_reader bytes c n, Nat.le_refl _⟩

theorem demo_readerInv (bytes : List Byte) (c : Control) (n : Nat) (h : ∀ b w, c.look ≠ .second b w)
    (h5 : c.seq ≠ .clread) : ReaderInv (demo bytes c n) :=
  ⟨fun _ => ⟨demo_reader bytes c n, Nat.le_refl _⟩, reset_tables_ok.1, reset_tables_ok.2.1, reset_tables_ok.2.2,
    fun x => absurd x h5, fun b w e => absurd e (h b w)⟩

/-! ## Ill-formed terms are refused (WellFormed.lean) -/

/-- 18 is CL_ZEROS11 (R97). -/
theorem test_wf_refuses_clUnknown : (Instr.wf (.clUnknown 18)) = false := by decide
/-- 0x000000FF is the sentinel (R105). -/
theorem test_wf_refuses_entryLink : (Instr.wf (.entryLink 0 true 63)) = false := by decide
/-- CINFO 7 is allowed (R203). -/
theorem test_wf_refuses_zlibCinfoBad : (Instr.wf (.zlibCinfoBad 7 0)) = false := by decide
/-- 0x789C mod 31 = 0 (R204). -/
theorem test_wf_refuses_zlibFcheckBad : (Instr.wf (.zlibFcheckBad 7 0x9C)) = false := by decide
/-- CINFO is checked first. -/
theorem test_wf_refuses_zlibFcheckBad_cinfo : (Instr.wf (.zlibFcheckBad 8 0)) = false := by decide
/-- FDICT is 0 (R205). -/
theorem test_wf_refuses_zlibFdictBad : (Instr.wf (.zlibFdictBad 7 0x9C)) = false := by decide
/-- 0x7821 mod 31 ≠ 0: FCHECK is checked first. -/
theorem test_wf_refuses_zlibFdictBad_fcheck : (Instr.wf (.zlibFdictBad 7 0x21)) = false := by decide
/-- CINFO is checked first. -/
theorem test_wf_refuses_zlibFdictBad_cinfo : (Instr.wf (.zlibFdictBad 8 0x3C)) = false := by decide
/-- no reserved bit is set (R195). -/
theorem test_wf_refuses_gzFlagsReserved : (Instr.wf (.gzFlagsReserved 0x1F)) = false := by decide
/-- FTEXT is not set. -/
theorem test_wf_refuses_gzFtext : (Instr.wf (.gzFtext 0x02)) = false := by decide
/-- a reserved bit is checked first. -/
theorem test_wf_refuses_gzFtext_reserved : (Instr.wf (.gzFtext 0x21)) = false := by decide
/-- FEXTRA is not set. -/
theorem test_wf_refuses_gzFextra : (Instr.wf (.gzFextra 0x08)) = false := by decide
/-- FTEXT comes first. -/
theorem test_wf_refuses_gzFextra_order : (Instr.wf (.gzFextra 0x05)) = false := by decide
/-- FEXTRA comes first (R117). -/
theorem test_wf_refuses_gzFname : (Instr.wf (.gzFname 0x0C)) = false := by decide
/-- FNAME is not set. -/
theorem test_wf_refuses_gzFname_unset : (Instr.wf (.gzFname 0x10)) = false := by decide
/-- FNAME comes first. -/
theorem test_wf_refuses_gzFcomment : (Instr.wf (.gzFcomment 0x18)) = false := by decide
/-- FCOMMENT is not set. -/
theorem test_wf_refuses_gzFcomment_unset : (Instr.wf (.gzFcomment 0x02)) = false := by decide
/-- FCOMMENT comes first. -/
theorem test_wf_refuses_gzFhcrc : (Instr.wf (.gzFhcrc 0x12)) = false := by decide
/-- FHCRC is not set. -/
theorem test_wf_refuses_gzFhcrc_unset : (Instr.wf (.gzFhcrc 0x00)) = false := by decide

/-- A term of each checked constructor that is well-formed. -/
theorem test_wf_accepts : ([.clUnknown 19, .entryLink 0 true 62, .zlibCinfoBad 8 0x1C, .zlibFcheckBad 7 0x9D, .zlibFdictBad 7 0x20,
    .gzFlagsReserved 0x20, .gzFtext 0x1F, .gzFextra 0x1E, .gzFname 0x1A, .gzFcomment 0x12, .gzFhcrc 0x02] : List Instr).all Instr.wf = true := by
  decide

/-! ## Every row's word, written out from the spec's encoding of it -/

/-- h[0] = BFINAL, h[2:1] = BTYPE (30_encoding R91, R92). -/
theorem test_decode_blockHeader : ([
    (.blockHeader, 0b000, .blockStored false),
    (.blockHeader, 0b001, .blockStored true),
    (.blockHeader, 0b010, .blockFixed false),
    (.blockHeader, 0b011, .blockFixed true),
    (.blockHeader, 0b100, .blockDynamic false),
    (.blockHeader, 0b101, .blockDynamic true),
    (.blockHeader, 0b110, .blockReserved false),
    (.blockHeader, 0b111, .blockReserved true)
    ] : List (Fmt × Nat × Instr)).all (fun r => decodes r.1 r.2.1 r.2.2) = true := by decide

/-- 0 to 15 are lengths, 16 to 18 the repeats, above is no symbol (30_encoding R97, 43_block_engine R240). -/
theorem test_decode_clSymbol : ([
    (.clSymbol, 0b00000, .clLiteral 0),
    (.clSymbol, 0b01111, .clLiteral 15),
    (.clSymbol, 0b10000, .clRepeat),
    (.clSymbol, 0b10001, .clZeros3),
    (.clSymbol, 0b10010, .clZeros11),
    (.clSymbol, 0b10011, .clUnknown 19),
    (.clSymbol, 0b11111, .clUnknown 31)
    ] : List (Fmt × Nat × Instr)).all (fun r => decodes r.1 r.2.1 r.2.2) = true := by decide

/-- Literals, 256 = EOB, 257 to 285 the lengths, 286 and 287 undefined (30_encoding R98, R99). -/
theorem test_decode_llSymbol : ([
    (.llSymbol, 0b000000000, .lit 0x00),
    (.llSymbol, 0b001100001, .lit 0x61),
    (.llSymbol, 0b011111111, .lit 0xFF),
    (.llSymbol, 0b100000000, .eob),
    (.llSymbol, 0b100000001, .len257),
    (.llSymbol, 0b100000010, .len258),
    (.llSymbol, 0b100000011, .len259),
    (.llSymbol, 0b100000100, .len260),
    (.llSymbol, 0b100000101, .len261),
    (.llSymbol, 0b100000110, .len262),
    (.llSymbol, 0b100000111, .len263),
    (.llSymbol, 0b100001000, .len264),
    (.llSymbol, 0b100001001, .len265),
    (.llSymbol, 0b100001010, .len266),
    (.llSymbol, 0b100001011, .len267),
    (.llSymbol, 0b100001100, .len268),
    (.llSymbol, 0b100001101, .len269),
    (.llSymbol, 0b100001110, .len270),
    (.llSymbol, 0b100001111, .len271),
    (.llSymbol, 0b100010000, .len272),
    (.llSymbol, 0b100010001, .len273),
    (.llSymbol, 0b100010010, .len274),
    (.llSymbol, 0b100010011, .len275),
    (.llSymbol, 0b100010100, .len276),
    (.llSymbol, 0b100010101, .len277),
    (.llSymbol, 0b100010110, .len278),
    (.llSymbol, 0b100010111, .len279),
    (.llSymbol, 0b100011000, .len280),
    (.llSymbol, 0b100011001, .len281),
    (.llSymbol, 0b100011010, .len282),
    (.llSymbol, 0b100011011, .len283),
    (.llSymbol, 0b100011100, .len284),
    (.llSymbol, 0b100011101, .len285),
    (.llSymbol, 0b100011110, .badsym286),
    (.llSymbol, 0b100011111, .badsym287)
    ] : List (Fmt × Nat × Instr)).all (fun r => decodes r.1 r.2.1 r.2.2) = true := by decide

/-- 0 to 29 the distances, 30 and 31 undefined (30_encoding R100). -/
theorem test_decode_distSymbol : ([
    (.distSymbol, 0b00000, .dist0),
    (.distSymbol, 0b00001, .dist1),
    (.distSymbol, 0b00010, .dist2),
    (.distSymbol, 0b00011, .dist3),
    (.distSymbol, 0b00100, .dist4),
    (.distSymbol, 0b00101, .dist5),
    (.distSymbol, 0b00110, .dist6),
    (.distSymbol, 0b00111, .dist7),
    (.distSymbol, 0b01000, .dist8),
    (.distSymbol, 0b01001, .dist9),
    (.distSymbol, 0b01010, .dist10),
    (.distSymbol, 0b01011, .dist11),
    (.distSymbol, 0b01100, .dist12),
    (.distSymbol, 0b01101, .dist13),
    (.distSymbol, 0b01110, .dist14),
    (.distSymbol, 0b01111, .dist15),
    (.distSymbol, 0b10000, .dist16),
    (.distSymbol, 0b10001, .dist17),
    (.distSymbol, 0b10010, .dist18),
    (.distSymbol, 0b10011, .dist19),
    (.distSymbol, 0b10100, .dist20),
    (.distSymbol, 0b10101, .dist21),
    (.distSymbol, 0b10110, .dist22),
    (.distSymbol, 0b10111, .dist23),
    (.distSymbol, 0b11000, .dist24),
    (.distSymbol, 0b11001, .dist25),
    (.distSymbol, 0b11010, .dist26),
    (.distSymbol, 0b11011, .dist27),
    (.distSymbol, 0b11100, .dist28),
    (.distSymbol, 0b11101, .dist29),
    (.distSymbol, 0b11110, .baddist30),
    (.distSymbol, 0b11111, .baddist31)
    ] : List (Fmt × Nat × Instr)).all (fun r => decodes r.1 r.2.1 r.2.2) = true := by decide

/-- payload = e[31:8], L = e[7], T = e[6], nbits = e[5:0]; the sentinel is 0x000000FF (30_encoding R104, R105, R109). -/
theorem test_decode_tableEntry : ([
    (.tableEntry, 0b000000000000000000000000_11_111111, .entrySentinel),
    (.tableEntry, 0b000000000000010000000000_10_000101, .entryLink 0x400 false 5),
    (.tableEntry, 0b000000000000000000000001_11_111111, .entryLink 1 true 63),
    (.tableEntry, 0b000000000000000001100001_01_001000, .entryLiteral 0x61 8),
    (.tableEntry, 0b000000000000000000000000_00_000111, .entryValue 0 7),
    (.tableEntry, 0b000000000001001100000010_00_001000, .entryValue 0x1302 8)
    ] : List (Fmt × Nat × Instr)).all (fun r => decodes r.1 r.2.1 r.2.2) = true := by decide

/-- cinfo = CMF[7:4], CM = CMF[3:0] = 8, FLG (30_encoding R114): the sniff, then the three verdicts (42_wrapper V-W10 to V-W12). -/
theorem test_decode_zlib : ([
    (.zlibSniff, 0b0111_1000_10011100, .zlibSniff 7 0x9C),
    (.zlibVerdict, 0b1000_1000_00011100, .zlibCinfoBad 8 0x1C),
    (.zlibVerdict, 0b0111_1000_10011101, .zlibFcheckBad 7 0x9D),
    (.zlibVerdict, 0b0111_1000_00100000, .zlibFdictBad 7 0x20)
    ] : List (Fmt × Nat × Instr)).all (fun r => decodes r.1 r.2.1 r.2.2) = true := by decide

/-- FTEXT 0x01, FHCRC 0x02, FEXTRA 0x04, FNAME 0x08, FCOMMENT 0x10, the rest reserved; handled in the order of R117 (30_encoding R116, R117). -/
theorem test_decode_gzipFlg : ([
    (.gzipFlg, 0b00000001, .gzFtext 0x01),
    (.gzipFlg, 0b00011111, .gzFtext 0x1F),
    (.gzipFlg, 0b00000010, .gzFhcrc 0x02),
    (.gzipFlg, 0b00000100, .gzFextra 0x04),
    (.gzipFlg, 0b00011110, .gzFextra 0x1E),
    (.gzipFlg, 0b00001000, .gzFname 0x08),
    (.gzipFlg, 0b00011010, .gzFname 0x1A),
    (.gzipFlg, 0b00010000, .gzFcomment 0x10),
    (.gzipFlg, 0b00010010, .gzFcomment 0x12),
    (.gzipFlg, 0b00100000, .gzFlagsReserved 0x20),
    (.gzipFlg, 0b11111111, .gzFlagsReserved 0xFF)
    ] : List (Fmt × Nat × Instr)).all (fun r => decodes r.1 r.2.1 r.2.2) = true := by decide

/-- Byte 0, byte 1, IN_LEN from bit 0 up: gzip needs 18 bytes, zlib 6 (42_wrapper R190 to R193). -/
theorem test_decode_wrapper : ([
    (.wrapper, 0x00000012_8B_1F, .wrapGzip),
    (.wrapper, 0x00000011_8B_1F, .wrapRaw),
    (.wrapper, 0x00000006_9C_78, .wrapZlib),
    (.wrapper, 0x00000005_9C_78, .wrapRaw),
    (.wrapper, 0x00000008_01_77, .wrapRaw),
    (.wrapper, 0x00000000_00_00, .wrapRaw)
    ] : List (Fmt × Nat × Instr)).all (fun r => decodes r.1 r.2.1 r.2.2) = true := by decide

/-- a[40] = 1, a[39:32] = the offset, a[31:0] = the data (30_encoding R120, 10_state R35 to R47). -/
theorem test_decode_hostWrite : ([
    (.hostAccess, 0x1_00_00000001, .start false),
    (.hostAccess, 0x1_00_00000003, .start true),
    (.hostAccess, 0x1_00_00000002, .setCtrl true),
    (.hostAccess, 0x1_00_FFFFFFFC, .setCtrl false),
    (.hostAccess, 0x1_04_00000002, .clearDone),
    (.hostAccess, 0x1_04_FFFFFFFD, .statusNop),
    (.hostAccess, 0x1_0C_80000001, .writeInBase 0x80000001),
    (.hostAccess, 0x1_10_80000001, .writeInLen 0x80000001),
    (.hostAccess, 0x1_14_80000001, .writeOutBase 0x80000001),
    (.hostAccess, 0x1_18_80000001, .writeOutCap 0x80000001),
    (.hostAccess, 0x1_08_80000001, .writeIgnoredCause 0x80000001),
    (.hostAccess, 0x1_1C_80000001, .writeIgnoredOutLen 0x80000001),
    (.hostAccess, 0x1_20_80000001, .writeIgnoredCheckCalc 0x80000001),
    (.hostAccess, 0x1_24_80000001, .writeIgnoredCheckExp 0x80000001),
    (.hostAccess, 0x1_28_80000001, .writeIgnoredIsize 0x80000001),
    (.hostAccess, 0x1_2C_80000001, .writeIgnoredInBitpos 0x80000001),
    (.hostAccess, 0x1_30_80000001, .writeIgnoredRsvd30 0x80000001),
    (.hostAccess, 0x1_34_80000001, .writeIgnoredRsvd34 0x80000001),
    (.hostAccess, 0x1_38_80000001, .writeIgnoredRsvd38 0x80000001),
    (.hostAccess, 0x1_3C_80000001, .writeIgnoredRsvd3C 0x80000001)
    ] : List (Fmt × Nat × Instr)).all (fun r => decodes r.1 r.2.1 r.2.2) = true := by decide

/-- a[40] = 0 (30_encoding R120). -/
theorem test_decode_hostRead : ([
    (.hostAccess, 0x0_00_00000000, .readCtrl),
    (.hostAccess, 0x0_04_00000000, .readStatus),
    (.hostAccess, 0x0_08_00000000, .readCause),
    (.hostAccess, 0x0_0C_00000000, .readInBase),
    (.hostAccess, 0x0_10_00000000, .readInLen),
    (.hostAccess, 0x0_14_00000000, .readOutBase),
    (.hostAccess, 0x0_18_00000000, .readOutCap),
    (.hostAccess, 0x0_1C_00000000, .readOutLen),
    (.hostAccess, 0x0_20_00000000, .readCheckCalc),
    (.hostAccess, 0x0_24_00000000, .readCheckExp),
    (.hostAccess, 0x0_28_00000000, .readIsize),
    (.hostAccess, 0x0_2C_00000000, .readInBitpos),
    (.hostAccess, 0x0_30_FFFFFFFF, .readReserved 0),
    (.hostAccess, 0x0_34_FFFFFFFF, .readReserved 1),
    (.hostAccess, 0x0_38_FFFFFFFF, .readReserved 2),
    (.hostAccess, 0x0_3C_FFFFFFFF, .readReserved 3)
    ] : List (Fmt × Nat × Instr)).all (fun r => decodes r.1 r.2.1 r.2.2) = true := by decide

/-- What is no word of its format is refused by name. -/
theorem test_decode_refuses : (rejects .blockHeader 8 .tooWide && rejects .llSymbol 288 .noSymbol && rejects .zlibSniff 0x7701 .notZlib &&
    rejects .zlibVerdict 0x789C .headerValid && rejects .gzipFlg 0 .noFlag && rejects .hostAccess 0x0_40_00000000 .offsetNotDecoded &&
    rejects .hostAccess 0x1_02_00000001 .offsetMisaligned) = true := by decide

/-- The bare table word of a row decodes to it. -/
theorem test_decodeTableWord : (decide (decodeTableWord 3 6 = some (.blockReserved false)) &&
    decide (decodeTableWord 9 0x11D = some .len285) && decide (decodeTableWord 32 0xFF = some .entrySentinel) &&
    decide (decodeTableWord 41 0x1_00_00000001 = some (.start false))) = true := by decide

/-! ## The read-only memories and the checksums -/

/-- Packed values: 'a' = 0x6140, EOB = 0, 257 = base 3, 284 = base 227 with 5 extra bits; distance 29 (30_encoding R106, R107). -/
theorem test_packed_values : (decide (pvLL 0x61 = 0x00006140#32) && decide (pvLL 256 = 0#32) && decide (pvLL 257 = 0x00030000#32) &&
    decide (pvLL 284 = 0x00E30500#32) && decide (pvLL 287 = 0xFFFF0000#32) && decide (pvD 29 = 0x60010D00#32) &&
    decide (pvCL 18 = 0x1200#32)) = true := by decide

/-- "abc" (95_test_vectors V-C3): CRC 0x352441C2, Adler 0x024D0127. -/
theorem test_checksums_abc : crc32 (fun i => BitVec.ofNat 8 (0x61 + i)) 3 = 0x352441C2#32 ∧
    adler32 (fun i => BitVec.ofNat 8 (0x61 + i)) 3 = 0x024D0127#32 := by decide +kernel

/-- Nothing at all (95_test_vectors V-C1). -/
theorem test_checksums_empty : crc32 (fun _ => 0) 0 = 0#32 ∧ adler32 (fun _ => 0) 0 = 1#32 := by decide +kernel

/-! ## One step of each kind -/

/-- V-B1: the byte 07 stops with BTYPE_RESERVED after 3 bits. -/
theorem test_blockReserved : goes (step (demo [0x07] (inSeq .block) 0)) (stopsWith .btypeReserved 0 3) = true := by decide +kernel

/-- V-B3: LEN 5 with 2 payload bytes left. -/
theorem test_blockStored_short :
    goes (step (demo [0x01, 0x05, 0x00, 0xFA, 0xFF, 0x68, 0x65] (inSeq .block) 0)) (stopsWith .storedLenOverrun 0 40) = true := by
  decide +kernel

/-- V-B5, its first block: 'a', then another block. -/
theorem test_blockStored :
    goes (step (demo [0x00, 0x01, 0x00, 0xFE, 0xFF, 0x61, 0x01] (inSeq .block) 0)) (fun t =>
      outputs [0x61] t && decide (t.ctl.seq = .block) && decide (pos t = 48)) = true := by decide +kernel

/-- V-B6 and V-B6d: a stored header cut after LEN. -/
theorem test_blockStored_cut :
    goes (step (demo [0x01, 0x05, 0x00] (inSeq .block) 0)) (stopsWith .storedLenMismatch 0 40) = true ∧
    goes (step (demoDetect [0x01, 0x05, 0x00] (inSeq .block) 0)) (stopsWith .inputOverrun 0 40) = true := by decide +kernel

/-- The fixed code (30_encoding R111, R112): symbol 256 has 7 bits 0000000, symbol 0 has 8 bits 00110000, read the other way round. -/
theorem test_fixed_code :
    ((codesOf ((List.range 288).map fun i => (fixedLL i).toNat)).filter fun c => decide (c.sym = 0) || decide (c.sym = 256)) =
      [{ len := 7, sym := 256, code := 0 }, { len := 8, sym := 0, code := 0b00001100 }] := by decide +kernel

/-- V-B9: the code-length code 16, 17, 18 of length 1 each is overfull. -/
theorem test_blockDynamic_overfull :
    goes (step (demo [0x05, 0x00, 0x92, 0x00] (inSeq .block) 0)) (stopsWith .huffmanOverfull 0 29) = true := by decide +kernel

/-- V-B10's header: hclen 18, symbols 16 and 1 of length 1 each; bit 0 gives symbol 1, bit 1 symbol 16. -/
theorem test_blockDynamic :
    goes (step (demo [0x05, 0xC0, 0x03, 0x00, 0x00, 0x00, 0x00, 0x00, 0x90, 0x00] (inSeq .block) 0)) (fun t =>
      decide (t.ctl.seq = .clread) && decide (t.blk.hlit = 257) && decide (t.blk.hdist = 1) && decide (t.blk.hclen = 18) &&
      decide (t.tab.cl[0] = 0x00000101#32) && decide (t.tab.cl[1] = 0x00001001#32) && decide (pos t = 71)) = true := by decide +kernel

/-- CL_LITERAL stores its length at n. -/
theorem test_clLiteral : goes (exec (.clLiteral 7) { demo [] (inSeq .clread) 0 with blk := { State.reset.blk with hlit := 257, hdist := 1 } })
    (fun t => decide (lenAt t 0 = 7) && decide (t.ctl.n = 1) && decide (t.ctl.look = .first)) = true := by decide +kernel

/-- CL_REPEAT with extra bits 3 repeats the previous length 6 times; with nothing before it, it stops. -/
theorem test_clRepeat :
    goes (exec .clRepeat { demo [0x03] { inSeq .clread with n := 1 } 0 with
      blk := { State.reset.blk with hlit := 257, hdist := 1, lens := State.reset.blk.lens.setIfInBounds 0 5 } })
      (fun t => decide (t.ctl.n = 7) && decide (lenAt t 6 = 5) && decide (lenAt t 7 = 0)) = true ∧
    goes (exec .clRepeat { demo [0x03] (inSeq .clread) 0 with blk := { State.reset.blk with hlit := 257, hdist := 1 } })
      (stopsWith .clRepeatNoPrevious 0 0) = true := by decide +kernel

/-- CL_ZEROS3: 3 + 7 zeros. -/
theorem test_clZeros3 : goes (exec .clZeros3 { demo [0x07] (inSeq .clread) 0 with blk := { State.reset.blk with hlit := 257, hdist := 1 } })
    (fun t => decide (t.ctl.n = 10) && decide (pos t = 3)) = true := by decide +kernel

/-- CL_ZEROS11: 11 + 127 zeros; from 138 on that passes the total 258 (V-B11). -/
theorem test_clZeros11 :
    goes (exec .clZeros11 { demo [0x7F] (inSeq .clread) 0 with blk := { State.reset.blk with hlit := 257, hdist := 1 } })
      (fun t => decide (t.ctl.n = 138)) = true ∧
    goes (exec .clZeros11 { demo [0x7F] { inSeq .clread with n := 138 } 0 with blk := { State.reset.blk with hlit := 257, hdist := 1 } })
      (stopsWith .clRepeatOverflow 0 7) = true := by decide +kernel

/-- LIT 'a' into an empty output, and with no room left. -/
theorem test_lit : goes (step (demo [] (atSymbol .ll 0x61) 0)) (outputs [0x61]) = true ∧
    goes (step (demo [] (atSymbol .ll 0x61) 64)) (stopsWith .outputFull 64 0) = true := by decide +kernel

/-- EOB of the last block goes on to VERIFY. -/
theorem test_eob : goes (step { demo [] (atSymbol .ll 256) 0 with blk := { State.reset.blk with bfinal := true } })
    (fun t => decide (t.ctl.seq = .verify)) = true := by decide +kernel

/-- Length 258 through symbol 284 with extra 31 (V-S5), and through 285 with no extra bits. -/
theorem test_lengths : goes (step (demo [0x1F] (atSymbol .ll 284) 1)) (fun t => decide (t.ctl.length = 258) && decide (pos t = 5)) = true ∧
    goes (step (demo [0x1F] (atSymbol .ll 285) 1)) (fun t => decide (t.ctl.length = 258) && decide (pos t = 0)) = true := by
  decide +kernel

/-- V-S2's match: length 3 at distance 1 after 'a'. -/
theorem test_dist0_overlap :
    goes (step { demo [] { atSymbol .dist 0 with length := 3 } 1 with mem := [(0x1000, 0x61)] }) (outputs [0x61, 0x61, 0x61, 0x61]) = true := by
  decide +kernel

/-- V-S6's distances: symbol 4 with its extra bit 0 is 5, with 1 it is 6. -/
theorem test_dist4_extra :
    goes (step { demo [0x00] { atSymbol .dist 4 with length := 3 } 6 with
      mem := placeBytes 0x1000 [] [0x31, 0x32, 0x33, 0x34, 0x35, 0x36] }) (outputs [0x31, 0x32, 0x33, 0x34, 0x35, 0x36, 0x32, 0x33, 0x34]) = true ∧
    goes (step (demo [0x01] { atSymbol .dist 4 with length := 3 } 5)) (stopsWith .distanceTooFar 5 1) = true := by decide +kernel

/-- V-S11: a match that does not fit writes nothing. -/
theorem test_dist0_full : goes (step { demo [] { atSymbol .dist 0 with length := 3 } 62 with mem := [(0x103D, 0x61)] }) (fun t =>
    stopsWith .outputFull 62 0 t && decide (t.mem = [(0x103D, 0x61)])) = true := by decide +kernel

/-- The undefined symbols (V-S7 to V-S9b). -/
theorem test_bad_symbols : ([.badsym286, .badsym287, .baddist30, .baddist31] : List Instr).all (fun i =>
    goes (exec i (demo [] (inSeq .syms) 1)) (stopsWith .invalidSymbol 1 0)) = true := by decide +kernel

/-- The sentinel stops with INVALID_CODEWORD and nothing consumed. -/
theorem test_sentinel : goes (exec .entrySentinel (demo [0xFF] (inSeq .syms) 0)) (stopsWith .invalidCodeword 0 0) = true := by decide +kernel

/-- A link consumes K = 10 bits and leads to base 0x400, width 5; the same entry in a subtable is a terminal. -/
theorem test_link :
    goes (exec (.entryLink 0x400 false 5) (fill 10 (demo [0xFF, 0xFF] (inSeq .syms) 0)))
      (fun t => decide (t.ctl.look = .second 0x400 5) && decide (pos t = 10)) = true ∧
    goes (exec (.entryLink 0x61 true 5) (fill 10 (demo [0xFF, 0xFF] { inSeq .syms with look := .second 0x400 5 } 0)))
      (fun t => decide (t.ctl.look = .symbol 0x61) && decide (pos t = 5)) = true := by decide +kernel

/-- Terminals: a literal, EOB, length 3 and distance 24,577. -/
theorem test_terminals :
    goes (exec (.entryLiteral 0x61 8) (fill 10 (demo [0, 0] (inSeq .syms) 0))) (fun t => decide (t.ctl.look = .symbol 0x61)) = true ∧
    goes (exec (.entryValue 0 7) (fill 10 (demo [0, 0] (inSeq .syms) 0))) (fun t => decide (t.ctl.look = .symbol 256)) = true ∧
    goes (exec (.entryValue 0x000300 7) (fill 10 (demo [0, 0] (inSeq .syms) 0))) (fun t => decide (t.ctl.look = .symbol 257)) = true ∧
    goes (exec (.entryValue 0x60010D 5) (fill 8 (demo [0, 0] { inSeq .syms with alpha := .dist } 0)))
      (fun t => decide (t.ctl.look = .symbol 29)) = true := by decide +kernel

/-- 42_wrapper V-W5 and V-W1: the method byte, and the fixed header's result. -/
theorem test_wrapGzip :
    goes (step (demo ([0x1F, 0x8B, 0x07, 0, 0, 0, 0, 0, 0, 0xFF, 0x03, 0x00] ++ List.replicate 8 0) (inSeq .wrap) 0)) (fun t =>
      stopsWith .gzipMethod 0 0 t && decide (t.regs.format = .invalid)) = true ∧
    goes (step (demo ([0x1F, 0x8B, 0x08, 0, 0, 0, 0, 0, 0, 0xFF, 0x03, 0x00] ++ [0x78, 0x56, 0x34, 0x12, 1, 0, 0, 0]) (inSeq .wrap) 0)) (fun t =>
      decide (t.fe = { fmt := .gzip, expCheck := 0x12345678, isize := 1 }) && decide (t.rd.start = 10) && decide (t.rd.endOff = 12)) = true := by
  decide +kernel

/-- V-W13: 78 9C is a zlib header; its trailer is big-endian. -/
theorem test_zlibSniff :
    goes (exec (.zlibSniff 7 0x9C) (demo [0x78, 0x9C, 0x03, 0x00, 0x12, 0x34, 0x56, 0x78] (inSeq .wrap) 0)) (fun t =>
      decide (t.fe = { fmt := .zlib, expCheck := 0x12345678, isize := 0 }) && decide (t.rd.cur = 2) && decide (t.rd.endOff = 4)) = true ∧
    goes (exec (.zlibSniff 7 0x20) (demo [0x78, 0x20, 0x03, 0x00, 0, 0, 0, 1] (inSeq .wrap) 0)) (fun t =>
      decide (t.ctl.wphase = .zlibVerdict)) = true := by decide +kernel

/-- The three zlib verdicts (V-W10 to V-W12) and the reserved gzip flags (V-W6). -/
theorem test_front_end_stops :
    goes (exec (.zlibCinfoBad 8 0x1C) (demo [] (inSeq .wrap) 0)) (stopsWith .zlibCinfo 0 0) = true ∧
    goes (exec (.zlibFcheckBad 7 0x9D) (demo [] (inSeq .wrap) 0)) (stopsWith .zlibFcheck 0 0) = true ∧
    goes (exec (.zlibFdictBad 7 0x20) (demo [] (inSeq .wrap) 0)) (stopsWith .zlibFdict 0 0) = true ∧
    goes (exec (.gzFlagsReserved 0x20) (demo [] (inSeq .wrap) 0)) (stopsWith .gzipUnknownFlags 0 0) = true := by decide +kernel

/-- V-W4's 26 bytes: the gzip stream with FNAME "a" and FHCRC whose high byte is wrong. -/
def gzBytes (hi : Byte) : List Byte :=
  [0x1F, 0x8B, 0x08, 0x0A, 0x00, 0x00, 0x00, 0x00, 0x00, 0xFF, 0x61, 0x00, 0x58, hi, 0xCB, 0xC8, 0x04, 0x00, 0xAC, 0x2A, 0x93, 0xD8,
   0x02, 0x00, 0x00, 0x00]

/-- FNAME skips "a" and its 0; FHCRC is next at offset 12. -/
theorem test_gzFname : goes (exec (.gzFname 0x0A) (demo (gzBytes 0xA2) { inSeq .wrap with wphase := .gzipFlags, gzLeft := 0x0A, hdrPos := 10 } 0))
    (fun t => decide (t.ctl.hdrPos = 12) && decide (t.ctl.gzLeft = 0x02)) = true := by decide +kernel

/-- FHCRC: 0xA258 is the low half of the CRC over the 12 header bytes (V-W16), 0xA358 is not (V-W4). -/
theorem test_gzFhcrc :
    goes (exec (.gzFhcrc 0x02) (demo (gzBytes 0xA2) { inSeq .wrap with hdrPos := 12 } 0)) (fun t =>
      decide (t.ctl.seq = .block) && decide (t.rd.cur = 14) && decide (t.fe.expCheck = 0xD8932AAC)) = true ∧
    goes (exec (.gzFhcrc 0x02) (demo (gzBytes 0xA3) { inSeq .wrap with hdrPos := 12 } 0)) (stopsWith .gzipHeaderCrc 0 0) = true := by
  decide +kernel

/-- V-W2 and V-W8: FEXTRA of 4 bytes is skipped; of 9 bytes it reaches the trailer. -/
theorem test_gzFextra :
    goes (exec (.gzFextra 0x04) (demo ([0x1F, 0x8B, 8, 4, 0, 0, 0, 0, 0, 0xFF, 4, 0, 1, 2, 3, 4, 3, 0] ++ List.replicate 8 0)
      { inSeq .wrap with hdrPos := 10 } 0)) (fun t => decide (t.rd.start = 16) && decide (t.rd.endOff = 18)) = true ∧
    goes (exec (.gzFextra 0x04) (demo ([0x1F, 0x8B, 8, 4, 0, 0, 0, 0, 0, 0xFF, 9, 0, 3, 0] ++ List.replicate 8 0)
      { inSeq .wrap with hdrPos := 10 } 0)) (stopsWith .gzipHeaderTruncated 0 0) = true := by decide +kernel

/-- FTEXT has no effect: the next flag at the same offset. FCOMMENT with no 0 byte stops. -/
theorem test_gzFtext_gzFcomment :
    goes (exec (.gzFtext 0x09) (demo (gzBytes 0xA2) { inSeq .wrap with hdrPos := 10 } 0)) (fun t =>
      decide (t.ctl.gzLeft = 0x08) && decide (t.ctl.hdrPos = 10)) = true ∧
    goes (exec (.gzFcomment 0x10) (demo (List.replicate 20 0x61) { inSeq .wrap with hdrPos := 10 } 0))
      (stopsWith .gzipHeaderTruncated 0 0) = true := by decide +kernel

/-- VERIFY of "a" (V-C2): the Adler-32 that matches, and one that does not. -/
theorem test_verify :
    goes (step { demo [] (inSeq .verify) 1 with fe := { fmt := .zlib, expCheck := 0x00620062, isize := 0 }, mem := [(0x1000, 0x61)] })
      (fun t => stopsWith .none 1 0 t && decide (t.regs.checkCalc = 0x00620062)) = true ∧
    goes (step { demo [] (inSeq .verify) 1 with fe := { fmt := .gzip, expCheck := 0x00620062, isize := 7 }, mem := [(0x1000, 0x61)] })
      (fun t => stopsWith .checksumMismatch 1 0 t && decide (t.regs.checkCalc = 0xE8B7BE43) && decide (t.regs.isize = 7)) = true := by
  decide +kernel

/-- START straight after reset is accepted (70 R383): BUSY reads 1, nothing else of STATUS. -/
theorem test_start_after_reset : goes (exec (.start true) State.reset) (fun t =>
    decide (statusWord t.regs = 1) && decide (ctrlWord t.regs = 2) && decide (t.ctl.seq = .wrap)) = true := by decide +kernel

/-- The host's writes: IN_LEN is stored while idle and dropped while busy; CLEAR_DONE; SET_CTRL raises irq when DONE is set. -/
theorem test_host_writes :
    goes (exec (.writeInLen 0xFFFFFFFF) State.reset) (fun t => decide (t.regs.inLen = 0xFFFFFFFF)) = true ∧
    goes (exec (.writeInLen 9) (demo [0x07] (inSeq .block) 0)) (fun t => decide (t.regs.inLen = 1)) = true ∧
    goes (exec .clearDone { State.reset with regs := { HostRegs.reset with done := true, irqEn := true, outLen := 5 } })
      (fun t => !irq t && decide (t.regs.outLen = 5)) = true ∧
    goes (exec (.setCtrl true) { State.reset with regs := { HostRegs.reset with done := true } }) irq = true := by decide +kernel

/-- STATUS after a stopped gzip run with a checksum mismatch reads 0x36 (V-W19). -/
theorem test_readStatus : goes (exec .readStatus { State.reset with regs := { HostRegs.reset with done := true, result := .checksum, format := .gzip } })
    (fun t => decide (t.busData = 0x36)) = true := by decide +kernel

/-- A register read while idle is exact. -/
theorem test_reads : goes (exec .readCause { State.reset with regs := { HostRegs.reset with cause := .tableOverflow } })
    (fun t => decide (t.busData = 0x16)) = true ∧
    goes (exec (.readReserved 3) { State.reset with busData := 7 }) (fun t => decide (t.busData = 0)) = true := by decide +kernel

/-- Refused: overlapping buffers, a host write into the input during a run, an offset that is not decoded. -/
theorem test_refusals :
    refuses (exec (.start false) { State.reset with regs := { HostRegs.reset with inBase := 0x100, inLen := 1, outBase := 0x100, outCap := 1 } })
      .launchBuffers = true ∧
    refuses (step { demo [0x07] (inSeq .block) 0 with turns := [.hostWrite 0x100 0] }) .hostDuty = true ∧
    refuses (step { State.reset with turns := [.access 0x0_40_00000000] }) .badAccess = true := by decide +kernel

/-- Reset in the middle of a run clears DONE, BUSY and the configuration registers and leaves the output done so far. -/
theorem test_reset_turn : goes (step { demo [0x07] (inSeq .block) 1 with mem := [(0x100, 0x07), (0x1000, 0x61)], turns := [.reset] }) (fun t =>
    decide (t.regs = HostRegs.reset) && decide (t.ctl.seq = .idle) && decide (memRead t.mem 0x1000 = 0x61)) = true := by decide +kernel

/-- The bare table word of BLOCK_RESERVED, placed, runs as the first instruction after reset. -/
theorem test_withFetchWord : goes (step (State.reset.withFetchWord 3 6)) (fun t => decide (t.regs.cause = .btypeReserved)) = true := by
  decide +kernel


/-! ## Witnesses: states and operands that meet every hypothesis of a statement, at the edges of its ranges -/

/-- DecodeOfEncode and EncodeOfDecode: rows at their operands' extremes, and their words. -/
theorem witness_encodings : (Instr.wf (.entryLink 0xFFFFFF true 0x3F) && Instr.wf (.clUnknown 31) && Instr.wf (.lit 255) &&
    decodes .tableEntry 0xFFFFFFFF (.entryLink 0xFFFFFF true 0x3F) && decodes .clSymbol 31 (.clUnknown 31) &&
    decodes .llSymbol 255 (.lit 255) && decodes .tableEntry 0 (.entryValue 0 0)) = true := by decide

/-- WrapperDetectionOrder: the lengths on either side of each bound. -/
theorem witness_wrapper : (decodes .wrapper (wrapperWord 0x1F 0x8B 18) .wrapGzip && decodes .wrapper (wrapperWord 0x1F 0x8B 17) .wrapRaw &&
    decodes .wrapper (wrapperWord 0x78 0x9C 6) .wrapZlib && decodes .wrapper (wrapperWord 0x78 0x9C 5) .wrapRaw &&
    decodes .wrapper (wrapperWord 0xFF 0xFF (2 ^ 32 - 1)) .wrapRaw) = true := by decide +kernel

/-- ZlibCheckOrder: CINFO 7 and 8, and each verdict. -/
theorem witness_zlib : (decodes .zlibVerdict (zlibWord 8 0) (.zlibCinfoBad 8 0) && decodes .zlibVerdict (zlibWord 7 0) (.zlibFcheckBad 7 0) &&
    decodes .zlibVerdict (zlibWord 7 0x20) (.zlibFdictBad 7 0x20) && rejects .zlibVerdict (zlibWord 7 0x9C) .headerValid) = true := by decide

/-- A gzip run at its wrapper, its FNAME flag, and a run of a zlib header at its two points. -/
def atFlags : State := demo (gzBytes 0xA2) { inSeq .wrap with wphase := .gzipFlags, gzLeft := 0x0A, hdrPos := 10 } 0
def atZlib (p : WrapPhase) (flg : Byte) : State := demo [0x78, flg, 0x03, 0x00, 0, 0, 0, 1] { inSeq .wrap with wphase := p } 0

/-- StepRunsDecodedRow: a block header, and the front end's four points. -/
theorem witness_step_front :
    ((demo [0x07] (inSeq .block) 0).turns = [] ∧ (demo [0x07] (inSeq .block) 0).ctl.seq = .block ∧
      decodes .blockHeader (low 3 (fill 3 (demo [0x07] (inSeq .block) 0))) (.blockReserved true) = true) ∧
    ((demo (gzBytes 0xA2) (inSeq .wrap) 0).turns = [] ∧ (demo (gzBytes 0xA2) (inSeq .wrap) 0).ctl.seq = .wrap ∧
      (demo (gzBytes 0xA2) (inSeq .wrap) 0).ctl.wphase = .sniff ∧
      decodes .wrapper (wrapperOf (demo (gzBytes 0xA2) (inSeq .wrap) 0)) .wrapGzip = true) ∧
    ((atZlib .zlibHeader 0x9C).turns = [] ∧ (atZlib .zlibHeader 0x9C).ctl.seq = .wrap ∧
      (atZlib .zlibHeader 0x9C).ctl.wphase = .zlibHeader ∧
      decodes .zlibSniff (headerWordOf (atZlib .zlibHeader 0x9C)) (.zlibSniff 7 0x9C) = true) ∧
    ((atZlib .zlibVerdict 0x20).turns = [] ∧ (atZlib .zlibVerdict 0x20).ctl.seq = .wrap ∧
      (atZlib .zlibVerdict 0x20).ctl.wphase = .zlibVerdict ∧
      decodes .zlibVerdict (headerWordOf (atZlib .zlibVerdict 0x20)) (.zlibFdictBad 7 0x20) = true) ∧
    (atFlags.turns = [] ∧ atFlags.ctl.seq = .wrap ∧ atFlags.ctl.wphase = .gzipFlags ∧
      decodes .gzipFlg atFlags.ctl.gzLeft.toNat (.gzFname 0x0A) = true) := by decide +kernel

/-- A state at a table lookup over the two bytes 0xFF, with entry e wherever the lookup lands in the literal/length table. -/
def atLookup (k : Look) (e : Entry) : State :=
  { demo [0xFF, 0xFF] { inSeq .syms with look := k } 0 with
    tab := { State.reset.tab with ll := (State.reset.tab.ll.setIfInBounds 1023 e).setIfInBounds 1055 e } }

/-- StepRunsDecodedRow: a first lookup, a second one, a decoded symbol, the moves of the schedule, VERIFY and IDLE. -/
theorem witness_step_rest :
    ((atLookup .first 0x00006148).turns = [] ∧ (atLookup .first 0x00006148).ctl.seq = .syms ∧ (atLookup .first 0x00006148).ctl.look = .first ∧
      decodes .tableEntry (tableEntry .ll (atLookup .first 0x00006148).tab (low 10 (fill 10 (atLookup .first 0x00006148)))).toNat
        (.entryLiteral 0x61 8) = true) ∧
    ((atLookup (.second 1024 5) 0x00006148).turns = [] ∧ (atLookup (.second 1024 5) 0x00006148).ctl.seq = .syms ∧
      (atLookup (.second 1024 5) 0x00006148).ctl.look = .second 1024 5 ∧
      decodes .tableEntry (tableEntry .ll (atLookup (.second 1024 5) 0x00006148).tab
        (1024 + low 5 (fill 5 (atLookup (.second 1024 5) 0x00006148)))).toNat (.entryLiteral 0x61 8) = true) ∧
    ((demo [] (atSymbol .dist 29) 0).turns = [] ∧ (demo [] (atSymbol .dist 29) 0).ctl.seq = .syms ∧
      (demo [] (atSymbol .dist 29) 0).ctl.look = .symbol 29 ∧ decodes (symbolFmt .dist) 29 .dist29 = true) ∧
    (({ State.reset with turns := [.access 0x1_00_00000003] } : State).turns = .access 0x1_00_00000003 :: [] ∧
      decodes .hostAccess (0x1_00_00000003 : Access).toNat (.start true) = true) ∧
    ({ demo [] (inSeq .verify) 0 with turns := [.engine] } : State).turns = .engine :: [] ∧
    ((demo [] (inSeq .verify) 0).turns = [] ∧ (demo [] (inSeq .verify) 0).ctl.seq = .verify) ∧
    (State.reset.turns = [] ∧ State.reset.ctl.seq = .idle) := by decide +kernel

/-- AccessesOffTheMapAreRefused: the first offset past the map, a misaligned one, and the last of the map. -/
theorem witness_accesses :
    0x40 ≤ (0x0_40_00000000 : Access).toNat / 2 ^ 32 % 256 ∧ (0x1_02_00000000 : Access).toNat / 2 ^ 32 % 4 ≠ 0 ∧
    (0x0_3C_00000000 : Access).toNat / 2 ^ 32 % 256 < 0x40 ∧ (0x0_3C_00000000 : Access).toNat / 2 ^ 32 % 4 = 0 := by decide

/-- A run at a block header that the reset state's successors reach: the run-wide statements' hypotheses. -/
theorem witness_run : Inv (demo [0x07] (inSeq .block) 0) ∧ ReaderInv (demo [0x07] (inSeq .block) 0) ∧
    (demo [0x07] (inSeq .block) 0).regs.busy = true ∧
    goes (step (demo [0x07] (inSeq .block) 0)) (fun t => !t.regs.busy) = true ∧
    (0 < inLen (demo [0x07] (inSeq .block) 0)) :=
  ⟨demo_inv _ _ _ (by decide +kernel) (by decide) (by decide) (by decide) (by decide), demo_readerInv _ _ _ nofun (by decide), rfl,
    by decide +kernel, by decide⟩

/-- A run that writes a byte and goes on, with one byte already written: EngineWritesOnlyOutput, OutputNeverRewritten,
ConfigFixedDuringRun. -/
theorem witness_run_writes : Inv (demo [] (atSymbol .ll 0x61) 1) ∧ (demo [] (atSymbol .ll 0x61) 1).regs.busy = true ∧
    0 < (demo [] (atSymbol .ll 0x61) 1).outLen.toNat ∧
    goes (engineStep (demo [] (atSymbol .ll 0x61) 1)) (fun t => t.regs.busy && decide (memRead t.mem 0x1001 ≠ memRead [] 0x1001)) = true ∧
    goes (step (demo [] (atSymbol .ll 0x61) 1)) (fun t => t.regs.busy) = true :=
  ⟨demo_inv _ _ _ (by decide) (by decide) (by decide) (by decide) (by decide), rfl, by decide, by decide +kernel, by decide +kernel⟩

/-- ResetAbandonsTheRun, and the reset clause of RunEndsOnlyAtStopOrReset and ResultsChangeOnlyAtStop: a reset during a run. -/
theorem witness_reset : Inv { demo [0x07] (inSeq .block) 0 with turns := [.reset] } ∧
    ({ demo [0x07] (inSeq .block) 0 with turns := [.reset] } : State).turns = .reset :: [] ∧
    goes (step { demo [0x07] (inSeq .block) 0 with turns := [.reset] }) (fun t => !t.regs.busy) = true :=
  have h := demo_inv [0x07] (inSeq .block) 0 (by decide +kernel) (by decide) (by decide) (by decide) (by decide)
  ⟨inv_turns h _ _, rfl, by decide +kernel⟩

/-- StartLaunchesWhenIdle: after reset, and with both buffers touching and the output ending at the top of memory. -/
theorem witness_start : State.reset.regs.busy = false ∧ launchOk State.reset.regs = true ∧
    launchOk { HostRegs.reset with inBase := 0xFFFFFF00, inLen := 0x80, outBase := 0xFFFFFF80, outCap := 0x80 } = true := by decide +kernel

/-- StartWhileBusyOnlyStoresIrqEn. -/
theorem witness_start_busy : (demo [] (inSeq .block) 0).regs.busy = true := rfl

/-- StartRefusesBadBuffers: input and output one byte past the top, and one shared byte. -/
theorem witness_start_refused :
    2 ^ 32 < (0xFFFFFFFF : Word).toNat + (2 : Word).toNat ∧
    ((0x100 : Word).toNat ≤ 0x10F ∧ 0x10F < (0x100 : Word).toNat + (0x10 : Word).toNat ∧
      (0x10F : Word).toNat ≤ 0x10F ∧ 0x10F < (0x10F : Word).toNat + (1 : Word).toNat) ∧
    refuses (exec (.start true) { State.reset with regs := { HostRegs.reset with outBase := 0xFFFFFFFF, outCap := 2 } }) .launchBuffers = true ∧
    refuses (exec (.start true) { State.reset with regs :=
      { HostRegs.reset with inBase := 0x100, inLen := 0x10, outBase := 0x10F, outCap := 1 } }) .launchBuffers = true := by decide +kernel

/-- ResultReads: idle and busy. -/
theorem witness_result_reads : State.reset.regs.busy = false ∧ (demo [] (inSeq .block) 0).regs.busy = true := ⟨rfl, rfl⟩

/-- A run of the one input byte 0x07 at its block header with move m next. -/
def withMove (m : Turn) : State := { demo [0x07] (inSeq .block) 0 with turns := [m] }

/-- The reset state with move m next meets the invariant. -/
theorem idle_inv (m : Turn) : Inv { State.reset with turns := [m] } :=
  have b : State.reset.regs.busy = false := rfl
  have q : State.reset.ctl.seq = .idle := rfl
  { memForm := rfl, busy := ⟨fun h => absurd h (by rw [b]; decide), fun h => absurd q h⟩
    done := fun h => absurd h (by rw [b]; decide), cleared := fun h => absurd h (by rw [b]; decide)
    latched := fun h => absurd h (by rw [b]; decide), buffers := fun h => absurd h (by rw [b]; decide)
    fits := fun h => absurd h (by rw [b]; decide), front := fun h => absurd h (by rw [q]; decide) }

theorem withMove_inv (m : Turn) : Inv (withMove m) :=
  inv_turns (demo_inv [0x07] (inSeq .block) 0 (by decide +kernel) (by decide) (by decide) (by decide) (by decide)) _ _

/-- HostMemoryMoves, the writes: during a run the last byte of the input, the last of the output, the byte after the output; and
the first byte of the output once the machine is idle. -/
theorem witness_host_write :
    Inv (withMove (.hostWrite 0x1040 1)) ∧ (withMove (.hostWrite 0x1040 1)).regs.busy = true ∧
    (0x100 : Addr).toNat = busAddr (withMove (.hostWrite 0x100 1)).launch.inBase 0 ∧ 0 < inLen (withMove (.hostWrite 0x100 1)) ∧
    refuses (step (withMove (.hostWrite 0x100 1))) .hostDuty = true ∧
    (0x103F : Addr).toNat = busAddr (withMove (.hostWrite 0x103F 1)).launch.outBase 63 ∧ 63 < outCap (withMove (.hostWrite 0x103F 1)) ∧
    refuses (step (withMove (.hostWrite 0x103F 1))) .hostDuty = true ∧
    goes (step (withMove (.hostWrite 0x1040 1))) (fun t => decide (memRead t.mem 0x1040 = 1)) = true ∧
    Inv { State.reset with turns := [.hostWrite 0x1000 1] } ∧ State.reset.regs.busy = false ∧
    goes (step { State.reset with turns := [.hostWrite 0x1000 1] }) (fun t => decide (memRead t.mem 0x1000 = 1)) = true :=
  ⟨withMove_inv _, rfl, by decide, by decide, by decide +kernel, by decide, by decide, by decide +kernel, by decide +kernel,
    idle_inv _, rfl, by decide +kernel⟩

/-- HostMemoryMoves, the reads: during a run the last byte of the output, the byte after it, the input; and while idle. -/
theorem witness_host_read :
    Inv (withMove (.hostRead 0x103F)) ∧ (withMove (.hostRead 0x103F)).regs.busy = true ∧
    (0x103F : Addr).toNat = busAddr (withMove (.hostRead 0x103F)).launch.outBase 63 ∧ 63 < outCap (withMove (.hostRead 0x103F)) ∧
    goes (step (withMove (.hostRead 0x103F))) (fun t => decide (t.free = 1) && t.turns.isEmpty && t.regs.busy) = true ∧
    goes (step (withMove (.hostRead 0x1040))) (fun t => decide (t.free = 0) && decide (t.busData = (memRead [] 0x1040).setWidth 32)) = true ∧
    goes (step (withMove (.hostRead 0x100))) (fun t => decide (t.free = 0) && decide (t.busData = 7)) = true ∧
    goes (step { State.reset with turns := [.hostRead 0x1000], mem := placeBytes 0x1000 [] [0x61] })
      (fun t => decide (t.free = 0) && decide (t.busData = 0x61)) = true :=
  ⟨withMove_inv _, rfl, by decide, by decide, by decide +kernel, by decide +kernel, by decide +kernel, by decide +kernel⟩

/-- RegisterLayouts: a row of the table of causes, and registers that hold its cause; the first and the last code. -/
theorem witness_causes : (Cause.tableOverflow, 0x16, Result.invalid) ∈ causeSpec ∧ (Cause.none, 0x00, Result.ok) ∈ causeSpec ∧
    { HostRegs.reset with cause := .tableOverflow }.cause = .tableOverflow ∧
    causeWord { HostRegs.reset with cause := .tableOverflow } = 0x16 ∧ causeWord HostRegs.reset = 0 := by decide

/-- A run of 18 bytes at the front end, in its phase p with gzip flags l left. -/
def atFront (method : Byte) (p : WrapPhase) (l : Byte) : State :=
  { demo ([0x1F, 0x8B, method] ++ List.replicate 14 0 ++ [1]) { inSeq .wrap with wphase := p, gzLeft := l, hdrPos := 10 } 0 with
    fe := { fmt := .none, expCheck := 0, isize := 0 } }

theorem atFront_inv (method : Byte) (p : WrapPhase) (l : Byte) (h : memWf (atFront method p l).mem = true) : Inv (atFront method p l) where
  memForm := h
  busy := ⟨fun _ => nofun, fun _ => rfl⟩
  done _ := rfl
  cleared _ := ⟨rfl, rfl, rfl, rfl, rfl, rfl, rfl, rfl⟩
  latched _ := rfl
  buffers _ := by
    show launchOk { HostRegs.reset with busy := true, inBase := 0x100, inLen := 18, outBase := 0x1000, outCap := 64 } = true
    decide
  fits _ := Nat.zero_le _
  front _ := rfl

/-- FrontEndFailuresStop: a method byte 7, a reserved flag, and an FNAME with no 0 byte before the trailer's first byte stop the
run; the trailer is not all zeros, so CHECK_EXP and ISIZE are 0 for another reason. -/
theorem witness_front_failures :
    Inv (atFront 7 .sniff 0) ∧ (atFront 7 .sniff 0).ctl.seq = .wrap ∧
    goes (engineStep (atFront 7 .sniff 0)) (stopsWith .gzipMethod 0 0) = true ∧
    Inv (atFront 8 .gzipFlags 0x80) ∧ goes (engineStep (atFront 8 .gzipFlags 0x80)) (stopsWith .gzipUnknownFlags 0 0) = true ∧
    Inv (atFront 8 .gzipFlags 0x08) ∧ goes (engineStep (atFront 8 .gzipFlags 0x08)) (stopsWith .gzipHeaderTruncated 0 0) = true ∧
    inByte (atFront 7 .sniff 0) (inLen (atFront 7 .sniff 0) - 1) = 1 :=
  ⟨atFront_inv _ _ _ (by decide +kernel), rfl, by decide +kernel, atFront_inv _ _ _ (by decide +kernel), by decide +kernel,
    atFront_inv _ _ _ (by decide +kernel), by decide +kernel, by decide +kernel⟩

/-- GzipFixedHeader: a method byte 7; method 8 with flags and with none. -/
theorem witness_gzip_fixed :
    inByte (demo [0x1F, 0x8B, 7, 0] (inSeq .wrap) 0) 2 ≠ 8 ∧
    (inByte (demo [0x1F, 0x8B, 8, 8] (inSeq .wrap) 0) 2 = 8 ∧ inByte (demo [0x1F, 0x8B, 8, 8] (inSeq .wrap) 0) 3 ≠ 0) ∧
    (inByte (demo [0x1F, 0x8B, 8, 0] (inSeq .wrap) 0) 2 = 8 ∧ inByte (demo [0x1F, 0x8B, 8, 0] (inSeq .wrap) 0) 3 = 0) := by decide +kernel

/-- A gzip header of 20 bytes whose string field at offset 10 is x. -/
def atString (x : List Byte) : State :=
  demo ([0x1F, 0x8B, 8, 8, 0, 0, 0, 0, 0, 3] ++ x ++ List.replicate 8 0) { inSeq .wrap with hdrPos := 10 } 0

/-- GzipStrings: the 0 byte is the last byte before the trailer (n = 1); and no 0 byte before the trailer. -/
theorem witness_gzip_strings :
    ((∀ k, k < 1 → inByte (atString [0x61, 0]) ((atString [0x61, 0]).ctl.hdrPos + k) ≠ 0) ∧
      inByte (atString [0x61, 0]) ((atString [0x61, 0]).ctl.hdrPos + 1) = 0 ∧
      (atString [0x61, 0]).ctl.hdrPos + 1 < inLen (atString [0x61, 0]) - 8) ∧
    (∀ k, (atString [0x61, 0x62]).ctl.hdrPos + k < inLen (atString [0x61, 0x62]) - 8 →
      inByte (atString [0x61, 0x62]) ((atString [0x61, 0x62]).ctl.hdrPos + k) ≠ 0) := by
  refine ⟨by decide +kernel, fun k hk => ?_⟩
  have h10 : (atString [0x61, 0x62]).ctl.hdrPos = 10 := rfl
  have h12 : inLen (atString [0x61, 0x62]) - 8 = 12 := by decide
  have h2 : k < 2 := by omega
  rw [h10]
  clear hk
  revert k
  decide +kernel

/-- A stored block of two bytes that fills the output's last two places and ends at the logical end. -/
def atStored (len : Byte) : State := demoDetect [0x00, len, 0x00, ~~~len, 0xFF, 0x61, 0x62] (inSeq .block) 62

/-- StoredBlockCopies: the payload ends at the logical end and at the capacity, with OVERRUN_DETECT. -/
theorem witness_stored : Decoding (atStored 2) ∧ BitsLeft 3 (atStored 2) ∧ storedAt (atStored 2) + 4 ≤ (atStored 2).rd.endOff.toNat ∧
    2 = (byteAt (atStored 2) (storedAt (atStored 2))).toNat + 256 * (byteAt (atStored 2) (storedAt (atStored 2) + 1)).toNat ∧
    2 ^^^ 0xFFFF = (byteAt (atStored 2) (storedAt (atStored 2) + 2)).toNat + 256 * (byteAt (atStored 2) (storedAt (atStored 2) + 3)).toNat ∧
    storedAt (atStored 2) + 4 + 2 ≤ (atStored 2).rd.endOff.toNat ∧ (atStored 2).outLen.toNat + 2 ≤ outCap (atStored 2) :=
  have h := demo_inv [0x00, 2, 0x00, ~~~2, 0xFF, 0x61, 0x62] (inSeq .block) 62 (by decide +kernel) (by decide) (by decide) (by decide) (by decide)
  ⟨⟨inv_turns h _ _, rfl, demoDetect_reader _ _ _, by decide⟩,
    fun _ => by decide, by decide, by decide +kernel, by decide +kernel, by decide, by decide⟩

/-- StoredBlockTraps: a NLEN that does not match; one byte more than the input has; one more than the output has. -/
theorem witness_stored_traps : ReaderOk (demo [0x00, 1, 0, 0, 0] (inSeq .block) 0) ∧ BitsLeft 3 (demo [0x00, 1, 0, 0, 0] (inSeq .block) 0) ∧
    ((demo [0x00, 1, 0, 0, 0] (inSeq .block) 0).detect = true → False) ∧
    0 ^^^ 0xFFFF ≠ 1 ∧
    goes (exec (.blockStored false) (demo [0x00, 1, 0, 0, 0] (inSeq .block) 0)) (stopsWith .storedLenMismatch 0 40) = true ∧
    goes (exec (.blockStored false) (atStored 3)) (stopsWith .storedLenOverrun 62 40) = true ∧
    goes (exec (.blockStored false) { atStored 2 with outLen := 63 }) (stopsWith .outputFull 63 40) = true :=
  ⟨demo_reader _ _ _, nofun, nofun, by decide, by decide +kernel, by decide +kernel, by decide +kernel⟩

/-- FixedBlockBuilds and ReservedBlockTypeStops: just enough bits for the header, with OVERRUN_DETECT. -/
theorem witness_header : ReaderOk (demoDetect [0x03] (inSeq .block) 0) ∧ BitsLeft 3 (demoDetect [0x03] (inSeq .block) 0) :=
  ⟨demoDetect_reader _ _ _, fun _ => by decide⟩

/-- DynamicHeader: V-B9's header of 29 bits (hclen 4) in exactly 4 bytes, refused as overfull; V-B10's is accepted. -/
theorem witness_dynamic : ReaderOk (demoDetect [0x05, 0x00, 0x92, 0x00] (inSeq .block) 0) ∧
    4 = streamBits (demoDetect [0x05, 0x00, 0x92, 0x00] (inSeq .block) 0) (pos (demoDetect [0x05, 0x00, 0x92, 0x00] (inSeq .block) 0) + 13) 4 + 4 ∧
    BitsLeft (17 + 3 * 4) (demoDetect [0x05, 0x00, 0x92, 0x00] (inSeq .block) 0) ∧
    verdict (headerClLens (demo [0x05, 0x00, 0x92, 0x00] (inSeq .block) 0) 17 4) = some .huffmanOverfull ∧
    verdict (headerClLens (demo [0x05, 0xC0, 0x03, 0x00, 0x00, 0x00, 0x00, 0x00, 0x90, 0x00] (inSeq .block) 0) 17 18) = none :=
  ⟨demoDetect_reader _ _ _, by decide +kernel, fun _ => by decide, by decide +kernel, by decide +kernel⟩

/-- OverrunStops: no bit left; in a code-length repeat with a length before it; and, two bits before the end, a BTYPE, a
length's or a distance's extra bits and CL_ZEROS3's that pass it. -/
theorem witness_overrun : ReaderOk (demoDetect [] { inSeq .block with n := 1 } 0) ∧ (demoDetect [] { inSeq .block with n := 1 } 0).detect = true ∧
    8 * (demoDetect [] { inSeq .block with n := 1 } 0).rd.endOff.toNat < pos (demoDetect [] { inSeq .block with n := 1 } 0) + 1 ∧
    0 < (demoDetect [] { inSeq .block with n := 1 } 0).ctl.n ∧
    8 * (demoDetect [] { inSeq .block with n := 1 } 0).rd.endOff.toNat < pos (demoDetect [] { inSeq .block with n := 1 } 0) + 2 ∧
    ReaderOk (shiftOut 6 (fill 16 (demoDetect [0xFF] (inSeq .block) 0))) ∧
    pos (shiftOut 6 (fill 16 (demoDetect [0xFF] (inSeq .block) 0))) = 6 ∧
    pos (shiftOut 6 (fill 16 (demoDetect [0xFF] (inSeq .block) 0))) + 1 ≤ 8 * (shiftOut 6 (fill 16 (demoDetect [0xFF] (inSeq .block) 0))).rd.endOff.toNat ∧
    8 * (shiftOut 6 (fill 16 (demoDetect [0xFF] (inSeq .block) 0))).rd.endOff.toNat < pos (shiftOut 6 (fill 16 (demoDetect [0xFF] (inSeq .block) 0))) + 3 ∧
    8 * (shiftOut 6 (fill 16 (demoDetect [0xFF] (inSeq .block) 0))).rd.endOff.toNat < pos (shiftOut 6 (fill 16 (demoDetect [0xFF] (inSeq .block) 0))) + 7 :=
  ⟨demoDetect_reader _ _ _, rfl, by decide, by decide, by decide,
    shiftOut_ok 6 (fill_spec (by decide) (demoDetect_reader _ _ _)).1, by decide +kernel, by decide +kernel, by decide +kernel,
    by decide +kernel⟩

/-- OverrunStops, a dynamic header of 29 bits: one byte holds the header and HLIT but not HDIST; three hold the counts and two
lengths but not the third; and no byte at all. -/
theorem witness_overrun_header :
    4 = streamBits (demoDetect [0x05, 0x00, 0x92] (inSeq .block) 0) (pos (demoDetect [0x05, 0x00, 0x92] (inSeq .block) 0) + 13) 4 + 4 ∧
    (8, 13) ∈ [(3, 8), (8, 13), (13, 17)] ++ (List.range 4).map (fun i => (17 + 3 * i, 20 + 3 * i)) ∧
    (23, 26) ∈ [(3, 8), (8, 13), (13, 17)] ++ (List.range 4).map (fun i => (17 + 3 * i, 20 + 3 * i)) ∧
    (pos (demoDetect [0x05] (inSeq .block) 0) + 8 ≤ 8 * (demoDetect [0x05] (inSeq .block) 0).rd.endOff.toNat ∧
      8 * (demoDetect [0x05] (inSeq .block) 0).rd.endOff.toNat < pos (demoDetect [0x05] (inSeq .block) 0) + 13 ∧
      goes (exec (.blockDynamic true) (demoDetect [0x05] (inSeq .block) 0)) (stopsWith .inputOverrun 0 13) = true) ∧
    (pos (demoDetect [0x05, 0x00, 0x92] (inSeq .block) 0) + 23 ≤ 8 * (demoDetect [0x05, 0x00, 0x92] (inSeq .block) 0).rd.endOff.toNat ∧
      8 * (demoDetect [0x05, 0x00, 0x92] (inSeq .block) 0).rd.endOff.toNat < pos (demoDetect [0x05, 0x00, 0x92] (inSeq .block) 0) + 26 ∧
      goes (exec (.blockDynamic true) (demoDetect [0x05, 0x00, 0x92] (inSeq .block) 0)) (stopsWith .inputOverrun 0 26) = true) := by
  decide +kernel

/-- OverrunStops, a stored block that ends after its header byte and after NLEN's first byte: LEN and NLEN. -/
theorem witness_overrun_stored :
    (pos (demoDetect [0x01] (inSeq .block) 0) + 3 ≤ 8 * (demoDetect [0x01] (inSeq .block) 0).rd.endOff.toNat ∧
      storedAt (demoDetect [0x01] (inSeq .block) 0) + 0 ≤ (demoDetect [0x01] (inSeq .block) 0).rd.endOff.toNat ∧
      (demoDetect [0x01] (inSeq .block) 0).rd.endOff.toNat < storedAt (demoDetect [0x01] (inSeq .block) 0) + 2 ∧
      goes (exec (.blockStored true) (demoDetect [0x01] (inSeq .block) 0)) (stopsWith .inputOverrun 0 24) = true) ∧
    (storedAt (demoDetect [0x01, 0, 0, 0xFF] (inSeq .block) 0) + 2 ≤ (demoDetect [0x01, 0, 0, 0xFF] (inSeq .block) 0).rd.endOff.toNat ∧
      (demoDetect [0x01, 0, 0, 0xFF] (inSeq .block) 0).rd.endOff.toNat < storedAt (demoDetect [0x01, 0, 0, 0xFF] (inSeq .block) 0) + 4 ∧
      goes (exec (.blockStored true) (demoDetect [0x01, 0, 0, 0xFF] (inSeq .block) 0)) (stopsWith .inputOverrun 0 40) = true) := by
  decide +kernel

/-- OverrunStops, a DROP of 9 bits by a terminal and of K = 10 by a link where only the 8 of one byte are left. -/
theorem witness_overrun_drop :
    ReaderOk (fill 10 (demoDetect [0xFF] { inSeq .syms with alpha := .ll } 0)) ∧
    (fill 10 (demoDetect [0xFF] { inSeq .syms with alpha := .ll } 0)).detect = true ∧
    (9 : BitVec 6).toNat ≤ (fill 10 (demoDetect [0xFF] { inSeq .syms with alpha := .ll } 0)).rd.avail.toNat ∧
    8 * (fill 10 (demoDetect [0xFF] { inSeq .syms with alpha := .ll } 0)).rd.endOff.toNat <
      pos (fill 10 (demoDetect [0xFF] { inSeq .syms with alpha := .ll } 0)) + (9 : BitVec 6).toNat ∧
    kOf (fill 10 (demoDetect [0xFF] { inSeq .syms with alpha := .ll } 0)).ctl.alpha ≤
      (fill 10 (demoDetect [0xFF] { inSeq .syms with alpha := .ll } 0)).rd.avail.toNat ∧
    (fill 10 (demoDetect [0xFF] { inSeq .syms with alpha := .ll } 0)).ctl.look = .first ∧
    goes (exec (.entryValue 0 9) (fill 10 (demoDetect [0xFF] { inSeq .syms with alpha := .ll } 0))) (stopsWith .inputOverrun 0 9) = true ∧
    goes (exec (.entryLink 1024 false 5) (fill 10 (demoDetect [0xFF] { inSeq .syms with alpha := .ll } 0)))
      (stopsWith .inputOverrun 0 10) = true :=
  ⟨(fill_spec (by decide) (demoDetect_reader _ _ _)).1, by decide +kernel, by decide +kernel, by decide +kernel, by decide +kernel,
    by decide +kernel, by decide +kernel, by decide +kernel⟩

/-- A run at a code-length symbol with n lengths read of a total of 258, of which index 0 is 5. -/
def atLens (bytes : List Byte) (n : Nat) : State :=
  { demo bytes { inSeq .clread with n := n, alpha := .cl } 0 with
    blk := { State.reset.blk with hlit := 257, hdist := 1, lens := State.reset.blk.lens.setIfInBounds 0 5 } }

theorem atLens_reader (bytes : List Byte) (n : Nat) : ReaderOk (atLens bytes n) :=
  ReaderOk.congr (demo_reader bytes { inSeq .clread with n := n, alpha := .cl } 0) rfl fun _ => rfl

/-- CodeLengthLiteral: one short of the last length. -/
theorem witness_cl_literal : (atLens [] 256).ctl.n + 1 < (atLens [] 256).blk.hlit.toNat + (atLens [] 256).blk.hdist.toNat ∧
    (atLens [] 256).blk.hlit.toNat + (atLens [] 256).blk.hdist.toNat ≤ 320 := by decide

/-- CodeLengthRepeats: each repeat ends one short of the total. -/
theorem witness_cl_repeats : ReaderOk (atLens [0x03] 251) ∧ (atLens [0x03] 251).blk.hlit.toNat + (atLens [0x03] 251).blk.hdist.toNat ≤ 320 ∧
    0 < (atLens [0x03] 251).ctl.n ∧ BitsLeft 2 (atLens [0x03] 251) ∧
    (atLens [0x03] 251).ctl.n + (3 + streamBits (atLens [0x03] 251) (pos (atLens [0x03] 251)) 2) = 257 ∧
    BitsLeft 3 (atLens [0x07] 247) ∧ (atLens [0x07] 247).ctl.n + (3 + streamBits (atLens [0x07] 247) (pos (atLens [0x07] 247)) 3) = 257 ∧
    BitsLeft 7 (atLens [0x7F] 119) ∧ (atLens [0x7F] 119).ctl.n + (11 + streamBits (atLens [0x7F] 119) (pos (atLens [0x7F] 119)) 7) = 257 :=
  ⟨atLens_reader _ _, by decide, by decide, nofun, by decide +kernel, nofun, by decide +kernel, nofun, by decide +kernel⟩

/-- CodeLengthTraps: nothing before the repeat; each repeat ends one past the total. -/
theorem witness_cl_traps : ReaderOk (atLens [0x03] 0) ∧ (atLens [0x03] 0).ctl.n = 0 ∧ ReaderOk (atLens [0x03] 253) ∧
    0 < (atLens [0x03] 253).ctl.n ∧ BitsLeft 2 (atLens [0x03] 253) ∧
    (atLens [0x03] 253).ctl.n + (3 + streamBits (atLens [0x03] 253) (pos (atLens [0x03] 253)) 2) = 259 ∧
    BitsLeft 3 (atLens [0x07] 249) ∧ (atLens [0x07] 249).ctl.n + (3 + streamBits (atLens [0x07] 249) (pos (atLens [0x07] 249)) 3) = 259 ∧
    BitsLeft 7 (atLens [0x7F] 121) ∧ (atLens [0x7F] 121).ctl.n + (11 + streamBits (atLens [0x7F] 121) (pos (atLens [0x7F] 121)) 7) = 259 :=
  ⟨atLens_reader _ _, rfl, atLens_reader _ _, by decide, nofun, by decide +kernel, nofun, by decide +kernel, nofun, by decide +kernel⟩

/-- LastCodeLengthBuilds: the last of 258 lengths; the lengths all 0 but two are refused, so both outcomes of the verdict occur
(V-B12 to V-B14 give refusals, every dynamic vector an acceptance). -/
theorem witness_last_length : (atLens [] 257).ctl.n + 1 = (atLens [] 257).blk.hlit.toNat + (atLens [] 257).blk.hdist.toNat ∧
    (atLens [] 257).blk.hlit.toNat ≤ 288 ∧ (atLens [] 257).blk.hdist.toNat ≤ 32 ∧
    verdict (splitLL (fun i => if i = (atLens [] 257).ctl.n then 1 else lenAt (atLens [] 257) i) 257) = some .huffmanIncomplete ∧
    verdict (splitD (fun i => if i = (atLens [] 257).ctl.n then 1 else lenAt (atLens [] 257) i) 257 1) = none := by decide +kernel

/-- LastCodeLengthBuilds, the repeats: each ends exactly on the total. -/
theorem witness_last_repeats : ReaderOk (atLens [0x03] 252) ∧ 0 < (atLens [0x03] 252).ctl.n ∧ BitsLeft 2 (atLens [0x03] 252) ∧
    (atLens [0x03] 252).ctl.n + (3 + streamBits (atLens [0x03] 252) (pos (atLens [0x03] 252)) 2) = 258 ∧
    BitsLeft 3 (atLens [0x07] 248) ∧ (atLens [0x07] 248).ctl.n + (3 + streamBits (atLens [0x07] 248) (pos (atLens [0x07] 248)) 3) = 258 ∧
    BitsLeft 7 (atLens [0x7F] 120) ∧ (atLens [0x7F] 120).ctl.n + (11 + streamBits (atLens [0x7F] 120) (pos (atLens [0x7F] 120)) 7) = 258 ∧
    (atLens [0x03] 252).blk.hlit.toNat + (atLens [0x03] 252).blk.hdist.toNat = 258 :=
  ⟨atLens_reader _ _, by decide, nofun, by decide +kernel, nofun, by decide +kernel, nofun, by decide +kernel, by decide⟩

/-- LiteralIsEmitted: the last place of the output, and none left. -/
theorem witness_literal : (memWf (demo [] (inSeq .syms) 63).mem = true ∧ (demo [] (inSeq .syms) 63).outLen.toNat < outCap (demo [] (inSeq .syms) 63)) ∧
    outCap (demo [] (inSeq .syms) 64) ≤ (demo [] (inSeq .syms) 64).outLen := by decide

/-- LengthSymbolsGiveTheLength and OverrunStops' tables: symbol 284 and its 5 extra bits are exactly what is left. -/
theorem witness_length : (Instr.len284, 227, 5) ∈ lengthSpec ∧ (Instr.dist29, 24577, 13) ∈ distSpec ∧
    ReaderOk (demoDetect [0x1F] (inSeq .syms) 0) ∧ BitsLeft 5 (demoDetect [0x1F] (inSeq .syms) 0) :=
  ⟨by decide, by decide, demoDetect_reader _ _ _, fun _ => by decide⟩

/-- A run at the distance symbol of a match of 3 bytes, with n output bytes written. -/
def atMatch (n : Nat) : State := demo [0x01] { inSeq .syms with alpha := .dist, length := 3 } n

/-- MatchIsCopied: symbol 4 with extra bit 1 is distance 6, all of the output so far; and distance 1 fills the output. -/
theorem witness_match : (Instr.dist4, 5, 1) ∈ distSpec ∧ (Instr.dist0, 1, 0) ∈ distSpec ∧
    Decoding (atMatch 6) ∧ BitsLeft 1 (atMatch 6) ∧ 6 = 5 + streamBits (atMatch 6) (pos (atMatch 6)) 1 ∧ 6 ≤ (atMatch 6).outLen.toNat ∧
    (atMatch 6).outLen.toNat + (atMatch 6).ctl.length ≤ outCap (atMatch 6) ∧
    Decoding (atMatch 61) ∧ (atMatch 61).outLen.toNat + (atMatch 61).ctl.length = outCap (atMatch 61) :=
  ⟨by decide, by decide, demo_decoding _ _ _ (by decide +kernel) (by decide) (by decide) (by decide) (by decide), nofun, by decide +kernel,
    by decide, by decide, demo_decoding _ _ _ (by decide +kernel) (by decide) (by decide) (by decide) (by decide), by decide⟩

/-- MatchTraps: one byte too far, and one byte too long. -/
theorem witness_match_traps : ReaderOk (atMatch 5) ∧ BitsLeft 1 (atMatch 5) ∧ 6 = 5 + streamBits (atMatch 5) (pos (atMatch 5)) 1 ∧
    (atMatch 5).outLen.toNat < 6 ∧ ReaderOk (atMatch 62) ∧ 6 ≤ (atMatch 62).outLen.toNat ∧
    outCap (atMatch 62) < (atMatch 62).outLen.toNat + (atMatch 62).ctl.length :=
  ⟨demo_reader _ _ _, nofun, by decide +kernel, by decide, demo_reader _ _ _, by decide, by decide⟩

/-- A run at the first lookup of alphabet a over the bytes FF FF, with OVERRUN_DETECT, and K bits pulled. -/
def atFirst (a : Alphabet) : State := fill (kOf a) (demoDetect [0xFF, 0xFF] { inSeq .syms with alpha := a } 0)

theorem atFirst_reader (a : Alphabet) : ReaderOk (atFirst a) ∧ kOf a ≤ (atFirst a).rd.avail.toNat :=
  have h := fill_spec (n := kOf a) (by cases a <;> decide) (demoDetect_reader [0xFF, 0xFF] { inSeq .syms with alpha := a } 0)
  ⟨h.1, h.2.2⟩

/-- LinkGoesToTheSubtable: a first lookup with all its bits inside the stream, and a second. -/
theorem witness_link : ReaderOk (atFirst .ll) ∧ kOf (atFirst .ll).ctl.alpha ≤ (atFirst .ll).rd.avail.toNat ∧
    BitsLeft (kOf (atFirst .ll).ctl.alpha) (atFirst .ll) ∧ (atFirst .ll).ctl.look = .first ∧
    (demo [] { inSeq .syms with look := .second 1024 5 } 0).ctl.look = .second 1024 5 :=
  ⟨(atFirst_reader _).1, by decide +kernel, fun _ => by decide +kernel, by decide +kernel, rfl⟩

/-- TerminalsGiveTheirSymbol: an entry of nbits = K in a first lookup of each alphabet; the last rows of the tables. -/
theorem witness_terminals :
    (ReaderOk (atFirst .cl) ∧ (7 : BitVec 6).toNat ≤ (atFirst .cl).rd.avail.toNat ∧ BitsLeft 7 (atFirst .cl) ∧ (atFirst .cl).ctl.alpha = .cl) ∧
    (ReaderOk (atFirst .ll) ∧ (10 : BitVec 6).toNat ≤ (atFirst .ll).rd.avail.toNat ∧ BitsLeft 10 (atFirst .ll) ∧ (atFirst .ll).ctl.alpha = .ll) ∧
    (ReaderOk (atFirst .dist) ∧ (8 : BitVec 6).toNat ≤ (atFirst .dist).rd.avail.toNat ∧ BitsLeft 8 (atFirst .dist) ∧
      (atFirst .dist).ctl.alpha = .dist) ∧
    lengthSpec[28]? = some (.len285, 258, 0) ∧ distSpec[29]? = some (.dist29, 24577, 13) :=
  ⟨⟨(atFirst_reader _).1, by decide +kernel, fun _ => by decide +kernel, by decide +kernel⟩,
    ⟨(atFirst_reader _).1, by decide +kernel, fun _ => by decide +kernel, by decide +kernel⟩,
    ⟨(atFirst_reader _).1, by decide +kernel, fun _ => by decide +kernel, by decide +kernel⟩, by decide, by decide⟩

/-- BuildVerdict: one symbol of length 1, a complete code, an overfull and an incomplete one; the length 15 occurs. -/
theorem witness_verdict : (∀ l ∈ [1, 2, 3, 4, 5, 6, 7, 8, 9, 10, 11, 12, 13, 14, 15, 15], l ≤ 15) ∧
    kraft [1, 2, 3, 4, 5, 6, 7, 8, 9, 10, 11, 12, 13, 14, 15, 15] = 2 ^ 15 ∧
    [0, 1, 0].filter (0 < ·) = [1] ∧ 2 ^ 15 < kraft [1, 1, 15] ∧ kraft [2] < 2 ^ 15 := by decide +kernel

/-- NextRevIsTheReversedIncrement: the last codeword but one of 15 bits. -/
theorem witness_next_rev : 0x7FFE + 1 < 2 ^ 15 ∧ revBits 15 (nextRev 0x3FFF 15) = revBits 15 0x3FFF + 1 := by decide +kernel

/-- OneSymbolTable: the last of 32 symbols, and the three tables' sizes. -/
theorem witness_one_symbol : 31 < ((List.range 32).map fun i => if i = 31 then 1 else 0).length ∧
    (∀ i, (h : i < ((List.range 32).map fun i => if i = 31 then 1 else 0).length) →
      ((List.range 32).map fun i => if i = 31 then 1 else 0)[i] = if i = 31 then 1 else 0) ∧
    (0 < 7 ∧ 2 ^ 7 ≤ 128) ∧ (0 < 10 ∧ 2 ^ 10 ≤ 1334) ∧ (0 < 8 ∧ 2 ^ 8 ≤ 402) := by
  refine ⟨by decide, fun i h => ?_, by decide, by decide, by decide⟩
  simp

/-- BUILD succeeds. -/
def builds {cap : Nat} : BuildRes cap → Bool
  | .ok _ _ _ => true
  | .fail _ _ => false

/-- The lengths 1, 2, …, n, n, a complete code. -/
def ladder (n : Nat) : List Nat := List.range' 1 n ++ [n]

/-- DecodeIsExact: for each table a complete code, T_CL's and T_LL's longest codeword of K bits, T_D's of K + 1; the first codeword
is the single bit 0, the last all ones. -/
theorem witness_decode_exact :
    ((∀ l ∈ ladder 7, l ≤ 15) ∧ (ladder 7).filter (0 < ·) ≠ [1] ∧ Begins (ladder 7) 0 0 ∧ Begins (ladder 7) 7 0x7F) ∧
    ((∀ l ∈ ladder 10, l ≤ 15) ∧ (ladder 10).filter (0 < ·) ≠ [1] ∧ Begins (ladder 10) 0 0x3FE ∧ Begins (ladder 10) 10 0x3FF) ∧
    ((∀ l ∈ ladder 9, l ≤ 15) ∧ (ladder 9).filter (0 < ·) ≠ [1] ∧ builds (build 8 (ladder 9) pvD (Vector.replicate 402 0)) = true ∧
      Begins (ladder 9) 0 0x1FE ∧ Begins (ladder 9) 9 0x1FF) := by
  unfold Begins
  decide +kernel

/-- DecodeIsExact: T_CL's and T_LL's codes build. -/
theorem witness_decode_exact_builds (t : Vector Entry 128) (t' : Vector Entry 1334) :
    (∃ u rc, build 7 (ladder 7) pvCL t = .ok u rc (2 ^ 7)) ∧ ∃ u rc, build 10 (ladder 10) pvLL t' = .ok u rc (2 ^ 10) :=
  ⟨build_ok pvCL t (by decide +kernel) (by decide), build_ok pvLL t' (by decide +kernel) (by decide)⟩

/-- VerifyStopsTheRun. -/
theorem witness_verify : (demo [] (inSeq .verify) 1).ctl.seq = .verify := rfl

end Sys2Proof.Tests
end

section
/-! PROOF. The host's register accesses: which words are a move (O7). -/

namespace Sys2Proof.Machine

/-- The step on a register access that is next in the schedule. -/
theorem step_access {s : State} {a : Access} {r : List Turn} (h : s.turns = .access a :: r) : step s = accessStep a (s.setTurns r) := by
  rw [step, h]; rfl

/-- A bus access always fits its format, so decoding it is decoding its offset and its data (30_encoding R120). -/
theorem decode_access (a : Access) : decode .hostAccess a.toNat = decodeHostAccess a.toNat :=
  if_neg (Nat.not_le.2 a.isLt)

theorem decodeHostAccess_offMap {w : Nat} (h : 0x40 ≤ w / 2 ^ 32 % 256 ∨ w / 2 ^ 32 % 4 ≠ 0) :
    ∃ e, decodeHostAccess w = .error e := by
  simp only [decodeHostAccess]
  by_cases hOff : 0x40 ≤ w / 2 ^ 32 % 256
  · exact ⟨_, if_pos hOff⟩
  · have hMod : w / 2 ^ 32 % 256 % 4 ≠ 0 := by omega
    rw [if_neg hOff, if_pos hMod]
    exact ⟨_, rfl⟩

/-- On the map, bit 40 of the word chooses between the register's write and its read. -/
theorem decodeHostAccess_onMap {w : Nat} (hOff : w / 2 ^ 32 % 256 < 0x40) (hMod : w / 2 ^ 32 % 4 = 0) :
    decodeHostAccess w = .ok (if w.testBit 40 then decodeWrite (w / 2 ^ 32 % 256 / 4) (BitVec.ofNat 32 w)
      else decodeRead (w / 2 ^ 32 % 256 / 4)) := by
  have hMod' : ¬w / 2 ^ 32 % 256 % 4 ≠ 0 := by omega
  simp only [decodeHostAccess]
  rw [if_neg (Nat.not_le.2 hOff), if_neg hMod', apply_ite Except.ok]

/-- START is a move, but for buffers that are no legal launch while idle (log entry 16). -/
theorem exec_start_cases (e : Bool) (s : State) :
    (∃ t, exec (.start e) s = .next t) ∨
      s.regs.busy = false ∧ launchOk s.regs = false ∧ exec (.start e) s = .refused .launchBuffers := by
  change (∃ t, execStart e s = .next t) ∨ s.regs.busy = false ∧ launchOk s.regs = false ∧
    execStart e s = .refused .launchBuffers
  cases hb : s.regs.busy with
  | true => exact .inl ⟨setIrqEn e s, if_pos hb⟩
  | false =>
    have hIdle : execStart e s = if launchOk s.regs then .next (launchRun (setIrqEn e s)) else .refused .launchBuffers :=
      if_neg (by simp [setIrqEn, hb])
    cases hl : launchOk s.regs with
    | true => exact .inl ⟨_, hIdle.trans (if_pos hl)⟩
    | false => exact .inr ⟨rfl, rfl, hIdle.trans (if_neg (by simp [hl]))⟩

/-- A register read is always a move. -/
theorem exec_decodeRead (k : Nat) (s : State) : ∃ t, exec (decodeRead k) s = .next t := by
  unfold decodeRead
  split <;> exact ⟨_, rfl⟩

/-- A register write other than START is always a move. -/
theorem exec_decodeWrite (k : Nat) (v : Word) (s : State) :
    (∃ t, exec (decodeWrite k v) s = .next t) ∨ ∃ e, decodeWrite k v = .start e := by
  unfold decodeWrite
  split
  case h_1 => -- CTRL: its bit 0 makes the write a START
    split
    · exact .inr ⟨_, rfl⟩
    · exact .inl ⟨_, rfl⟩
  case h_2 => split <;> exact .inl ⟨_, rfl⟩ -- STATUS: its bit 1 makes the write a CLEAR_DONE
  all_goals exact .inl ⟨_, rfl⟩

/-- A decoded register access is a move, but for a START that is refused. -/
theorem exec_access_cases {a : Access} {i : Instr} (h : decode .hostAccess a.toNat = .ok i) (s : State) :
    (∃ t, exec i s = .next t) ∨ (∃ e, i = .start e) ∧ s.regs.busy = false ∧ launchOk s.regs = false ∧
      exec i s = .refused .launchBuffers := by
  have hOn : ¬(0x40 ≤ a.toNat / 2 ^ 32 % 256 ∨ a.toNat / 2 ^ 32 % 4 ≠ 0) := by
    intro hOff
    obtain ⟨e, he⟩ := decodeHostAccess_offMap hOff
    rw [decode_access, he] at h
    cases h
  rw [decode_access, decodeHostAccess_onMap (by omega) (by omega)] at h
  cases Except.ok.inj h
  split
  · rcases exec_decodeWrite (a.toNat / 2 ^ 32 % 256 / 4) (BitVec.ofNat 32 a.toNat) s with hNext | ⟨e, he⟩
    · exact .inl hNext
    · rw [he]
      exact (exec_start_cases e s).imp_right fun hRefused => ⟨⟨e, rfl⟩, hRefused⟩
  · exact .inl (exec_decodeRead _ s)

/-- Settles O7: off the map the decoder rejects the word, on it the decoded row is a move or a refused START. -/
theorem accessesOffTheMapAreRefused : Obligations.AccessesOffTheMapAreRefused := by
  intro s a r hTurns
  rw [step_access hTurns]
  refine ⟨fun hOff => ?_, fun hOff hMod => ?_⟩
  · obtain ⟨e, he⟩ := decodeHostAccess_offMap hOff
    rw [accessStep, decode_access, he]
  · have hDecode := (decode_access a).trans (decodeHostAccess_onMap hOff hMod)
    refine ⟨_, hDecode, decide_eq_true (decode_fmt hDecode), ?_⟩
    rw [accessStep, hDecode]
    exact exec_access_cases hDecode (s.setTurns r)

end Sys2Proof.Machine
end

section
/-! PROOF. The state after reset: the registers as read (O8) and the invariants (O9). -/

namespace Sys2Proof.Machine

/-- An exact read returns the register it names, at any time (46_host_commands R310). -/
theorem exec_exactReads (s : State) : ∀ p ∈ exactReads s.regs, exec p.1 s = .next (readExact p.2 s) := by
  intro p hp
  simp only [exactReads, List.mem_cons, List.not_mem_nil, or_false] at hp
  rcases hp with rfl | rfl | rfl | rfl | rfl | rfl | rfl | rfl | rfl | rfl <;> rfl

/-- A read of a result register is readResult of the register it names (46_host_commands R318). -/
theorem exec_resultReads (s : State) : ∀ p ∈ resultReads s.regs, exec p.1 s = .next (readResult p.2 s) := by
  intro p hp
  simp only [resultReads, List.mem_cons, List.not_mem_nil, or_false] at hp
  rcases hp with rfl | rfl | rfl | rfl | rfl | rfl <;> rfl

theorem readResult_idle {s : State} (h : s.regs.busy = false) (v : Word) : readResult v s = s.setBusData v :=
  if_neg (by simp [h])

/-- While idle every register reads as itself. -/
theorem exec_reads_idle {s : State} (h : s.regs.busy = false) :
    ∀ p ∈ exactReads s.regs ++ resultReads s.regs, exec p.1 s = .next (s.setBusData p.2) := by
  intro p hp
  rcases List.mem_append.1 hp with hExact | hResult
  · exact exec_exactReads s p hExact
  · rw [exec_resultReads s p hResult, readResult_idle h]

/-- Every register reads 0 at its reset value (10_state R51). -/
theorem reset_register_values : ∀ p ∈ exactReads HostRegs.reset ++ resultReads HostRegs.reset, p.2 = 0 := by decide

/-- Settles O8: the reset state is idle, so a read returns its register, and each holds 0. -/
theorem resetReadsZero : Obligations.ResetReadsZero :=
  ⟨fun p hp => ⟨_, exec_reads_idle rfl p hp, reset_register_values p hp⟩, rfl, rfl⟩

/-- With no run in progress the invariant asks for canonical memory alone. -/
theorem Inv.of_idle {s : State} (hMem : memWf s.mem = true) (hBusy : s.regs.busy = false) (hSeq : s.ctl.seq = .idle) :
    Inv s := by
  have notBusy : ¬s.regs.busy = true := by simp [hBusy]
  exact {
    memForm := hMem
    busy := iff_of_false notBusy (absurd hSeq)
    done := (absurd · notBusy)
    cleared := (absurd · notBusy)
    latched := (absurd · notBusy)
    buffers := (absurd · notBusy)
    fits := (absurd · notBusy)
    front := by simp [hSeq] }

/-- With no run in progress the reader's invariant is that of the tables and the link. -/
theorem ReaderInv.of_idle {s : State} (hTables : TablesInv s) (hSeq : s.ctl.seq = .idle) : ReaderInv s where
  reader := by simp [inDeflate, hSeq]
  cl := hTables.cl
  ll := hTables.ll
  d := hTables.d
  counts := by simp [hSeq]
  link := hTables.link

/-- The zeroed tables hold no link, and no link is in progress. -/
theorem reset_tablesInv : TablesInv State.reset := by
  obtain ⟨hCl, hLl, hD⟩ := reset_tables_ok
  exact ⟨hCl, hLl, hD, nofun⟩

/-- Settles O9: the reset state is idle, with empty memory and zeroed tables. -/
theorem resetMeetsInvariants : Obligations.ResetMeetsInvariants :=
  ⟨.of_idle rfl rfl rfl, .of_idle reset_tablesInv rfl⟩

end Sys2Proof.Machine
end

section
/-! PROOF. STATUS, CTRL and CAUSE as read (O28), and irq (O29). -/

namespace Sys2Proof.Machine

theorem getLsbD_eq_of_toNat {w i : Nat} {x : BitVec w} {b : Bool} (h : x.toNat / 2 ^ i % 2 = b.toNat) :
    x.getLsbD i = b := by
  rw [BitVec.getLsbD, Nat.testBit_eq_decide_div_mod_eq, h]
  cases b <;> rfl

theorem extractLsb'_eq_of_toNat {w i n : Nat} {x : BitVec w} {y : BitVec n} (h : x.toNat / 2 ^ i % 2 ^ n = y.toNat) :
    x.extractLsb' i n = y := by
  apply BitVec.eq_of_toNat_eq
  rw [BitVec.extractLsb'_toNat, Nat.shiftRight_eq_div_pow, h]

section layouts

variable (r : HostRegs)

/-- STATUS's fields by weight: BUSY 1, DONE 2, RESULT 4, FORMAT 16, nothing from bit 7 on (10_state R36). -/
theorem statusWord_fields :
    (statusWord r).toNat / 2 ^ 0 % 2 = r.busy.toNat ∧ (statusWord r).toNat / 2 ^ 1 % 2 = r.done.toNat ∧
    (statusWord r).toNat / 2 ^ 2 % 2 ^ 2 = (resultCode r.result).toNat ∧
    (statusWord r).toNat / 2 ^ 4 % 2 ^ 3 = (formatCode r.format).toNat ∧
    (statusWord r).toNat / 2 ^ 7 % 2 ^ 25 = 0 := by
  have hBusy := r.busy.toNat_le
  have hDone := r.done.toNat_le
  have hResult := (resultCode r.result).isLt
  have hFormat := (formatCode r.format).isLt
  rw [statusWord, BitVec.toNat_ofNat]
  omega

theorem statusWord_busy : (statusWord r).getLsbD 0 = r.busy := by
  obtain ⟨h, -, -, -, -⟩ := statusWord_fields r
  exact getLsbD_eq_of_toNat h

theorem statusWord_done : (statusWord r).getLsbD 1 = r.done := by
  obtain ⟨-, h, -, -, -⟩ := statusWord_fields r
  exact getLsbD_eq_of_toNat h

theorem statusWord_result : (statusWord r).extractLsb' 2 2 = resultCode r.result := by
  obtain ⟨-, -, h, -, -⟩ := statusWord_fields r
  exact extractLsb'_eq_of_toNat h

theorem statusWord_format : (statusWord r).extractLsb' 4 3 = formatCode r.format := by
  obtain ⟨-, -, -, h, -⟩ := statusWord_fields r
  exact extractLsb'_eq_of_toNat h

theorem statusWord_reserved : (statusWord r).extractLsb' 7 25 = 0 := by
  obtain ⟨-, -, -, -, h⟩ := statusWord_fields r
  exact extractLsb'_eq_of_toNat h

/-- CTRL as read is IRQ_EN at weight 2 (10_state R35). -/
theorem ctrlWord_toNat : (ctrlWord r).toNat = 2 * r.irqEn.toNat := by
  have hEn := r.irqEn.toNat_le
  rw [ctrlWord, BitVec.toNat_ofNat]
  omega

theorem ctrlWord_start : (ctrlWord r).getLsbD 0 = false :=
  getLsbD_eq_of_toNat (by rw [ctrlWord_toNat, Bool.toNat_false]; omega)

theorem ctrlWord_irqEn : (ctrlWord r).getLsbD 1 = r.irqEn :=
  getLsbD_eq_of_toNat (by rw [ctrlWord_toNat]; have hEn := r.irqEn.toNat_le; omega)

theorem ctrlWord_reserved : (ctrlWord r).extractLsb' 2 30 = 0 :=
  extractLsb'_eq_of_toNat (by
    have hEn := r.irqEn.toNat_le
    rw [ctrlWord_toNat, show (0 : BitVec 30).toNat = 0 from rfl]
    omega)

/-- CAUSE as read is the cause's code (10_state R37). -/
theorem causeWord_toNat : (causeWord r).toNat = (causeCode r.cause).toNat :=
  BitVec.toNat_setWidth_of_le (by decide)

theorem causeWord_code : (causeWord r).extractLsb' 0 8 = causeCode r.cause :=
  extractLsb'_eq_of_toNat (by
    rw [causeWord_toNat]
    have hCode := (causeCode r.cause).isLt
    omega)

theorem causeWord_reserved : (causeWord r).extractLsb' 8 24 = 0 :=
  extractLsb'_eq_of_toNat (by
    have hCode := (causeCode r.cause).isLt
    rw [causeWord_toNat, show (0 : BitVec 24).toNat = 0 from rfl]
    omega)

end layouts

/-- The codes and results of causeSpec are the model's (60_exceptions R340, R341). -/
theorem causeSpec_codes :
    ∀ p ∈ causeSpec, causeCode p.1 = BitVec.ofNat 8 p.2.1 ∧ resultOf p.1 = p.2.2 := by decide

/-- causeSpec leaves no cause out. -/
theorem mem_causeSpec (c : Cause) : c ∈ causeSpec.map (·.1) := by cases c <;> decide

/-- A stop reports the cause it was raised with, and that cause's result (60_exceptions R352). -/
theorem raiseStop_reports (c : Cause) (s : State) :
    (raiseStop c s).regs.cause = c ∧ (raiseStop c s).regs.result = resultOf c := by
  rw [(raiseStop_spec c s).regs]
  exact ⟨rfl, rfl⟩

/-- Settles O28: the fields one by one, then the table of causes. -/
theorem registerLayouts : Obligations.RegisterLayouts := by
  refine ⟨fun r => ⟨statusWord_busy r, statusWord_done r, ?result, ?format, statusWord_reserved r, ctrlWord_start r,
    ctrlWord_irqEn r, ctrlWord_reserved r, causeWord_reserved r, ?code⟩, mem_causeSpec, ?stopResult, ?stop⟩
  case result => rw [statusWord_result]; cases r.result <;> rfl
  case format => rw [statusWord_format]; cases r.format <;> rfl
  case code =>
    intro p hp hCause
    obtain ⟨hCode, -⟩ := causeSpec_codes p hp
    rw [causeWord_code, hCause, hCode]
  case stopResult =>
    intro p hp
    obtain ⟨-, hResult⟩ := causeSpec_codes p hp
    exact hResult
  case stop =>
    intro s p hp
    obtain ⟨-, hResult⟩ := causeSpec_codes p hp
    rw [← hResult]
    exact raiseStop_reports p.1 s

/-- Settles O29: bit 1 of STATUS is DONE and bit 1 of CTRL is IRQ_EN; each write makes one of them false. -/
theorem irqIsDoneAndEnabled : Obligations.IrqIsDoneAndEnabled := by
  intro s
  refine ⟨?_, ⟨_, rfl, ?clearDone⟩, _, rfl, ?setCtrl⟩
  · rw [statusWord_done, ctrlWord_irqEn, irq]
  case clearDone => exact Bool.false_and _
  case setCtrl => exact Bool.and_false _

end Sys2Proof.Machine
end

section
/-! PROOF. What a step writes in host memory: the engine the output bytes it counts (O13), never one already counted (O15), and
no step an input byte (O14); a launch that could break this is no move (O21). -/

namespace Sys2Proof.Machine

variable {s t u : State}

/-! ## Legal launches (20_memory R68, R69, R79) -/

/-- What the launch premises give: neither buffer passes the top of the address space, and no address is in both. -/
theorem launchOk_legal {r : HostRegs} (h : launchOk r = true) :
    r.inBase.toNat + r.inLen.toNat ≤ Config.addrSpace ∧ r.outBase.toNat + r.outCap.toNat ≤ Config.addrSpace ∧
    ∀ a, r.inBase.toNat ≤ a → a < r.inBase.toNat + r.inLen.toNat →
      ¬(r.outBase.toNat ≤ a ∧ a < r.outBase.toNat + r.outCap.toNat) := by
  simp only [launchOk, Bool.and_eq_true, Bool.or_eq_true, decide_eq_true_eq] at h
  obtain ⟨⟨hIn, hOut⟩, hApart⟩ := h
  exact ⟨hIn, hOut, fun a _ _ _ => by omega⟩

/-- Settles O21: each kind of bad buffers contradicts the launch premises, and without them START is refused. -/
theorem startRefusesBadBuffers : Obligations.StartRefusesBadBuffers := by
  intro s e hIdle hBad
  have hRefused : launchOk s.regs ≠ true := by
    intro hOk
    obtain ⟨hIn, hOut, hApart⟩ := launchOk_legal hOk
    rcases hBad with hWraps | hWraps | ⟨a, hInLo, hInHi, hOutLo, hOutHi⟩
    · exact Nat.not_lt.2 hIn hWraps
    · exact Nat.not_lt.2 hOut hWraps
    · exact hApart a hInLo hInHi ⟨hOutLo, hOutHi⟩
  have hNotBusy : ¬(setIrqEn e s).regs.busy = true := by simp [setIrqEn, hIdle]
  exact (if_neg hNotBusy).trans (if_neg hRefused)

/-! ## The engine -/

/-- What EngineKeeps says of memory, which a stop keeps as well: only output bytes that are counted change, and out_len stays
within OUT_CAP (20_memory R69). -/
structure WritesOutput (s t : State) : Prop where
  fits : s.outLen.toNat ≤ outCap s → t.outLen.toNat ≤ outCap s
  mem : ∀ a, (∀ j, s.outLen.toNat ≤ j → j < t.outLen.toNat → a ≠ busAddr s.launch.outBase j) →
    memRead t.mem a = memRead s.mem a

/-- After an operation that keeps, a move that leaves memory and out_len alone. -/
theorem EngineKeeps.writesOutput (h : EngineKeeps s u) (hMem : t.mem = u.mem) (hLen : t.outLen = u.outLen) :
    WritesOutput s t :=
  ⟨by rw [hLen]; exact h.fits, by rw [hMem, hLen]; exact h.mem⟩

/-- A step of the engine writes output alone: a row keeps EngineKeeps, and neither a raise nor VERIFY writes a byte. -/
theorem engineStep_writesOutput (h : engineStep s = .next t) : WritesOutput s t := by
  rcases engineStep_cases h with rfl | ⟨-, hKeeps | ⟨c, u, hKeeps, rfl⟩⟩ | ⟨-, rfl⟩
  · exact (EngineKeeps.refl t).writesOutput rfl rfl
  · exact hKeeps.writesOutput rfl rfl
  · exact hKeeps.writesOutput (raiseStop_spec c u).mem (raiseStop_spec c u).outLen
  · obtain ⟨r, c, k, x, hStop, -⟩ := verify_stop s
    rw [hStop]
    exact (EngineKeeps.refl s).writesOutput rfl rfl

/-- Settles O13: while idle the engine does nothing; in a run it writes output alone, and the invariant has out_len within
OUT_CAP. -/
theorem engineWritesOnlyOutput : Obligations.EngineWritesOnlyOutput := by
  intro s t hInv hStep a hChanged
  have hBusy : s.regs.busy = true := by
    refine hInv.busy.2 fun hIdle => hChanged ?_
    cases (engineStep_idle hIdle).symm.trans hStep
    rfl
  have hWrites := engineStep_writesOutput hStep
  have hFits : t.outLen.toNat ≤ outCap s := hWrites.fits (hInv.fits hBusy)
  refine ⟨hBusy, Classical.byContradiction fun hNone => ?_⟩
  exact hChanged (hWrites.mem a fun j hFrom hTo hAddr => hNone ⟨j, hFrom, hTo, Nat.lt_of_lt_of_le hTo hFits, hAddr⟩)

/-- Settles O15: a byte the engine changes is at or past out_len (O13), and below OUT_CAP one address is one offset. -/
theorem outputNeverRewritten : Obligations.OutputNeverRewritten := by
  intro s t hInv hStep j hj hBusy
  refine Classical.byContradiction fun hChanged => ?_
  obtain ⟨-, i, hFrom, -, hCap, hAddr⟩ := engineWritesOnlyOutput s t hInv hStep _ hChanged
  have hSpace := outCap_lt s
  have hSame : j = i := busAddr_inj (by omega) (by omega) hAddr
  omega

/-! ## The input in a run -/

/-- The input of s's run holds the same bytes in t (20_memory R67). -/
def InputKept (s t : State) : Prop := ∀ i, i < inLen s → memRead t.mem (busAddr s.launch.inBase i) = inByte s i

theorem InputKept.of_mem (h : t.mem = s.mem) : InputKept s t := fun _ _ => by rw [h, inByte]

/-- Memory that changed only inside the output buffer holds the input as it was: the buffers are apart. -/
theorem InputKept.of_output (hInv : Inv s) (hBusy : s.regs.busy = true)
    (h : ∀ a, (∀ j, j < outCap s → a ≠ busAddr s.launch.outBase j) → memRead t.mem a = memRead s.mem a) : InputKept s t :=
  fun _ hi => h _ fun _ hj => buffers_apart hInv hBusy hi hj

/-- The engine (O13). -/
theorem engineStep_inputKept (hInv : Inv s) (hBusy : s.regs.busy = true) (h : engineStep s = .next t) : InputKept s t := by
  refine .of_output hInv hBusy fun a hOut => Classical.byContradiction fun hChanged => ?_
  obtain ⟨-, j, -, -, hCap, hAddr⟩ := engineWritesOnlyOutput s t hInv h a hChanged
  exact hOut j hCap hAddr

/-- In a run a register access leaves memory alone (46_host_commands R312 to R318). -/
theorem accessStep_mem_busy {a : Access} (hBusy : s.regs.busy = true) (h : accessStep a s = .next t) : t.mem = s.mem := by
  cases hDecode : decode .hostAccess a.toNat with
  | ok i =>
    rw [accessStep, hDecode] at h
    obtain ⟨-, -, hMem, -⟩ := access_busy hBusy (decide_eq_true (decode_fmt hDecode)) h
    exact hMem
  | error e =>
    rw [accessStep, hDecode] at h
    cases h

theorem hostReadMem_mem (a : Addr) (s : State) : (hostReadMem a s).mem = s.mem := by
  rw [hostReadMem]
  split <;> rfl

/-- A buffer that does not wrap holds exactly the addresses of its bytes. -/
theorem inBuffer_iff {base len a : Word} (hTop : base.toNat + len.toNat ≤ Config.addrSpace) :
    inBuffer base len a = true ↔ ∃ i, i < len.toNat ∧ a.toNat = busAddr base i := by
  simp only [inBuffer, Bool.and_eq_true, decide_eq_true_eq]
  constructor
  · rintro ⟨hLo, hHi⟩
    exact ⟨a.toNat - base.toNat, by omega, by rw [busAddr_eq (by omega)]; omega⟩
  · rintro ⟨i, hi, hAddr⟩
    rw [hAddr, busAddr_eq (by omega)]
    omega

/-- In a run the input buffer does not wrap (20_memory R68). -/
theorem Inv.input_fits (hInv : Inv s) (hBusy : s.regs.busy = true) :
    s.launch.inBase.toNat + s.launch.inLen.toNat ≤ Config.addrSpace := by
  obtain ⟨hIn, -, -⟩ := launchOk_legal (hInv.buffers hBusy)
  rw [hInv.latched hBusy]
  exact hIn

/-- A host write that is a move during a run is outside the input (70_reset_and_hazards R390). -/
theorem hostWriteMem_inputKept {a : Addr} {b : Byte} (hInv : Inv s) (hBusy : s.regs.busy = true)
    (h : hostWriteMem a b s = .next t) : InputKept s t := by
  intro i hi
  have hInput : a.toNat = busAddr s.launch.inBase i → inBuffer s.launch.inBase s.launch.inLen a = true :=
    fun hAddr => (inBuffer_iff (hInv.input_fits hBusy)).2 ⟨i, hi, hAddr⟩
  rw [hostWriteMem] at h
  split at h
  case isTrue => cases h
  case isFalse hOutside =>
    cases h
    exact memRead_memWrite_ne _ _ fun hAddr => hOutside (by simp [hBusy, hInput hAddr.symm])

/-- The output bytes in flight lie within OUT_CAP (70_reset_and_hazards R380, R381). -/
theorem inFlight_fits {j : Nat} (hInv : Inv s) (hFrom : s.outLen.toNat ≤ j) (hTo : j < s.outLen.toNat + inFlight s) :
    j < outCap s := by
  rw [inFlight] at hTo
  split at hTo
  case isTrue hBusy =>
    split at hTo
    case h_1 t hStep =>
      have hFits := (engineStep_writesOutput hStep).fits (hInv.fits hBusy)
      omega
    case h_2 => omega
  case isFalse => omega

/-- A reset changes at most output bytes that are not counted yet (70_reset_and_hazards R380, 93_implementation_defined U1). -/
theorem resetEvent_mem (hInv : Inv s) {a : Nat}
    (hOut : ∀ j, s.outLen.toNat ≤ j → j < outCap s → a ≠ busAddr s.launch.outBase j) :
    memRead (resetEvent s).mem a = memRead s.mem a := by
  obtain ⟨m, n, hFree, -, hKept⟩ := freeOutput_spec (inFlight s) s.outLen.toNat s
  have hMem : (resetEvent s).mem = m := by simp [resetEvent, hFree]
  rw [hMem]
  exact hKept a fun j hFrom hTo => hOut j hFrom (inFlight_fits hInv hFrom hTo)

/-- No move of the schedule changes the input of a run. -/
theorem turnStep_inputKept (m : Turn) (hInv : Inv s) (hBusy : s.regs.busy = true) (h : turnStep m s = .next t) :
    InputKept s t := by
  cases m with
  | engine => exact engineStep_inputKept hInv hBusy h
  | access a => exact .of_mem (accessStep_mem_busy hBusy h)
  | hostRead a => cases h; exact .of_mem (hostReadMem_mem a s)
  | hostWrite a b => exact hostWriteMem_inputKept hInv hBusy h
  | reset => cases h; exact .of_output hInv hBusy fun _ hOut => resetEvent_mem hInv fun j _ hj => hOut j hj

/-- A step is a move with the rest of the schedule left: the next one, or the engine's where the schedule is empty. -/
theorem step_eq_turnStep (s : State) : ∃ m r, step s = turnStep m (s.setTurns r) := by
  cases hTurns : s.turns with
  | nil =>
    have hSame : s.setTurns [] = s := by rw [← hTurns]; rfl
    exact ⟨.engine, [], by rw [step, hTurns, hSame]; rfl⟩
  | cons m r => exact ⟨m, r, by rw [step, hTurns]⟩

/-- The invariant does not see the schedule. -/
theorem Inv.setTurns (h : Inv s) (r : List Turn) : Inv (s.setTurns r) :=
  h.same rfl rfl rfl rfl Iff.rfl fun hWrap => ⟨hWrap, rfl⟩

/-- Settles O14: a step is one move of the schedule, and none changes the input. -/
theorem inputNeverChanges : Obligations.InputNeverChanges := by
  intro s t hInv hBusy hStep
  obtain ⟨m, r, hMove⟩ := step_eq_turnStep s
  exact turnStep_inputKept (s := s.setTurns r) m (hInv.setTurns r) hBusy (hMove.symm.trans hStep)

end Sys2Proof.Machine
end

section
/-! PROOF. The encoding (30_encoding.md): every well-formed row decodes back (O1), what decodes is well-formed and encodes back
(O2), and one word of each format (O3). Per format: the fields of an encoded word, decoding after encoding, and encoding after
decoding. -/

namespace Sys2Proof

open Sys2Proof.Laws

variable {w : Nat} {i : Instr}

/-! ## Words that fit, and their fields -/

/-- What decodes fits its format's width. -/
theorem fits_of_decode {f : Fmt} (h : decode f w = .ok i) : w < 2 ^ f.width := by
  refine Nat.lt_of_not_le fun hWide => ?_
  unfold decode at h
  rw [if_pos hWide] at h
  cases h

/-! A word that fits is decoded by its format's own decoder. -/

theorem decode_blockHeader (h : w < 2 ^ 3) : decode .blockHeader w = .ok (decodeBlockHeader w) := if_neg (Nat.not_le.2 h)
theorem decode_clSymbol (h : w < 2 ^ 5) : decode .clSymbol w = .ok (decodeClSymbol w) := if_neg (Nat.not_le.2 h)
theorem decode_llSymbol (h : w < 2 ^ 9) : decode .llSymbol w = decodeLlSymbol w := if_neg (Nat.not_le.2 h)
theorem decode_distSymbol (h : w < 2 ^ 5) : decode .distSymbol w = decodeDistSymbol w := if_neg (Nat.not_le.2 h)
theorem decode_tableEntry (h : w < 2 ^ 32) : decode .tableEntry w = .ok (decodeTableEntry w) := if_neg (Nat.not_le.2 h)
theorem decode_zlibSniff (h : w < 2 ^ 16) : decode .zlibSniff w = decodeZlibSniff w := if_neg (Nat.not_le.2 h)
theorem decode_zlibVerdict (h : w < 2 ^ 16) : decode .zlibVerdict w = decodeZlibVerdict w := if_neg (Nat.not_le.2 h)
theorem decode_gzipFlg (h : w < 2 ^ 8) : decode .gzipFlg w = decodeGzipFlg w := if_neg (Nat.not_le.2 h)
theorem decode_wrapper (h : w < 2 ^ 48) : decode .wrapper w = .ok (decodeWrapper w) := if_neg (Nat.not_le.2 h)
theorem decode_hostAccess (h : w < 2 ^ 41) : decode .hostAccess w = decodeHostAccess w := if_neg (Nat.not_le.2 h)

/-- Row i is well-formed and w is its word in format f. -/
def IsRowOf (f : Fmt) (w : Nat) (i : Instr) : Prop := i.wf = true ∧ encode i = (f, w)

theorem toNat_fieldAt (w lo n : Nat) : (fieldAt w lo n).toNat = w / 2 ^ lo % 2 ^ n := by
  rw [fieldAt, BitVec.toNat_ofNat, Nat.shiftRight_eq_div_pow]

/-- A field is the value that stands there. -/
theorem fieldAt_eq_of_toNat {w lo n : Nat} {x : BitVec n} (h : w / 2 ^ lo % 2 ^ n = x.toNat) : fieldAt w lo n = x :=
  BitVec.eq_of_toNat_eq ((toNat_fieldAt w lo n).trans h)

/-- A flag is the bit that stands there. -/
theorem testBit_eq_of_toNat {w k : Nat} {b : Bool} (h : w / 2 ^ k % 2 = b.toNat) : w.testBit k = b := by
  rw [Nat.testBit_eq_decide_div_mod_eq, h]
  cases b <;> rfl

/-! ## Block headers (R91, R92) -/

/-- A block header's bits are BFINAL and BTYPE, and each BTYPE has its row. -/
theorem decodeBlockHeader_isRow : ∀ w < 2 ^ 3, IsRowOf .blockHeader w (decodeBlockHeader w) := by
  unfold IsRowOf
  decide

theorem isRow_of_decode_blockHeader (h : decode .blockHeader w = .ok i) : IsRowOf .blockHeader w i := by
  have hFits := fits_of_decode h
  rw [decode_blockHeader hFits] at h
  cases h
  exact decodeBlockHeader_isRow w hFits

/-! ## Code-length symbols (R97) -/

theorem decode_clLiteral (l : BitVec 4) : decode .clSymbol l.toNat = .ok (.clLiteral l) := by
  rw [decode_clSymbol (Nat.lt_trans l.isLt (by decide)), decodeClSymbol, if_pos l.isLt, BitVec.ofNat_toNat, BitVec.setWidth_eq]

theorem decode_clUnknown {s : BitVec 5} (h : 19 ≤ s.toNat) : decode .clSymbol s.toNat = .ok (.clUnknown s) := by
  rw [decode_clSymbol s.isLt, decodeClSymbol, if_neg (by omega), if_neg (by omega), if_neg (by omega), if_neg (by omega),
    BitVec.ofNat_toNat, BitVec.setWidth_eq]

theorem isRow_of_decode_clSymbol (h : decode .clSymbol w = .ok i) : IsRowOf .clSymbol w i := by
  have hFits := fits_of_decode h
  rw [decode_clSymbol hFits] at h
  cases h
  unfold decodeClSymbol
  split
  case isTrue hLit => exact ⟨rfl, by rw [encode, BitVec.toNat_ofNat, Nat.mod_eq_of_lt hLit]⟩
  case isFalse hLit =>
  split
  case isTrue h16 => exact ⟨rfl, h16 ▸ rfl⟩
  case isFalse h16 =>
  split
  case isTrue h17 => exact ⟨rfl, h17 ▸ rfl⟩
  case isFalse h17 =>
  split
  case isTrue h18 => exact ⟨rfl, h18 ▸ rfl⟩
  case isFalse h18 =>
  have hSym : (BitVec.ofNat 5 w).toNat = w := Nat.mod_eq_of_lt hFits
  exact ⟨decide_eq_true (by omega), by rw [encode, hSym]⟩

/-! ## Literal/length and distance symbols (R98 to R100) -/

theorem decode_lit (b : Byte) : decode .llSymbol b.toNat = .ok (.lit b) := by
  rw [decode_llSymbol (Nat.lt_trans b.isLt (by decide)), decodeLlSymbol, if_pos b.isLt, BitVec.ofNat_toNat, BitVec.setWidth_eq]

/-- The rows of lengthRows are those of the symbols from 257 on, in order. -/
theorem lengthRows_isRow : ∀ k, (h : k < lengthRows.length) → IsRowOf .llSymbol (257 + k) lengthRows[k] := by
  unfold IsRowOf
  decide

/-- The rows of distRows are those of the symbols from 0 on, in order. -/
theorem distRows_isRow : ∀ d, (h : d < distRows.length) → IsRowOf .distSymbol d distRows[d] := by
  unfold IsRowOf
  decide

theorem isRow_of_decode_llSymbol (h : decode .llSymbol w = .ok i) : IsRowOf .llSymbol w i := by
  rw [decode_llSymbol (fits_of_decode h)] at h
  unfold decodeLlSymbol at h
  split at h
  case isTrue hLit =>
    cases h
    exact ⟨rfl, by rw [encode, BitVec.toNat_ofNat, Nat.mod_eq_of_lt hLit]⟩
  case isFalse hLit =>
  split at h
  case isTrue hEob => cases h; exact ⟨rfl, hEob ▸ rfl⟩
  case isFalse hEob =>
  obtain ⟨k, rfl⟩ : ∃ k, w = 257 + k := ⟨w - 257, by omega⟩
  rw [Nat.add_sub_cancel_left] at h
  split at h
  case h_1 j hj =>
    cases h
    obtain ⟨hk, rfl⟩ := List.getElem?_eq_some_iff.1 hj
    exact lengthRows_isRow k hk
  case h_2 => cases h

theorem isRow_of_decode_distSymbol (h : decode .distSymbol w = .ok i) : IsRowOf .distSymbol w i := by
  rw [decode_distSymbol (fits_of_decode h)] at h
  unfold decodeDistSymbol at h
  split at h
  case h_1 j hj =>
    cases h
    obtain ⟨hd, rfl⟩ := List.getElem?_eq_some_iff.1 hj
    exact distRows_isRow w hd
  case h_2 => cases h

/-! ## Table entries (R104, R105, R109) -/

section entries

variable (p : BitVec 24) (l t : Bool) (n : BitVec 6)

theorem fieldAt_entryWord_payload : fieldAt (entryWord p l t n) 8 24 = p := by
  have hn := n.isLt
  have hp := p.isLt
  have hl := Bool.toNat_le l
  have ht := Bool.toNat_le t
  exact fieldAt_eq_of_toNat (by rw [entryWord]; omega)

theorem testBit_entryWord_l : (entryWord p l t n).testBit 7 = l := by
  have hn := n.isLt
  have hl := Bool.toNat_le l
  have ht := Bool.toNat_le t
  exact testBit_eq_of_toNat (by rw [entryWord]; omega)

theorem testBit_entryWord_t : (entryWord p l t n).testBit 6 = t := by
  have hn := n.isLt
  have ht := Bool.toNat_le t
  exact testBit_eq_of_toNat (by rw [entryWord]; omega)

theorem fieldAt_entryWord_nbits : fieldAt (entryWord p l t n) 0 6 = n := by
  have hn := n.isLt
  exact fieldAt_eq_of_toNat (by rw [entryWord]; omega)

/-- The fields of an entry other than the sentinel choose its row and are its operands. -/
theorem decode_entryWord (h : entryWord p l t n ≠ 0xFF) :
    decode .tableEntry (entryWord p l t n) =
      .ok (if l then .entryLink p t n else if t then .entryLiteral p n else .entryValue p n) := by
  rw [decode_tableEntry (EncodeFits.entry_fits p l t n), decodeTableEntry, if_neg h, fieldAt_entryWord_payload,
    fieldAt_entryWord_nbits, testBit_entryWord_l, testBit_entryWord_t]

/-- A terminal's L is 0, the sentinel's 1. -/
theorem entryWord_terminal_ne_sentinel : entryWord p false t n ≠ 0xFF := by
  intro h
  have hL := testBit_entryWord_l p false t n
  rw [h] at hL
  exact absurd hL (by decide)

/-- A link is well-formed where its word is not the sentinel's (R105). -/
theorem wf_entryLink_iff : (Instr.entryLink p t n).wf = true ↔ entryWord p true t n ≠ 0xFF := by
  have hn := n.isLt
  have ht := Bool.toNat_le t
  have hSentinel : entryWord p true t n = 0xFF ↔ (p = 0 ∧ t = true) ∧ n = 63 := by
    rw [← BitVec.toNat_inj, ← BitVec.toNat_inj, ← Bool.toNat_eq_one]
    change _ ↔ (p.toNat = 0 ∧ t.toNat = 1) ∧ n.toNat = 63
    rw [entryWord, Bool.toNat_true]
    omega
  simp only [Instr.wf, Bool.not_eq_true', Bool.eq_false_iff, Bool.and_eq_true, decide_eq_true_eq, ne_eq, hSentinel]

/-- Every word of 32 bits is an entry's. -/
theorem entryWord_fields (hw : w < 2 ^ 32) :
    entryWord (fieldAt w 8 24) (w.testBit 7) (w.testBit 6) (fieldAt w 0 6) = w := by
  simp only [entryWord, toNat_fieldAt, Nat.toNat_testBit]
  omega

end entries

theorem isRow_of_decode_tableEntry (h : decode .tableEntry w = .ok i) : IsRowOf .tableEntry w i := by
  have hw := entryWord_fields (fits_of_decode h)
  generalize fieldAt w 8 24 = p, w.testBit 7 = l, w.testBit 6 = t, fieldAt w 0 6 = n at hw
  subst hw
  by_cases hSentinel : entryWord p l t n = 0xFF
  · rw [hSentinel] at h ⊢
    cases h
    exact ⟨rfl, rfl⟩
  · rw [decode_entryWord p l t n hSentinel] at h
    cases h
    cases l with
    | true => exact ⟨(wf_entryLink_iff p t n).2 hSentinel, rfl⟩
    | false => cases t <;> exact ⟨rfl, rfl⟩

/-! ## zlib headers (R114) -/

section zlib

variable (c : BitVec 4) (f : Byte)

theorem zlibCM_zlibWord : zlibCM (zlibWord c f) = 8 := by
  have hf := f.isLt
  rw [zlibCM, zlibWord]
  omega

theorem fieldAt_zlibWord_cinfo : fieldAt (zlibWord c f) 12 4 = c := by
  have hc := c.isLt
  have hf := f.isLt
  exact fieldAt_eq_of_toNat (by rw [zlibWord]; omega)

theorem fieldAt_zlibWord_flg : fieldAt (zlibWord c f) 0 8 = f := by
  have hf := f.isLt
  exact fieldAt_eq_of_toNat (by rw [zlibWord]; omega)

/-- FDICT is bit 5 of the word as of FLG. -/
theorem testBit_zlibWord_fdict : (zlibWord c f).testBit 5 = f.getLsbD 5 := by
  refine testBit_eq_of_toNat ?_
  rw [BitVec.getLsbD, Nat.toNat_testBit, zlibWord]
  omega

theorem decode_zlibSniff_zlibWord : decode .zlibSniff (zlibWord c f) = .ok (.zlibSniff c f) := by
  rw [decode_zlibSniff (EncodeFits.zlib_fits c f), decodeZlibSniff, if_pos (zlibCM_zlibWord c f), fieldAt_zlibWord_cinfo,
    fieldAt_zlibWord_flg]

/-- The checks on a CM = 8 header, made in their order on its CINFO and FLG. -/
theorem decode_zlibVerdict_zlibWord :
    decode .zlibVerdict (zlibWord c f) =
      if 7 < c.toNat then .ok (.zlibCinfoBad c f)
      else if zlibWord c f % 31 ≠ 0 then .ok (.zlibFcheckBad c f)
      else if f.getLsbD 5 then .ok (.zlibFdictBad c f)
      else .error .headerValid := by
  rw [decode_zlibVerdict (EncodeFits.zlib_fits c f), decodeZlibVerdict, if_neg (not_not_intro (zlibCM_zlibWord c f)),
    fieldAt_zlibWord_cinfo, fieldAt_zlibWord_flg, testBit_zlibWord_fdict]

theorem wf_zlibCinfoBad_iff : (Instr.zlibCinfoBad c f).wf = true ↔ 7 < c.toNat := decide_eq_true_iff

theorem wf_zlibFcheckBad_iff : (Instr.zlibFcheckBad c f).wf = true ↔ ¬7 < c.toNat ∧ zlibWord c f % 31 ≠ 0 := by
  rw [Instr.wf, Bool.and_eq_true, decide_eq_true_iff, decide_eq_true_iff, Nat.not_lt]

theorem wf_zlibFdictBad_iff :
    (Instr.zlibFdictBad c f).wf = true ↔ ¬7 < c.toNat ∧ ¬zlibWord c f % 31 ≠ 0 ∧ f.getLsbD 5 = true := by
  rw [Instr.wf, Bool.and_eq_true, Bool.and_eq_true, decide_eq_true_iff, decide_eq_true_iff, Nat.not_lt, Decidable.not_not,
    and_assoc]

/-- Every word of 16 bits with CM = 8 is a header's. -/
theorem zlibWord_fields (hw : w < 2 ^ 16) (hCM : zlibCM w = 8) : zlibWord (fieldAt w 12 4) (fieldAt w 0 8) = w := by
  rw [zlibCM] at hCM
  simp only [zlibWord, toNat_fieldAt]
  omega

end zlib

theorem isRow_of_decode_zlibSniff (h : decode .zlibSniff w = .ok i) : IsRowOf .zlibSniff w i := by
  have hFits := fits_of_decode h
  rw [decode_zlibSniff hFits] at h
  unfold decodeZlibSniff at h
  split at h
  case isTrue hCM => cases h; exact ⟨rfl, by rw [encode, zlibWord_fields hFits hCM]⟩
  case isFalse => cases h

/-- A verdict is given on a CM = 8 header alone. -/
theorem zlibCM_of_decode_zlibVerdict (h : decode .zlibVerdict w = .ok i) : zlibCM w = 8 := by
  refine Decidable.byContradiction fun hCM => ?_
  rw [decode_zlibVerdict (fits_of_decode h), decodeZlibVerdict, if_pos hCM] at h
  cases h

/-- A verdict's row is well-formed: its own check fails and those before it pass. -/
theorem isRow_of_decode_zlibVerdict (h : decode .zlibVerdict w = .ok i) : IsRowOf .zlibVerdict w i := by
  have hw := zlibWord_fields (fits_of_decode h) (zlibCM_of_decode_zlibVerdict h)
  generalize fieldAt w 12 4 = c, fieldAt w 0 8 = f at hw
  subst hw
  rw [decode_zlibVerdict_zlibWord] at h
  split at h
  case isTrue hCinfo => cases h; exact ⟨(wf_zlibCinfoBad_iff c f).2 hCinfo, rfl⟩
  case isFalse hCinfo =>
  split at h
  case isTrue hFcheck => cases h; exact ⟨(wf_zlibFcheckBad_iff c f).2 ⟨hCinfo, hFcheck⟩, rfl⟩
  case isFalse hFcheck =>
  split at h
  case isTrue hFdict => cases h; exact ⟨(wf_zlibFdictBad_iff c f).2 ⟨hCinfo, hFcheck, hFdict⟩, rfl⟩
  case isFalse => cases h

/-! ## gzip flags (R116, R117): a row's mask asks that the flags handled before it are clear -/

section gzip

variable (f : Byte)

/-- A mask of one flag more asks for one flag more to be clear. -/
theorem and_or_twoPow_eq_zero (m : Byte) (k : Nat) (hk : BitVec.twoPow 8 k ≠ 0#8) :
    f &&& (m ||| BitVec.twoPow 8 k) = 0 ↔ f &&& m = 0 ∧ ¬f.getLsbD k = true := by
  rw [BitVec.and_or_distrib_left, BitVec.ofNat_eq_ofNat, BitVec.or_eq_zero_iff, BitVec.and_twoPow]
  simp [hk]

theorem mask_ftext : f &&& 0xE1#8 = 0 ↔ f &&& 0xE0#8 = 0 ∧ ¬f.getLsbD 0 = true :=
  and_or_twoPow_eq_zero f 0xE0#8 0 (by decide)

theorem mask_fextra : f &&& 0xE5#8 = 0 ↔ f &&& 0xE1#8 = 0 ∧ ¬f.getLsbD 2 = true :=
  and_or_twoPow_eq_zero f 0xE1#8 2 (by decide)

theorem mask_fname : f &&& 0xED#8 = 0 ↔ f &&& 0xE5#8 = 0 ∧ ¬f.getLsbD 3 = true :=
  and_or_twoPow_eq_zero f 0xE5#8 3 (by decide)

theorem mask_fcomment : f &&& 0xFD#8 = 0 ↔ f &&& 0xED#8 = 0 ∧ ¬f.getLsbD 4 = true :=
  and_or_twoPow_eq_zero f 0xED#8 4 (by decide)

/-- FHCRC alone is left where every other flag is clear. -/
theorem eq_fhcrc_iff : f = 0x02#8 ↔ f &&& 0xFD#8 = 0 ∧ f.getLsbD 1 = true := by
  constructor
  · rintro rfl; decide
  · rintro ⟨hMask, hBit⟩
    calc f = f &&& (0xFD#8 ||| BitVec.twoPow 8 1) := (BitVec.and_allOnes (x := f)).symm
      _ = 0x02#8 := by rw [BitVec.and_or_distrib_left, hMask, BitVec.and_twoPow, if_pos hBit]; rfl

/-- The flags of a byte, taken in the decoder's order. -/
theorem decode_gzipFlg_byte :
    decode .gzipFlg f.toNat =
      if f &&& 0xE0#8 ≠ 0 then .ok (.gzFlagsReserved f)
      else if f.getLsbD 0 then .ok (.gzFtext f)
      else if f.getLsbD 2 then .ok (.gzFextra f)
      else if f.getLsbD 3 then .ok (.gzFname f)
      else if f.getLsbD 4 then .ok (.gzFcomment f)
      else if f.getLsbD 1 then .ok (.gzFhcrc f)
      else .error .noFlag := by
  rw [decode_gzipFlg f.isLt, decodeGzipFlg, BitVec.ofNat_toNat, BitVec.setWidth_eq]

/-- The rows of the FLG bits f. -/
def gzipRows : List Instr := [.gzFlagsReserved f, .gzFtext f, .gzFextra f, .gzFname f, .gzFcomment f, .gzFhcrc f]

variable {f}

/-- A well-formed row's own flag is set and those handled before it are clear, so the decoder comes to it. -/
theorem decode_of_mem_gzipRows (hRow : i ∈ gzipRows f) (hWf : i.wf = true) : decode .gzipFlg f.toNat = .ok i := by
  simp only [gzipRows, List.mem_cons, List.not_mem_nil, or_false] at hRow
  rcases hRow with rfl | rfl | rfl | rfl | rfl | rfl
  all_goals
    simp only [Instr.wf, Bool.and_eq_true, decide_eq_true_eq, eq_fhcrc_iff, mask_fcomment, mask_fname, mask_fextra,
      mask_ftext] at hWf
    simp only [decode_gzipFlg_byte, hWf, ne_eq, not_true_eq_false, not_false_eq_true, Bool.false_eq_true,
      if_true, if_false]

/-- The flags the decoder passed over are clear, which is what the mask of the row it gives asks. -/
theorem isRow_of_decode_gzipFlg (h : decode .gzipFlg w = .ok i) : IsRowOf .gzipFlg w i := by
  obtain ⟨f, rfl⟩ : ∃ f : Byte, w = f.toNat := ⟨BitVec.ofNat 8 w, (Nat.mod_eq_of_lt (fits_of_decode h)).symm⟩
  rw [decode_gzipFlg_byte] at h
  repeat' split at h
  all_goals cases h
  all_goals
    refine ⟨?_, rfl⟩
    simp only [Instr.wf, Bool.and_eq_true, decide_eq_true_eq, eq_fhcrc_iff, mask_fcomment, mask_fname, mask_fextra,
      mask_ftext]
    simp_all only [ne_eq, Decidable.not_not, Bool.false_eq_true, not_false_eq_true, and_self]

end gzip

/-! ## The wrapper and register accesses (R120, 42_wrapper R190): their rows' operands are free -/

theorem wf_of_decode_wrapper (h : decode .wrapper w = .ok i) : i.wf = true := by
  rw [decode_wrapper (fits_of_decode h)] at h
  cases h
  simp only [decodeWrapper]
  split
  · rfl
  · split <;> rfl

theorem decodeWrite_wf (k : Nat) (v : Word) : (decodeWrite k v).wf = true := by
  unfold decodeWrite
  split
  case h_1 => split <;> rfl -- CTRL: START or SET_CTRL
  case h_2 => split <;> rfl -- STATUS: CLEAR_DONE or no effect
  all_goals rfl

theorem decodeRead_wf (k : Nat) : (decodeRead k).wf = true := by
  unfold decodeRead
  split <;> rfl

theorem wf_of_decode_hostAccess (h : decode .hostAccess w = .ok i) : i.wf = true := by
  rw [decode_hostAccess (fits_of_decode h)] at h
  have hOn : ¬(0x40 ≤ w / 2 ^ 32 % 256 ∨ w / 2 ^ 32 % 4 ≠ 0) := fun hOff => by
    obtain ⟨e, he⟩ := Machine.decodeHostAccess_offMap hOff
    rw [he] at h
    cases h
  rw [Machine.decodeHostAccess_onMap (by omega) (by omega)] at h
  cases Except.ok.inj h
  split
  · exact decodeWrite_wf _ _
  · exact decodeRead_wf _

theorem decode_writeWord {k : Nat} (hk : k < 16) (v : Word) :
    decode .hostAccess (writeWord k v.toNat) = .ok (decodeWrite k v) := by
  have hv := v.isLt
  have hBit : (writeWord k v.toNat).testBit 40 = true := testBit_eq_of_toNat (by rw [writeWord, Bool.toNat_true]; omega)
  have hData : BitVec.ofNat 32 (writeWord k v.toNat) = v :=
    BitVec.eq_of_toNat_eq (by rw [BitVec.toNat_ofNat, writeWord]; omega)
  have hReg : writeWord k v.toNat / 2 ^ 32 % 256 = 4 * k := by rw [writeWord]; omega
  rw [decode_hostAccess (EncodeFits.access_fits k v hk), Machine.decodeHostAccess_onMap (by omega) (by omega), if_pos hBit,
    hData, hReg, Nat.mul_div_cancel_left k (by decide)]

theorem decode_readWord {k : Nat} (hk : k < 16) : decode .hostAccess (readWord k) = .ok (decodeRead k) := by
  have hBit : (readWord k).testBit 40 = false := testBit_eq_of_toNat (by rw [readWord, Bool.toNat_false]; omega)
  have hReg : readWord k / 2 ^ 32 % 256 = 4 * k := by rw [readWord]; omega
  rw [decode_hostAccess (by rw [readWord]; omega), Machine.decodeHostAccess_onMap (by omega) (by omega), if_neg (by simp [hBit]),
    hReg, Nat.mul_div_cancel_left k (by decide)]

/-- The last four registers are the reserved ones, told apart by bits 2 and 3 of the offset. -/
theorem decodeRead_reserved : ∀ k : BitVec 2, decodeRead (12 + k.toNat) = .readReserved k := by decide

/-! ## The obligations -/

/-- Settles O1: the rows with operands by their format's fields; each row without operands has one word, which is evaluated. -/
theorem decodeOfEncode : Obligations.DecodeOfEncode := by
  intro i hWf
  cases i with
  | blockStored b | blockFixed b | blockDynamic b | blockReserved b => cases b <;> rfl
  | clLiteral l => exact decode_clLiteral l
  | clUnknown s => exact decode_clUnknown (of_decide_eq_true hWf)
  | lit b => exact decode_lit b
  | entryLink p t n => exact decode_entryWord p true t n ((wf_entryLink_iff p t n).1 hWf)
  | entryLiteral p n => exact decode_entryWord p false true n (entryWord_terminal_ne_sentinel p true n)
  | entryValue p n => exact decode_entryWord p false false n (entryWord_terminal_ne_sentinel p false n)
  | zlibSniff c f => exact decode_zlibSniff_zlibWord c f
  | zlibCinfoBad c f =>
    exact (decode_zlibVerdict_zlibWord c f).trans (if_pos ((wf_zlibCinfoBad_iff c f).1 hWf))
  | zlibFcheckBad c f =>
    obtain ⟨hCinfo, hFcheck⟩ := (wf_zlibFcheckBad_iff c f).1 hWf
    rw [encode, decode_zlibVerdict_zlibWord, if_neg hCinfo, if_pos hFcheck]
  | zlibFdictBad c f =>
    obtain ⟨hCinfo, hFcheck, hFdict⟩ := (wf_zlibFdictBad_iff c f).1 hWf
    rw [encode, decode_zlibVerdict_zlibWord, if_neg hCinfo, if_neg hFcheck, if_pos hFdict]
  | gzFlagsReserved f | gzFtext f | gzFextra f | gzFname f | gzFcomment f | gzFhcrc f =>
    exact decode_of_mem_gzipRows (by simp [gzipRows]) hWf
  | start e | setCtrl e => cases e <;> rfl
  | writeInBase v | writeInLen v | writeOutBase v | writeOutCap v | writeIgnoredCause v | writeIgnoredOutLen v
  | writeIgnoredCheckCalc v | writeIgnoredCheckExp v | writeIgnoredIsize v | writeIgnoredInBitpos v
  | writeIgnoredRsvd30 v | writeIgnoredRsvd34 v | writeIgnoredRsvd38 v | writeIgnoredRsvd3C v =>
    exact decode_writeWord (by decide) v
  | readReserved k =>
    have hk := k.isLt
    exact (decode_readWord (by omega)).trans (congrArg Except.ok (decodeRead_reserved k))
  | _ => rfl

/-- In a format without ignored bits, a word decodes to the row it is the word of. -/
theorem isRow_of_decode {f : Fmt} (h : decode f w = .ok i) (hWrapper : f ≠ .wrapper) (hAccess : f ≠ .hostAccess) :
    IsRowOf f w i := by
  cases f with
  | blockHeader => exact isRow_of_decode_blockHeader h
  | clSymbol => exact isRow_of_decode_clSymbol h
  | llSymbol => exact isRow_of_decode_llSymbol h
  | distSymbol => exact isRow_of_decode_distSymbol h
  | tableEntry => exact isRow_of_decode_tableEntry h
  | zlibSniff => exact isRow_of_decode_zlibSniff h
  | zlibVerdict => exact isRow_of_decode_zlibVerdict h
  | gzipFlg => exact isRow_of_decode_gzipFlg h
  | wrapper => exact absurd rfl hWrapper
  | hostAccess => exact absurd rfl hAccess

theorem wf_of_decode {f : Fmt} (h : decode f w = .ok i) : i.wf = true := by
  by_cases hWrapper : f = .wrapper
  · subst hWrapper
    exact wf_of_decode_wrapper h
  by_cases hAccess : f = .hostAccess
  · subst hAccess
    exact wf_of_decode_hostAccess h
  exact (isRow_of_decode h hWrapper hAccess).1

/-- Settles O2: what a format decodes is well-formed, and in a format without ignored bits it is the row of the word decoded. -/
theorem encodeOfDecode : Obligations.EncodeOfDecode := fun _ _ _ h =>
  ⟨wf_of_decode h, fun hWrapper hAccess => (isRow_of_decode h hWrapper hAccess).2⟩

/-- Settles O3: each word is evaluated. -/
theorem sampleWordsDecode : Obligations.SampleWordsDecode := by
  refine ⟨?_, ?_, ?_, ?_, ?_, ?_, ?_, ?_, ?_, ?_, ?_, ?_, ?_⟩
  all_goals rfl

end Sys2Proof
end

section
/-! PROOF. The reader's invariants (O12): each move of the schedule keeps them. The engine's front end starts the reader or stays
before the data, a row of DEFLATE data leads from a Run to a Run or to a stop, and the host's moves leave the reader and the
input bytes it reads as they were. -/

namespace Sys2Proof.Machine

variable {s t u : State} {i : Instr}

/-! ## ReaderInv from its parts -/

/-- Outside DEFLATE data the reader's invariant is that of the tables and the link. -/
theorem ReaderInv.of_notDeflate (h : TablesInv s) (hOut : inDeflate s = false) : ReaderInv s where
  reader hIn := absurd hIn (by simp [hOut])
  cl := h.cl
  ll := h.ll
  d := h.d
  counts hSeq := by simp [inDeflate, hSeq] at hOut
  link := h.link

theorem ReaderInv.tables (h : ReaderInv s) : TablesInv s := ⟨h.cl, h.ll, h.d, h.link⟩

theorem Run.readerInv (h : Run s) : ReaderInv s :=
  ⟨fun _ => ⟨h.reader, h.inside⟩, h.weak.cl, h.weak.ll, h.weak.d, h.counts, h.weak.link⟩

theorem Inv.busy_of_inDeflate (hInv : Inv s) (hIn : inDeflate s = true) : s.regs.busy = true :=
  hInv.busy.2 fun hIdle => by simp [inDeflate, hIdle] at hIn

/-- While DEFLATE data is decoded the two invariants make a Run. -/
theorem ReaderInv.run (h : ReaderInv s) (hInv : Inv s) (hIn : inDeflate s = true) : Run s := by
  obtain ⟨hReader, hInside⟩ := h.reader hIn
  exact ⟨hInv, hInv.busy_of_inDeflate hIn, hReader, hInside, h.counts, h.tables⟩

/-- A stop leaves the tables and the link, and no DEFLATE data is decoded after it. -/
theorem raiseStop_readerInv (h : TablesInv s) (c : Cause) : ReaderInv (raiseStop c s) := by
  have hSeq : (raiseStop c s).ctl.seq = .idle := (raiseStop_spec c s).seq
  refine .of_idle ⟨?_, ?_, ?_, ?_⟩ hSeq
  · rw [raiseStop_tab]; exact h.cl
  · rw [raiseStop_tab]; exact h.ll
  · rw [raiseStop_tab]; exact h.d
  · rw [raiseStop_ctl]; exact h.link

theorem verify_readerInv (h : TablesInv s) : ReaderInv (verify s) := by
  obtain ⟨r, c, k, x, hStop, -⟩ := verify_stop s
  rw [hStop]
  exact .of_idle ⟨h.cl, h.ll, h.d, h.link⟩ rfl

/-- The reader's invariant does not see the schedule. -/
theorem ReaderInv.setTurns (h : ReaderInv s) (r : List Turn) : ReaderInv (s.setTurns r) where
  reader hIn := (h.reader hIn).imp_left fun hReader => hReader.congr rfl fun _ => rfl
  cl := h.cl
  ll := h.ll
  d := h.d
  counts := h.counts
  link := h.link

/-- Every next state the outcome gives meets the reader's invariant. -/
def LeadsToReaderInv (o : Host.Outcome State Fault Refusal) : Prop := ∀ t, o = .next t → ReaderInv t

theorem LeadsToReaderInv.next (h : ReaderInv t) : LeadsToReaderInv (.next t) := by
  intro u hNext
  cases hNext
  exact h

theorem LeadsToReaderInv.raise (h : TablesInv s) (c : Cause) : LeadsToReaderInv (.next (raiseStop c s)) :=
  .next (raiseStop_readerInv h c)

theorem ResOk.leads {α : Type} {r : Res α} (h : ResOk r) : LeadsToReaderInv r.finish := by
  cases h with
  | ok hRun => exact .next hRun.readerInv
  | raised hTables => exact .raise hTables _

theorem Res.Post.leads {α : Type} {r : Res α} (h : r.Post ReaderInv) : LeadsToReaderInv r.finish := by
  cases h with
  | ok hReader => exact .next hReader
  | raised hReader => exact .raise hReader.tables _

/-! ## The front end -/

/-- A 32-bit register holds no more than the number written to it. -/
theorem toNat_ofNat_le (n : Nat) : (BitVec.ofNat 32 n).toNat ≤ n := by
  rw [BitVec.toNat_ofNat]
  exact Nat.mod_le _ _

/-- The reader's start state is at the beginning of its region (40_bitreader R150). -/
theorem acceptWrapper_readerInv (h : TablesInv s) {stop : Nat} (hStop : stop ≤ inLen s) (f : StreamFmt) (start : Nat)
    (x y : Word) : ReaderInv (acceptWrapper f start stop x y s) where
  reader _ := by
    refine ⟨⟨Nat.zero_le _, ?_, rfl⟩, ?_⟩
    · exact Nat.mul_le_mul_left 8 (toNat_ofNat_le start)
    · exact Nat.le_trans (toNat_ofNat_le stop) hStop
  cl := h.cl
  ll := h.ll
  d := h.d
  counts := nofun
  link := h.link

theorem gzipNext_readerInv (h : TablesInv s) (hWrap : s.ctl.seq = .wrap) (left : Byte) (p : Nat) :
    ReaderInv (gzipNext left p s) := by
  unfold gzipNext
  split
  · exact acceptWrapper_readerInv h (Nat.sub_le _ _) _ _ _ _
  · exact .of_notDeflate ⟨h.cl, h.ll, h.d, h.link⟩ (by simp [inDeflate, hWrap])

section front

variable (h : TablesInv s) (hWrap : s.ctl.seq = .wrap)
include h hWrap

theorem TablesInv.wrap_readerInv : ReaderInv s := .of_notDeflate h (by simp [inDeflate, hWrap])

theorem skipExtra_readerInv (left : Byte) : (skipExtra left s).Post ReaderInv := by
  unfold skipExtra
  dsimp only
  split
  · exact .raised (h.wrap_readerInv hWrap)
  · split
    · exact .raised (h.wrap_readerInv hWrap)
    · exact .ok (gzipNext_readerInv h hWrap _ _)

theorem skipString_readerInv (left : Byte) : (skipString left s).Post ReaderInv := by
  unfold skipString
  split
  · exact .ok (gzipNext_readerInv h hWrap _ _)
  · exact .raised (h.wrap_readerInv hWrap)

theorem checkHeaderCrc_readerInv (left : Byte) : (checkHeaderCrc left s).Post ReaderInv := by
  have hSums (x : Sums) : TablesInv (s.setSums x) := ⟨h.cl, h.ll, h.d, h.link⟩
  have hNext (x : Sums) (p : Nat) : ReaderInv (gzipNext left p (s.setSums x)) :=
    gzipNext_readerInv (s := s.setSums x) (hSums x) hWrap left p
  unfold checkHeaderCrc
  dsimp only
  split
  · exact .raised (h.wrap_readerInv hWrap)
  · split
    · exact .raised ((hSums _).wrap_readerInv hWrap)
    · exact .ok (hNext _ _)

theorem setWphase_readerInv (w : WrapPhase) : ReaderInv (s.setCtl { s.ctl with wphase := w }) :=
  TablesInv.wrap_readerInv (s := s.setCtl { s.ctl with wphase := w }) ⟨h.cl, h.ll, h.d, h.link⟩ hWrap

theorem wrapGzip_leads : LeadsToReaderInv (execWrapGzip s) := by
  unfold execWrapGzip
  split
  · exact .raise h _
  · exact .next (gzipNext_readerInv h hWrap _ _)

theorem zlibSniff_leads (c : BitVec 4) (f : Byte) : LeadsToReaderInv (execZlibSniff c f s) := by
  unfold execZlibSniff
  split
  · exact .next (acceptWrapper_readerInv h (Nat.sub_le _ _) _ _ _ _)
  · exact .next (setWphase_readerInv h hWrap _)

/-- The front end's rows. -/
theorem exec_front_leads
    (hRow : (encode i).1 = .wrapper ∨ (encode i).1 = .zlibSniff ∨ (encode i).1 = .zlibVerdict ∨ (encode i).1 = .gzipFlg) :
    LeadsToReaderInv (exec i s) := by
  cases i with
  | wrapGzip => exact wrapGzip_leads h hWrap
  | wrapZlib => exact .next (setWphase_readerInv h hWrap _)
  | wrapRaw => exact .next (acceptWrapper_readerInv h (Nat.le_refl _) _ _ _ _)
  | zlibSniff c f => exact zlibSniff_leads h hWrap c f
  | zlibCinfoBad _ _ | zlibFcheckBad _ _ | zlibFdictBad _ _ | gzFlagsReserved _ => exact .raise h _
  | gzFtext _ => exact .next (gzipNext_readerInv h hWrap _ _)
  | gzFextra _ => exact (skipExtra_readerInv h hWrap _).leads
  | gzFname _ | gzFcomment _ => exact (skipString_readerInv h hWrap _).leads
  | gzFhcrc _ => exact (checkHeaderCrc_readerInv h hWrap _).leads
  | _ => rcases hRow with hRow | hRow | hRow | hRow <;> cases hRow

end front

/-! ## The rows of DEFLATE data -/

theorem Run.exec_block_leads (h : Run s) (hRow : (encode i).1 = .blockHeader) : LeadsToReaderInv (exec i s) := by
  cases i with
  | blockStored b => exact ((h.op_takeHeader b 0).bind fun _ _ _ hx => hx.op_storedBody).leads
  | blockFixed b =>
    exact ((h.op_takeHeader b 1).bind fun _ _ _ hx =>
      (hx.setBlk _ (by exact fun c => ⟨c.hlit, c.hdist, c.hclen⟩)).op_buildBoth).leads
  | blockDynamic b => exact ((h.op_takeHeader b 2).bind fun _ _ _ hx => hx.op_dynamicBody).leads
  | blockReserved b => exact ((h.op_takeHeader b 3).bind fun _ _ _ hx => ResOk.raised (α := Unit) hx.weak).leads
  | _ => cases hRow

theorem Run.exec_clSymbol_leads (h : Run s) (hRow : (encode i).1 = .clSymbol) : LeadsToReaderInv (exec i s) := by
  cases i with
  | clLiteral v => exact (Run.op_clNext (h.op_storeLens v 1)).leads
  | clRepeat =>
    change LeadsToReaderInv (execClRepeat s)
    unfold execClRepeat
    split
    · exact .raise h.weak _
    · exact (h.op_clRun _ 3 (by decide)).leads
  | clZeros3 => exact (h.op_clRun 0 3 (by decide)).leads
  | clZeros11 => exact (h.op_clRun 0 11 (by decide)).leads
  | clUnknown _ => exact .raise h.weak _
  | _ => cases hRow

theorem Run.op_emit (h : Run s) (b : Byte) : ResOk (emit b s) := by
  unfold Machine.emit
  split
  · exact .raised h.weak
  · exact .ok (h.op_putByte b (by omega))

/-- The rows of lengthRows are the length symbols and the two with no meaning. -/
theorem lengthRows_cases : ∀ i ∈ lengthRows, (∃ p ∈ lengthSpec, p.1 = i) ∨ i = .badsym286 ∨ i = .badsym287 := by decide

/-- The rows of distRows are the distance symbols and the two with no meaning. -/
theorem distRows_cases : ∀ i ∈ distRows, (∃ p ∈ distSpec, p.1 = i) ∨ i = .baddist30 ∨ i = .baddist31 := by decide

theorem Run.exec_llSymbol_leads (h : Run s) {w : Nat} (hDecode : decode .llSymbol w = .ok i) :
    LeadsToReaderInv (exec i s) := by
  rw [decode_llSymbol (fits_of_decode hDecode)] at hDecode
  unfold decodeLlSymbol at hDecode
  split at hDecode
  case isTrue => cases hDecode; exact ((h.op_emit _).bind fun _ _ _ hx => .ok (hx.op_lookNext .ll)).leads
  case isFalse =>
  split at hDecode
  case isTrue => cases hDecode; exact .next h.op_endBlock.readerInv
  case isFalse =>
  split at hDecode
  case h_2 => cases hDecode
  case h_1 j hj =>
  cases hDecode
  rcases lengthRows_cases _ (List.mem_of_getElem? hj) with ⟨p, hp, rfl⟩ | rfl | rfl
  · obtain ⟨k, hBits, -, hExtra, hExec⟩ := lengthSpec_rows p hp
    rw [hExec]
    exact (h.op_matchLength (lbase k) (by omega)).leads
  · exact .raise h.weak _
  · exact .raise h.weak _

theorem Run.exec_distSymbol_leads (h : Run s) {w : Nat} (hDecode : decode .distSymbol w = .ok i) :
    LeadsToReaderInv (exec i s) := by
  rw [decode_distSymbol (fits_of_decode hDecode)] at hDecode
  unfold decodeDistSymbol at hDecode
  split at hDecode
  case h_2 => cases hDecode
  case h_1 j hj =>
  cases hDecode
  rcases distRows_cases _ (List.mem_of_getElem? hj) with ⟨p, hp, rfl⟩ | rfl | rfl
  · obtain ⟨k, hBits, -, -, hExtra, hExec⟩ := distSpec_rows p hp
    rw [hExec]
    exact (h.op_matchDistance (dbase k) (by omega)).leads
  · exact .raise h.weak _
  · exact .raise h.weak _

/-! ## The entries DECODE reads -/

/-- The low byte of a packed value in an alphabet's table: a code-length symbol or a count of extra bits. -/
def maxLow : Alphabet → Nat
  | .cl => 18
  | .ll | .dist => 13

/-- An entry read at any index, past the table too, is one the builder writes. -/
theorem entryAt_ok {cap k x : Nat} {lit : Bool} {v : Vector Entry cap} (h : TableOk k x lit v) (j : Nat) :
    EntryOk k x lit j (entryAt v j) := by
  unfold entryAt
  by_cases hj : j < cap
  · rw [Vector.getElem?_eq_getElem hj]
    exact h j hj
  · rw [Vector.getElem?_eq_none (Nat.not_lt.1 hj)]
    exact entryOk_sentinel j

theorem tableEntry_ok (h : TablesInv s) (a : Alphabet) (j : Nat) :
    EntryOk (kOf a) (maxLow a) (decide (a = .ll)) j (tableEntry a s.tab j) := by
  cases a with
  | cl => exact entryAt_ok h.cl j
  | ll => exact entryAt_ok h.ll j
  | dist => exact entryAt_ok h.d j

/-- An entry decodes by its fields, the sentinel first (30_encoding R109). -/
theorem decode_entry (e : Entry) :
    decode .tableEntry e.toNat = .ok (if e = sentinel then .entrySentinel
      else if entryL e then .entryLink (entryPayload e) (entryT e) (e.extractLsb' 0 6)
      else if entryT e then .entryLiteral (entryPayload e) (e.extractLsb' 0 6)
      else .entryValue (entryPayload e) (e.extractLsb' 0 6)) := by
  have hSentinel : e.toNat = 0xFF ↔ e = sentinel := (BitVec.toNat_inj (x := e) (y := sentinel))
  rw [decode_tableEntry e.isLt, decodeTableEntry]
  simp only [hSentinel]
  rfl

/-- What DECODE may meet at an index: a link only in the primary table, leading past it, and a terminal whose extra bits PEEK can
hold (41_table_builder R174, R178). -/
structure Readable (c : Control) (e : Entry) : Prop where
  link : isLink e = true →
    (∀ base w, c.look ≠ .second base w) ∧ 2 ^ kOf c.alpha ≤ (entryPayload e).toNat ∧ entryNbits e ≤ 15
  terminal : e ≠ sentinel → isLink e = false →
    c.alpha = .cl ∨ c.alpha = .ll ∧ entryT e = true ∨ payloadExtra (entryPayload e) ≤ 16

/-- The builder's entries are readable, the ones past the primary table in a subtable too. -/
theorem EntryOk.readable {c : Control} {j : Nat} {e : Entry}
    (h : EntryOk (kOf c.alpha) (maxLow c.alpha) (decide (c.alpha = .ll)) j e)
    (hSub : ∀ base w, c.look = .second base w → 2 ^ kOf c.alpha ≤ j) : Readable c e where
  link hLink := by
    refine ⟨fun base w hLook => ?_, h.base hLink, ?_⟩
    · have hPrimary := h.primary hLink
      have hPast := hSub base w hLook
      omega
    · rcases h.nbits with rfl | hBits
      · exact absurd hLink (by decide)
      · exact hBits
  terminal hSentinel hLink := by
    rcases h.extra with rfl | hLink' | ⟨hLit, hT⟩ | hLow
    · exact absurd rfl hSentinel
    · exact absurd hLink' (by simp [hLink])
    · exact .inr (.inl ⟨of_decide_eq_true hLit, hT⟩)
    · cases hAlpha : c.alpha with
      | cl => exact .inl rfl
      | ll | dist => rw [hAlpha, maxLow] at hLow; exact .inr (.inr (by omega))

/-- DROP changes the reader alone. -/
theorem drop_ctl {n : Nat} {a : Unit} (h : drop n s = .ok a t) : t.ctl = s.ctl := by
  unfold Machine.drop at h
  split at h <;> cases h
  rfl

/-- A link read in the primary table is followed into its subtable. -/
theorem Run.entryLink_leads (h : Run s) (p : BitVec 24) (b : Bool) (n : BitVec 6)
    (hLook : ∀ base w, s.ctl.look ≠ .second base w) (hBase : 2 ^ kOf s.ctl.alpha ≤ p.toNat) (hBits : n.toNat ≤ 15) :
    LeadsToReaderInv (execEntryLink p b n s) := by
  unfold execEntryLink
  split
  case h_1 base w hSecond => exact absurd hSecond (hLook base w)
  case h_2 =>
    refine ((h.op_drop _).bind fun _ u hDrop hu => .ok (hu.setCtl_same { u.ctl with look := .second p n } rfl ?_)).leads
    intro base w hLink
    cases hLink
    exact ⟨by rw [drop_ctl hDrop]; exact hBase, hBits⟩

theorem Run.exec_entry_leads (h : Run s) {e : Entry} (hRead : Readable s.ctl e) (hDecode : decode .tableEntry e.toNat = .ok i) :
    LeadsToReaderInv (exec i s) := by
  rw [decode_entry] at hDecode
  cases hDecode
  split
  case isTrue => exact .raise h.weak _
  case isFalse hSentinel =>
  have hIsLink : isLink e = entryL e := by simp [isLink, hSentinel]
  split
  case isTrue hL =>
    obtain ⟨hLook, hBase, hBits⟩ := hRead.link (hIsLink.trans hL)
    exact h.entryLink_leads _ _ _ hLook hBase hBits
  case isFalse hL =>
  have hTerminal := hRead.terminal hSentinel (hIsLink.trans (by simpa using hL))
  split
  case isTrue hT =>
    exact (terminal_resOk h _ true _ (hTerminal.imp_right (Or.imp_left fun hLl => ⟨hLl.1, rfl⟩))).leads
  case isFalse hT =>
    exact (terminal_resOk h _ false _ (hTerminal.imp_right (Or.imp_left fun hLl => absurd hLl.2 hT))).leads

/-! ## A step of the engine -/

/-- A row that is next leads to the invariant. -/
def FetchLeads : Fetched → Prop
  | .instr i t => LeadsToReaderInv (exec i t)
  | .verify => True
  | .nothing => True

theorem fetched_leads {r : Except Reject Instr} (h : ∀ i, r = .ok i → LeadsToReaderInv (exec i s)) :
    FetchLeads (fetched r s) := by
  cases r with
  | ok i => exact h i rfl
  | error e => trivial

theorem fill_ctl (n : Nat) (s : State) : (fill n s).ctl = s.ctl := by
  obtain ⟨r, hFill, -, -⟩ := fill_eq n s
  rw [hFill, State.setRd_ctl]

theorem kOf_le (a : Alphabet) : kOf a ≤ 16 := by cases a <;> decide

/-- PEEK and the table's entry at an index that lies past the primary table where a link has been followed. -/
theorem Run.peek_leads (h : Run s) {n : Nat} (hn : n ≤ 16) (j : Nat)
    (hSub : ∀ base w, s.ctl.look = .second base w → 2 ^ kOf s.ctl.alpha ≤ j) :
    FetchLeads (fetched (decode .tableEntry (tableEntry (fill n s).ctl.alpha (fill n s).tab j).toNat) (fill n s)) := by
  have hFill := h.op_fill hn
  refine fetched_leads fun i hDecode => hFill.exec_entry_leads ?_ hDecode
  exact (tableEntry_ok hFill.weak _ j).readable (by rw [fill_ctl]; exact hSub)

theorem Run.fetchLookup_leads (h : Run s) : FetchLeads (fetchLookup s) := by
  unfold fetchLookup
  split
  case h_1 hLook => exact h.peek_leads (kOf_le _) _ (by simp [hLook])
  case h_2 base w hLook =>
    obtain ⟨hBase, hWidth⟩ := h.weak.link base w hLook
    refine h.peek_leads (by omega) _ fun base' w' hLook' => ?_
    cases hLook.symm.trans hLook'
    omega
  case h_3 sym hLook =>
    refine fetched_leads fun i hDecode => ?_
    cases hAlpha : s.ctl.alpha with
    | cl => rw [hAlpha] at hDecode; exact h.exec_clSymbol_leads (decode_fmt hDecode)
    | ll => rw [hAlpha] at hDecode; exact h.exec_llSymbol_leads hDecode
    | dist => rw [hAlpha] at hDecode; exact h.exec_distSymbol_leads hDecode

/-- Whatever the sequencer's state says is next. -/
theorem fetch_leads (hInv : Inv s) (h : ReaderInv s) : FetchLeads (fetch s) := by
  unfold fetch
  cases hSeq : s.ctl.seq with
  | idle | verify => trivial
  | wrap =>
    dsimp only
    split
    · exact fetched_leads fun _ hd => exec_front_leads h.tables hSeq (.inl (decode_fmt hd))
    · exact fetched_leads fun _ hd => exec_front_leads h.tables hSeq (.inr (.inl (decode_fmt hd)))
    · exact fetched_leads fun _ hd => exec_front_leads h.tables hSeq (.inr (.inr (.inl (decode_fmt hd))))
    · exact fetched_leads fun _ hd => exec_front_leads h.tables hSeq (.inr (.inr (.inr (decode_fmt hd))))
  | block =>
    have hRun := h.run hInv (by simp [inDeflate, hSeq])
    exact fetched_leads fun _ hd => (hRun.op_fill (n := 3) (by decide)).exec_block_leads (decode_fmt hd)
  | clread | syms => exact (h.run hInv (by simp [inDeflate, hSeq])).fetchLookup_leads

theorem engineStep_leads (hInv : Inv s) (h : ReaderInv s) : LeadsToReaderInv (engineStep s) := by
  have hFetch := fetch_leads hInv h
  unfold engineStep
  cases hNext : fetch s with
  | instr i t => rw [hNext] at hFetch; exact hFetch
  | verify => exact .next (verify_readerInv h.tables)
  | nothing => exact .next h

/-! ## The host's moves and reset -/

/-- A move of the host but START's launch: the register block, memory and what a read returns alone may differ. -/
def HostMove (s t : State) : Prop := t = (((s.setRegs t.regs).setMem t.mem).setBusData t.busData).setFree t.free

/-- Such a move that leaves the input as it was leaves the stream, so the reader's invariant. -/
theorem HostMove.readerInv (hMove : HostMove s t) (h : ReaderInv s) (hInput : inDeflate s = true → InputKept s t) :
    ReaderInv t := by
  rw [hMove]
  refine ⟨fun hIn => ?_, h.cl, h.ll, h.d, h.counts, h.link⟩
  obtain ⟨hReader, hInside⟩ := h.reader hIn
  refine ⟨hReader.congr rfl fun j => ?_, hInside⟩
  unfold byteAt
  split
  case isTrue hj => exact (hInput hIn j (Nat.lt_of_lt_of_le hj hInside)).trans (if_pos hj).symm
  case isFalse hj => exact (if_neg hj).symm

theorem HostMove.refl (s : State) : HostMove s s := rfl

theorem HostMove.setRegs (s : State) (r : HostRegs) : HostMove s (s.setRegs r) := rfl

theorem readExact_hostMove (v : Word) (s : State) : HostMove s (readExact v s) := rfl

theorem writeConfig_hostMove (r : HostRegs) (s : State) : HostMove s (writeConfig r s) := by
  unfold writeConfig
  split <;> rfl

theorem readResult_hostMove (v : Word) (s : State) : HostMove s (readResult v s) := by
  unfold readResult
  split <;> rfl

theorem hostReadMem_hostMove (a : Addr) (s : State) : HostMove s (hostReadMem a s) := by
  unfold hostReadMem
  split <;> rfl

theorem hostWriteMem_hostMove {a : Addr} {b : Byte} (h : hostWriteMem a b s = .next t) : HostMove s t := by
  unfold hostWriteMem at h
  split at h <;> cases h
  rfl

/-- START is a HostMove or the launch of a run. -/
theorem execStart_move {e : Bool} (h : execStart e s = .next t) : HostMove s t ∨ t = launchRun (setIrqEn e s) := by
  unfold execStart at h
  dsimp only at h
  split at h
  · cases h; exact .inl rfl
  · split at h <;> cases h
    exact .inr rfl

/-- A register access is a HostMove or the launch of a run (46_host_commands R310 to R318). -/
theorem exec_access_move (hAccess : isAccess i = true) (h : exec i s = .next t) :
    HostMove s t ∨ ∃ e, t = launchRun (setIrqEn e s) := by
  cases i with
  | start e => exact (execStart_move h).imp_right fun hLaunch => ⟨e, hLaunch⟩
  | setCtrl _ | clearDone =>
    cases Host.Outcome.next.inj h
    exact .inl (HostMove.setRegs s _)
  | statusNop | writeIgnoredCause _ | writeIgnoredOutLen _ | writeIgnoredCheckCalc _ | writeIgnoredCheckExp _
  | writeIgnoredIsize _ | writeIgnoredInBitpos _ | writeIgnoredRsvd30 _ | writeIgnoredRsvd34 _ | writeIgnoredRsvd38 _
  | writeIgnoredRsvd3C _ =>
    cases Host.Outcome.next.inj h
    exact .inl (HostMove.refl s)
  | writeInBase _ | writeInLen _ | writeOutBase _ | writeOutCap _ =>
    cases Host.Outcome.next.inj h
    exact .inl (writeConfig_hostMove _ s)
  | readCtrl | readStatus | readInBase | readInLen | readOutBase | readOutCap | readReserved _ =>
    cases Host.Outcome.next.inj h
    exact .inl (readExact_hostMove _ s)
  | readCause | readOutLen | readCheckCalc | readCheckExp | readIsize | readInBitpos =>
    cases Host.Outcome.next.inj h
    exact .inl (readResult_hostMove _ s)
  | _ => cases hAccess

theorem accessStep_move {a : Access} (h : accessStep a s = .next t) :
    HostMove s t ∨ ∃ e, t = launchRun (setIrqEn e s) := by
  cases hDecode : decode .hostAccess a.toNat with
  | ok i =>
    rw [accessStep, hDecode] at h
    exact exec_access_move (decide_eq_true (decode_fmt hDecode)) h
  | error e =>
    rw [accessStep, hDecode] at h
    cases h

/-- A launch is before the data: the wrapper is next. -/
theorem launchRun_readerInv (h : TablesInv s) (e : Bool) : ReaderInv (launchRun (setIrqEn e s)) :=
  .of_notDeflate ⟨h.cl, h.ll, h.d, h.link⟩ rfl

/-- A reset puts the tables and the control position at their reset values. -/
theorem resetEvent_readerInv (s : State) : ReaderInv (resetEvent s) :=
  .of_idle ⟨reset_tablesInv.cl, reset_tablesInv.ll, reset_tablesInv.d, reset_tablesInv.link⟩ rfl

/-- Each move of the schedule. -/
theorem turnStep_leads (m : Turn) (hInv : Inv s) (h : ReaderInv s) : LeadsToReaderInv (turnStep m s) := by
  intro t hMove
  have hInput (hIn : inDeflate s = true) : InputKept s t := turnStep_inputKept m hInv (hInv.busy_of_inDeflate hIn) hMove
  cases m with
  | engine => exact engineStep_leads hInv h t hMove
  | access a =>
    rcases accessStep_move hMove with hHost | ⟨e, rfl⟩
    · exact hHost.readerInv h hInput
    · exact launchRun_readerInv h.tables e
  | hostRead a => cases hMove; exact (hostReadMem_hostMove a s).readerInv h hInput
  | hostWrite a b => exact (hostWriteMem_hostMove hMove).readerInv h hInput
  | reset => cases hMove; exact resetEvent_readerInv s

/-- Settles O12: a step is one move of the schedule, and each keeps the invariant. -/
theorem readerInvariantKept : Obligations.ReaderInvariantKept := by
  intro s t hInv hReader hStep
  obtain ⟨m, r, hMove⟩ := step_eq_turnStep s
  exact turnStep_leads m (hInv.setTurns r) (hReader.setTurns r) t (hMove.symm.trans hStep)

end Sys2Proof.Machine
end

section
/-! PROOF. INPUT_OVERRUN, in the build with OVERRUN_DETECT (O42): an operation that has read up to some stream bit either reads on
or raises just past what it consumed, and only the reader and the block registers have changed. -/

namespace Sys2Proof.Machine

variable {s t u v : State} {α β : Type} {j k n p : Nat} {b b' : BlockRegs} {r : Res α}

/-! ## Reading on, and raising -/

/-- k more stream bits have been consumed and the block registers are b; nothing else has changed. -/
def ReadTo (k : Nat) (b : BlockRegs) (s u : State) : Prop := ∃ x, u = (s.setRd x).setBlk b ∧ Consumed k s u

/-- The operation raises INPUT_OVERRUN at stream bit p with the block registers at b; of the rest only the reader has changed. -/
def Overruns (p : Nat) (b : BlockRegs) (s : State) (r : Res α) : Prop :=
  ∃ x, r = .raised .inputOverrun ((s.setRd x).setBlk b) ∧ pos (s.setRd x) = p

theorem ReadTo.refl (h : ReaderOk s) : ReadTo 0 s.blk s s := ⟨s.rd, rfl, rfl, h, rfl, rfl⟩

theorem ReadTo.consumed (h : ReadTo k b s u) : Consumed k s u := by
  obtain ⟨-, -, hConsumed⟩ := h
  exact hConsumed

theorem ReadTo.trans (h : ReadTo j b s u) (h' : ReadTo k b' u v) : ReadTo (j + k) b' s v := by
  obtain ⟨x, rfl, hConsumed⟩ := h
  obtain ⟨y, rfl, hConsumed'⟩ := h'
  exact ⟨y, rfl, hConsumed.trans hConsumed'⟩

theorem ReadTo.blk (h : ReadTo k b s u) : u.blk = b := by
  obtain ⟨x, rfl, -⟩ := h
  rfl

theorem ReadTo.detect (h : ReadTo k b s u) : u.detect = s.detect := by
  obtain ⟨x, rfl, -⟩ := h
  rfl

/-- The stream is where it was. -/
theorem ReadTo.streamBits (h : ReadTo k b s u) (i n : Nat) : streamBits u i n = streamBits s i n := by
  obtain ⟨x, rfl, hConsumed⟩ := h
  exact hConsumed.bits rfl rfl i n

/-- The block registers may be written between two reads. -/
theorem ReadTo.setBlk (h : ReadTo k b s u) (b' : BlockRegs) : ReadTo k b' s (u.setBlk b') := by
  obtain ⟨x, rfl, hConsumed⟩ := h
  exact ⟨x, rfl, hConsumed.congr rfl rfl fun _ => rfl⟩

/-- What raises from where the reading came to, raises from its beginning. -/
theorem ReadTo.overruns (h : ReadTo k b s u) (h' : Overruns p b' u r) : Overruns p b' s r := by
  obtain ⟨x, rfl, -⟩ := h
  exact h'

/-- Nothing continues after a raise. -/
theorem Overruns.bind (h : Overruns p b s r) (f : α → State → Res β) : Overruns p b s (r.bind f) := by
  obtain ⟨x, rfl, hPos⟩ := h
  exact ⟨x, rfl, hPos⟩

/-- The raise's stop, as the host sees it and in the datapath (40_bitreader R144). -/
theorem Overruns.stops (h : Overruns p b s r) : ∃ t, r.finish = .next t ∧ OverrunsAt p s t ∧ t.blk = b := by
  obtain ⟨x, rfl, hPos⟩ := h
  let u := (s.setRd x).setBlk b
  refine ⟨raiseStop .inputOverrun u, rfl, ⟨?_, ?_⟩, raiseStop_blk _ u⟩
  · have hInside : Inside s u := (Inside.setRd s x).trans (Inside.setBlk _ b)
    rw [← hPos]
    exact hInside.raise rfl
  · rw [raiseStop_rd, raiseStop_blk]
    exact raiseStop_kept .inputOverrun u

/-! ## The reader's operations -/

/-- GET reads on where its bits are left. -/
theorem ReadTo.get (h : ReadTo k b s u) (hn : n ≤ 16) (hLeft : pos s + (k + n) ≤ 8 * s.rd.endOff.toNat) :
    ∃ v, get n u = .ok (Machine.streamBits s (pos s + k) n) v ∧ ReadTo (k + n) b s v := by
  have hPos := h.consumed.pos
  obtain ⟨x, hGet, hConsumed⟩ := get_setRd hn h.consumed.reader fun _ => by rw [hPos, h.consumed.stop]; omega
  refine ⟨u.setRd x, by rw [hGet, h.streamBits, hPos], h.trans ⟨x, ?_, hConsumed⟩⟩
  rw [← h.blk]
  rfl

/-- GET raises where one of its bits is past the end. -/
theorem ReadTo.get_overruns (h : ReadTo k b s u) (hDetect : s.detect = true) (h0 : 0 < n) (hn : n ≤ 16)
    (hOver : 8 * s.rd.endOff.toNat < pos s + (k + n)) : Overruns (pos s + (k + n)) b s (Machine.get n u) := by
  have hPos := h.consumed.pos
  obtain ⟨x, hGet, hConsumed⟩ :=
    get_over hn h.consumed.reader h0 (h.detect.trans hDetect) (by rw [hPos, h.consumed.stop]; omega)
  refine h.overruns ⟨x, ?_, by rw [hConsumed.pos, hPos, Nat.add_assoc]⟩
  rw [hGet, ← h.blk]
  rfl

theorem get_overruns (h : ReaderOk s) (hDetect : s.detect = true) (h0 : 0 < n) (hn : n ≤ 16)
    (hOver : 8 * s.rd.endOff.toNat < pos s + n) : Overruns (pos s + n) s.blk s (get n s) := by
  have hGet := (ReadTo.refl h).get_overruns hDetect h0 hn (by omega)
  rwa [Nat.zero_add] at hGet

theorem drop_overruns (h : ReaderOk s) (hDetect : s.detect = true) (hn : n ≤ s.rd.avail.toNat)
    (hOver : 8 * s.rd.endOff.toNat < pos s + n) : Overruns (pos s + n) s.blk s (drop n s) := by
  obtain ⟨x, hDrop, hPos⟩ := drop_over h hn hDetect hOver
  exact ⟨x, hDrop, hPos⟩

/-- READ_LE_U16 from a byte boundary, past the end (40_bitreader R147). -/
theorem readLeU16_overruns (hDetect : s.detect = true) (hAvail : s.rd.avail.toNat = 0)
    (hOver : s.rd.endOff.toNat < s.rd.cur + 2) : Overruns (8 * (s.rd.cur + 2)) s.blk s (readLeU16 s) := by
  refine ⟨{ s.rd with cur := s.rd.cur + 2 }, by rw [readLeU16_spec, if_pos ⟨hDetect, hOver⟩]; rfl, ?_⟩
  rw [pos, State.setRd_rd, hAvail, Nat.sub_zero]

/-- What raises after a change of the reader alone, raises from before it. -/
theorem Overruns.of_setRd {x : Reader} (h : Overruns p b (s.setRd x) r) : Overruns p b s r := h

/-- What raises after reading on, raises from the beginning. -/
theorem ReadTo.bind_overruns {a : α} {f : α → State → Res β} (h : ReadTo k b s u) (hOk : r = .ok a u)
    (hOver : Overruns p b' u (f a u)) : Overruns p b' s (r.bind f) := by
  rw [hOk]
  exact h.overruns hOver

/-! ## Block headers (43_block_engine R221) -/

/-- A block row whose header raises. -/
theorem blockRow_stops {f : Bool} (hTake : ∀ y, Overruns p b s (takeHeader f y s)) :
    ∀ i ∈ [Instr.blockStored f, .blockFixed f, .blockDynamic f, .blockReserved f],
      ∃ t, exec i s = .next t ∧ OverrunsAt p s t ∧ t.blk = b := by
  intro i hi
  simp only [List.mem_cons, List.not_mem_nil, or_false] at hi
  rcases hi with rfl | rfl | rfl | rfl
  · exact ((hTake 0).bind fun _ t => storedBody t).stops
  · exact ((hTake 1).bind fun _ t => buildBoth (setFixedLens t)).stops
  · exact ((hTake 2).bind fun _ t => dynamicBody t).stops
  · exact ((hTake 3).bind fun _ t => (.raised .btypeReserved t : Res Unit)).stops

section header

variable (h : ReaderOk s)
include h

theorem takeHeader_readTo (f : Bool) (y : BitVec 2) (hLeft : pos s + 3 ≤ 8 * s.rd.endOff.toNat) :
    ∃ u, takeHeader f y s = .ok () u ∧ ReadTo 3 (blockLatches f y s) s u := by
  obtain ⟨x, hTake, hConsumed⟩ := takeHeader_ok f y h fun _ => hLeft
  exact ⟨_, hTake, x, rfl, hConsumed.congr rfl rfl fun _ => rfl⟩

end header

/-! ## Dynamic headers (43_block_engine R232, R233) -/

/-- The block registers after bit q of a dynamic header's counts, which begin at pos: those read in full are latched. -/
def countsRead (q : Nat) (s : State) : BlockRegs :=
  { s.blk with
    hlit := if 5 ≤ q then BitVec.ofNat 9 (streamBits s (pos s) 5 + 257) else s.blk.hlit
    hdist := if 10 ≤ q then BitVec.ofNat 6 (streamBits s (pos s + 5) 5 + 1) else s.blk.hdist
    hclen := if 14 ≤ q then BitVec.ofNat 5 (streamBits s (pos s + 10) 4 + 4) else s.blk.hclen }

/-- Past the counts all three are latched. -/
theorem countsRead_of_le {q : Nat} (h : 14 ≤ q) (s : State) : countsRead q s = countsRead 14 s := by
  simp [countsRead, h, show 5 ≤ q by omega, show 10 ≤ q by omega]

/-- The fields of a dynamic header after BTYPE, the counts and k code lengths: the bits from which and to which each extends. -/
def dynamicFields (k : Nat) : List (Nat × Nat) :=
  [(0, 5), (5, 10), (10, 14)] ++ (List.range k).map fun i => (14 + 3 * i, 14 + (3 * i + 3))

/-- The obligation's list of fields counts from the header's first bit. -/
theorem mem_dynamicFields_of_header {q : Nat × Nat}
    (hField : q ∈ [(3, 8), (8, 13), (13, 17)] ++ (List.range k).map fun i => (17 + 3 * i, 20 + 3 * i)) :
    ∃ q' ∈ dynamicFields k, q = (q'.1 + 3, q'.2 + 3) := by
  have hShift : [(3, 8), (8, 13), (13, 17)] ++ (List.range k).map (fun i => (17 + 3 * i, 20 + 3 * i)) =
      (dynamicFields k).map fun q' => (q'.1 + 3, q'.2 + 3) := by
    simp [dynamicFields, Function.comp_def]
    omega
  rw [hShift, List.mem_map] at hField
  obtain ⟨q', hMem, rfl⟩ := hField
  exact ⟨q', hMem, rfl⟩

/-- The code-length code's lengths, where the j-th passes the end. -/
theorem ReadTo.readClLens_overruns (h : ReadTo k b s u) (hDetect : s.detect = true) {l : List Nat} (hj : j < l.length)
    (hLeft : pos s + (k + 3 * j) ≤ 8 * s.rd.endOff.toNat) (hOver : 8 * s.rd.endOff.toNat < pos s + (k + (3 * j + 3))) :
    ∃ cl, Overruns (pos s + (k + (3 * j + 3))) { b with clLen := cl } s (readClLens l u) := by
  have hPos := h.consumed.pos
  have hStop := h.consumed.stop
  obtain ⟨x, cl, hRaised, hAt⟩ := readClLens_over l j h.consumed.reader (h.detect.trans hDetect) hj
    (by rw [hPos, hStop]; omega) (by rw [hPos, hStop]; omega)
  exact ⟨cl, h.overruns ⟨x, by rw [hRaised, h.blk], by rw [hAt, hPos]; omega⟩⟩

section dynamic

variable (h : ReaderOk s)
include h

theorem dynamicCounts_readTo (hLeft : pos s + 14 ≤ 8 * s.rd.endOff.toNat) :
    ∃ u, dynamicCounts s = .ok () u ∧ ReadTo 14 (countsRead 14 s) s u := by
  obtain ⟨x, hCounts, hConsumed⟩ := dynamicCounts_ok h fun _ => hLeft
  exact ⟨_, hCounts, x, rfl, hConsumed.congr rfl rfl fun _ => rfl⟩

variable (hDetect : s.detect = true)
include hDetect

theorem dynamicCounts_overruns_hlit (hOver : 8 * s.rd.endOff.toNat < pos s + 5) :
    Overruns (pos s + 5) (countsRead 0 s) s (dynamicCounts s) :=
  (get_overruns h hDetect (by decide) (by decide) hOver).bind _

theorem dynamicCounts_overruns_hdist (hLeft : pos s + 5 ≤ 8 * s.rd.endOff.toNat)
    (hOver : 8 * s.rd.endOff.toNat < pos s + 10) : Overruns (pos s + 10) (countsRead 5 s) s (dynamicCounts s) := by
  obtain ⟨u, hGet, hRead⟩ := (ReadTo.refl h).get (n := 5) (by decide) hLeft
  unfold dynamicCounts
  rw [hGet, Res.bind_ok, hRead.blk]
  exact ((hRead.setBlk (countsRead 5 s)).get_overruns hDetect (by decide) (by decide) hOver).bind _

theorem dynamicCounts_overruns_hclen (hLeft : pos s + 10 ≤ 8 * s.rd.endOff.toNat)
    (hOver : 8 * s.rd.endOff.toNat < pos s + 14) : Overruns (pos s + 14) (countsRead 10 s) s (dynamicCounts s) := by
  obtain ⟨u, hGet, hRead⟩ := (ReadTo.refl h).get (n := 5) (by decide) (by omega)
  obtain ⟨v, hGet', hRead'⟩ := (hRead.setBlk (countsRead 5 s)).get (n := 5) (by decide) hLeft
  have hRest : dynamicCounts s = (get 4 (v.setBlk (countsRead 10 s))).bind fun c w =>
      .ok () (w.setBlk { w.blk with hclen := BitVec.ofNat 5 (c + 4) }) := by
    unfold dynamicCounts
    rw [hGet, Res.bind_ok, hRead.blk]
    refine (congrArg (Res.bind · _) hGet').trans ?_
    rw [Res.bind_ok, hRead'.blk]
    rfl
  rw [hRest]
  exact ((hRead'.setBlk (countsRead 10 s)).get_overruns hDetect (by decide) (by decide) hOver).bind _

/-- A dynamic header that ends in one of its fields after BTYPE. -/
theorem dynamicBody_overruns {q : Nat × Nat} (hField : q ∈ dynamicFields (streamBits s (pos s + 10) 4 + 4))
    (hLeft : pos s + q.1 ≤ 8 * s.rd.endOff.toNat) (hOver : 8 * s.rd.endOff.toNat < pos s + q.2) :
    ∃ cl, Overruns (pos s + q.2) { countsRead q.1 s with clLen := cl } s (dynamicBody s) := by
  simp only [dynamicFields, List.mem_append, List.mem_cons, List.not_mem_nil, or_false, List.mem_map, List.mem_range] at hField
  rcases hField with (rfl | rfl | rfl) | ⟨j, hj, rfl⟩
  · exact ⟨s.blk.clLen, (dynamicCounts_overruns_hlit h hDetect hOver).bind _⟩
  · exact ⟨s.blk.clLen, (dynamicCounts_overruns_hdist h hDetect hLeft hOver).bind _⟩
  · exact ⟨s.blk.clLen, (dynamicCounts_overruns_hclen h hDetect hLeft hOver).bind _⟩
  · obtain ⟨u, hCounts, hRead⟩ := dynamicCounts_readTo h (by omega)
    have hLength : j < (perm.take (countsRead 14 s).hclen.toNat).length := by
      have hBits := streamBits_lt s (pos s + 10) 4
      change j < (perm.take (BitVec.ofNat 5 (streamBits s (pos s + 10) 4 + 4)).toNat).length
      rw [List.length_take, BitVec.toNat_ofNat, show perm.length = 19 from rfl]
      omega
    obtain ⟨cl, hRaised⟩ := (hRead.setBlk { countsRead 14 s with clLen := .replicate 19 0 }).readClLens_overruns hDetect
      hLength hLeft hOver
    refine ⟨cl, ?_⟩
    unfold dynamicBody
    rw [hCounts, Res.bind_ok, hRead.blk, countsRead_of_le (Nat.le_add_right 14 (3 * j))]
    exact hRaised.bind _

end dynamic

/-! ## Stored blocks (43_block_engine R224) -/

section stored

variable (h : ReaderOk s) (hDetect : s.detect = true)
include h hDetect

theorem storedBody_overruns_len (hOver : s.rd.endOff.toNat < (pos s + 7) / 8 + 2) :
    Overruns (8 * ((pos s + 7) / 8 + 2)) s.blk s (storedBody s) := by
  obtain ⟨-, -, hCur, hAvail⟩ := align_spec h
  rw [← hCur] at hOver ⊢
  exact Overruns.of_setRd (s := s) ((readLeU16_overruns (s := align s) hDetect hAvail hOver).bind _)

theorem storedBody_overruns_nlen (hLeft : (pos s + 7) / 8 + 2 ≤ s.rd.endOff.toNat)
    (hOver : s.rd.endOff.toNat < (pos s + 7) / 8 + 4) :
    Overruns (8 * ((pos s + 7) / 8 + 4)) s.blk s (storedBody s) := by
  obtain ⟨-, -, hCur, hAvail⟩ := align_spec h
  rw [← hCur] at hLeft hOver ⊢
  let u := (align s).setRd { (align s).rd with cur := (align s).rd.cur + 2 }
  have hNlen : Overruns (8 * ((align s).rd.cur + 2 + 2)) u.blk u (readLeU16 u) := readLeU16_overruns hDetect hAvail hOver
  unfold storedBody
  rw [readLeU16_spec, if_neg fun hPast => Nat.not_lt.2 hLeft hPast.2, Res.bind_ok]
  exact Overruns.of_setRd (s := s) (hNlen.bind _)

end stored

/-! ## Each operation that consumes bits -/

section clauses

variable (h : ReaderOk s) (hDetect : s.detect = true)
include h hDetect

/-- A header's first bit. -/
theorem firstBit_overruns (hOver : 8 * s.rd.endOff.toNat < pos s + 1) (f : Bool) (y : BitVec 2) :
    Overruns (pos s + 1) s.blk s (takeHeader f y s) := by
  obtain ⟨x, hTake, hPos⟩ := takeHeader_over1 f y h hDetect hOver
  exact ⟨x, hTake, hPos⟩

/-- A header's BTYPE, with BFINAL latched. -/
theorem btype_overruns (hLeft : pos s + 1 ≤ 8 * s.rd.endOff.toNat) (hOver : 8 * s.rd.endOff.toNat < pos s + 3)
    (f : Bool) (y : BitVec 2) : Overruns (pos s + 3) { s.blk with bfinal := f } s (takeHeader f y s) := by
  obtain ⟨x, hTake, hPos⟩ := takeHeader_over3 f y h hDetect hLeft hOver
  exact ⟨x, hTake, hPos⟩

/-- A dynamic header that ends in a field after BTYPE, seen from the header's beginning. -/
theorem blockDynamic_overruns (f : Bool) {k : Nat} (hk : k = streamBits s (pos s + 13) 4 + 4) {q : Nat × Nat}
    (hField : q ∈ dynamicFields k) (hLeft : pos s + (q.1 + 3) ≤ 8 * s.rd.endOff.toNat)
    (hOver : 8 * s.rd.endOff.toNat < pos s + (q.2 + 3)) :
    ∃ cl, Overruns (pos s + (q.2 + 3)) { blockLatches f 2 s with
      hlit := if 8 ≤ q.1 + 3 then BitVec.ofNat 9 (streamBits s (pos s + 3) 5 + 257) else s.blk.hlit
      hdist := if 13 ≤ q.1 + 3 then BitVec.ofNat 6 (streamBits s (pos s + 8) 5 + 1) else s.blk.hdist
      hclen := if 17 ≤ q.1 + 3 then BitVec.ofNat 5 k else s.blk.hclen
      clLen := cl } s ((takeHeader f 2 s).bind fun _ t => dynamicBody t) := by
  obtain ⟨u, hTake, hRead⟩ := takeHeader_readTo h f 2 (by omega)
  have hPos := hRead.consumed.pos
  have hStop := hRead.consumed.stop
  have hk' : k = streamBits u (pos u + 10) 4 + 4 := by rw [hRead.streamBits, hPos, hk]
  obtain ⟨cl, hRaised⟩ := dynamicBody_overruns hRead.consumed.reader (hRead.detect.trans hDetect) (hk' ▸ hField)
    (by rw [hPos, hStop]; omega) (by rw [hPos, hStop]; omega)
  refine ⟨cl, hRead.bind_overruns hTake ?_⟩
  have hBlk : countsRead q.1 u = { blockLatches f 2 s with
      hlit := if 8 ≤ q.1 + 3 then BitVec.ofNat 9 (streamBits s (pos s + 3) 5 + 257) else s.blk.hlit
      hdist := if 13 ≤ q.1 + 3 then BitVec.ofNat 6 (streamBits s (pos s + 8) 5 + 1) else s.blk.hdist
      hclen := if 17 ≤ q.1 + 3 then BitVec.ofNat 5 k else s.blk.hclen } := by
    simp [countsRead, hRead.blk, hPos, hRead.streamBits, hk, blockLatches, Nat.add_assoc]
  rw [hBlk, hPos, show pos s + 3 + q.2 = pos s + (q.2 + 3) by omega] at hRaised
  exact hRaised

/-- LEN and NLEN of a stored block, seen from the header's beginning. -/
theorem blockStored_overruns (hHeader : pos s + 3 ≤ 8 * s.rd.endOff.toNat) (f : Bool) {q : Nat × Nat}
    (hField : q ∈ [(0, 2), (2, 4)]) (hLeft : storedAt s + q.1 ≤ s.rd.endOff.toNat)
    (hOver : s.rd.endOff.toNat < storedAt s + q.2) :
    Overruns (8 * (storedAt s + q.2)) (blockLatches f 0 s) s ((takeHeader f 0 s).bind fun _ t => storedBody t) := by
  obtain ⟨u, hTake, hRead⟩ := takeHeader_readTo h f 0 hHeader
  have hOk := hRead.consumed.reader
  have hDetect' := hRead.detect.trans hDetect
  have hAt : storedAt s = (pos u + 7) / 8 := by rw [hRead.consumed.pos, storedAt]
  rw [hAt, ← hRead.consumed.stop] at hLeft hOver
  rw [hAt, ← hRead.blk]
  refine hRead.bind_overruns hTake ?_
  simp only [List.mem_cons, List.not_mem_nil, or_false] at hField
  rcases hField with rfl | rfl
  · exact storedBody_overruns_len hOk hDetect' hOver
  · exact storedBody_overruns_nlen hOk hDetect' hLeft hOver

/-- The DROP of a terminal (41_table_builder R178). -/
theorem terminal_overruns (e : BitVec 24) (f : Bool) (w : BitVec 6) (hAvail : w.toNat ≤ s.rd.avail.toNat)
    (hOver : 8 * s.rd.endOff.toNat < pos s + w.toNat) : Overruns (pos s + w.toNat) s.blk s (terminal e f w s) :=
  (drop_overruns h hDetect hAvail hOver).bind _

/-- The DROP of a link (41_table_builder R178). -/
theorem entryLink_stops (e : BitVec 24) (f : Bool) (w : BitVec 6) (hLook : s.ctl.look = .first)
    (hAvail : kOf s.ctl.alpha ≤ s.rd.avail.toNat) (hOver : 8 * s.rd.endOff.toNat < pos s + kOf s.ctl.alpha) :
    ∃ t, exec (.entryLink e f w) s = .next t ∧ OverrunsAt (pos s + kOf s.ctl.alpha) s t ∧ t.blk = s.blk := by
  have hExec : exec (.entryLink e f w) s =
      ((drop (kOf s.ctl.alpha) s).bind fun _ u => .ok () (u.setCtl { u.ctl with look := .second e w })).finish := by
    change execEntryLink e f w s = _
    rw [execEntryLink, hLook]
  rw [hExec]
  exact ((drop_overruns h hDetect hAvail hOver).bind _).stops

/-- The extra bits of a length or a distance (44_symbol_decode R256, R259). -/
theorem extraBits_stop : ∀ q ∈ lengthSpec ++ distSpec, 0 < q.2.2 → 8 * s.rd.endOff.toNat < pos s + q.2.2 →
    ∃ t, exec q.1 s = .next t ∧ OverrunsAt (pos s + q.2.2) s t ∧ t.blk = s.blk := by
  intro q hq h0 hOver
  rcases List.mem_append.1 hq with hLength | hDist
  · obtain ⟨k, hBits, -, hExtra, hExec⟩ := lengthSpec_rows q hLength
    rw [hExec, lengthSymbol, ← hExtra]
    exact ((get_overruns h hDetect h0 (by omega) hOver).bind _).stops
  · obtain ⟨k, hBits, -, -, hExtra, hExec⟩ := distSpec_rows q hDist
    rw [hExec, distSymbol, ← hExtra]
    exact ((get_overruns h hDetect h0 (by omega) hOver).bind _).stops

/-- The extra bits of a code-length repeat (43_block_engine R237 to R239). -/
theorem clRun_overruns (y : BitVec 4) (base : Nat) (h0 : 0 < n) (hn : n ≤ 16)
    (hOver : 8 * s.rd.endOff.toNat < pos s + n) : Overruns (pos s + n) s.blk s (clRun y base n s) :=
  (get_overruns h hDetect h0 hn hOver).bind _

theorem clRepeat_stops (hPrev : 0 < s.ctl.n) (hOver : 8 * s.rd.endOff.toNat < pos s + 2) :
    ∃ t, exec .clRepeat s = .next t ∧ OverrunsAt (pos s + 2) s t ∧ t.blk = s.blk := by
  have hExec : exec .clRepeat s = (clRun (lenAt s (s.ctl.n - 1)) 3 2 s).finish := by
    change execClRepeat s = _
    rw [execClRepeat, if_neg (Nat.ne_of_gt hPrev)]
  rw [hExec]
  exact (clRun_overruns h hDetect _ 3 (by decide) (by decide) hOver).stops

end clauses

/-- Settles O42: each operation is one that overruns, and an overrun's raise is a stop just past what was consumed. -/
theorem overrunStops : Obligations.OverrunStops := by
  intro s h hDetect
  refine ⟨?firstBit, ?btype, ?dynamic, ?stored, ?terminal, ?link, extraBits_stop h hDetect, clRepeat_stops h hDetect, ?zeros⟩
  case firstBit => exact fun hOver f => blockRow_stops (firstBit_overruns h hDetect hOver f)
  case btype => exact fun hLeft hOver f => blockRow_stops (btype_overruns h hDetect hLeft hOver f)
  case dynamic =>
    intro f k hk q hField hLeft hOver
    obtain ⟨q', hField', rfl⟩ := mem_dynamicFields_of_header hField
    obtain ⟨cl, hRaised⟩ := blockDynamic_overruns h hDetect f hk hField' hLeft hOver
    obtain ⟨t, hExec, hStop, hBlk⟩ := hRaised.stops
    exact ⟨t, hExec, hStop, by rw [hBlk]⟩
  case stored =>
    exact fun hHeader f q hField hLeft hOver => (blockStored_overruns h hDetect hHeader f hField hLeft hOver).stops
  case terminal =>
    intro e w hAvail hOver i hi
    simp only [List.mem_cons, List.not_mem_nil, or_false] at hi
    rcases hi with rfl | rfl
    · exact (terminal_overruns h hDetect e true w hAvail hOver).stops
    · exact (terminal_overruns h hDetect e false w hAvail hOver).stops
  case link => exact fun e f w hLook hAvail hOver => entryLink_stops h hDetect e f w hLook hAvail hOver
  case zeros =>
    intro q hq hOver
    simp only [List.mem_cons, List.not_mem_nil, or_false] at hq
    rcases hq with rfl | rfl
    · exact (clRun_overruns h hDetect 0 3 (by decide) (by decide) hOver).stops
    · exact (clRun_overruns h hDetect 0 11 (by decide) (by decide) hOver).stops

end Sys2Proof.Machine
end

section
/-! PROOF. The table entries a lookup reads: a link (O53) and the terminals with their symbols (O54). -/

namespace Sys2Proof.Machine

variable {s : State} {n k : Nat} {p : BitVec 24} {b : Bool}

/-- DROP(n) with its bits there and left, as one change of the reader (40_bitreader R143, R144). -/
theorem drop_setRd (h : ReaderOk s) (hAvail : n ≤ s.rd.avail.toNat) (hLeft : BitsLeft n s) :
    ∃ x, drop n s = .ok () (s.setRd x) ∧ Consumed n s (s.setRd x) := by
  obtain ⟨hConsumed, hDrop⟩ := drop_spec h hAvail
  refine ⟨_, hDrop.trans (if_neg ?_), hConsumed⟩
  rintro ⟨hDetect, hOver⟩
  exact Nat.not_lt.2 (hLeft hDetect) hOver

/-- The reader and the control state are all that has changed. -/
theorem untouched_setRd_setCtl (s : State) (x : Reader) (c : Control) : Untouched s ((s.setRd x).setCtl c) :=
  ⟨rfl, rfl, rfl, rfl, rfl, rfl, rfl, rfl, rfl, rfl, rfl, rfl, rfl⟩

/-- A drop and then a change of the control state: what DECODE does with an entry (41_table_builder R178). -/
theorem drop_then_setCtl (h : ReaderOk s) (hAvail : n ≤ s.rd.avail.toNat) (hLeft : BitsLeft n s) (c : Control)
    {f : Unit → State → Res Unit} (hf : ∀ x, f () (s.setRd x) = .ok () ((s.setRd x).setCtl c)) :
    ∃ t, ((drop n s).bind f).finish = .next t ∧ Consumed n s t ∧ Untouched s t ∧ t.ctl = c := by
  obtain ⟨x, hDrop, hConsumed⟩ := drop_setRd h hAvail hLeft
  refine ⟨(s.setRd x).setCtl c, ?_, hConsumed.congr rfl rfl fun _ => rfl, untouched_setRd_setCtl s x c, rfl⟩
  rw [hDrop, Res.bind_ok, hf, Res.finish_ok]

/-! ## Links -/

theorem exec_entryLink_first (h : s.ctl.look = .first) (p : BitVec 24) (b : Bool) (w : BitVec 6) :
    exec (.entryLink p b w) s =
      ((drop (kOf s.ctl.alpha) s).bind fun _ u => .ok () (u.setCtl { u.ctl with look := .second p w })).finish := by
  change execEntryLink p b w s = _
  rw [execEntryLink, h]

theorem exec_entryLink_second {q : BitVec 24} {v : BitVec 6} (h : s.ctl.look = .second q v) (p : BitVec 24) (b : Bool)
    (w : BitVec 6) : exec (.entryLink p b w) s = (terminal p b w s).finish := by
  change execEntryLink p b w s = _
  rw [execEntryLink, h]

/-- Settles O53: a link drops K bits and leads on; in a subtable it is the terminal of its literal flag. -/
theorem linkGoesToTheSubtable : Obligations.LinkGoesToTheSubtable := by
  intro s p b w
  constructor
  · intro h hAvail hLeft hLook
    rw [exec_entryLink_first hLook]
    exact drop_then_setCtl h hAvail hLeft _ fun _ => rfl
  · intro q v hLook
    rw [exec_entryLink_second hLook]
    cases b <;> rfl

/-! ## The symbol of a terminal (30_encoding R106 to R109) -/

theorem classify_cl (h : s.ctl.alpha = .cl) (hp : p.toNat < 32) : classify p b s = .ok () (lookSymbol p.toNat s) := by
  rw [classify, h]
  exact if_pos hp

theorem classify_literal (h : s.ctl.alpha = .ll) : classify p true s = .ok () (lookSymbol (payloadExtra p) s) := by
  rw [classify, h]
  rfl

theorem classify_ll {sym : Nat} (h : s.ctl.alpha = .ll) (hSym : llSymbolOf p s.blk = some sym) :
    classify p false s = .ok () (lookSymbol sym s) := by
  rw [classify, h, hSym]
  rfl

theorem classify_dist {sym : Nat} (h : s.ctl.alpha = .dist) (hSym : distSymbolOf p s.blk = some sym) :
    classify p b s = .ok () (lookSymbol sym s) := by
  rw [classify, h, hSym]

/-- The two fields of a packed base and extra count (30_encoding R106). -/
theorem payload_fields {base extra : Nat} (hBase : base < 65536) (hExtra : extra < 256) :
    payloadBase (BitVec.ofNat 24 (base * 256 + extra)) = base ∧
      payloadExtra (BitVec.ofNat 24 (base * 256 + extra)) = extra := by
  simp only [payloadBase, payloadExtra, BitVec.extractLsb'_toNat, BitVec.toNat_ofNat, Nat.shiftRight_eq_div_pow]
  omega

/-- A literal's byte is its packed value's low byte (30_encoding R106). -/
theorem payloadExtra_literal (c : Byte) : payloadExtra (c.setWidth 24) = c.toNat := by
  have hByte := c.isLt
  simp only [payloadExtra, BitVec.extractLsb'_toNat, BitVec.toNat_setWidth, Nat.shiftRight_eq_div_pow]
  omega

/-- A row that stands in a table once is found where it stands. -/
theorem rowOf_eq_some {t : List (Nat × Nat)} (hNodup : t.Nodup) {r : Nat × Nat} (h : t[k]? = some r) :
    rowOf t r.1 r.2 = some k := by
  obtain ⟨hk, rfl⟩ := List.getElem?_eq_some_iff.1 h
  refine List.findIdx?_eq_some_iff_getElem.2 ⟨hk, beq_self_eq_true _, fun j hj hEq => ?_⟩
  exact List.pairwise_iff_getElem.1 hNodup j k (Nat.lt_trans hj hk) hk hj (eq_of_beq hEq)

/-- The specification's length rows are the model's table (30_encoding R99). -/
theorem lengthTable_getElem? {q : Instr × Nat × Nat} (h : lengthSpec[k]? = some q) : lengthTable[k]? = some q.2 := by
  have hMap : lengthTable = lengthSpec.map (·.2) := by decide
  rw [hMap, List.getElem?_map, h]
  rfl

/-- The specification's distance rows are the model's table (30_encoding R100). -/
theorem distTable_getElem? {q : Instr × Nat × Nat} (h : distSpec[k]? = some q) : distTable[k]? = some q.2 := by
  have hMap : distTable = distSpec.map (·.2) := by decide
  rw [hMap, List.getElem?_map, h]
  rfl

/-- A row's base is neither EOB's nor BADSYM's, and both its numbers fit their fields (30_encoding R106). -/
theorem tables_fit : ∀ r ∈ lengthTable ++ distTable, 0 < r.1 ∧ r.1 < 0xFFFF ∧ r.2 < 256 := by decide

theorem llSymbolOf_length {q : Instr × Nat × Nat} (h : lengthSpec[k]? = some q) (blk : BlockRegs) :
    llSymbolOf (BitVec.ofNat 24 (q.2.1 * 256 + q.2.2)) blk = some (257 + k) := by
  have hRow := lengthTable_getElem? h
  obtain ⟨hPos, hBase, hExtra⟩ := tables_fit _ (List.mem_append_left _ (List.mem_of_getElem? hRow))
  obtain ⟨eBase, eExtra⟩ := payload_fields (show q.2.1 < 65536 by omega) hExtra
  rw [llSymbolOf, eBase, eExtra, if_neg (Nat.ne_of_lt hBase), if_neg (Nat.ne_of_gt hPos),
    rowOf_eq_some (by decide) hRow, Option.map_some, Nat.add_comm]

theorem distSymbolOf_distance {q : Instr × Nat × Nat} (h : distSpec[k]? = some q) (blk : BlockRegs) :
    distSymbolOf (BitVec.ofNat 24 (q.2.1 * 256 + q.2.2)) blk = some k := by
  have hRow := distTable_getElem? h
  obtain ⟨-, hBase, hExtra⟩ := tables_fit _ (List.mem_append_right _ (List.mem_of_getElem? hRow))
  obtain ⟨eBase, eExtra⟩ := payload_fields (show q.2.1 < 65536 by omega) hExtra
  rw [distSymbolOf, eBase, eExtra, if_neg (Nat.ne_of_lt hBase), rowOf_eq_some (by decide) hRow]

theorem llSymbolOf_badsym (blk : BlockRegs) : llSymbolOf 0xFFFF00#24 blk = some (if blk.llLen[286] = 0 then 287 else 286) :=
  if_pos (by decide)

theorem distSymbolOf_badsym (blk : BlockRegs) : distSymbolOf 0xFFFF00#24 blk = some (if blk.dLen[30] = 0 then 31 else 30) :=
  if_pos (by decide)

/-- A terminal that classifies as a symbol, whatever the reader holds, drops its bits and leads to the symbol's row. -/
theorem terminal_symbol {w : BitVec 6} (h : ReaderOk s) (hAvail : w.toNat ≤ s.rd.avail.toNat) (hLeft : BitsLeft w.toNat s)
    {sym : Nat} (hSym : ∀ x, classify p b (s.setRd x) = .ok () (lookSymbol sym (s.setRd x))) :
    ∃ t, (terminal p b w s).finish = .next t ∧ Consumed w.toNat s t ∧ Untouched s t ∧
      t.ctl = { s.ctl with look := .symbol (BitVec.ofNat 9 sym) } :=
  drop_then_setCtl h hAvail hLeft _ hSym

/-- Settles O54: each packed value classifies as its symbol. -/
theorem terminalsGiveTheirSymbol : Obligations.TerminalsGiveTheirSymbol := by
  intro s w h hAvail hLeft
  refine ⟨?codeLength, ?literal, ?eob, ?length, ?distance, ?badLength, ?badDistance⟩
  case codeLength =>
    intro sym hSym hAlpha
    have hNat : (BitVec.ofNat 24 sym).toNat = sym := Nat.mod_eq_of_lt (by omega)
    refine terminal_symbol h hAvail hLeft fun x => ?_
    rw [classify_cl (s := s.setRd x) hAlpha (by omega), hNat]
  case literal =>
    intro c hAlpha
    have hByte : c.setWidth 9 = BitVec.ofNat 9 (payloadExtra (c.setWidth 24)) := by
      rw [payloadExtra_literal, BitVec.ofNat_toNat]
    rw [hByte]
    exact terminal_symbol h hAvail hLeft fun x => classify_literal (s := s.setRd x) hAlpha
  case eob =>
    exact fun hAlpha => terminal_symbol h hAvail hLeft fun x => classify_ll (s := s.setRd x) hAlpha rfl
  case length =>
    exact fun k hAlpha q hq =>
      terminal_symbol h hAvail hLeft fun x => classify_ll (s := s.setRd x) hAlpha (llSymbolOf_length hq s.blk)
  case distance =>
    exact fun k hAlpha q hq =>
      terminal_symbol h hAvail hLeft fun x => classify_dist (s := s.setRd x) hAlpha (distSymbolOf_distance hq s.blk)
  case badLength =>
    intro hAlpha
    obtain ⟨t, hNext, hConsumed, hUntouched, hCtl⟩ := terminal_symbol h hAvail hLeft fun x =>
      classify_ll (s := s.setRd x) hAlpha (llSymbolOf_badsym s.blk)
    refine ⟨t, _, hNext, hConsumed, hUntouched, hCtl, ?_⟩
    split
    · exact .inr rfl
    · exact .inl rfl
  case badDistance =>
    intro hAlpha
    obtain ⟨t, hNext, hConsumed, hUntouched, hCtl⟩ := terminal_symbol h hAvail hLeft fun x =>
      classify_dist (s := s.setRd x) (b := false) hAlpha (distSymbolOf_badsym s.blk)
    refine ⟨t, _, hNext, hConsumed, hUntouched, hCtl, ?_⟩
    split
    · exact .inr rfl
    · exact .inl rfl

end Sys2Proof.Machine
end

section
/-! PROOF. The table builder: the verdict (O55), NEXT_REV (O56), the one-symbol table (O57) and DECODE's exactness (O58). -/

namespace Sys2Proof.Machine

variable {lens : List Nat} {k : Nat}

/-! ## The verdict (41_table_builder R162 to R165) -/

/-- The code-space sum compares with the whole alike in both units: 2^-L (R163) and 2^-15. -/
theorem spaceSum_scaled (hl : ∀ l ∈ lens, l ≤ 15) :
    ∃ c, 0 < c ∧ kraft lens = spaceSum lens * c ∧ 2 ^ 15 = 2 ^ maxLen lens * c := by
  have hMax : maxLen lens ≤ 15 := foldl_max_le _ _ _ (by omega) hl
  refine ⟨2 ^ (15 - maxLen lens), Nat.two_pow_pos _, kraft_eq hl, ?_⟩
  rw [← Nat.pow_add, Nat.add_sub_cancel' hMax]

theorem kraft_gt_iff (hl : ∀ l ∈ lens, l ≤ 15) : 2 ^ 15 < kraft lens ↔ 2 ^ maxLen lens < spaceSum lens := by
  obtain ⟨c, hc, hKraft, hWhole⟩ := spaceSum_scaled hl
  rw [hKraft, hWhole, Nat.mul_lt_mul_right hc]

theorem kraft_lt_iff (hl : ∀ l ∈ lens, l ≤ 15) : kraft lens < 2 ^ 15 ↔ spaceSum lens < 2 ^ maxLen lens := by
  obtain ⟨c, hc, hKraft, hWhole⟩ := spaceSum_scaled hl
  rw [hKraft, hWhole, Nat.mul_lt_mul_right hc]

/-- An empty code takes no code space and is not one symbol of length 1 (R162). -/
theorem kraft_of_empty (hl : ∀ l ∈ lens, l ≤ 15) (h : nzOf lens = 0) : kraft lens = 0 ∧ lens.filter (0 < ·) ≠ [1] := by
  rw [nzOf_eq hl, List.length_eq_zero_iff] at h
  rw [kraft, h]
  exact ⟨rfl, by simp⟩

/-- One symbol of length 1 takes half the code space (R165). -/
theorem kraft_of_single (h : lens.filter (0 < ·) = [1]) : kraft lens = 2 ^ 14 := by
  rw [kraft, h]
  rfl

/-- The checks in their order, with the sum in units of 2^-15: the empty code falls under the last. -/
theorem verdict_eq (hl : ∀ l ∈ lens, l ≤ 15) :
    verdict lens = if 2 ^ 15 < kraft lens then some .huffmanOverfull
      else if kraft lens < 2 ^ 15 ∧ lens.filter (0 < ·) ≠ [1] then some .huffmanIncomplete else none := by
  have hSingle : (!isSingle lens) = true ↔ lens.filter (0 < ·) ≠ [1] := by
    rw [ne_eq, ← isSingle_iff hl, Bool.not_eq_true', Bool.not_eq_true]
  rw [verdict]
  by_cases hEmpty : nzOf lens = 0
  · obtain ⟨hKraft, hNot⟩ := kraft_of_empty hl hEmpty
    rw [if_pos hEmpty, if_neg (by omega), if_pos ⟨by omega, hNot⟩]
  · simp only [if_neg hEmpty, Bool.and_eq_true, decide_eq_true_eq, hSingle, kraft_gt_iff hl, kraft_lt_iff hl]

/-- Settles O55: the sum is more than the whole, less than it, or the whole. -/
theorem buildVerdict : Obligations.BuildVerdict := by
  intro lens hl
  rw [verdict_eq hl]
  by_cases hOver : 2 ^ 15 < kraft lens
  · rw [if_pos hOver]
    refine ⟨iff_of_false nofun ?_, iff_of_true rfl hOver, iff_of_false nofun fun hUnder => by omega⟩
    rintro (hWhole | hSingle)
    · omega
    · have := kraft_of_single hSingle
      omega
  rw [if_neg hOver]
  by_cases hUnder : kraft lens < 2 ^ 15 ∧ lens.filter (0 < ·) ≠ [1]
  · rw [if_pos hUnder]
    obtain ⟨hLess, hNot⟩ := hUnder
    refine ⟨iff_of_false nofun ?_, iff_of_false nofun hOver, iff_of_true rfl ⟨hLess, hNot⟩⟩
    rintro (hWhole | hSingle)
    · omega
    · exact hNot hSingle
  · rw [if_neg hUnder]
    refine ⟨iff_of_true rfl ?_, iff_of_false nofun hOver, iff_of_false nofun hUnder⟩
    by_cases hSingle : lens.filter (0 < ·) = [1]
    · exact .inr hSingle
    · have hNotLess : ¬kraft lens < 2 ^ 15 := fun hLess => hUnder ⟨hLess, hSingle⟩
      exact .inl (by omega)

/-! ## NEXT_REV (41_table_builder R169) -/

theorem revBits_allOnes (l : Nat) : revBits l (2 ^ l - 1) = 2 ^ l - 1 := by
  induction l with
  | zero => rfl
  | succ l ih =>
    have hPos := Nat.two_pow_pos l
    have hDiv : (2 ^ (l + 1) - 1) / 2 ^ l = 1 := Nat.div_eq_of_lt_le (by omega) (by omega)
    have hMod : (2 ^ (l + 1) - 1) % 2 ^ l = 2 ^ l - 1 := by
      have := Nat.div_add_mod (2 ^ (l + 1) - 1) (2 ^ l)
      rw [hDiv] at this
      omega
    rw [revBits, hMod, hDiv, ih]
    omega

/-- A codeword that is not all ones is not all ones reversed either. -/
theorem revBits_succ_lt {l c : Nat} (h : c + 1 < 2 ^ l) : revBits l c + 1 < 2 ^ l := by
  have hLt := revBits_lt l c
  have hNe : revBits l c ≠ 2 ^ l - 1 := fun hAll => by
    have hBack := revBits_revBits l c (by omega)
    rw [hAll, revBits_allOnes] at hBack
    omega
  omega

/-- Settles O56: c is the reverse of its reverse, whose successor NEXT_REV gives reversed. -/
theorem nextRevIsTheReversedIncrement : Obligations.NextRevIsTheReversedIncrement := by
  intro l c h
  have hSucc := revBits_succ_lt h
  have hNext : nextRev c l = revBits l (revBits l c + 1) := by
    rw [← nextRev_revBits l _ hSucc, revBits_revBits l c (by omega)]
  rw [hNext]
  exact ⟨revBits_revBits l _ hSucc, revBits_lt l _⟩

/-! ## The one-symbol table (41_table_builder R166) -/

theorem getElem_eq_entryAt {cap : Nat} (t : Vector Entry cap) {i : Nat} (h : i < cap) : t[i] = entryAt t i := by
  simp [entryAt, h]

/-- A fill of the primary region's even or odd indices, as read there. -/
theorem entryAt_fillTwo {cap i r : Nat} (t : Vector Entry cap) (e : Entry) (hk0 : 0 < k) (hk : 2 ^ k ≤ cap) (hi : i < 2 ^ k)
    (hr : r < 2) : entryAt (fillStride t r 2 e (2 ^ (k - 1))) i = if i % 2 = r then e else entryAt t i := by
  have hStride : fillStride t r 2 e (2 ^ (k - 1)) = fillStride t (0 + r) (2 ^ 1) e (2 ^ (k - 1)) := by rw [Nat.zero_add, Nat.pow_one]
  rw [hStride]
  split
  next hIn =>
    have := entryAt_region_in (t := t) (e := e) hk0 (by omega : 0 + 2 ^ k ≤ cap) hi hIn
    rwa [Nat.zero_add i] at this
  next hOut => exact entryAt_region_out hk0 hr fun j _ hj hij => hOut (by rw [hij, Nat.zero_add]; exact hj)

/-- The one-symbol table as read: the entry where bit 0 of the index is set, the sentinel elsewhere. -/
theorem entryAt_singleTable {cap i : Nat} (e : Entry) (t : Vector Entry cap) (hk0 : 0 < k) (hk : 2 ^ k ≤ cap) (hi : i < 2 ^ k) :
    entryAt (singleTable k e t) i = if i % 2 = 1 then terminalEntry e 1 else sentinel := by
  rw [singleTable, entryAt_fillTwo _ _ hk0 hk hi (by decide), entryAt_fillTwo _ _ hk0 hk hi (by decide)]
  split
  next => rfl
  next hEven => exact if_pos (by omega)

/-- Lengths with a 1 at one symbol and 0 elsewhere, written out. -/
theorem oneSymbol_eq {sym : Nat} (hSym : sym < lens.length) (h : ∀ i, (hi : i < lens.length) → lens[i] = if i = sym then 1 else 0) :
    lens = List.replicate sym 0 ++ 1 :: List.replicate (lens.length - sym - 1) 0 := by
  have hLength : lens.length = (List.replicate sym 0 ++ 1 :: List.replicate (lens.length - sym - 1) 0).length := by
    rw [List.length_append, List.length_cons, List.length_replicate, List.length_replicate]
    omega
  refine List.ext_getElem hLength fun i hi _ => ?_
  rw [h i hi, List.getElem_append]
  rcases Nat.lt_trichotomy i sym with hBefore | rfl | hAfter
  · simp [hBefore, Nat.ne_of_lt hBefore]
  · simp
  · simp [List.getElem_cons, Nat.lt_asymm hAfter, Nat.ne_of_gt hAfter, Nat.sub_ne_zero_of_lt hAfter]

/-- The one symbol present has length 1, and stands where it is looked for. -/
theorem oneSymbol_spec {sym : Nat} (hSym : sym < lens.length) (h : ∀ i, (hi : i < lens.length) → lens[i] = if i = sym then 1 else 0) :
    (∀ l ∈ lens, l ≤ 15) ∧ lens.filter (0 < ·) = [1] ∧ lens.findIdx (· == 1) = sym := by
  refine ⟨fun l hl => ?_, ?_, (List.findIdx_eq hSym).2 ⟨by simp [h], fun j hj => ?_⟩⟩
  · obtain ⟨i, hi, rfl⟩ := List.getElem_of_mem hl
    rw [h i hi]
    split <;> omega
  · rw [oneSymbol_eq hSym h]
    simp
  · simp [h, Nat.ne_of_lt hj]

/-- An accepted code of one symbol builds the one-symbol table (R166). -/
theorem build_single {cap : Nat} (pv : Nat → Entry) (t : Vector Entry cap) (hl : ∀ l ∈ lens, l ≤ 15)
    (h : lens.filter (0 < ·) = [1]) :
    build k lens pv t = .ok (singleTable k (pv (lens.findIdx (· == 1))) t) 0 (2 ^ k) := by
  obtain ⟨hAccept, -⟩ := buildVerdict lens hl
  rw [build, hAccept.2 (.inr h)]
  exact if_pos ((isSingle_iff hl).2 h)

/-- Settles O57: the lengths are one symbol's, so BUILD writes the one-symbol table. -/
theorem oneSymbolTable : Obligations.OneSymbolTable := by
  intro cap k pv lens sym t hk0 hk hSym hLens
  obtain ⟨hl, hSingle, hIdx⟩ := oneSymbol_spec hSym hLens
  refine ⟨_, _, build_single pv t hl hSingle, fun i hi => ?_⟩
  rw [hIdx, getElem_eq_entryAt, entryAt_singleTable (pv sym) t hk0 hk hi]
  rfl

/-! ## DECODE (41_table_builder R179) -/

/-- A BUILD that succeeds had its lengths accepted. -/
theorem verdict_of_build {cap : Nat} {pv : Nat → Entry} {t u : Vector Entry cap} {rc nf : Nat}
    (h : build k lens pv t = .ok u rc nf) : verdict lens = none := by
  cases hv : verdict lens with
  | none => rfl
  | some c => rw [build_fail t hv] at h; cases h

/-- A lookup in the table of a complete code finds the entry of the codeword the bits begin with, the only such codeword. -/
theorem decodesExactly {cap : Nat} {pv : Nat → Entry} (hpv : PvExact pv) (hcap : cap < 65536) (hk : 2 ^ k ≤ cap) :
    DecodesExactly cap k pv := by
  intro lens t u rc nf s x hl hMany hBuild hBegins
  have hSingle : isSingle lens = false := by rw [Bool.eq_false_iff, ne_eq, isSingle_iff hl]; exact hMany
  have hCode := canonical hl (verdict_of_build hBuild) hSingle
  obtain ⟨L, base, hWalked⟩ := walked_build hpv hcap hk hCode hSingle hBuild
  obtain ⟨c, hc, rfl, hLen, hx⟩ := (hCode.begins_symbol hl).1 hBegins
  refine ⟨?_, fun s' hBegins' => ?_⟩
  · rw [hLen, hWalked.lookup hCode.codes hpv hcap hc hx]
    rfl
  · obtain ⟨d, hd, rfl, -, hx'⟩ := (hCode.begins_symbol hl).1 hBegins'
    rw [hCode.prefixFree hd hc hx' hx]

/-- Settles O58: each alphabet's packed values leave nbits free, and each table holds its primary region. -/
theorem decodeIsExact : Obligations.DecodeIsExact := by
  obtain ⟨hCl, hLl, hD⟩ := pv_exact
  exact ⟨decodesExactly hCl (by decide) (by decide), decodesExactly hLl (by decide) (by decide),
    decodesExactly hD (by decide) (by decide)⟩

end Sys2Proof.Machine
end

section
/-! PROOF. The front end (42_wrapper.md): the order of detection (O4) and of the zlib checks (O5), the wrapper rows (O31, O32),
the gzip flags (O34 to O36), and how a failed check stops the run (O33). -/

namespace Sys2Proof.Machine

variable {s t : State} {c : Cause} {left : Byte} {n p : Nat}

/-! ## The wrapper's word and the zlib header word -/

/-- Settles O4: the three fields of the wrapper's word are read back, and the detection is on them. -/
theorem wrapperDetectionOrder : Obligations.WrapperDetectionOrder := by
  intro b0 b1 n h0 h1 hn
  have hFits : wrapperWord b0 b1 n < 2 ^ 48 := by rw [wrapperWord]; omega
  have hByte0 : wrapperWord b0 b1 n % 256 = b0 := by rw [wrapperWord]; omega
  have hByte1 : wrapperWord b0 b1 n / 256 % 256 = b1 := by rw [wrapperWord]; omega
  have hLen : wrapperWord b0 b1 n / 65536 = n := by rw [wrapperWord]; omega
  rw [decode_wrapper hFits, decodeWrapper, hByte0, hByte1, hLen]

/-- Settles O5: the verdict on a header's word is that on its CINFO, the word itself and its FDICT. -/
theorem zlibCheckOrder : Obligations.ZlibCheckOrder := decode_zlibVerdict_zlibWord

theorem zlibHeaderOk_iff (c : BitVec 4) (f : Byte) : zlibHeaderOk c f = true ↔
    c.toNat ≤ 7 ∧ (c.toNat * 4096 + 2048 + f.toNat) % 31 = 0 ∧ f.getLsbD 5 = false := by
  rw [zlibHeaderOk, Bool.and_eq_true, Bool.and_eq_true, decide_eq_true_iff, decide_eq_true_iff, Bool.not_eq_true', and_assoc,
    zlibWord]

/-! ## How a row of the front end ends -/

/-- A failed check of the front end, raised from s (60_exceptions R342, R352). -/
theorem raiseStop_front (hc : isFrontEnd c = true) (s : State) :
    Stopped c .invalid 0 0 s (raiseStop c s) ∧ DatapathKept s (raiseStop c s) :=
  ⟨(Inside.refl s).raiseFront hc, raiseStop_kept c s⟩

theorem finish_frontStop {r : Res Unit} (hc : isFrontEnd c = true) (h : r = .raised c s) :
    ∃ t, r.finish = .next t ∧ Stopped c .invalid 0 0 s t ∧ DatapathKept s t :=
  ⟨raiseStop c s, by rw [h, Res.finish_raised], raiseStop_front hc s⟩

/-- Going on with the flags left is what gzipNext does. -/
theorem gzipGoesOn_iff : GzipGoesOn left p s t ↔ t = gzipNext left p s := by
  rw [GzipGoesOn, gzipNext]
  split <;> rfl

theorem finish_goesOn {r : Res Unit} (h : r = .ok () (gzipNext left p s)) :
    ∃ t, r.finish = .next t ∧ GzipGoesOn left p s t :=
  ⟨gzipNext left p s, by rw [h, Res.finish_ok], gzipGoesOn_iff.2 rfl⟩

theorem GzipGoesOn.regs (h : GzipGoesOn left p s t) : t.regs = s.regs := by
  rw [gzipGoesOn_iff.1 h]
  exact (gzipNext_keeps left p s).regs

/-! ## The wrapper rows and the zlib header -/

theorem exec_wrapGzip_badMethod (h : inByte s 2 ≠ 8) : exec .wrapGzip s = .next (raiseStop .gzipMethod s) := if_pos h

theorem exec_wrapGzip_method (h : inByte s 2 = 8) : exec .wrapGzip s = .next (gzipNext (inByte s 3) 10 s) :=
  if_neg (not_not_intro h)

/-- Settles O31: the method is 8 or not, and where it is, flags are left or not. -/
theorem gzipFixedHeader : Obligations.GzipFixedHeader := by
  intro s
  by_cases hMethod : inByte s 2 = 8
  · refine ⟨_, exec_wrapGzip_method hMethod, fun hBad => absurd hMethod hBad, fun _ hFlags => ?_, fun _ hNone => ?_⟩
    · exact if_neg hFlags
    · exact if_pos hNone
  · exact ⟨_, exec_wrapGzip_badMethod hMethod, fun _ => raiseStop_front rfl s, fun hGood => absurd hGood hMethod,
      fun hGood => absurd hGood hMethod⟩

theorem exec_zlibSniff_ok {c : BitVec 4} {f : Byte} (h : zlibHeaderOk c f = true) :
    exec (.zlibSniff c f) s = .next (zlibResult s) := if_pos h

theorem exec_zlibSniff_bad {c : BitVec 4} {f : Byte} (h : ¬zlibHeaderOk c f = true) :
    exec (.zlibSniff c f) s = .next { s with ctl := { s.ctl with wphase := .zlibVerdict } } := if_neg h

/-- Settles O32: WRAP_RAW and WRAP_ZLIB have one outcome each; the sniffed header passes its checks or not. -/
theorem rawAndZlibFrontEnds : Obligations.RawAndZlibFrontEnds := by
  intro s c f
  refine ⟨⟨rawResult s, rfl, rfl⟩, rfl, ?_⟩
  split
  case isTrue hOk => exact ⟨_, exec_zlibSniff_ok ((zlibHeaderOk_iff c f).2 hOk), rfl⟩
  case isFalse hBad => exact ⟨_, exec_zlibSniff_bad (mt (zlibHeaderOk_iff c f).1 hBad), rfl⟩

/-! ## FEXTRA (42_wrapper R197) -/

/-- The two bounds of FEXTRA as one: its length, then its bytes. -/
theorem skipExtra_eq (left : Byte) (s : State) : skipExtra left s =
    if inLen s - 8 < s.ctl.hdrPos + 2 ∨ inLen s - 8 < s.ctl.hdrPos + 2 +
        ((inByte s s.ctl.hdrPos).toNat + 256 * (inByte s (s.ctl.hdrPos + 1)).toNat)
    then .raised .gzipHeaderTruncated s
    else .ok () (gzipNext left (s.ctl.hdrPos + 2 +
        ((inByte s s.ctl.hdrPos).toNat + 256 * (inByte s (s.ctl.hdrPos + 1)).toNat)) s) := by
  by_cases hLength : inLen s - 8 < s.ctl.hdrPos + 2
  · exact (if_pos hLength).trans (if_pos (.inl hLength)).symm
  by_cases hBytes : inLen s - 8 < s.ctl.hdrPos + 2 +
      ((inByte s s.ctl.hdrPos).toNat + 256 * (inByte s (s.ctl.hdrPos + 1)).toNat)
  · exact (if_neg hLength).trans ((if_pos hBytes).trans (if_pos (.inr hBytes)).symm)
  · exact (if_neg hLength).trans ((if_neg hBytes).trans (if_neg (not_or.2 ⟨hLength, hBytes⟩)).symm)

/-- Settles O34: FTEXT goes on where it stands; FEXTRA reaches the trailer or not. -/
theorem gzipTextAndExtra : Obligations.GzipTextAndExtra := by
  intro s f
  refine ⟨⟨_, rfl, gzipGoesOn_iff.2 rfl⟩, ?_⟩
  change ∃ t, (skipExtra (f &&& 0xFB#8) s).finish = .next t ∧ _
  split
  case isTrue hShort => exact finish_frontStop rfl ((skipExtra_eq _ s).trans (if_pos hShort))
  case isFalse hRoom => exact finish_goesOn ((skipExtra_eq _ s).trans (if_neg hRoom))

/-! ## FNAME and FCOMMENT (42_wrapper R198, R199) -/

/-- The string ends at its first 0 byte, n bytes on, before the trailer. -/
theorem skipString_found (left : Byte) (hBefore : ∀ k, k < n → inByte s (s.ctl.hdrPos + k) ≠ 0)
    (hZero : inByte s (s.ctl.hdrPos + n) = 0) (hLim : s.ctl.hdrPos + n < inLen s - 8) :
    skipString left s = .ok () (gzipNext left (s.ctl.hdrPos + n + 1) s) := by
  have hReach : n < gzipLim s - s.ctl.hdrPos := by rw [gzipLim]; omega
  rw [skipString, skipNul_some s n _ _ hReach hBefore hZero]

/-- No 0 byte lies before the trailer. -/
theorem skipString_missing (left : Byte)
    (hNone : ∀ k, s.ctl.hdrPos + k < inLen s - 8 → inByte s (s.ctl.hdrPos + k) ≠ 0) :
    skipString left s = .raised .gzipHeaderTruncated s := by
  have hScan : skipNul s (gzipLim s - s.ctl.hdrPos) s.ctl.hdrPos = none :=
    skipNul_none s _ _ fun k hk => hNone k (by rw [gzipLim] at hk; omega)
  rw [skipString, hScan]

/-- Settles O35: both rows scan one string, which ends before the trailer or not. -/
theorem gzipStrings : Obligations.GzipStrings := by
  intro s f n
  refine ⟨fun hBefore hZero hLim => ⟨?_, ?_⟩, fun hNone => ⟨?_, ?_⟩⟩
  · exact finish_goesOn (skipString_found _ hBefore hZero hLim)
  · exact finish_goesOn (skipString_found _ hBefore hZero hLim)
  · exact finish_frontStop rfl (skipString_missing _ hNone)
  · exact finish_frontStop rfl (skipString_missing _ hNone)

/-! ## FHCRC (42_wrapper R200) -/

/-- The CRC unit's register once the header bytes before FHCRC's field are in it (log entry 19). -/
def withHeaderCrc (s : State) : State := { s with sums := { s.sums with crc := crcRegister (inByte s) s.ctl.hdrPos } }

/-- The bound of FHCRC's field, then the comparison. -/
theorem checkHeaderCrc_eq (left : Byte) (s : State) : checkHeaderCrc left s =
    if inLen s - 8 < s.ctl.hdrPos + 2 then .raised .gzipHeaderTruncated s
    else if (inByte s s.ctl.hdrPos).toNat + 256 * (inByte s (s.ctl.hdrPos + 1)).toNat ≠
        (crc32 (inByte s) s.ctl.hdrPos).toNat % 65536
    then .raised .gzipHeaderCrc (withHeaderCrc s)
    else .ok () (gzipNext left (s.ctl.hdrPos + 2) (withHeaderCrc s)) := rfl

/-- Settles O36: the field reaches the trailer, differs from the CRC, or agrees with it. -/
theorem gzipHeaderCrc : Obligations.GzipHeaderCrc := by
  intro s f
  change ∃ t, (checkHeaderCrc (f &&& 0xFD#8) s).finish = .next t ∧ _
  rw [checkHeaderCrc_eq]
  split
  case isTrue => exact ⟨_, rfl, raiseStop_front rfl s⟩
  case isFalse =>
  split
  case isTrue =>
    have hInside : Inside s (withHeaderCrc s) := Inside.setSums s _
    exact ⟨_, rfl, hInside.raiseFront rfl, _, raiseStop_kept .gzipHeaderCrc (withHeaderCrc s)⟩
  case isFalse => exact ⟨_, rfl, _, gzipGoesOn_iff.2 rfl⟩

/-! ## Failed checks -/

/-- A move of the front end: the register block stays as it is, or a check of the front end stops the run. -/
def FrontMoves (s : State) (o : Host.Outcome State Fault Refusal) : Prop :=
  ∃ t, o = .next t ∧ (t.regs = s.regs ∨ ∃ c, Stopped c .invalid 0 0 s t)

theorem FrontMoves.next (h : t.regs = s.regs) : FrontMoves s (.next t) := ⟨t, rfl, .inl h⟩

theorem FrontMoves.raise (hc : isFrontEnd c = true) : FrontMoves s (.next (raiseStop c s)) :=
  ⟨_, rfl, .inr ⟨c, (Inside.refl s).raiseFront hc⟩⟩

theorem wrapGzip_frontMoves (s : State) : FrontMoves s (exec .wrapGzip s) := by
  by_cases hMethod : inByte s 2 = 8
  · rw [exec_wrapGzip_method hMethod]
    exact .next (gzipNext_keeps _ _ s).regs
  · rw [exec_wrapGzip_badMethod hMethod]
    exact .raise rfl

theorem zlibSniff_frontMoves (c : BitVec 4) (f : Byte) (s : State) : FrontMoves s (exec (.zlibSniff c f) s) := by
  by_cases hOk : zlibHeaderOk c f = true
  · rw [exec_zlibSniff_ok hOk]
    exact .next rfl
  · rw [exec_zlibSniff_bad hOk]
    exact .next rfl

theorem gzFextra_frontMoves (f : Byte) (s : State) : FrontMoves s (exec (.gzFextra f) s) := by
  obtain ⟨-, t, hExec, hEnd⟩ := gzipTextAndExtra s f
  split at hEnd
  · exact ⟨t, hExec, .inr ⟨_, hEnd.1⟩⟩
  · exact ⟨t, hExec, .inl hEnd.regs⟩

theorem skipString_frontMoves (left : Byte) (s : State) : FrontMoves s (skipString left s).finish := by
  unfold skipString
  split
  · exact .next (gzipNext_keeps _ _ s).regs
  · exact .raise rfl

theorem gzFhcrc_frontMoves (f : Byte) (s : State) : FrontMoves s (exec (.gzFhcrc f) s) := by
  obtain ⟨t, hExec, hEnd⟩ := gzipHeaderCrc s f
  split at hEnd
  · exact ⟨t, hExec, .inr ⟨_, hEnd.1⟩⟩
  · split at hEnd
    · exact ⟨t, hExec, .inr ⟨_, hEnd.1⟩⟩
    · obtain ⟨k, hGoesOn⟩ := hEnd
      exact ⟨t, hExec, .inl hGoesOn.regs⟩

/-- The formats the front end decodes in. -/
def IsFrontFmt (f : Fmt) : Prop := f = .wrapper ∨ f = .zlibSniff ∨ f = .zlibVerdict ∨ f = .gzipFlg

/-- The front end's rows. -/
theorem exec_frontMoves {i : Instr} (hRow : IsFrontFmt (encode i).1) (s : State) : FrontMoves s (exec i s) := by
  cases i with
  | wrapGzip => exact wrapGzip_frontMoves s
  | wrapZlib | wrapRaw => exact .next rfl
  | zlibSniff c f => exact zlibSniff_frontMoves c f s
  | zlibCinfoBad _ _ | zlibFcheckBad _ _ | zlibFdictBad _ _ | gzFlagsReserved _ => exact .raise rfl
  | gzFtext f => exact .next (gzipNext_keeps _ _ s).regs
  | gzFextra f => exact gzFextra_frontMoves f s
  | gzFname f | gzFcomment f => exact skipString_frontMoves _ s
  | gzFhcrc f => exact gzFhcrc_frontMoves f s
  | _ => rcases hRow with hRow | hRow | hRow | hRow <;> cases hRow

/-- In the front end a word of one of its formats is next. -/
theorem fetch_wrap (h : s.ctl.seq = .wrap) : ∃ f w, IsFrontFmt f ∧ fetch s = fetched (decode f w) s := by
  simp only [fetch, h]
  cases s.ctl.wphase with
  | sniff => exact ⟨_, _, .inl rfl, rfl⟩
  | zlibHeader => exact ⟨_, _, .inr (.inl rfl), rfl⟩
  | zlibVerdict => exact ⟨_, _, .inr (.inr (.inl rfl)), rfl⟩
  | gzipFlags => exact ⟨_, _, .inr (.inr (.inr rfl)), rfl⟩

theorem engineStep_frontMoves (h : s.ctl.seq = .wrap) : FrontMoves s (engineStep s) := by
  obtain ⟨f, w, hFmt, hFetch⟩ := fetch_wrap h
  unfold engineStep
  rw [hFetch]
  cases hDecode : decode f w with
  | ok i => exact exec_frontMoves (by rwa [decode_fmt hDecode]) s
  | error e => exact .next rfl

/-- Settles O33: each failed check raises its front-end cause; a step of the front end that ends a run is such a stop, and the
invariant has its results at NONE and 0. -/
theorem frontEndFailuresStop : Obligations.FrontEndFailuresStop := by
  refine ⟨fun s c f => ⟨?_, ?_, ?_, ?_⟩, fun s t hInv hWrap hStep hDone => ?_⟩
  · exact ⟨_, rfl, raiseStop_front rfl s⟩
  · exact ⟨_, rfl, raiseStop_front rfl s⟩
  · exact ⟨_, rfl, raiseStop_front rfl s⟩
  · exact ⟨_, rfl, raiseStop_front rfl s⟩
  have hBusy : s.regs.busy = true := hInv.busy.2 (by rw [hWrap]; exact nofun)
  obtain ⟨u, hNext, hEnd⟩ := engineStep_frontMoves hWrap
  cases hNext.symm.trans hStep
  rcases hEnd with hRegs | ⟨c, hStop⟩
  · rw [hRegs, hInv.done hBusy] at hDone
    cases hDone
  · have hFront := hInv.front hWrap
    rw [hStop.regs]
    exact ⟨rfl, congrArg FrontEnd.expCheck hFront, congrArg FrontEnd.isize hFront, rfl, rfl⟩

end Sys2Proof.Machine
end

section
/-! PROOF. The block headers (43_block_engine.md): a reserved type (O41), a stored block and its checks (O37, O38), a fixed block
(O39) and a dynamic header (O40). Each row is the header's bits, then an operation from the state they leave. -/

namespace Sys2Proof.Machine

variable {s u : State} {k n : Nat} {b : BlockRegs} {c : Cause}

/-! ## Reading on, and raising -/

/-- Fewer bits are left where more were, after reading on too. -/
theorem ReadTo.left {m : Nat} (h : ReadTo k b s u) (hLeft : BitsLeft m s) (hm : k + n ≤ m) : BitsLeft n u := by
  intro hDetect
  have hEnd := hLeft (h.detect.symm.trans hDetect)
  rw [h.consumed.pos, h.consumed.stop]
  omega

/-- A block header with its bits left: its three bits are consumed and its two latches set (43_block_engine R221). -/
theorem takeHeader_latches (f : Bool) (y : BitVec 2) (h : ReaderOk s) (hLeft : BitsLeft 3 s) :
    ∃ u, takeHeader f y s = .ok () u ∧ ReadTo 3 (blockLatches f y s) s u := by
  obtain ⟨x, hTake, hConsumed⟩ := takeHeader_ok f y h hLeft
  exact ⟨_, hTake, x, rfl, hConsumed.congr rfl rfl fun _ => rfl⟩

theorem ReadTo.inside (h : ReadTo k b s u) : Inside s u := by
  obtain ⟨x, rfl, -⟩ := h
  exact (Inside.setRd s x).trans (Inside.setBlk _ b)

theorem byteAt_raiseStop (c : Cause) (s : State) (i : Nat) : byteAt (raiseStop c s) i = byteAt s i := by
  rw [raiseStop_eq]
  rfl

/-- A stop moves the reader no further. -/
theorem Consumed.raiseStop (h : Consumed k s u) (c : Cause) : Consumed k s (raiseStop c u) :=
  h.congr rfl (raiseStop_rd c u) (byteAt_raiseStop c u)

/-- What a raise after reading on leaves of the datapath. -/
theorem ReadTo.raiseStop_kept (h : ReadTo k b s u) (c : Cause) :
    DatapathKept { s with rd := (raiseStop c u).rd, blk := b } (raiseStop c u) := by
  obtain ⟨x, rfl, -⟩ := h
  rw [raiseStop_rd]
  exact Machine.raiseStop_kept c _

/-- What a raise after reading on is to the host. -/
theorem ReadTo.raiseStop_stopped (h : ReadTo k b s u) (hc : isFrontEnd c = false) :
    Stopped c s.fe.fmt 0 (bitpos s.fe.fmt (pos s + k)) s (raiseStop c u) := by
  rw [← h.consumed.pos]
  exact h.inside.raise hc

/-! ## Reserved blocks (43_block_engine R223) -/

/-- Settles O41: the header is read, and its BTYPE raised. -/
theorem reservedBlockTypeStops : Obligations.ReservedBlockTypeStops := by
  intro s f h hLeft
  obtain ⟨u, hTake, hRead⟩ := takeHeader_latches f 3 h hLeft
  refine ⟨raiseStop .btypeReserved u, ?_, hRead.raiseStop_stopped rfl, hRead.consumed.raiseStop _, hRead.raiseStop_kept _⟩
  change execBlockReserved f s = _
  rw [execBlockReserved, hTake, Res.bind_ok, Res.finish_raised]

/-! ## Stored blocks (43_block_engine R224 to R229) -/

/-- A stored block's reader after NLEN, with the header's latches set (43_block_engine R224, R225). -/
def atPayload (f : Bool) (s : State) : State :=
  (s.setRd { acc := 0, avail := 0, cur := storedAt s + 4, start := s.rd.start, endOff := s.rd.endOff }).setBlk
    (blockLatches f 0 s)

theorem pos_atPayload (f : Bool) (s : State) : pos (atPayload f s) = 8 * (storedAt s + 4) := rfl

theorem atPayload_reader (f : Bool) (h : ReaderOk s) : ReaderOk (atPayload f s) := by
  have hPulled := h.pulled
  refine ⟨by simp [atPayload], ?_, rfl⟩
  change 8 * s.rd.start.toNat + 0 ≤ 8 * (storedAt s + 4)
  rw [storedAt, pos]
  omega

/-- LEN and NLEN stand at the next byte boundary after the header (43_block_engine R224, 40_bitreader R146, R147). -/
theorem atPayload_readTo (f : Bool) (h : ReaderOk s) :
    ReadTo (8 * (storedAt s + 4) - pos s) (blockLatches f 0 s) s (atPayload f s) := by
  refine ⟨_, rfl, ?_, atPayload_reader f h, rfl, rfl⟩
  rw [pos_atPayload, storedAt]
  omega

theorem readLeU16_ok (h : s.detect = true → s.rd.cur + 2 ≤ s.rd.endOff.toNat) :
    readLeU16 s = .ok (le16 (byteAt s s.rd.cur) (byteAt s (s.rd.cur + 1))) (s.setRd { s.rd with cur := s.rd.cur + 2 }) := by
  rw [readLeU16_spec, if_neg]
  rintro ⟨hDetect, hPast⟩
  exact Nat.not_lt.2 (h hDetect) hPast

/-- ALIGN's reader, written out. -/
theorem align_eq (h : ReaderOk s) : align s = s.setRd { s.rd with acc := 0, avail := 0, cur := (pos s + 7) / 8 } := by
  obtain ⟨-, -, hCur, -⟩ := align_spec h
  rw [← hCur]
  rfl

/-- A stored block with its header, LEN and NLEN left: its checks in their order, then the payload's copy
(43_block_engine R221, R224 to R229). -/
theorem exec_blockStored {len nlen : Nat} (f : Bool) (h : ReaderOk s) (hLeft : BitsLeft 3 s)
    (hLens : s.detect = true → storedAt s + 4 ≤ s.rd.endOff.toNat)
    (hLen : len = le16 (byteAt s (storedAt s)) (byteAt s (storedAt s + 1)))
    (hNlen : nlen = le16 (byteAt s (storedAt s + 2)) (byteAt s (storedAt s + 3))) :
    exec (.blockStored f) s = .next (
      if nlen ^^^ 0xFFFF ≠ len then raiseStop .storedLenMismatch (atPayload f s)
      else if s.rd.endOff.toNat < storedAt s + 4 + len then raiseStop .storedLenOverrun (atPayload f s)
      else if outCap s < s.outLen.toNat + len then raiseStop .outputFull (atPayload f s)
      else endBlock (storedCopy len (atPayload f s))) := by
  obtain ⟨x, hTake, hConsumed⟩ := takeHeader_ok f 0 h hLeft
  have hOk : ReaderOk ((s.setRd x).setBlk (blockLatches f 0 s)) := hConsumed.reader.congr rfl fun _ => rfl
  have hPos : (pos ((s.setRd x).setBlk (blockLatches f 0 s)) + 7) / 8 = storedAt s := by
    change (pos (s.setRd x) + 7) / 8 = _
    rw [hConsumed.pos, storedAt]
  have hStart : x.start = s.rd.start := hConsumed.start
  have hEnd : x.endOff = s.rd.endOff := hConsumed.stop
  have hAligned : align ((s.setRd x).setBlk (blockLatches f 0 s)) =
      (s.setRd { acc := 0, avail := 0, cur := storedAt s, start := s.rd.start, endOff := s.rd.endOff }).setBlk
        (blockLatches f 0 s) := by
    rw [align_eq hOk, hPos, ← hStart, ← hEnd]
    rfl
  change execBlockStored f s = _
  rw [execBlockStored, hTake, Res.bind_ok, storedBody, hAligned, readLeU16_ok fun hDetect => ?len, Res.bind_ok,
    readLeU16_ok fun hDetect => ?nlen, Res.bind_ok, hLen, hNlen]
  case len => exact Nat.le_trans (Nat.add_le_add_left (by decide) _) (hLens hDetect)
  case nlen => exact hLens hDetect
  simp only [apply_ite Res.finish, apply_ite Host.Outcome.next]
  rfl

/-- Settles O38: the checks one by one, each raised after NLEN. -/
theorem storedBlockTraps : Obligations.StoredBlockTraps := by
  intro s f len nlen h hLeft hLens hLen hNlen
  have hRead := atPayload_readTo f h
  have hPos : pos s + (8 * (storedAt s + 4) - pos s) = 8 * (storedAt s + 4) := by
    rw [storedAt]
    omega
  have hStops : ∀ c, isFrontEnd c = false →
      Stopped c s.fe.fmt 0 (bitpos s.fe.fmt (8 * (storedAt s + 4))) s (raiseStop c (atPayload f s)) ∧
        DatapathKept { s with rd := (raiseStop c (atPayload f s)).rd, blk := blockLatches f 0 s } (raiseStop c (atPayload f s)) :=
    fun c hc => ⟨hPos ▸ hRead.raiseStop_stopped hc, hRead.raiseStop_kept c⟩
  refine ⟨_, exec_blockStored f h hLeft hLens hLen hNlen, ?_⟩
  by_cases hMismatch : nlen ^^^ 0xFFFF ≠ len
  · simpa only [if_pos hMismatch] using hStops _ rfl
  simp only [if_neg hMismatch]
  by_cases hShort : s.rd.endOff.toNat < storedAt s + 4 + len
  · simpa only [if_pos hShort] using hStops _ rfl
  simp only [if_neg hShort]
  by_cases hFull : outCap s < s.outLen.toNat + len
  · simpa only [if_pos hFull] using hStops _ rfl
  simp only [if_neg hFull]
  exact (storedCopy_keeps len (s := atPayload f s) (Nat.not_lt.1 hFull)).2

/-- Settles O37: the checks pass, and the copy writes the payload, which lies in the input, apart from the output. -/
theorem storedBlockCopies : Obligations.StoredBlockCopies := by
  intro s f len hRun hLeft hLens hLen hNlen hInput hOutput
  have hExec := exec_blockStored f hRun.reader hLeft hLens hLen hNlen
  have hNlenOk : len ^^^ 0xFFFF ^^^ 0xFFFF = len := by rw [Nat.xor_assoc, Nat.xor_self, Nat.xor_zero]
  rw [if_neg (fun hne => hne hNlenOk), if_neg (Nat.not_lt.2 hInput), if_neg (Nat.not_lt.2 hOutput)] at hExec
  obtain ⟨hKeeps, hLength⟩ := storedCopy_keeps len (s := atPayload f s) hOutput
  have hReady : EngineKeeps s (atPayload f s) := (keeps_setRd s _).trans (keeps_setBlk _ _)
  refine ⟨_, hExec, (hReady.trans hKeeps).trans (endBlock_keeps _), hLength, ?bytes, storedCopy_rd len _, ?rest⟩
  case bytes =>
    refine storedCopy_bytes len (s := atPayload f s) hRun.inv.memForm hOutput fun i j hi hj => ?_
    exact buffers_apart hRun.inv hRun.busy (Nat.lt_of_lt_of_le (Nat.lt_of_lt_of_le hi hInput) hRun.inside) hj
  case rest =>
    obtain ⟨m, n, x, hCopy⟩ := storedCopy_eq len (atPayload f s)
    rw [hCopy]
    exact ⟨rfl, rfl, rfl, rfl, rfl, rfl⟩

/-! ## Fixed blocks (43_block_engine R230, R231) -/

/-- A vector's lengths, when each is known. -/
theorem lensOf_eq {m w : Nat} {x : Vector (BitVec w) m} {g : Nat → Nat} (h : ∀ i, (hi : i < m) → x[i].toNat = g i) :
    lensOf x = (List.range m).map g := by
  refine List.ext_getElem (by simp [lensOf]) fun i hi _ => ?_
  have hm : i < m := by simpa [lensOf] using hi
  simp [lensOf, h i hm]

/-- ll_len of a fixed block (30_encoding R111). -/
def fixedLLLens : List Nat := (List.range 288).map fun i => (fixedLL i).toNat

/-- d_len of a fixed block (30_encoding R111). -/
def fixedDLens : List Nat := (List.range 32).map fun _ => fixedD.toNat

theorem setFixedLens_llLen (s : State) : lensOf (setFixedLens s).blk.llLen = fixedLLLens := lensOf_ofFn _ _ fun _ _ => rfl

theorem setFixedLens_dLen (s : State) : lensOf (setFixedLens s).blk.dLen = fixedDLens := lensOf_eq fun i hi => by
  simp [setFixedLens]

/-- The canonical codewords of the fixed literal/length code as R112 lists them. -/
def fixedLLCode (i : Nat) : Nat :=
  if i < 144 then 0x30 + i else if i < 256 then 0x190 + (i - 144) else if i < 280 then i - 256 else 0xC0 + (i - 280)

theorem fixedLL_range (i : Nat) : 7 ≤ (fixedLL i).toNat ∧ (fixedLL i).toNat ≤ 9 := by
  unfold fixedLL
  split
  · decide
  split
  · decide
  split
  · decide
  · decide

theorem fixedLLLens_range : ∀ l ∈ fixedLLLens, 7 ≤ l ∧ l ≤ 9 := by
  intro l hl
  obtain ⟨i, -, rfl⟩ := List.mem_map.1 hl
  exact fixedLL_range i

theorem fixedDLens_eq : ∀ l ∈ fixedDLens, l = 5 := by
  intro l hl
  obtain ⟨i, -, rfl⟩ := List.mem_map.1 hl
  rfl

/-- Both fixed codes are complete (41_table_builder R164, R165). -/
theorem fixed_verdicts : verdict fixedLLLens = none ∧ verdict fixedDLens = none := by decide +kernel

theorem fixed_not_single : isSingle fixedLLLens = false ∧ isSingle fixedDLens = false := by decide +kernel

/-- The fixed literal/length codewords (30_encoding R112), read off those BUILD assigns. -/
theorem canonOf_fixedLL {i : Nat} (hi : i < 288) : canonOf fixedLLLens i = fixedLLCode i := by
  have hCanonical := canonical (fun l hl => by have := fixedLLLens_range l hl; omega) fixed_verdicts.1 fixed_not_single.1
  have hLen : fixedLLLens[i]? = some (fixedLL i).toNat := by simp [fixedLLLens, hi]
  have hRange := fixedLL_range i
  exact hCanonical.values fixedLLCode (by decide +kernel) hLen (by omega) (by omega)

/-- The fixed distance codewords are the symbols themselves (30_encoding R112). -/
theorem canonOf_fixedD {i : Nat} (hi : i < 32) : canonOf fixedDLens i = i := by
  have hCanonical := canonical (fun l hl => by rw [fixedDLens_eq l hl]; decide) fixed_verdicts.2 fixed_not_single.2
  have hLen : fixedDLens[i]? = some 5 := by
    rw [fixedDLens, List.getElem?_map, List.getElem?_range hi]; rfl
  exact hCanonical.values id (by decide +kernel) hLen (by decide) (by decide)

/-- The fixed codes build with no subtable: no codeword is longer than its table's index (43_block_engine R231). -/
theorem buildBoth_fixed (s : State) : ∃ tl rc td rc' z,
    build 10 (lensOf (setFixedLens s).blk.llLen) pvLL s.tab.ll = .ok tl rc 1024 ∧
    build 8 (lensOf (setFixedLens s).blk.dLen) pvD s.tab.d = .ok td rc' 256 ∧
    buildBoth (setFixedLens s) = .ok () (enterSyms (((setFixedLens s).setTab { s.tab with ll := tl, d := td }).setScr z)) := by
  obtain ⟨tl, rc, hLL⟩ := build_ok (k := 10) pvLL s.tab.ll fixed_verdicts.1 fun l hl => by
    have := fixedLLLens_range l hl; omega
  obtain ⟨td, rc', hD⟩ := build_ok (k := 8) pvD s.tab.d fixed_verdicts.2 fun l hl => by rw [fixedDLens_eq l hl]; decide
  rw [← setFixedLens_llLen s] at hLL
  rw [← setFixedLens_dLen s] at hD
  exact ⟨tl, rc, td, rc', _, hLL, hD, buildBoth_ok hLL hD⟩

/-- Settles O39: the header is read, the fixed lengths are set and both codes built. -/
theorem fixedBlockBuilds : Obligations.FixedBlockBuilds := by
  intro s f h hLeft
  obtain ⟨u, hTake, x, hU, hConsumed⟩ := takeHeader_latches f 1 h hLeft
  obtain ⟨tl, rc, td, rc', z, hLL, hD, hBuilt⟩ := buildBoth_fixed u
  have hExec : exec (.blockFixed f) s = (buildBoth (setFixedLens u)).finish := by
    change execBlockFixed f s = _
    rw [execBlockFixed, hTake, Res.bind_ok]
  rw [hExec, hBuilt]
  subst hU
  refine ⟨_, rc, rc', rfl, ?keeps, hConsumed.congr rfl rfl fun _ => rfl, rfl, rfl, ?llLen, ?dLen, ?llCode, ?dCode, rfl, hLL,
    hD, rfl, rfl, rfl, rfl, rfl, rfl⟩
  case keeps =>
    exact (((((keeps_setRd s x).trans (keeps_setBlk _ _)).trans (setFixedLens_keeps _)).trans (keeps_setTab _ _)).trans
      (keeps_setScr _ _)).trans (enterSyms_keeps _)
  case llLen =>
    intro i hi
    exact Vector.getElem_ofFn hi
  case dLen =>
    intro i hi
    exact Vector.getElem_replicate hi
  case llCode => exact fun i hi => (setFixedLens_llLen _).symm ▸ canonOf_fixedLL hi
  case dCode => exact fun i hi => (setFixedLens_dLen _).symm ▸ canonOf_fixedD hi

/-! ## Dynamic blocks (43_block_engine R232 to R235) -/

/-- Among the first k symbols of PERM one stands where it stands in PERM (43_block_engine R233). -/
theorem perm_take_idxOf (i : Nat) (hLength : (perm.take k).length = k) :
    ((perm.take k).idxOf i < k ↔ perm.idxOf i < k) ∧ (perm.idxOf i < k → (perm.take k).idxOf i = perm.idxOf i) := by
  have hAppend := List.idxOf_append (l₁ := perm.take k) (l₂ := perm.drop k) (a := i)
  have hMem := List.idxOf_lt_length_iff (l := perm.take k) (a := i)
  rw [List.take_append_drop, hLength] at hAppend
  rw [hLength] at hMem
  by_cases hTaken : i ∈ perm.take k
  · rw [if_pos hTaken] at hAppend
    exact ⟨by rw [hAppend], fun _ => hAppend.symm⟩
  · rw [if_neg hTaken] at hAppend
    have hPast : ¬perm.idxOf i < k := by omega
    exact ⟨iff_of_false (fun h => hTaken (hMem.1 h)) hPast, fun h => absurd h hPast⟩

/-- The lengths that the header's k reads store are the stream's, in the order PERM (43_block_engine R233). -/
theorem readClLens_perm (hk : k ≤ 19) (h : ReaderOk s) (hLeft : BitsLeft (3 * k) s) (hZero : s.blk.clLen = .replicate 19 0) :
    ∃ u cl, readClLens (perm.take k) s = .ok () u ∧ ReadTo (3 * k) { s.blk with clLen := cl } s u ∧
      lensOf cl = headerClLens s (pos s) k := by
  have hLength : (perm.take k).length = k := by
    rw [List.length_take, show perm.length = 19 from rfl, Nat.min_eq_left hk]
  obtain ⟨x, cl, hLens, hConsumed, hCl⟩ := readClLens_ok (perm.take k) h (hLength.symm ▸ hLeft)
    (fun i hi => (show ∀ i ∈ perm, i < 19 by decide) i (List.mem_of_mem_take hi)) ((show perm.Nodup by decide).take)
  rw [hLength] at hConsumed
  refine ⟨_, cl, hLens, ⟨x, rfl, hConsumed.congr rfl rfl fun _ => rfl⟩, lensOf_eq fun i hi => ?_⟩
  obtain ⟨hIff, hSame⟩ := perm_take_idxOf i hLength
  rw [hCl i hi, hLength]
  by_cases hlt : perm.idxOf i < k
  · rw [if_pos (hIff.2 hlt), if_pos hlt, hSame hlt]
  · rw [if_neg (fun h => hlt (hIff.1 h)), if_neg hlt]
    simp [hZero]

/-- A dynamic header that is all there is read up to the code-length build (43_block_engine R221, R232, R233). -/
theorem exec_blockDynamic (f : Bool) (h : ReaderOk s) (hk : k = streamBits s (pos s + 13) 4 + 4)
    (hLeft : BitsLeft (17 + 3 * k) s) :
    ∃ u cl, exec (.blockDynamic f) s = ((buildCL u).bind fun _ t => .ok () (enterClread t)).finish ∧
      ReadTo (17 + 3 * k) { blockLatches f 2 s with
        hlit := BitVec.ofNat 9 (streamBits s (pos s + 3) 5 + 257)
        hdist := BitVec.ofNat 6 (streamBits s (pos s + 8) 5 + 1)
        hclen := BitVec.ofNat 5 k
        clLen := cl } s u ∧
      lensOf cl = headerClLens s (pos s + 17) k := by
  obtain ⟨u, hTake, hHeader⟩ := takeHeader_latches f 2 h fun hDetect => by have := hLeft hDetect; omega
  obtain ⟨x, hCounts, hConsumed⟩ := dynamicCounts_ok hHeader.consumed.reader (hHeader.left hLeft (by omega))
  simp only [hHeader.streamBits, hHeader.consumed.pos, Nat.add_assoc, Nat.reduceAdd] at hCounts
  rw [← hk] at hCounts
  generalize hBlk : ({ withCounts _ _ u with hclen := _ } : BlockRegs) = B at hCounts
  have hLatched : ReadTo 17 { B with clLen := .replicate 19 0 } s
      (((u.setRd x).setBlk B).setBlk { B with clLen := .replicate 19 0 }) :=
    (hHeader.trans (b' := B) ⟨x, rfl, hConsumed.congr rfl rfl fun _ => rfl⟩).setBlk _
  have hStream := streamBits_lt s (pos s + 13) 4
  have hHclen : B.hclen.toNat = k := by
    rw [← hBlk, BitVec.toNat_ofNat]
    omega
  obtain ⟨v, cl, hLens, hRead, hCl⟩ := readClLens_perm (k := k) (by omega) hLatched.consumed.reader
    (hLatched.left hLeft (Nat.le_refl _)) rfl
  refine ⟨v, cl, ?_, ?_, ?_⟩
  · change execBlockDynamic f s = _
    rw [execBlockDynamic, hTake, Res.bind_ok, dynamicBody, hCounts, Res.bind_ok, State.setBlk_blk, hHclen, hLens, Res.bind_ok]
  · have hAll := hLatched.trans hRead
    rw [State.setBlk_blk, ← hBlk, withCounts, hHeader.blk] at hAll
    exact hAll
  · rw [hCl, headerClLens, headerClLens]
    simp only [hLatched.streamBits, hLatched.consumed.pos]

/-- A refused code-length code is raised with its verdict, T_CL as it was (43_block_engine R234). -/
theorem buildCL_refused (hVerdict : verdict (lensOf s.blk.clLen) = some c) :
    isFrontEnd c = false ∧ ∃ z, buildCL s = .raised c (s.setScr z) := by
  have hFail := build_fail (k := 7) (pv := pvCL) s.tab.cl hVerdict
  exact ⟨build_cause_back hFail, _, buildCL_fail hFail⟩

/-- An accepted code-length code is built: its lengths have three bits, and T_CL's index seven (43_block_engine R234). -/
theorem buildCL_accepted (hVerdict : verdict (lensOf s.blk.clLen) = none) :
    ∃ tc rc z, build 7 (lensOf s.blk.clLen) pvCL s.tab.cl = .ok tc rc 128 ∧
      buildCL s = .ok () ((s.setTab { s.tab with cl := tc }).setScr z) := by
  obtain ⟨tc, rc, hBuild⟩ := build_ok (k := 7) pvCL s.tab.cl hVerdict fun l hl => by
    obtain ⟨y, -, rfl⟩ := List.mem_map.1 hl
    exact Nat.le_of_lt_succ y.isLt
  exact ⟨tc, rc, _, hBuild, buildCL_ok hBuild⟩

/-- Settles O40: the header is read, and its verdict decides the code-length build. -/
theorem dynamicHeader : Obligations.DynamicHeader := by
  intro s f k h hk hLeft
  obtain ⟨u, cl, hExec, hRead, hCl⟩ := exec_blockDynamic f h hk hLeft
  have hInside := hRead.inside
  obtain ⟨x, hU, hConsumed⟩ := hRead
  have hLens : lensOf u.blk.clLen = headerClLens s (pos s + 17) k := by rw [hU, ← hCl]; rfl
  rw [hExec]
  cases hVerdict : verdict (headerClLens s (pos s + 17) k) with
  | some c =>
    obtain ⟨hCause, z, hRaised⟩ := buildCL_refused (hLens ▸ hVerdict)
    have hScr : Consumed (17 + 3 * k) s (u.setScr z) := hConsumed.congr rfl rfl fun _ => rfl
    rw [hRaised, Res.bind_raised, Nat.add_assoc, ← hScr.pos]
    refine ⟨_, rfl, hScr.raiseStop c, ?blk, ?lens, (hInside.trans (Inside.setScr u z)).raise hCause, ?kept⟩
    case blk => rw [raiseStop_blk, hU]; rfl
    case lens => rw [raiseStop_blk]; exact hLens
    case kept =>
      rw [raiseStop_rd, raiseStop_blk, raiseStop_scr, hU]
      exact raiseStop_kept c _
  | none =>
    obtain ⟨tc, rc, z, hBuild, hBuilt⟩ := buildCL_accepted (hLens ▸ hVerdict)
    rw [hBuilt, Res.bind_ok]
    refine ⟨_, rfl, hConsumed.congr rfl rfl fun _ => rfl, ?blk, hLens, ?keeps, ⟨rc, ?build⟩, ?rest⟩
    case blk => rw [hU]; rfl
    case keeps =>
      rw [hU]
      exact ((((keeps_setRd s x).trans (keeps_setBlk _ _)).trans (keeps_setTab _ _)).trans (keeps_setScr _ _)).trans
        (enterClread_keeps _)
    case build => rw [hU] at hBuild ⊢; exact hBuild
    case rest => rw [hU]; exact ⟨rfl, rfl, rfl, rfl, rfl, rfl, rfl⟩

end Sys2Proof.Machine
end

section
/-! PROOF. The code-length symbols (43_block_engine.md): one length (O43), the repeats (O44), their traps (O45), and the symbol that
completes the lengths (O46). The repeats are one run, which ends short of the total, past it, or on it. -/

namespace Sys2Proof.Machine

variable {s t : State} {k n : Nat}

/-! ## Short of the total, and past it (43_block_engine R236 to R239, R241) -/

/-- What the stores leave, seen from before the reader moved. -/
theorem LensStored.of_setRd {x : Reader} {y : BitVec 4} (h : LensStored y k (s.setRd x) t) : LensStored y k s t :=
  ⟨h.stored, h.others, h.blk, h.ctl, h.rest⟩

/-- Nothing but the block registers, the control state and the reader has changed, so the stream has not. -/
theorem LensStored.byteAt {y : BitVec 4} (h : LensStored y k s t) (hRd : t.rd = s.rd) (i : Nat) : byteAt t i = byteAt s i := by
  rw [h.rest, hRd]
  rfl

/-- Settles O43: one length is stored, short of the total. -/
theorem codeLengthLiteral : Obligations.CodeLengthLiteral := by
  intro s y hShort hTotal
  obtain ⟨t, hNext, hStored, hRd⟩ := lens_stored y 1 s hShort hTotal
  exact ⟨t, congrArg Res.finish hNext, hStored, hRd⟩

section repeats

variable {base bits : Nat} (y : BitVec 4) (h : ReaderOk s) (hBits : bits ≤ 16) (hLeft : BitsLeft bits s)
include h hBits hLeft

/-- A repeat with its extra bits left: they are consumed, and its run is compared with the total (43_block_engine R241). -/
theorem clRun_eq : ∃ x, Consumed bits s (s.setRd x) ∧ clRun y base bits s =
    if clTotal s < s.ctl.n + (base + streamBits s (pos s) bits) then .raised .clRepeatOverflow (s.setRd x)
    else clNext (storeLens y (base + streamBits s (pos s) bits) (s.setRd x)) := by
  obtain ⟨x, hGet, hConsumed⟩ := get_setRd hBits h hLeft
  refine ⟨x, hConsumed, ?_⟩
  rw [clRun, hGet]
  rfl

/-- A repeat that ends short of the total (43_block_engine R237 to R239). -/
theorem clRun_short (hTotal : clTotal s ≤ 320) (hShort : s.ctl.n + (base + streamBits s (pos s) bits) < clTotal s) :
    ∃ t, (clRun y base bits s).finish = .next t ∧ LensStored y (base + streamBits s (pos s) bits) s t ∧ Consumed bits s t := by
  obtain ⟨x, hConsumed, hRun⟩ := clRun_eq (base := base) y h hBits hLeft
  obtain ⟨t, hNext, hStored, hRd⟩ := lens_stored y (base + streamBits s (pos s) bits) (s.setRd x) hShort hTotal
  refine ⟨t, ?_, hStored.of_setRd, hConsumed.congr rfl hRd (hStored.byteAt hRd)⟩
  rw [hRun, if_neg (Nat.not_lt.2 (Nat.le_of_lt hShort)), hNext, Res.finish_ok]

/-- A repeat past the total: its extra bits are consumed and nothing is stored (43_block_engine R241). -/
theorem clRun_past (hPast : clTotal s < s.ctl.n + (base + streamBits s (pos s) bits)) :
    ∃ t, (clRun y base bits s).finish = .next t ∧ Consumed bits s t ∧ DatapathKept { s with rd := t.rd } t ∧
      Stopped .clRepeatOverflow s.fe.fmt 0 (bitpos s.fe.fmt (pos s + bits)) s t := by
  obtain ⟨x, hConsumed, hRun⟩ := clRun_eq (base := base) y h hBits hLeft
  have hRead : ReadTo bits s.blk s (s.setRd x) := ⟨x, rfl, hConsumed⟩
  refine ⟨raiseStop .clRepeatOverflow (s.setRd x), ?_, hConsumed.raiseStop _, hRead.raiseStop_kept _, hRead.raiseStop_stopped rfl⟩
  rw [hRun, if_pos hPast, Res.finish_raised]

end repeats

/-- CL_REPEAT with a length before it is the run of that length (43_block_engine R237). -/
theorem exec_clRepeat (h : 0 < s.ctl.n) : exec .clRepeat s = (clRun (lenAt s (s.ctl.n - 1)) 3 2 s).finish := by
  change execClRepeat s = _
  rw [execClRepeat, if_neg (Nat.ne_of_gt h)]

/-- CL_REPEAT with nothing before it raises where it stands (43_block_engine R237). -/
theorem exec_clRepeat_first (h : s.ctl.n = 0) : exec .clRepeat s = .next (raiseStop .clRepeatNoPrevious s) := by
  change execClRepeat s = _
  rw [execClRepeat, if_pos h, Res.finish_raised]

/-- Settles O44: each row is a run that ends short of the total. -/
theorem codeLengthRepeats : Obligations.CodeLengthRepeats := by
  refine fun s h hTotal => ⟨fun hPrev hLeft hShort => ?previous, fun hLeft hShort => ?zeros3, fun hLeft hShort => ?zeros11⟩
  case previous =>
    rw [exec_clRepeat hPrev]
    exact clRun_short _ h (by decide) hLeft hTotal hShort
  case zeros3 => exact clRun_short 0 h (by decide) hLeft hTotal hShort
  case zeros11 => exact clRun_short 0 h (by decide) hLeft hTotal hShort

/-- Settles O45: CL_REPEAT looks for its previous length first; then each row is a run past the total. -/
theorem codeLengthTraps : Obligations.CodeLengthTraps := by
  refine fun s h => ⟨fun hFirst => ?first, fun hPrev hLeft hPast => ?previous, fun hLeft hPast => ?zeros3,
    fun hLeft hPast => ?zeros11⟩
  case first => exact ⟨_, exec_clRepeat_first hFirst, (Inside.refl s).raise rfl, raiseStop_kept _ s⟩
  case previous =>
    rw [exec_clRepeat hPrev]
    exact clRun_past _ h (by decide) hLeft hPast
  case zeros3 => exact clRun_past 0 h (by decide) hLeft hPast
  case zeros11 => exact clRun_past 0 h (by decide) hLeft hPast

/-! ## The last code lengths (43_block_engine R242, R243) -/

/-- The stores that complete the code lengths, once the reader has moved n bits on: both builds (43_block_engine R242, R243). -/
theorem lens_builds {x : Reader} (y : BitVec 4) (hPos : pos (s.setRd x) = pos s + n) (hHlit : s.blk.hlit.toNat ≤ 288)
    (hHdist : s.blk.hdist.toNat ≤ 32) (hLast : s.ctl.n + k = clTotal s) :
    ∃ t, (clNext (storeLens y k (s.setRd x))).finish = .next t ∧ t.rd = x ∧ BuildsBoth y n s t := by
  obtain ⟨u, hNext, hU, hBlk, hLL, hD⟩ := lens_complete y k (s.setRd x) hLast (Nat.add_le_add hHlit hHdist)
  replace hD := hD hHlit hHdist
  rw [hNext]
  generalize u.blk = B at hU hBlk hLL hD
  subst hU
  have hInside : Inside s (((s.setRd x).setBlk B).setCtl { s.ctl with n := clTotal s }) :=
    ((Inside.setRd s x).trans (Inside.setBlk _ B)).trans (Inside.setCtl _ _)
  have hStopped : ∀ (c : Cause) (tab : Tables) (scr : Scratch), isFrontEnd c = false →
      Stopped c s.fe.fmt 0 (bitpos s.fe.fmt (pos s + n)) s
        (raiseStop c (((((s.setRd x).setBlk B).setCtl { s.ctl with n := clTotal s }).setTab tab).setScr scr)) := by
    intro c tab scr hc
    rw [← hPos]
    exact ((hInside.trans (Inside.setTab _ tab)).trans (Inside.setScr _ scr)).raise hc
  cases hBuildLL : build 10 (lastLL y s) pvLL s.tab.ll with
  | fail c tl =>
    rw [buildBoth_failLL (tl := tl) (c := c) (hLL ▸ hBuildLL)]
    exact ⟨_, rfl, raiseStop_rd _ _, .llRefused c tl hBuildLL (hStopped _ _ _ (build_cause_back hBuildLL)) (raiseStop_tab _ _)
      (raiseStop_sums _ _)⟩
  | ok tl rcl nfl =>
    cases hBuildD : build 8 (lastD y s) pvD s.tab.d with
    | fail c td =>
      rw [buildBoth_failD (hLL ▸ hBuildLL) (hD ▸ hBuildD)]
      exact ⟨_, rfl, raiseStop_rd _ _, .dRefused c tl rcl nfl td hBuildLL hBuildD
        (hStopped _ _ _ (build_cause_back hBuildD)) (raiseStop_tab _ _) (raiseStop_sums _ _)⟩
    | ok td rc nf =>
      rw [buildBoth_ok (hLL ▸ hBuildLL) (hD ▸ hBuildD)]
      exact ⟨_, rfl, rfl, .built tl rcl nfl td rc nf hBuildLL hBuildD rfl hLL hD hBlk ⟨rfl, rfl⟩ rfl rfl⟩

/-- However the builds end, memory and the launch are as they were. -/
theorem BuildsBoth.input {y : BitVec 4} (h : BuildsBoth y n s t) : t.mem = s.mem ∧ t.launch = s.launch := by
  cases h with
  | llRefused _ _ _ hStopped => exact ⟨hStopped.mem, hStopped.launch⟩
  | dRefused _ _ _ _ _ _ _ hStopped => exact ⟨hStopped.mem, hStopped.launch⟩
  | built _ _ _ _ _ _ _ _ _ _ _ _ _ _ hRest =>
    rw [hRest]
    exact ⟨rfl, rfl⟩

/-- A repeat that lands on the total (43_block_engine R241 to R243). -/
theorem clRun_last {base bits : Nat} (y : BitVec 4) (h : ReaderOk s) (hBits : bits ≤ 16) (hLeft : BitsLeft bits s)
    (hHlit : s.blk.hlit.toNat ≤ 288) (hHdist : s.blk.hdist.toNat ≤ 32)
    (hLast : s.ctl.n + (base + streamBits s (pos s) bits) = clTotal s) :
    ∃ t, (clRun y base bits s).finish = .next t ∧ Consumed bits s t ∧ BuildsBoth y bits s t := by
  obtain ⟨x, hConsumed, hRun⟩ := clRun_eq (base := base) y h hBits hLeft
  obtain ⟨t, hNext, hRd, hBuilds⟩ := lens_builds y hConsumed.pos hHlit hHdist hLast
  obtain ⟨hMem, hLaunch⟩ := hBuilds.input
  refine ⟨t, ?_, hConsumed.congr rfl hRd fun i => ?_, hBuilds⟩
  · rw [hRun, if_neg (Nat.not_lt.2 (Nat.le_of_eq hLast)), hNext]
  · rw [byteAt, inByte, hRd, hMem, hLaunch]
    rfl

/-- Settles O46: a literal is a store that completes the code lengths, a repeat a run that does. -/
theorem lastCodeLengthBuilds : Obligations.LastCodeLengthBuilds := by
  refine fun s hHlit hHdist => ⟨fun y hLast => ?literal, fun h => ⟨fun hPrev hLeft hLast => ?previous,
    fun hLeft hLast => ?zeros3, fun hLeft hLast => ?zeros11⟩⟩
  case literal => exact lens_builds (k := 1) (x := s.rd) y rfl hHlit hHdist hLast
  case previous =>
    rw [exec_clRepeat hPrev]
    exact clRun_last _ h (by decide) hLeft hHlit hHdist hLast
  case zeros3 => exact clRun_last 0 h (by decide) hLeft hHlit hHdist hLast
  case zeros11 => exact clRun_last 0 h (by decide) hLeft hHlit hHdist hLast

end Sys2Proof.Machine
end

section
/-! PROOF. The decoded symbols (44_symbol_decode.md): a literal (O47), the end of a block (O48), a length (O49), a match and its
checks (O50, O51), and the symbols and the entry with no meaning (O52). -/

namespace Sys2Proof.Machine

variable {s : State} {b : Byte} {k : Nat} {c : Cause} {p : Instr × Nat × Nat}

/-! ## Literals and the end of a block (44_symbol_decode R252, R253, R255) -/

/-- A literal with room for it is put at out_len, and the next literal/length symbol is looked up. -/
theorem exec_lit_room (h : s.outLen.toNat < outCap s) : exec (.lit b) s = .next (lookNext .ll (putByte b s)) := by
  change execLit b s = _
  rw [execLit, emit, if_neg (Nat.not_lt.2 h), Res.bind_ok, Res.finish_ok]

theorem exec_lit_full (h : outCap s ≤ s.outLen.toNat) : exec (.lit b) s = .next (raiseStop .outputFull s) := by
  change execLit b s = _
  rw [execLit, emit, if_pos (Nat.lt_succ_of_le h), Res.bind_raised, Res.finish_raised]

/-- A cause of the block engine, raised where the row began: the stop, with nothing consumed and the datapath as it was. -/
theorem raise_in_place {i : Instr} (hc : isFrontEnd c = false) (hExec : exec i s = .next (raiseStop c s)) :
    ∃ t, exec i s = .next t ∧ Stopped c s.fe.fmt 0 (bitpos s.fe.fmt (pos s)) s t ∧ DatapathKept s t :=
  ⟨_, hExec, (Inside.refl s).raise hc, raiseStop_kept c s⟩

/-- Settles O47: with room the byte is one write at out_len, which reads back and leaves every other address alone; without it
the capacity check raises before the write. -/
theorem literalIsEmitted : Obligations.LiteralIsEmitted := by
  intro s b
  constructor
  · intro hMem hRoom
    exact ⟨_, exec_lit_room hRoom, putByte_outLen b hRoom, outByte_putByte_same b hMem,
      fun a ha => memRead_memWrite_ne s.mem b ha, rfl⟩
  · intro hFull
    exact raise_in_place rfl (exec_lit_full hFull)

/-- Settles O48: EOB is the end of the block. -/
theorem endOfBlockEndsTheBlock : Obligations.EndOfBlockEndsTheBlock := fun _ => rfl

/-! ## Lengths (44_symbol_decode R256) -/

/-- Settles O49: each row of the length table gets its extra bits, then sets the length and the next lookup. -/
theorem lengthSymbolsGiveTheLength : Obligations.LengthSymbolsGiveTheLength := by
  intro p hp s h hLeft
  obtain ⟨k, hBits, hBase, hExtra, hExec⟩ := lengthSpec_rows p hp
  obtain ⟨x, hGet, hConsumed⟩ := get_setRd (Nat.le_trans hBits (by decide)) h hLeft
  rw [hExec, lengthSymbol, ← hBase, ← hExtra, matchLength, hGet, Res.bind_ok, Res.finish_ok]
  exact ⟨_, rfl, hConsumed.congr rfl rfl fun _ => rfl, untouched_setRd_setCtl s x _, rfl⟩

/-! ## Matches (44_symbol_decode R259, R261, R262, R264) -/

/-- A distance symbol with its extra bits left: they are consumed, then the distance is checked, then the capacity, and only then
is anything copied. -/
theorem exec_distance (hp : p ∈ distSpec) (h : ReaderOk s) (hLeft : BitsLeft p.2.2 s) {d : Nat}
    (hd : d = p.2.1 + streamBits s (pos s) p.2.2) : ∃ x, Consumed p.2.2 s (s.setRd x) ∧ exec p.1 s = .next (
      if s.outLen.toNat < d then raiseStop .distanceTooFar (s.setRd x)
      else if outCap s < s.outLen.toNat + s.ctl.length then raiseStop .outputFull (s.setRd x)
      else lookNext .ll (copy s.ctl.length d (s.setRd x))) := by
  obtain ⟨k, hBits, -, hBase, hExtra, hExec⟩ := distSpec_rows p hp
  obtain ⟨x, hGet, hConsumed⟩ := get_setRd (Nat.le_trans hBits (by decide)) h hLeft
  refine ⟨x, hConsumed, ?_⟩
  rw [hExec, distSymbol, ← hBase, ← hExtra, matchDistance, hGet, Res.bind_ok, ← hd]
  simp only [apply_ite Res.finish, apply_ite Host.Outcome.next]
  rfl

/-- Every distance is at least 1 (30_encoding R100). -/
theorem distSpec_base_pos (hp : p ∈ distSpec) : 0 < p.2.1 := by
  obtain ⟨-, -, hPos, -⟩ := distSpec_rows p hp
  exact hPos

/-- Settles O50: both checks pass, and the copy writes only output bytes, so the stream the reader follows stays. -/
theorem matchIsCopied : Obligations.MatchIsCopied := by
  intro p hp s d hRun hLeft hd hNear hRoom
  obtain ⟨x, hConsumed, hExec⟩ := exec_distance hp hRun.reader hLeft hd
  rw [if_neg (Nat.not_lt.2 hNear), if_neg (Nat.not_lt.2 hRoom)] at hExec
  have hDist : 0 < d := hd ▸ Nat.lt_of_lt_of_le (distSpec_base_pos hp) (Nat.le_add_right _ _)
  obtain ⟨hCopy, hLength⟩ := copy_keeps s.ctl.length d (s := s.setRd x) hRoom
  obtain ⟨m, n, hEq⟩ := copy_eq s.ctl.length d (s.setRd x)
  have hKeeps : EngineKeeps s (lookNext .ll (copy s.ctl.length d (s.setRd x))) :=
    ((keeps_setRd s x).trans hCopy).trans (lookNext_keeps _ _)
  have hRd : (lookNext .ll (copy s.ctl.length d (s.setRd x))).rd = x := by rw [hEq]; rfl
  refine ⟨_, hExec, hKeeps, hConsumed.congr rfl hRd fun i => ?stream, hLength,
    copy_bytes s.ctl.length d (s := s.setRd x) hRun.inv.memForm hRoom hDist hNear, fun j hj => ?before, ?ctl, ?rest⟩
  case stream =>
    rw [byteAt_setRd s x hConsumed.stop]
    exact byteAt_kept hRun.inv hRun.busy hKeeps hRun.inside ((congrArg Reader.endOff hRd).trans hConsumed.stop) i
  case before => exact outByte_kept hKeeps (Nat.le_of_lt (BitVec.isLt _)) hj
  case ctl => rw [hEq]; rfl
  case rest => rw [hEq]; rfl

/-- A cause of the block engine, raised after k more stream bits were consumed and nothing else was done. -/
theorem raise_after_reading {i : Instr} {x : Reader} (hc : isFrontEnd c = false) (h : Consumed k s (s.setRd x))
    (hExec : exec i s = .next (raiseStop c (s.setRd x))) :
    ∃ t, exec i s = .next t ∧ Consumed k s t ∧ DatapathKept { s with rd := t.rd } t ∧
      Stopped c s.fe.fmt 0 (bitpos s.fe.fmt (pos s + k)) s t :=
  have hRead : ReadTo k s.blk s (s.setRd x) := ⟨x, rfl, h⟩
  ⟨_, hExec, h.raiseStop c, hRead.raiseStop_kept c, hRead.raiseStop_stopped hc⟩

/-- Settles O51: the distance's check raises, or it passes and the capacity's does; both stand before the copy. -/
theorem matchTraps : Obligations.MatchTraps := by
  intro p hp s d h hLeft hd
  obtain ⟨x, hConsumed, hExec⟩ := exec_distance hp h hLeft hd
  constructor
  · intro hFar
    rw [if_pos hFar] at hExec
    exact raise_after_reading rfl hConsumed hExec
  · intro hNear hFull
    rw [if_neg (Nat.not_lt.2 hNear), if_pos hFull] at hExec
    exact raise_after_reading rfl hConsumed hExec

/-! ## No meaning (44_symbol_decode R254, R260, 43_block_engine R240, 41_table_builder R178) -/

/-- The four symbols with no meaning raise where they stand (44_symbol_decode R254, R260). -/
theorem exec_undefinedSymbol : ∀ i ∈ [Instr.badsym286, .badsym287, .baddist30, .baddist31],
    exec i s = .next (raiseStop .invalidSymbol s) := by
  intro i hi
  simp only [List.mem_cons, List.not_mem_nil, or_false] at hi
  rcases hi with rfl | rfl | rfl | rfl <;> rfl

/-- Settles O52: each of these rows is a raise from where it began. -/
theorem undefinedSymbolsStop : Obligations.UndefinedSymbolsStop := fun _ _ =>
  ⟨fun i hi => raise_in_place rfl (exec_undefinedSymbol i hi), raise_in_place rfl rfl, raise_in_place rfl rfl⟩

end Sys2Proof.Machine
end

section
/-! PROOF. The checksums and the trailer check (45_checksums.md): VERIFY's stop (O59), and the two sums byte by byte (O60). -/

namespace Sys2Proof.Machine

/-! ## CRC-32 (45_checksums R290, R291, R300) -/

/-- A running CRC may stop after m bytes and go on from there. -/
theorem crcFold_add (f : Nat → Byte) (m k i : Nat) (c : Word) :
    crcFold f (m + k) i c = crcFold f k (i + m) (crcFold f m i c) := by
  induction m generalizing i c with
  | zero => rw [Nat.zero_add]; rfl
  | succ m ih =>
    rw [Nat.add_right_comm m 1 k, ← Nat.add_assoc i m 1, Nat.add_right_comm i m 1]
    exact ih (i + 1) (crcByte c (f i))

/-- The register over m bytes, carried on over the next k, is the register over all of them. -/
theorem crcRegister_add (f : Nat → Byte) (m k : Nat) : crcRegister f (m + k) = crcFold f k m (crcRegister f m) := by
  rw [crcRegister, crcFold_add, Nat.zero_add]
  rfl

theorem crcRegister_succ (f : Nat → Byte) (m : Nat) : crcRegister f (m + 1) = crcByte (crcRegister f m) (f m) :=
  crcRegister_add f m 1

theorem crcTable_eq_repeat (n : Byte) : crcTable n = Nat.repeat crcBit 8 (n.setWidth 32) := rfl

/-! ## Adler-32 (45_checksums R292, R293) -/

/-- s1 with no reduction: 1 plus the sum of the first m bytes. -/
def adlerSum1 (f : Nat → Byte) (m : Nat) : Nat := 1 + ((List.range m).map fun i => (f i).toNat).sum

/-- s2 with no reduction: the sum of the s1 values after each of the first m bytes. -/
def adlerSum2 (f : Nat → Byte) (m : Nat) : Nat := ((List.range m).map fun i => adlerSum1 f (i + 1)).sum

/-- The sum over the first m + 1 indices, its last term taken out (from core's lemmas: the package imports no Mathlib). -/
theorem sum_map_range_succ (g : Nat → Nat) (m : Nat) :
    ((List.range (m + 1)).map g).sum = ((List.range m).map g).sum + g m := by
  rw [List.range_succ, List.map_append, List.sum_append_nat]
  rfl

theorem adlerSum1_succ (f : Nat → Byte) (m : Nat) : adlerSum1 f (m + 1) = adlerSum1 f m + (f m).toNat := by
  rw [adlerSum1, sum_map_range_succ, ← Nat.add_assoc]
  rfl

theorem adlerSum2_succ (f : Nat → Byte) (m : Nat) : adlerSum2 f (m + 1) = adlerSum2 f m + adlerSum1 f (m + 1) :=
  sum_map_range_succ _ m

/-- From any point of the fold on, the reduced pair stays congruent to the unreduced sums. -/
theorem adlerFold_mod (f : Nat → Byte) (k i : Nat) :
    adlerFold f k i (adlerSum1 f i % 65521) (adlerSum2 f i % 65521) =
      (adlerSum1 f (i + k) % 65521, adlerSum2 f (i + k) % 65521) := by
  induction k generalizing i with
  | zero => rfl
  | succ k ih =>
    have hS1 : (adlerSum1 f i % 65521 + (f i).toNat) % 65521 = adlerSum1 f (i + 1) % 65521 := by
      rw [adlerSum1_succ, Nat.mod_add_mod]
    have hS2 : (adlerSum2 f i % 65521 + adlerSum1 f (i + 1) % 65521) % 65521 = adlerSum2 f (i + 1) % 65521 := by
      rw [adlerSum2_succ, ← Nat.add_mod]
    rw [adlerFold, hS1, hS2, ih, Nat.add_right_comm, Nat.add_assoc]

theorem adlerFold_eq_sums (f : Nat → Byte) (m : Nat) :
    adlerFold f m 0 1 0 = (adlerSum1 f m % 65521, adlerSum2 f m % 65521) :=
  (adlerFold_mod f m 0).trans (by rw [Nat.zero_add])

/-- Settles O60: Adler-32 reduces sums it could leave unreduced; the CRC folds its bytes one after the other. -/
theorem checksumsMayBeIncremental : Obligations.ChecksumsMayBeIncremental := by
  refine ⟨fun f m k => ⟨adlerFold_eq_sums f m, ?adlerWord, rfl, crcRegister_succ f m, rfl, crcRegister_add f m k⟩,
    crcTable_eq_repeat⟩
  case adlerWord => rw [adler32, adlerValue, Nat.mul_comm]

/-! ## VERIFY (45_checksums R294 to R297) -/

variable {s : State} {f : StreamFmt}

/-- A stop after the sums alone have changed, as the host sees it. -/
theorem stop_setSums_stopped (hFmt : s.fe.fmt = f) (hValid : f ≠ .invalid) (c : Cause) (k : Word) (x : Sums) :
    Stopped c f k (BitVec.ofNat 32 (pos s)) s (stop (resultOf c) c k (s.setSums x)) := by
  subst hFmt
  have hPos : reportPos (s.setSums x) = BitVec.ofNat 32 (pos s) := if_neg hValid
  refine ⟨?_, rfl, rfl, rfl, rfl, rfl, rfl, rfl, rfl⟩
  rw [← hPos]
  rfl

/-- The comparison with the trailer's value chooses the cause alone: either stop reports the computed value k (R297). -/
theorem comparison_stopped (hFmt : s.fe.fmt = f) (hValid : f ≠ .invalid) (k : Word) (x : Sums) :
    Stopped (if k = s.fe.expCheck then .none else .checksumMismatch) f k (BitVec.ofNat 32 (pos s)) s
      (if k = s.fe.expCheck then stop .ok .none k (s.setSums x)
        else stop .checksum .checksumMismatch k (s.setSums x)) := by
  split
  case isTrue => exact stop_setSums_stopped hFmt hValid .none k x
  case isFalse => exact stop_setSums_stopped hFmt hValid .checksumMismatch k x

/-- VERIFY stops whatever the format, and of the datapath it changes the sums alone. -/
theorem verify_kept (s : State) : DatapathKept { s with sums := (verify s).sums } (verify s) ∧ (verify s).regs.done = true := by
  obtain ⟨r, c, k, x, hStop, -⟩ := verify_stop s
  rw [hStop]
  exact ⟨⟨rfl, rfl, rfl, rfl, rfl, rfl, rfl, rfl⟩, rfl⟩

theorem engineStep_verify (h : s.ctl.seq = .verify) : engineStep s = .next (verify s) := by
  simp only [engineStep, fetch, h]

/-- Settles O59: the format chooses the sum that is compared; raw compares none. -/
theorem verifyStopsTheRun : Obligations.VerifyStopsTheRun := by
  intro s hSeq
  obtain ⟨hKept, hDone⟩ := verify_kept s
  refine ⟨verify s, engineStep_verify hSeq, hKept, ?_⟩
  split
  case h_1 hZlib =>
    simp only [verify, hZlib]
    exact comparison_stopped hZlib nofun _ _
  case h_2 hGzip =>
    simp only [verify, hGzip]
    exact comparison_stopped hGzip nofun _ _
  case h_3 hRaw =>
    simp only [verify, hRaw]
    exact stop_setSums_stopped hRaw nofun .none 0 s.sums
  case h_4 => exact hDone

end Sys2Proof.Machine
end

section
/-! PROOF. The host's register accesses one by one: START idle (O19) and busy (O20), SET_CTRL (O22), CLEAR_DONE (O23), the
configuration writes (O24), the ignored writes (O25), the exact reads (O26) and the reads of result registers (O27). -/

namespace Sys2Proof.Machine

variable {s : State}

/-! ## START (46_host_commands R311, R312) -/

theorem exec_start_busy (h : s.regs.busy = true) (e : Bool) : exec (.start e) s = .next (setIrqEn e s) :=
  if_pos h

/-- While idle the launch premises decide. -/
theorem exec_start_idle (h : s.regs.busy = false) (e : Bool) :
    exec (.start e) s = if launchOk s.regs then .next (launchRun (setIrqEn e s)) else .refused .launchBuffers :=
  if_neg (by simp [setIrqEn, h])

/-- Settles O19: START is a launch, whose every field is written out by launchRun or left alone. -/
theorem startLaunchesWhenIdle : Obligations.StartLaunchesWhenIdle := by
  intro s e hIdle hOk
  refine ⟨launchRun (setIrqEn e s), (exec_start_idle hIdle e).trans (if_pos hOk), ?_⟩
  exact ⟨rfl, rfl, rfl, rfl, rfl, rfl, rfl, rfl, rfl, rfl, rfl, rfl, rfl, rfl, rfl, rfl, rfl⟩

/-- Settles O20: while busy START is its IRQ_EN store alone. -/
theorem startWhileBusyOnlyStoresIrqEn : Obligations.StartWhileBusyOnlyStoresIrqEn := fun _ e hBusy =>
  exec_start_busy hBusy e

/-! ## The other writes (46_host_commands R313 to R317) -/

/-- Settles O22: SET_CTRL is the IRQ_EN store. -/
theorem setCtrlStoresIrqEn : Obligations.SetCtrlStoresIrqEn := fun s e => ⟨setIrqEn e s, rfl, rfl, rfl⟩

/-- Settles O23: with DONE cleared irq is low, whatever IRQ_EN is. -/
theorem clearDoneClearsDone : Obligations.ClearDoneClearsDone := fun s => ⟨_, rfl, rfl, Bool.false_and s.regs.irqEn⟩

/-- Settles O24: each of the four writes is writeConfig of its own register, which is the choice on BUSY. -/
theorem configWritesOnlyWhileIdle : Obligations.ConfigWritesOnlyWhileIdle := fun _ _ => ⟨rfl, rfl, rfl, rfl⟩

theorem exec_ignoredWrites (s : State) (v : Word) : ∀ i ∈ ignoredWrites v, exec i s = .next s := by
  intro i hi
  simp only [ignoredWrites, List.mem_cons, List.not_mem_nil, or_false] at hi
  rcases hi with rfl | rfl | rfl | rfl | rfl | rfl | rfl | rfl | rfl | rfl | rfl <;> rfl

/-- Settles O25: each ignored write leaves the state, and a write's word decodes as the write of its register's number. -/
theorem ignoredWritesChangeNothing : Obligations.IgnoredWritesChangeNothing := by
  refine ⟨exec_ignoredWrites, fun v => ?_⟩
  have hWrite (k : Nat) (hk : k < 16) : decode .hostAccess (writeWord k v.toNat) = .ok (decodeWrite k v) := decode_writeWord hk v
  exact ⟨hWrite 0 (by decide), hWrite 1 (by decide), hWrite 2 (by decide), hWrite 7 (by decide), hWrite 8 (by decide),
    hWrite 9 (by decide), hWrite 10 (by decide), hWrite 11 (by decide), hWrite 12 (by decide), hWrite 13 (by decide),
    hWrite 14 (by decide), hWrite 15 (by decide)⟩

/-! ## Reads (46_host_commands R310, R318) -/

/-- Settles O26: each of these reads is readExact of its register, which sets the returned data alone. -/
theorem exactReadsReturnTheRegister : Obligations.ExactReadsReturnTheRegister := exec_exactReads

theorem readResult_busy (h : s.regs.busy = true) (v : Word) :
    readResult v s = (s.setBusData (Config.busyRead s.free)).setFree (s.free + 1) :=
  if_pos h

/-- Settles O27: each of these reads is readResult of its register; while busy the value is a free one. -/
theorem resultReads_exact_or_free : Obligations.ResultReads := by
  intro s p hp
  rw [exec_resultReads s p hp]
  refine ⟨fun hIdle => ?_, fun hBusy => ⟨Config.busyRead s.free, ?_⟩⟩
  · rw [readResult_idle hIdle]
    rfl
  · rw [readResult_busy hBusy]
    rfl

end Sys2Proof.Machine
end

section
/-! PROOF. What a step can do to the run and the register block, said once (MoveDone): the engine goes on or stops, the host
changes IRQ_EN, DONE and, while idle, the configuration, START launches, a reset resets. From it the invariant (O11), the run's
parameters (O16), its end (O17) and the result registers (O18). -/

namespace Sys2Proof.Machine

variable {s t : State} {i : Instr}

/-! ## The parts of the register block -/

/-- The configuration registers, as START latches them (46_host_commands R311). -/
def HostRegs.config (r : HostRegs) : Launch := { inBase := r.inBase, inLen := r.inLen, outBase := r.outBase, outCap := r.outCap }

/-- Every result register is as before. -/
def SameResults (r r' : HostRegs) : Prop :=
  r'.result = r.result ∧ r'.format = r.format ∧ r'.cause = r.cause ∧ r'.outLen = r.outLen ∧ r'.checkCalc = r.checkCalc ∧
    r'.checkExp = r.checkExp ∧ r'.isize = r.isize ∧ r'.inBitpos = r.inBitpos

theorem SameResults.of_eq {r r' : HostRegs} (h : r' = r) : SameResults r r' := by
  subst h
  exact ⟨rfl, rfl, rfl, rfl, rfl, rfl, rfl, rfl⟩

/-- The launch premises are on the configuration alone. -/
theorem launchOk_congr {r r' : HostRegs} (h : r'.config = r.config) : launchOk r' = launchOk r := by
  simp only [HostRegs.config, Launch.mk.injEq] at h
  obtain ⟨hInBase, hInLen, hOutBase, hOutCap⟩ := h
  simp only [launchOk, hInBase, hInLen, hOutBase, hOutCap]

/-! ## What each kind of move does -/

/-- A move of the host but a launch: of the register block IRQ_EN, DONE and, while idle, the configuration alone change, and DONE
is at most cleared (46_host_commands R312 to R318). -/
structure HostKeeps (s t : State) : Prop where
  move : HostMove s t
  memForm : memWf s.mem = true → memWf t.mem = true
  regs : t.regs = { s.regs with irqEn := t.regs.irqEn, done := t.regs.done, inBase := t.regs.inBase, inLen := t.regs.inLen,
                                outBase := t.regs.outBase, outCap := t.regs.outCap }
  done : s.regs.done = false → t.regs.done = false
  config : s.regs.busy = true → t.regs.config = s.regs.config

/-- START's launch: from idle, with legal buffers (46_host_commands R311, 20_memory R79). -/
structure Launches (s t : State) : Prop where
  idle : s.regs.busy = false
  legal : launchOk s.regs = true
  run : ∃ e, t = launchRun (setIrqEn e s)

/-- A stop of the engine, by a raise or by VERIFY (46_host_commands R321). -/
structure StopsRun (s t : State) : Prop where
  running : s.ctl.seq ≠ .idle
  idle : t.ctl.seq = .idle
  busy : t.regs.busy = false
  done : t.regs.done = true
  memForm : memWf s.mem = true → memWf t.mem = true

/-- What a move of the schedule that leads from s to t has done. -/
inductive MoveDone (s t : State) : Turn → Prop where
  | goesOn (idle : s.ctl.seq = .idle → t.ctl.seq = .idle) (keeps : EngineKeeps s t) : MoveDone s t .engine
  | stops (h : StopsRun s t) : MoveDone s t .engine
  | host {m : Turn} (h : HostKeeps s t) : MoveDone s t m
  | launches {a : Access} (h : Launches s t) : MoveDone s t (.access a)
  | resets (h : t = resetEvent s) : MoveDone s t .reset

/-! ## The host's moves -/

theorem HostKeeps.of_regs (hMove : HostMove s t) (hMem : t.mem = s.mem) (hRegs : t.regs = s.regs) : HostKeeps s t where
  move := hMove
  memForm := by rw [hMem]; exact id
  regs := by rw [hRegs]
  done := by rw [hRegs]; exact id
  config _ := by rw [hRegs]

theorem HostKeeps.refl (s : State) : HostKeeps s s := .of_regs (.refl s) rfl rfl

theorem setIrqEn_hostKeeps (e : Bool) (s : State) : HostKeeps s (setIrqEn e s) := ⟨.setRegs s _, id, rfl, id, fun _ => rfl⟩

theorem clearDone_hostKeeps (s : State) : HostKeeps s (s.setRegs { s.regs with done := false }) :=
  ⟨.setRegs s _, id, rfl, fun _ => rfl, fun _ => rfl⟩

/-- A configuration write changes the configuration alone, and while busy nothing (46_host_commands R315, R316). -/
theorem writeConfig_hostKeeps (x : Launch) (s : State) :
    HostKeeps s (writeConfig { s.regs with inBase := x.inBase, inLen := x.inLen, outBase := x.outBase, outCap := x.outCap } s) := by
  unfold writeConfig
  split
  case isTrue => exact .refl s
  case isFalse hIdle => exact ⟨.setRegs s _, id, rfl, id, fun hBusy => absurd hBusy hIdle⟩

theorem readExact_hostKeeps (v : Word) (s : State) : HostKeeps s (readExact v s) := .of_regs (readExact_hostMove v s) rfl rfl

theorem readResult_hostKeeps (v : Word) (s : State) : HostKeeps s (readResult v s) := by
  refine .of_regs (readResult_hostMove v s) ?_ ?_ <;>
  · unfold readResult
    split <;> rfl

theorem hostReadMem_hostKeeps (a : Addr) (s : State) : HostKeeps s (hostReadMem a s) := by
  refine .of_regs (hostReadMem_hostMove a s) (hostReadMem_mem a s) ?_
  unfold hostReadMem
  split <;> rfl

theorem hostWriteMem_hostKeeps {a : Addr} {b : Byte} (h : hostWriteMem a b s = .next t) : HostKeeps s t := by
  have hMove := hostWriteMem_hostMove h
  unfold hostWriteMem at h
  split at h <;> cases h
  exact ⟨hMove, fun hForm => memWfFrom_memWrite hForm (Nat.zero_le _) a.isLt, rfl, id, fun _ => rfl⟩

/-- START stores IRQ_EN or launches a run. -/
theorem exec_start_done {e : Bool} (h : exec (.start e) s = .next t) : HostKeeps s t ∨ Launches s t := by
  cases hBusy : s.regs.busy with
  | true =>
    rw [exec_start_busy hBusy] at h
    cases h
    exact .inl (setIrqEn_hostKeeps e s)
  | false =>
    rw [exec_start_idle hBusy] at h
    split at h <;> cases h
    exact .inr ⟨hBusy, ‹_›, e, rfl⟩

/-- A register access changes what HostKeeps says or launches a run. -/
theorem exec_access_done (hAccess : isAccess i = true) (h : exec i s = .next t) : HostKeeps s t ∨ Launches s t := by
  cases i with
  | start _ => exact exec_start_done h
  | setCtrl e =>
    cases Host.Outcome.next.inj h
    exact .inl (setIrqEn_hostKeeps e s)
  | clearDone =>
    cases Host.Outcome.next.inj h
    exact .inl (clearDone_hostKeeps s)
  | statusNop | writeIgnoredCause _ | writeIgnoredOutLen _ | writeIgnoredCheckCalc _ | writeIgnoredCheckExp _
  | writeIgnoredIsize _ | writeIgnoredInBitpos _ | writeIgnoredRsvd30 _ | writeIgnoredRsvd34 _ | writeIgnoredRsvd38 _
  | writeIgnoredRsvd3C _ =>
    cases Host.Outcome.next.inj h
    exact .inl (.refl s)
  | writeInBase v =>
    cases Host.Outcome.next.inj h
    exact .inl (writeConfig_hostKeeps { s.regs.config with inBase := v } s)
  | writeInLen v =>
    cases Host.Outcome.next.inj h
    exact .inl (writeConfig_hostKeeps { s.regs.config with inLen := v } s)
  | writeOutBase v =>
    cases Host.Outcome.next.inj h
    exact .inl (writeConfig_hostKeeps { s.regs.config with outBase := v } s)
  | writeOutCap v =>
    cases Host.Outcome.next.inj h
    exact .inl (writeConfig_hostKeeps { s.regs.config with outCap := v } s)
  | readCtrl | readStatus | readInBase | readInLen | readOutBase | readOutCap | readReserved _ =>
    cases Host.Outcome.next.inj h
    exact .inl (readExact_hostKeeps _ s)
  | readCause | readOutLen | readCheckCalc | readCheckExp | readIsize | readInBitpos =>
    cases Host.Outcome.next.inj h
    exact .inl (readResult_hostKeeps _ s)
  | _ => cases hAccess

theorem accessStep_done {a : Access} (h : accessStep a s = .next t) : MoveDone s t (.access a) := by
  cases hDecode : decode .hostAccess a.toNat with
  | ok i =>
    rw [accessStep, hDecode] at h
    exact (exec_access_done (decide_eq_true (decode_fmt hDecode)) h).elim .host .launches
  | error e =>
    rw [accessStep, hDecode] at h
    cases h

/-! ## The engine's moves, and every move -/

theorem engineStep_done (h : engineStep s = .next t) : MoveDone s t .engine := by
  rcases engineStep_cases h with rfl | ⟨hRuns, hKeeps | ⟨c, u, hKeeps, rfl⟩⟩ | ⟨hVerify, rfl⟩
  · exact .goesOn id (.refl t)
  · exact .goesOn (absurd · hRuns) hKeeps
  · have hStop := raiseStop_spec c u
    refine .stops ⟨hRuns, hStop.seq, ?_, ?_, ?_⟩
    · rw [hStop.regs]; rfl
    · rw [hStop.regs]; rfl
    · rw [hStop.mem]; exact hKeeps.memForm
  · obtain ⟨r, c, k, x, hStop, -⟩ := verify_stop s
    rw [hStop]
    exact .stops ⟨by rw [hVerify]; exact nofun, rfl, rfl, rfl, id⟩

theorem turnStep_done (m : Turn) (h : turnStep m s = .next t) : MoveDone s t m := by
  cases m with
  | engine => exact engineStep_done h
  | access a => exact accessStep_done h
  | hostRead a => cases h; exact .host (hostReadMem_hostKeeps a s)
  | hostWrite a b => exact .host (hostWriteMem_hostKeeps h)
  | reset => cases h; exact .resets rfl

/-- A step is the move that is next in the schedule, or the engine's where the schedule is empty. -/
theorem step_done (h : step s = .next t) :
    ∃ m r, (s.turns = m :: r ∨ s.turns = [] ∧ m = .engine) ∧ MoveDone (s.setTurns r) t m := by
  cases hTurns : s.turns with
  | nil =>
    have hSame : s.setTurns [] = s := by rw [← hTurns]; rfl
    rw [step, hTurns] at h
    exact ⟨.engine, [], .inr ⟨rfl, rfl⟩, hSame.symm ▸ engineStep_done h⟩
  | cons m r =>
    rw [step, hTurns] at h
    exact ⟨m, r, .inl rfl, turnStep_done m h⟩

/-! ## The invariant (O11) -/

section
variable (hInv : Inv s)
include hInv

/-- The engine in a run: the register block and the launch stay, the output grows within OUT_CAP. -/
theorem EngineKeeps.inv (hIdle : s.ctl.seq = .idle → t.ctl.seq = .idle) (h : EngineKeeps s t) : Inv t where
  memForm := h.memForm hInv.memForm
  busy := by rw [h.regs, hInv.busy]; exact ⟨h.running, mt hIdle⟩
  done := by rw [h.regs]; exact hInv.done
  cleared := by rw [h.regs]; exact hInv.cleared
  latched := by rw [h.regs, h.launch]; exact hInv.latched
  buffers := by rw [h.regs]; exact hInv.buffers
  fits := by rw [h.regs, outCap, h.launch]; exact fun hBusy => h.fits (hInv.fits hBusy)
  front hWrap := by
    obtain ⟨hWas, hFe⟩ := h.front hWrap
    exact hFe.trans (hInv.front hWas)

theorem StopsRun.inv (h : StopsRun s t) : Inv t := .of_idle (h.memForm hInv.memForm) h.busy h.idle

/-- A move of the host: in a run the configuration and the results stay, and DONE stays 0. -/
theorem HostKeeps.inv (h : HostKeeps s t) : Inv t := by
  have hBusy : t.regs.busy = s.regs.busy := by rw [h.regs]
  have hCtl : t.ctl = s.ctl := by rw [h.move]; rfl
  have hLaunch : t.launch = s.launch := by rw [h.move]; rfl
  have hLen : t.outLen = s.outLen := by rw [h.move]; rfl
  have hFe : t.fe = s.fe := by rw [h.move]; rfl
  refine {
    memForm := h.memForm hInv.memForm
    busy := by rw [hBusy, hCtl]; exact hInv.busy
    done := fun hRuns => h.done (hInv.done (hBusy ▸ hRuns))
    cleared := fun hRuns => by rw [h.regs]; exact hInv.cleared (hBusy ▸ hRuns)
    latched := fun hRuns => ?latched
    buffers := fun hRuns => ?buffers
    fits := by rw [hBusy, hLen, outCap, hLaunch]; exact hInv.fits
    front := by rw [hCtl, hFe]; exact hInv.front }
  case latched => exact hLaunch.trans ((hInv.latched (hBusy ▸ hRuns)).trans (h.config (hBusy ▸ hRuns)).symm)
  case buffers => exact (launchOk_congr (h.config (hBusy ▸ hRuns))).trans (hInv.buffers (hBusy ▸ hRuns))

/-- A launch sets up what the invariant asks of a run. -/
theorem Launches.inv (h : Launches s t) : Inv t := by
  obtain ⟨-, hLegal, e, rfl⟩ := h
  exact {
    memForm := hInv.memForm
    busy := iff_of_true rfl nofun
    done := fun _ => rfl
    cleared := fun _ => ⟨rfl, rfl, rfl, rfl, rfl, rfl, rfl, rfl⟩
    latched := fun _ => rfl
    buffers := fun _ => hLegal
    fits := fun _ => Nat.zero_le _
    front := fun _ => rfl }

/-- The output bytes a reset leaves open are written like any others. -/
theorem resetEvent_inv : Inv (resetEvent s) := by
  obtain ⟨m, n, hFree, hForm, -⟩ := freeOutput_spec (inFlight s) s.outLen.toNat s
  have hMem : (resetEvent s).mem = m := by simp [resetEvent, hFree]
  exact .of_idle (by rw [hMem]; exact hForm hInv.memForm) rfl rfl

end

/-- Settles O11: a step is one move, and each kind of move keeps the invariant. -/
theorem invariantKept : Obligations.InvariantKept := by
  intro s t hInv hStep
  obtain ⟨m, r, -, hDone⟩ := step_done hStep
  have hInv' := hInv.setTurns r
  cases hDone with
  | goesOn hIdle hKeeps => exact hKeeps.inv hInv' hIdle
  | stops h => exact h.inv hInv'
  | host h => exact h.inv hInv'
  | launches h => exact h.inv hInv'
  | resets h => rw [h]; exact resetEvent_inv hInv'

/-! ## The run (O16, O17) and its results (O18) -/

/-- Settles O16: of the moves that leave a run going, the engine's and the host's keep the parameters, and START needs an idle
engine. -/
theorem configFixedDuringRun : Obligations.ConfigFixedDuringRun := by
  intro s t hBusy hStep hStill
  have hFixed : t.regs.config = s.regs.config ∧ t.launch = s.launch := by
    obtain ⟨m, r, -, hDone⟩ := step_done hStep
    cases hDone with
    | goesOn hIdle hKeeps => exact ⟨congrArg HostRegs.config hKeeps.regs, hKeeps.launch⟩
    | stops h => cases hStill.symm.trans h.busy
    | host h => exact ⟨h.config hBusy, by rw [h.move]; rfl⟩
    | launches h => cases hBusy.symm.trans h.idle
    | resets h => subst h; cases hStill
  obtain ⟨hConfig, hLaunch⟩ := hFixed
  simp only [HostRegs.config, Launch.mk.injEq] at hConfig
  obtain ⟨hInBase, hInLen, hOutBase, hOutCap⟩ := hConfig
  exact ⟨hInBase, hInLen, hOutBase, hOutCap, hLaunch⟩

/-- Settles O17: of the moves that end a run, the engine's is its stop and the other is a reset. -/
theorem runEndsOnlyAtStopOrReset : Obligations.RunEndsOnlyAtStopOrReset := by
  intro s t hBusy hStep hEnds
  obtain ⟨m, r, hNext, hDone⟩ := step_done hStep
  cases hDone with
  | goesOn hIdle hKeeps =>
    rw [hKeeps.regs] at hEnds
    cases hBusy.symm.trans hEnds
  | stops h => exact .inl ⟨h.done, h.idle, hNext.symm.imp And.left fun hTurns => ⟨r, hTurns⟩⟩
  | host h =>
    rw [h.regs] at hEnds
    cases hBusy.symm.trans hEnds
  | launches h => cases hBusy.symm.trans h.idle
  | resets h => exact .inr ⟨r, hNext.resolve_right nofun⟩

/-- Settles O18: the engine before its stop and the host but for START's launch leave every result register. -/
theorem resultsChangeOnlyAtStop : Obligations.ResultsChangeOnlyAtStop := by
  intro s t hInv hStep
  obtain ⟨m, r, hNext, hDone⟩ := step_done hStep
  cases hDone with
  | goesOn hIdle hKeeps => exact .inl (SameResults.of_eq hKeeps.regs)
  | stops h => exact .inr (.inl ⟨hInv.busy.2 h.running, h.busy, h.done⟩)
  | host h =>
    rw [h.regs]
    exact .inl ⟨rfl, rfl, rfl, rfl, rfl, rfl, rfl, rfl⟩
  | launches h =>
    obtain ⟨hIdle, -, e, rfl⟩ := h
    exact .inr (.inr (.inl ⟨hIdle, rfl, rfl⟩))
  | resets h => exact .inr (.inr (.inr ⟨r, hNext.resolve_right nofun⟩))

end Sys2Proof.Machine
end

section
/-! PROOF. A step runs the row that is decoded (O6): what the sequencer's state has decoded next, and the step on it. -/

namespace Sys2Proof.Machine

variable {s t : State} {i : Instr} {f : Fmt} {w : Nat}

theorem step_empty (h : s.turns = []) : step s = engineStep s := by
  rw [step, h]

theorem step_engine {r : List Turn} (h : s.turns = .engine :: r) : step s = engineStep (s.setTurns r) := by
  rw [step, h]
  rfl

/-- The engine runs the row of the word that is next. -/
theorem step_fetched (hTurns : s.turns = []) (hNext : fetch s = fetched (decode f w) t) (hDecode : decode f w = .ok i) :
    step s = exec i t := by
  rw [step_empty hTurns, engineStep, hNext, hDecode]
  rfl

/-! ## What is next, by the sequencer's state (46_host_commands R320) -/

theorem fetch_block (h : s.ctl.seq = .block) : fetch s = fetched (decode .blockHeader (low 3 (fill 3 s))) (fill 3 s) := by
  simp only [fetch, h]

section
variable (hSeq : s.ctl.seq = .wrap)
include hSeq

theorem fetch_sniff (h : s.ctl.wphase = .sniff) : fetch s = fetched (decode .wrapper (wrapperOf s)) s := by
  simp only [fetch, hSeq, h]

theorem fetch_zlibHeader (h : s.ctl.wphase = .zlibHeader) : fetch s = fetched (decode .zlibSniff (headerWordOf s)) s := by
  simp only [fetch, hSeq, h]

theorem fetch_zlibVerdict (h : s.ctl.wphase = .zlibVerdict) : fetch s = fetched (decode .zlibVerdict (headerWordOf s)) s := by
  simp only [fetch, hSeq, h]

theorem fetch_gzipFlags (h : s.ctl.wphase = .gzipFlags) : fetch s = fetched (decode .gzipFlg s.ctl.gzLeft.toNat) s := by
  simp only [fetch, hSeq, h]

end

/-! ## DECODE's elements (41_table_builder R178); PEEK's pulls change the reader alone -/

theorem fetch_lookup (h : s.ctl.seq = .clread ∨ s.ctl.seq = .syms) : fetch s = fetchLookup s := by
  rcases h with h | h <;> simp only [fetch, h]

theorem fill_tab (n : Nat) (s : State) : (fill n s).tab = s.tab := by
  obtain ⟨r, hFill, -, -⟩ := fill_eq n s
  rw [hFill, State.setRd_tab]

theorem fetchLookup_first (h : s.ctl.look = .first) :
    fetchLookup s = fetched (decode .tableEntry
      (tableEntry s.ctl.alpha s.tab (low (kOf s.ctl.alpha) (fill (kOf s.ctl.alpha) s))).toNat) (fill (kOf s.ctl.alpha) s) := by
  simp only [fetchLookup, h, fill_ctl, fill_tab]

theorem fetchLookup_second {base : BitVec 24} {n : BitVec 6} (h : s.ctl.look = .second base n) :
    fetchLookup s = fetched (decode .tableEntry
      (tableEntry s.ctl.alpha s.tab (base.toNat + low n.toNat (fill n.toNat s))).toNat) (fill n.toNat s) := by
  simp only [fetchLookup, h, fill_ctl, fill_tab]

theorem fetchLookup_symbol {sym : BitVec 9} (h : s.ctl.look = .symbol sym) :
    fetchLookup s = fetched (decode (symbolFmt s.ctl.alpha) sym.toNat) s := by
  simp only [fetchLookup, h]

/-- Settles O6: at each point of the sequencer the engine fetches the element named, and runs its row. -/
theorem stepRunsDecodedRow : Obligations.StepRunsDecodedRow := by
  intro s i
  refine ⟨fun hTurns hSeq => step_fetched hTurns (fetch_block hSeq),
    fun hTurns hSeq hPhase => step_fetched hTurns (fetch_sniff hSeq hPhase),
    fun hTurns hSeq hPhase => step_fetched hTurns (fetch_zlibHeader hSeq hPhase),
    fun hTurns hSeq hPhase => step_fetched hTurns (fetch_zlibVerdict hSeq hPhase),
    fun hTurns hSeq hPhase => step_fetched hTurns (fetch_gzipFlags hSeq hPhase),
    fun hTurns hSeq hLook => step_fetched hTurns ((fetch_lookup hSeq).trans (fetchLookup_first hLook)),
    fun _ _ hTurns hSeq hLook => step_fetched hTurns ((fetch_lookup hSeq).trans (fetchLookup_second hLook)),
    fun _ hTurns hSeq hLook => step_fetched hTurns ((fetch_lookup hSeq).trans (fetchLookup_symbol hLook)),
    fun a r hTurns hDecode => ?access, fun _ => step_engine, step_empty,
    fun hTurns hSeq => (step_empty hTurns).trans (engineStep_verify hSeq),
    fun hTurns hSeq => (step_empty hTurns).trans (engineStep_idle hSeq)⟩
  case access => rw [step_access hTurns, accessStep, hDecode]

end Sys2Proof.Machine
end

section
/-! PROOF. The reset event (O10), and the host's memory accesses, whose duties in a run are the two buffers (O30). -/

namespace Sys2Proof.Machine

variable {s : State} {a : Addr}

/-- The step makes the next move of the schedule. -/
theorem step_turn {m : Turn} {r : List Turn} (h : s.turns = m :: r) : step s = turnStep m (s.setTurns r) := by
  rw [step, h]

/-! ## The reset event (70_reset_and_hazards R380, R381, 93_implementation_defined U1) -/

/-- With no run in progress no output byte is in flight, so a reset leaves memory as it is. -/
theorem resetEvent_mem_idle (hIdle : s.regs.busy = false) : (resetEvent s).mem = s.mem := by
  have hNone : inFlight s = 0 := if_neg (by rw [hIdle]; decide)
  rw [resetEvent, hNone]
  rfl

/-- Settles O10: all but memory is as the reset event writes it out, and memory changes only in the bytes in flight. -/
theorem resetAbandonsTheRun : Obligations.ResetAbandonsTheRun := by
  intro s r hInv hTurns
  have hInv' : Inv (s.setTurns r) := hInv.setTurns r
  exact ⟨resetEvent (s.setTurns r), step_turn hTurns, rfl, rfl, rfl, rfl, rfl, rfl, (resetEvent_inv hInv').memForm,
    resetEvent_mem_idle (s := s.setTurns r), fun _ hOut => resetEvent_mem hInv' hOut⟩

/-! ## The host's memory accesses (70_reset_and_hazards R390, 20_memory R75, R76) -/

/-- In a run the output buffer does not wrap (20_memory R69). -/
theorem Inv.output_fits (hInv : Inv s) (hBusy : s.regs.busy = true) :
    s.launch.outBase.toNat + s.launch.outCap.toNat ≤ Config.addrSpace := by
  obtain ⟨-, hOut, -⟩ := launchOk_legal (hInv.buffers hBusy)
  rw [hInv.latched hBusy]
  exact hOut

/-- A host read gives some value exactly at the output bytes of a run (R390 item 3, R76, U5). -/
theorem readIsOpen_iff (hInv : Inv s) :
    (s.regs.busy && inBuffer s.launch.outBase s.launch.outCap a) = true ↔
      s.regs.busy = true ∧ ∃ j, j < outCap s ∧ a.toNat = busAddr s.launch.outBase j := by
  rw [Bool.and_eq_true]
  exact and_congr_right fun hBusy => inBuffer_iff (hInv.output_fits hBusy)

/-- A host write breaks the host's duty exactly at the bytes of a run's buffers (R390 items 1 and 2, R76). -/
theorem writeBreaksDuty_iff (hInv : Inv s) :
    (s.regs.busy && (inBuffer s.launch.inBase s.launch.inLen a || inBuffer s.launch.outBase s.launch.outCap a)) = true ↔
      s.regs.busy = true ∧ ((∃ i, i < inLen s ∧ a.toNat = busAddr s.launch.inBase i) ∨
        ∃ j, j < outCap s ∧ a.toNat = busAddr s.launch.outBase j) := by
  rw [Bool.and_eq_true, Bool.or_eq_true]
  exact and_congr_right fun hBusy => or_congr (inBuffer_iff (hInv.input_fits hBusy)) (inBuffer_iff (hInv.output_fits hBusy))

/-- Settles O30: what the model tests before an access is whether the byte is in a buffer of the run, and a write that is a move
writes one byte. -/
theorem hostMemoryMoves : Obligations.HostMemoryMoves := by
  intro s a b r hInv
  have hInv' : Inv (s.setTurns r) := hInv.setTurns r
  refine ⟨fun hTurns => ?write, fun hTurns => ?read⟩
  case write =>
    split
    case isTrue hBroken => exact (step_turn hTurns).trans (if_pos ((writeBreaksDuty_iff hInv').2 hBroken))
    case isFalse hKept =>
      obtain ⟨-, hSame, hOther⟩ := memWrite_spec b hInv.memForm a.isLt
      exact ⟨_, (step_turn hTurns).trans (if_neg (mt (writeBreaksDuty_iff hInv').1 hKept)), rfl, hSame, hOther⟩
  case read =>
    have hStep : step s = .next (hostReadMem a (s.setTurns r)) := step_turn hTurns
    split
    case isTrue hOpen =>
      exact ⟨Config.busyByte s.free, hStep.trans (congrArg _ (if_pos ((readIsOpen_iff hInv').2 hOpen)))⟩
    case isFalse hExact => exact hStep.trans (congrArg _ (if_neg (mt (readIsOpen_iff hInv').1 hExact)))

end Sys2Proof.Machine
end
